-- ==== Sys2Proof/Word.lean ====
section
/-! DEFINITION. The unit of storage of WSFHC: the byte (spec/00_scope.md R8). Every multi-byte field is put together
from bytes in Decode.lean. -/
namespace Sys2Proof

/-- R8: "A byte is an unsigned 8-bit value 0..255". R7 numbers its bits 7 (most significant) to 0. -/
abbrev Byte := BitVec 8

end Sys2Proof
end

