-- ==== Sys2Proof/Syntax.lean ====
section
/-! DEFINITION. The abstract syntax: operand forms (spec/30_encoding.md R86), the frame header's fields (R70, R71),
the command record (R84) and `Instr`, one constructor per row of spec/opcode_table.json: the 6 frame opcodes, the 10
reserved frame opcodes, the 16 commands and the reserved command codes. -/
namespace Sys2Proof

/-- R53, R75: a mask key is a sequence of 4 bytes, `k0` the first on the wire; no integer byte order is applied. -/
structure Key where
  k0 : Byte
  k1 : Byte
  k2 : Byte
  k3 : Byte
deriving DecidableEq, Repr, Inhabited

/-- The storage regions of 20_memory.md R39. -/
inductive Region where
  | scratch | send | inPing | inPong | inClose | outPong | outPing | outClose | dst | hbuf
deriving DecidableEq, Repr, Inhabited

/-- R45: "An address is a pair `A:o` of a region name and an offset o ≥ 0". -/
structure Addr where
  region : Region
  off    : Nat
deriving DecidableEq, Repr

/-- R86: a lock timeout is `0` (try), `INF` (wait) or a finite positive duration. -/
inductive Timeout where
  | zero
  | inf
  | finite (d : Nat)
deriving DecidableEq, Repr

/-- R86: an option set o ⊆ {`NOLOCK`, `NOERRORS`, `IGNORECLOSE`}. -/
structure Opts where
  nolock      : Bool
  noerrors    : Bool
  ignoreclose : Bool
deriving DecidableEq, Repr

/-- R86: a header operand `{FIN, RSV, OPCODE, MASKED, LEN, KEY}`; `KEY` is present exactly when `MASKED` = 1, so
`MASKED` is `key.isSome`. -/
structure HeaderOp where
  fin    : Bool
  rsv    : BitVec 3
  opcode : BitVec 4
  len    : Nat
  key    : Option Key
deriving DecidableEq, Repr

/-- R70, R73: the length part of a frame header, with the form it was written in. `short` is length7 ≤ 125,
`ext16` is length7 = 126 with the two bytes after it, `ext64` is length7 = 127 with the eight bytes after it. -/
inductive LenField where
  | short (v : BitVec 7)
  | ext16 (v : BitVec 16)
  | ext64 (v : BitVec 64)
deriving DecidableEq, Repr

/-- R69, R70: the fields of a frame header besides its opcode; `MASK` (B[1] bit 7) is `key.isSome`. -/
structure FrameHdr where
  fin : Bool
  rsv : BitVec 3
  len : LenField
  key : Option Key
deriving DecidableEq, Repr

/-- R84: "A command is a record: an 8-bit code `CMD` and the operands its row below names, each passed by value".
The operand values stand in the row's order as natural numbers (notes/assumptions/3.md). -/
structure CmdRecord where
  code : BitVec 8
  args : List Nat
deriving DecidableEq, Repr

/-- What the block decodes (30_encoding.md): a frame header's bytes, or a command record. -/
inductive Words where
  | header  (bytes : List Byte)
  | command (record : CmdRecord)
deriving DecidableEq, Repr

/-- One constructor per row of spec/opcode_table.json. -/
inductive Instr where
  -- frame opcodes (R77)
  | cont   (h : FrameHdr)
  | text   (h : FrameHdr)
  | binary (h : FrameHdr)
  | close  (h : FrameHdr)
  | ping   (h : FrameHdr)
  | pong   (h : FrameHdr)
  -- reserved frame opcodes (R79)
  | reservedOp3 (h : FrameHdr)
  | reservedOp4 (h : FrameHdr)
  | reservedOp5 (h : FrameHdr)
  | reservedOp6 (h : FrameHdr)
  | reservedOp7 (h : FrameHdr)
  | reservedOpB (h : FrameHdr)
  | reservedOpC (h : FrameHdr)
  | reservedOpD (h : FrameHdr)
  | reservedOpE (h : FrameHdr)
  | reservedOpF (h : FrameHdr)
  -- commands (R85)
  | hdrlen    (b0 b1 : Byte)
  | parse     (a : Addr) (n : Nat)
  | opclass   (op : BitVec 4)
  | emit      (h : HeaderOp) (a : Addr)
  | mask      (a : Addr) (n : Nat) (k : Key) (pos : Nat)
  | rxmask    (a : Addr) (n : Nat)
  | retire
  | await
  | recv      (a : Addr) (len : Nat)
  | prepare   (a : Addr) (len : Nat) (fin sent : Bool) (op : BitVec 4) (ext : BitVec 3)
  | sendframe (a : Addr) (n : Nat) (t : Timeout) (opts : Opts)
  | closeenc  (c : BitVec 16) (a : Addr)
  | closedec  (a : Addr) (k : Nat)
  | rdreg     (r : BitVec 4)
  | acquire   (t : Timeout)
  | release
  -- reserved command codes 0x00 and 0x11..0xFF (R87), with whatever operands came with them
  | reservedCmd (code : BitVec 8) (args : List Nat)
deriving DecidableEq, Repr

end Sys2Proof
end

