-- ==== Sys2Proof/Config.lean ====
section
/-! DEFINITION. What an implementation fixes (the parameters of spec/00_scope.md R6) and the free values (spec/
93_implementation_defined.md I2 and I4): opaque constants without a body. -/
namespace Sys2Proof.Config

/-- R6: size of the receive header scratch buffer. -/
def hdrScratch : Nat := 16
/-- R6: bytes reserved in front of every outbound payload for the header (WSL's 16-byte prefix). -/
def prefixSize : Nat := 16
/-- R6: the largest control-frame payload, `CTRL_MAX`. -/
def ctrlMax : Nat := 125

/-- The OPEN parameters of R6 that are fixed at construction. -/
structure Params where
  maskOut    : Bool
  rsvAllowed : BitVec 3
  nSend      : Nat
  nCtrlIn    : Nat
  nCtrlOut   : Nat
deriving DecidableEq, Repr

/-- R6 and R44: `N_SEND` ≥ 1, `N_CTRL_IN` ≥ 125 and `N_CTRL_OUT` ≥ 125. -/
def Params.valid (p : Params) : Bool := decide (1 ≤ p.nSend ∧ 125 ≤ p.nCtrlIn ∧ 125 ≤ p.nCtrlOut)

/-- DESIGN CHOICE, unsafe (notes/assumptions/5.md): the parameters `State.reset` is built with. R6 leaves all but
`RSV_ALLOWED` (default 0b000) open; `State.resetWith` takes any. -/
def defaultParams : Params :=
  { maskOut := false, rsvAllowed := 0#3, nSend := 4096, nCtrlIn := 125, nCtrlOut := 125 }

/-- Free value (I4, R142): what a region byte that nothing has written since reset holds: "any value". Safe
(notes/assumptions/6.md). -/
opaque initByte : Region → Nat → Byte

/-- Free value (I2, R118): the raw n-th draw of the key source once the draws listed in the state are used up. Safe
(notes/assumptions/7.md). -/
opaque freeKey : Nat → Key

end Sys2Proof.Config
end

