-- ==== Sys2Proof/WellFormed.lean ====
section
/-! DEFINITION. Which terms of `Instr` are instructions of the spec: the operand ranges of spec/30_encoding.md R86 that
the types do not already give, and the frame header's length forms (R70, R71). -/
namespace Sys2Proof

/-- R86: "a length n or `LEN`: a natural number below 2^63". -/
def lengthOk (n : Nat) : Bool := decide (n < 0x8000000000000000)

/-- R70: length7 0..125 is the payload length itself; 126 and 127 announce an extended length. -/
def LenField.wellFormed : LenField → Bool
  | .short v => decide (v.toNat ≤ 125)
  | .ext16 _ => true
  | .ext64 _ => true

def FrameHdr.wellFormed (h : FrameHdr) : Bool := h.len.wellFormed

/-- R86: "a finite positive duration". -/
def Timeout.wellFormed : Timeout → Bool
  | .zero     => true
  | .inf      => true
  | .finite d => decide (0 < d)

/-- R95 checks `LEN` ≥ 2^63 itself, so a header operand carries any 64-bit `LEN` (notes/assumptions/4.md). -/
def HeaderOp.wellFormed (h : HeaderOp) : Bool := decide (h.len < 0x10000000000000000)

/-- R87: "Codes 0x00 and 0x11..0xFF are reserved". -/
def reservedCode (code : BitVec 8) : Bool := decide (code.toNat = 0 ∨ 0x11 ≤ code.toNat)

/-- The well-formed instructions: exactly those that some words decode to. -/
def Instr.wellFormed : Instr → Bool
  | .cont h | .text h | .binary h | .close h | .ping h | .pong h => h.wellFormed
  | .reservedOp3 h | .reservedOp4 h | .reservedOp5 h | .reservedOp6 h | .reservedOp7 h => h.wellFormed
  | .reservedOpB h | .reservedOpC h | .reservedOpD h | .reservedOpE h | .reservedOpF h => h.wellFormed
  | .hdrlen _ _ => true
  | .parse _ n => lengthOk n
  | .opclass _ => true
  | .emit h _ => h.wellFormed
  | .mask _ n _ pos => lengthOk n && decide (pos < 0x10000000000000000)
  | .rxmask _ n => lengthOk n
  | .retire => true
  | .await => true
  | .recv _ len => lengthOk len
  | .prepare _ len _ _ _ _ => lengthOk len
  | .sendframe _ n t _ => lengthOk n && t.wellFormed
  | .closeenc _ _ => true
  | .closedec _ k => lengthOk k
  | .rdreg _ => true
  | .acquire t => t.wellFormed
  | .release => true
  | .reservedCmd code _ => reservedCode code

end Sys2Proof
end

