-- ==== Sys2Proof/Decode.lean ====
section
/-! DEFINITION. From words to instructions and back: the frame header (spec/30_encoding.md R69 to R76) and the command
record (R84 to R87). Decoding is total and rejects by name; `encode` is written from the same tables. Also the byte-order
helpers of spec/20_memory.md section 2. -/
namespace Sys2Proof

/-! ### Byte order (20_memory.md R51 to R53) -/

/-- R10 `be16`, `be64`: the number a byte string spells, first byte most significant. -/
def beNat : List Byte → Nat
  | []      => 0
  | b :: bs => b.toNat * 256 ^ bs.length + beNat bs

/-- The k bytes of n, most significant first (R51, R95: `[LEN[63:56], …, LEN[7:0]]`). -/
def beBytes : Nat → Nat → List Byte
  | 0, _     => []
  | k + 1, n => BitVec.ofNat 8 (n / 256 ^ k) :: beBytes k n

/-- R75: the key bytes in wire order. -/
def Key.bytes (k : Key) : List Byte := [k.k0, k.k1, k.k2, k.k3]

/-- R23, R53: the 32-bit number that stands for a key, K[0] in bits 31:24. -/
def Key.word (k : Key) : BitVec 32 := k.k0 ++ k.k1 ++ k.k2 ++ k.k3

/-- The key a 32-bit number stands for (R53). -/
def Key.ofNat (n : Nat) : Key :=
  { k0 := BitVec.ofNat 8 (n / 0x1000000), k1 := BitVec.ofNat 8 (n / 0x10000),
    k2 := BitVec.ofNat 8 (n / 0x100), k3 := BitVec.ofNat 8 n }

def Key.toNat (k : Key) : Nat :=
  k.k0.toNat * 0x1000000 + k.k1.toNat * 0x10000 + k.k2.toNat * 0x100 + k.k3.toNat

/-! ### Frame headers -/

/-- R73: the payload length a length field spells. -/
def LenField.value : LenField → Nat
  | .short v => v.toNat
  | .ext16 v => v.toNat
  | .ext64 v => v.toNat

/-- R70: the number in length7. -/
def LenField.len7 : LenField → BitVec 7
  | .short v => v
  | .ext16 _ => 126
  | .ext64 _ => 127

/-- R71: the extended length bytes. -/
def LenField.extBytes : LenField → List Byte
  | .short _ => []
  | .ext16 v => beBytes 2 v.toNat
  | .ext64 v => beBytes 8 v.toNat

/-- R76, R90: the header length, from header byte 1 alone. -/
def headerLength (b1 : Byte) : Nat :=
  2 + (if b1.extractLsb' 0 7 = 126#7 then 2 else if b1.extractLsb' 0 7 = 127#7 then 8 else 0)
    + (if b1.getLsbD 7 then 4 else 0)

/-- R70: header byte 0, `(FIN << 7) | (RSV << 4) | OPCODE`. -/
def headerByte0 (fin : Bool) (rsv : BitVec 3) (op : BitVec 4) : Byte := BitVec.ofBool fin ++ rsv ++ op

/-- R70: header byte 1, `(MASK << 7) | length7`. -/
def headerByte1 (masked : Bool) (l7 : BitVec 7) : Byte := BitVec.ofBool masked ++ l7

/-- R71: the bytes of a key field, none when MASK = 0. -/
def keyBytes : Option Key → List Byte
  | none   => []
  | some k => k.bytes

/-- R69: the two fixed bytes, the extended length, the mask key. -/
def encodeHeader (op : BitVec 4) (h : FrameHdr) : List Byte :=
  headerByte0 h.fin h.rsv op :: headerByte1 h.key.isSome h.len.len7 :: (h.len.extBytes ++ keyBytes h.key)

/-- R73: the length field that length7 announces, read from the bytes after the two fixed ones. -/
def readLen (l7 : BitVec 7) (bs : List Byte) : Option (LenField × List Byte) :=
  if l7 = 126#7 then
    match bs with
    | b0 :: b1 :: rest => some (.ext16 (BitVec.ofNat 16 (beNat [b0, b1])), rest)
    | _ => none
  else if l7 = 127#7 then
    match bs with
    | b0 :: b1 :: b2 :: b3 :: b4 :: b5 :: b6 :: b7 :: rest =>
      some (.ext64 (BitVec.ofNat 64 (beNat [b0, b1, b2, b3, b4, b5, b6, b7])), rest)
    | _ => none
  else some (.short l7, bs)

/-- R75: the mask key, present exactly when MASK = 1. -/
def readKey (masked : Bool) (bs : List Byte) : Option (Option Key × List Byte) :=
  if masked then
    match bs with
    | b0 :: b1 :: b2 :: b3 :: rest => some (some ⟨b0, b1, b2, b3⟩, rest)
    | _ => none
  else some (none, bs)

/-- R70 to R76: the opcode and the fields of the header at the front of a byte string, and the bytes after it; `none`
when the string is shorter than the header. -/
def readHeader : List Byte → Option (BitVec 4 × FrameHdr × List Byte)
  | b0 :: b1 :: rest =>
    match readLen (b1.extractLsb' 0 7) rest with
    | none => none
    | some (len, rest1) =>
      match readKey (b1.getLsbD 7) rest1 with
      | none => none
      | some (key, rest2) =>
        some (b0.extractLsb' 0 4,
          { fin := b0.getLsbD 7, rsv := b0.extractLsb' 4 3, len := len, key := key }, rest2)
  | _ => none

/-- R77, R79: the instruction an opcode selects. -/
def frameInstr (op : BitVec 4) (h : FrameHdr) : Instr :=
  match op.toNat with
  | 0x0 => .cont h
  | 0x1 => .text h
  | 0x2 => .binary h
  | 0x3 => .reservedOp3 h
  | 0x4 => .reservedOp4 h
  | 0x5 => .reservedOp5 h
  | 0x6 => .reservedOp6 h
  | 0x7 => .reservedOp7 h
  | 0x8 => .close h
  | 0x9 => .ping h
  | 0xA => .pong h
  | 0xB => .reservedOpB h
  | 0xC => .reservedOpC h
  | 0xD => .reservedOpD h
  | 0xE => .reservedOpE h
  | _   => .reservedOpF h

/-! ### Commands -/

/-- Why words decode to no instruction. -/
inductive DecodeError where
  | truncatedHeader      -- fewer bytes than the header length (R76)
  | bytesAfterHeader     -- more bytes than the header length
  | missingOperand       -- a record with fewer operands than its row names (R84)
  | operandOutOfRange    -- an operand that is none of the forms of R86
  | operandsAfterLast    -- a record with more operands than its row names (R84)
deriving DecidableEq, Repr

/-- A reader takes one operand off the front of a record's operand list. -/
abbrev Reader (α : Type) := List Nat → Except DecodeError (α × List Nat)

/-- An operand with the values 0 .. bound − 1. -/
def takeBelow (bound : Nat) : Reader Nat
  | []     => .error .missingOperand
  | x :: r => if x < bound then .ok (x, r) else .error .operandOutOfRange

/-- An operand of w bits. -/
def takeBits (w : Nat) : Reader (BitVec w)
  | []     => .error .missingOperand
  | x :: r => if x < 2 ^ w then .ok (BitVec.ofNat w x, r) else .error .operandOutOfRange

/-- R86: "a flag f: 0 or 1". -/
def takeFlag : Reader Bool
  | []     => .error .missingOperand
  | 0 :: r => .ok (false, r)
  | 1 :: r => .ok (true, r)
  | _      => .error .operandOutOfRange

/-- DESIGN CHOICE (notes/assumptions/3.md): the numbers of the regions in an address operand, in the order of R39. -/
def Region.code : Region → Nat
  | .scratch => 0 | .send => 1 | .inPing => 2 | .inPong => 3 | .inClose => 4
  | .outPong => 5 | .outPing => 6 | .outClose => 7 | .dst => 8 | .hbuf => 9

def takeRegion : Reader Region
  | []     => .error .missingOperand
  | 0 :: r => .ok (.scratch, r)
  | 1 :: r => .ok (.send, r)
  | 2 :: r => .ok (.inPing, r)
  | 3 :: r => .ok (.inPong, r)
  | 4 :: r => .ok (.inClose, r)
  | 5 :: r => .ok (.outPong, r)
  | 6 :: r => .ok (.outPing, r)
  | 7 :: r => .ok (.outClose, r)
  | 8 :: r => .ok (.dst, r)
  | 9 :: r => .ok (.hbuf, r)
  | _      => .error .operandOutOfRange

/-- R45: "an offset o ≥ 0". -/
def takeOffset : Reader Nat
  | []     => .error .missingOperand
  | x :: r => .ok (x, r)

def takeAddr : Reader Addr := fun r => do
  let (A, r) ← takeRegion r
  let (o, r) ← takeOffset r
  .ok (⟨A, o⟩, r)

def takeKey : Reader Key := fun r => do
  let (k, r) ← takeBelow 0x100000000 r
  .ok (Key.ofNat k, r)

/-- R86: kind 0 is `0`, kind 1 is `INF`, kind 2 is a finite duration, which follows. -/
def takeTimeout : Reader Timeout
  | []              => .error .missingOperand
  | 0 :: r          => .ok (.zero, r)
  | 1 :: r          => .ok (.inf, r)
  | 2 :: []         => .error .missingOperand
  | 2 :: 0 :: _     => .error .operandOutOfRange
  | 2 :: (d+1) :: r => .ok (.finite (d + 1), r)
  | _               => .error .operandOutOfRange

/-- R86: the option set as a number, `NOLOCK` bit 0, `NOERRORS` bit 1, `IGNORECLOSE` bit 2. -/
def takeOpts : Reader Opts := fun r => do
  let (b, r) ← takeBits 3 r
  .ok (⟨b.getLsbD 0, b.getLsbD 1, b.getLsbD 2⟩, r)

/-- R86: `FIN, RSV, OPCODE, MASKED, LEN` and, exactly when `MASKED` = 1, `KEY`. -/
def takeHeaderOp : Reader HeaderOp := fun r => do
  let (fin, r) ← takeFlag r
  let (rsv, r) ← takeBits 3 r
  let (op, r) ← takeBits 4 r
  let (masked, r) ← takeFlag r
  let (len, r) ← takeBelow 0x10000000000000000 r
  if masked then do
    let (k, r) ← takeKey r
    .ok (⟨fin, rsv, op, len, some k⟩, r)
  else
    .ok (⟨fin, rsv, op, len, none⟩, r)

/-- R86: "a length n or `LEN`: a natural number below 2^63". -/
def takeLength : Reader Nat := takeBelow 0x8000000000000000

/-- R86: "a stream position pos: a natural number below 2^64". -/
def takePosition : Reader Nat := takeBelow 0x10000000000000000

/-- R85, R87: the command a code selects, with its operands taken off the front of the list. A reserved code takes
all that came with it: `BAD_CMD` comes before anything else (60_exceptions.md R131). -/
def readCommand (code : BitVec 8) (r : List Nat) : Except DecodeError (Instr × List Nat) :=
  match code.toNat with
  | 0x01 => do
    let (b0, r) ← takeBits 8 r
    let (b1, r) ← takeBits 8 r
    .ok (.hdrlen b0 b1, r)
  | 0x02 => do
    let (a, r) ← takeAddr r
    let (n, r) ← takeLength r
    .ok (.parse a n, r)
  | 0x03 => do
    let (op, r) ← takeBits 4 r
    .ok (.opclass op, r)
  | 0x04 => do
    let (h, r) ← takeHeaderOp r
    let (a, r) ← takeAddr r
    .ok (.emit h a, r)
  | 0x05 => do
    let (a, r) ← takeAddr r
    let (n, r) ← takeLength r
    let (k, r) ← takeKey r
    let (pos, r) ← takePosition r
    .ok (.mask a n k pos, r)
  | 0x06 => do
    let (a, r) ← takeAddr r
    let (n, r) ← takeLength r
    .ok (.rxmask a n, r)
  | 0x07 => .ok (.retire, r)
  | 0x08 => .ok (.await, r)
  | 0x09 => do
    let (a, r) ← takeAddr r
    let (len, r) ← takeLength r
    .ok (.recv a len, r)
  | 0x0A => do
    let (a, r) ← takeAddr r
    let (len, r) ← takeLength r
    let (fin, r) ← takeFlag r
    let (sent, r) ← takeFlag r
    let (op, r) ← takeBits 4 r
    let (ext, r) ← takeBits 3 r
    .ok (.prepare a len fin sent op ext, r)
  | 0x0B => do
    let (a, r) ← takeAddr r
    let (n, r) ← takeLength r
    let (t, r) ← takeTimeout r
    let (opts, r) ← takeOpts r
    .ok (.sendframe a n t opts, r)
  | 0x0C => do
    let (c, r) ← takeBits 16 r
    let (a, r) ← takeAddr r
    .ok (.closeenc c a, r)
  | 0x0D => do
    let (a, r) ← takeAddr r
    let (k, r) ← takeLength r
    .ok (.closedec a k, r)
  | 0x0E => do
    let (reg, r) ← takeBits 4 r
    .ok (.rdreg reg, r)
  | 0x0F => do
    let (t, r) ← takeTimeout r
    .ok (.acquire t, r)
  | 0x10 => .ok (.release, r)
  | _    => .ok (.reservedCmd code r, [])

/-- The decoder: total, one instruction per words, rejecting by name. -/
def decode : Words → Except DecodeError Instr
  | .header bs =>
    match readHeader bs with
    | none              => .error .truncatedHeader
    | some (op, h, [])  => .ok (frameInstr op h)
    | some (_, _, _ :: _) => .error .bytesAfterHeader
  | .command c =>
    match readCommand c.code c.args with
    | .error e          => .error e
    | .ok (i, [])       => .ok i
    | .ok (_, _ :: _)   => .error .operandsAfterLast

/-! ### The encoder -/

def flagArg (b : Bool) : Nat := if b then 1 else 0

def Addr.args (a : Addr) : List Nat := [a.region.code, a.off]

def Timeout.args : Timeout → List Nat
  | .zero     => [0]
  | .inf      => [1]
  | .finite d => [2, d]

def Opts.args (o : Opts) : List Nat := [flagArg o.nolock + 2 * flagArg o.noerrors + 4 * flagArg o.ignoreclose]

def keyArgs : Option Key → List Nat
  | none   => []
  | some k => [k.toNat]

def HeaderOp.args (h : HeaderOp) : List Nat :=
  [flagArg h.fin, h.rsv.toNat, h.opcode.toNat, flagArg h.key.isSome, h.len] ++ keyArgs h.key

/-- The words of an instruction: header bytes for a frame (R69), a record for a command (R84, R85). -/
def encode : Instr → Words
  | .cont h        => .header (encodeHeader 0x0 h)
  | .text h        => .header (encodeHeader 0x1 h)
  | .binary h      => .header (encodeHeader 0x2 h)
  | .reservedOp3 h => .header (encodeHeader 0x3 h)
  | .reservedOp4 h => .header (encodeHeader 0x4 h)
  | .reservedOp5 h => .header (encodeHeader 0x5 h)
  | .reservedOp6 h => .header (encodeHeader 0x6 h)
  | .reservedOp7 h => .header (encodeHeader 0x7 h)
  | .close h       => .header (encodeHeader 0x8 h)
  | .ping h        => .header (encodeHeader 0x9 h)
  | .pong h        => .header (encodeHeader 0xA h)
  | .reservedOpB h => .header (encodeHeader 0xB h)
  | .reservedOpC h => .header (encodeHeader 0xC h)
  | .reservedOpD h => .header (encodeHeader 0xD h)
  | .reservedOpE h => .header (encodeHeader 0xE h)
  | .reservedOpF h => .header (encodeHeader 0xF h)
  | .hdrlen b0 b1        => .command ⟨0x01, [b0.toNat, b1.toNat]⟩
  | .parse a n           => .command ⟨0x02, a.args ++ [n]⟩
  | .opclass op          => .command ⟨0x03, [op.toNat]⟩
  | .emit h a            => .command ⟨0x04, h.args ++ a.args⟩
  | .mask a n k pos      => .command ⟨0x05, a.args ++ [n, k.toNat, pos]⟩
  | .rxmask a n          => .command ⟨0x06, a.args ++ [n]⟩
  | .retire              => .command ⟨0x07, []⟩
  | .await               => .command ⟨0x08, []⟩
  | .recv a len          => .command ⟨0x09, a.args ++ [len]⟩
  | .prepare a len fin sent op ext =>
      .command ⟨0x0A, a.args ++ [len, flagArg fin, flagArg sent, op.toNat, ext.toNat]⟩
  | .sendframe a n t opts => .command ⟨0x0B, a.args ++ [n] ++ t.args ++ opts.args⟩
  | .closeenc c a        => .command ⟨0x0C, c.toNat :: a.args⟩
  | .closedec a k        => .command ⟨0x0D, a.args ++ [k]⟩
  | .rdreg r             => .command ⟨0x0E, [r.toNat]⟩
  | .acquire t           => .command ⟨0x0F, t.args⟩
  | .release             => .command ⟨0x10, []⟩
  | .reservedCmd code args => .command ⟨code, args⟩

/-! ### The opcode table's words -/

/-- The bytes of a table word, the first (bits 7..0) first, filled up with zeros to the longest header (R71: 14). -/
def tableBytes (w : Nat) : List Byte :=
  (List.range 14).map fun i => BitVec.ofNat 8 (w / 256 ^ i)

/-- The operands of a table word: zeros, more of them than any row names. -/
def zeroArgs : List Nat := List.replicate 16 0

/-- DESIGN CHOICE (notes/assumptions/2.md): the table holds two maps that share the byte values 0x00..0x0F, the frame
opcodes (mask 0x0F of header byte 0) and the command codes (mask 0xFF). A table word of exactly one byte is read as a
command; any other width is read as a frame header. -/
def tableWordIsCommand (nbits : Nat) : Bool := decide (nbits = 8)

/-- The instruction the decoder reads from a word of spec/opcode_table.json, the bits above `nbits` being zero. -/
def decodeTableWord (nbits w : Nat) : Option Instr :=
  if tableWordIsCommand nbits then
    match readCommand (BitVec.ofNat 8 w) zeroArgs with
    | .ok (i, _) => some i
    | .error _   => none
  else
    match readHeader (tableBytes (w % 2 ^ nbits)) with
    | some (op, h, _) => some (frameInstr op h)
    | none            => none

end Sys2Proof
end

