-- ==== Sys2Proof/Machine/State.lean ====
section
/-! DEFINITION. The machine's state as plain data (spec/10_state.md, spec/20_memory.md section 1), the reasons a step can
stop, and the state right after reset (spec/70_reset_and_hazards.md R142). -/
namespace Sys2Proof.Machine

open Sys2Proof

/-- 10_state.md R17, R88: the agents that issue commands. -/
inductive Agent where
  | rx | tx | host
deriving DecidableEq, Repr

/-- 10_state.md R30: the receive sequencer's phases; values 8..15 are never entered and have no name. -/
inductive Phase where
  | idle | hdr2 | hdrrest | ctrl | data | eof | closed | faulted
deriving DecidableEq, Repr

/-- 60_exceptions.md R128: the cause codes, `noFault` being code 0. -/
inductive Cause where
  | noFault
  | rsvNotPermitted | badOpcode | ctrlTooLong | ctrlFragmented | len64Msb | ctrlPathData
  | unexpectedEof | transportIo | cancelled
  | truncated | rxOverrun | bounds | emitInvalid | stateBusy | statePending | noHeader | retireNegative
  | badCmd | notReceiving | badReg | txIo | txCancelled | notHeld | closedTx
deriving DecidableEq, Repr

/-- 10_state.md R32: the holder of the write permit; value 3 is not used. -/
inductive Permit where
  | free | host | rx
deriving DecidableEq, Repr

/-- 40_header_codec.md R94: the class of an opcode. -/
inductive OpClass where
  | data | control | reserved
deriving DecidableEq, Repr

/-- What a command that ends with `ok` returns (00_scope.md R11). -/
inductive Value where
  | done                         -- `ok` without a value (RELEASE)
  | nat (n : Nat)
  | frame (start len : Nat)      -- EMIT: (P − hl, hl); PREPARE: (s, n)
  | cls (c : OpClass)
  | bool (b : Bool)
  | reg32 (v : BitVec 32)
  | reg64 (v : BitVec 64)
  | code (c : BitVec 16)         -- a close code
  | dataHdr                      -- AWAIT: DATA_HDR
  | ended                        -- AWAIT: END
  | closeRx (c : BitVec 16)      -- AWAIT: CLOSE_RX, c
deriving DecidableEq, Repr

/-- 00_scope.md R11: how a command ends. (`hold` records nothing: the command is still in progress.) -/
inductive Result where
  | ok (v : Value)
  | fault (c : Cause)
deriving DecidableEq, Repr

/-- 60_exceptions.md R134: "the fault and its cause go back to the host as the command's result"; so does an `ok`. -/
structure Completion where
  agent  : Agent
  cmd    : BitVec 8
  result : Result
deriving DecidableEq, Repr

/-- 60_exceptions.md R132. -/
inductive Event where
  | activity
  | pingRx
  | pongRx (payload : List Byte)
  | closeRx (c : BitVec 16)
  | faultRx (c : Cause)
  | txError (c : Cause)
deriving DecidableEq, Repr

/-- 10_state.md R18: the outcomes of `RxRead`. `bytes` holds what the transport has ready; a read takes at most what it
asks for and leaves the rest (notes/assumptions/21.md). -/
inductive RxAnswer where
  | bytes (s : List Byte)
  | eof
  | ioerror
  | cancelled
deriving DecidableEq, Repr

/-- 10_state.md R18: the outcomes of `TxWrite`; a failed one says how many bytes reached the stream
(93_implementation_defined.md I9, notes/assumptions/24.md). -/
inductive TxAnswer where
  | ok
  | ioerror (sent : Nat)
  | cancelled (sent : Nat)
deriving DecidableEq, Repr

/-- 42_dispatch.md R122: which of its numbered steps a SENDFRAME takes next; `acquire` waits for the permit inside
step 1, `write` waits for the transport inside step 3. -/
inductive SendStage where
  | acquire
  | check
  | write
  | finish (r : TxAnswer)
deriving DecidableEq, Repr

/-- A SENDFRAME in progress (R122). -/
structure SendJob where
  issuer  : Agent
  addr    : Addr
  n       : Nat
  timeout : Timeout
  opts    : Opts
  stage   : SendStage
deriving DecidableEq, Repr

/-- A command in progress outside the receive pipeline: a SENDFRAME, or an ACQUIRE that waits (R120). -/
inductive Pending where
  | send (j : SendJob)
  | acquire (t : Timeout)
deriving DecidableEq, Repr

/-- The receive command in progress and where it stands: AWAIT reading a header (R106), AWAIT reading a control
payload with `got` bytes stored (R110), AWAIT in the pong echo's SENDFRAME (R113), or RECV (R114). -/
inductive RxJob where
  | none
  | header
  | ctrl (got : Nat)
  | pong (j : SendJob)
  | recv (a : Addr) (len : Nat)
deriving DecidableEq, Repr

/-- The two regions whose buffer the host gives (20_memory.md R39). -/
inductive HostBuf where
  | dst | hbuf
deriving DecidableEq, Repr

/-- One turn of the environment's script (notes/assumptions/1.md): who steps next and, for the host, the transport and
the key source, what they do. -/
inductive Turn where
  | command (a : Agent) (c : CmdRecord)          -- an agent issues a command
  | rx                                           -- the receive command in progress takes its next step
  | pending (k : Nat)                            -- the k-th command of `pending` takes its next step
  | giveUp (k : Nat)                             -- the k-th command of `pending` ends its finite wait (R119)
  | hostWrite (a : Addr) (bytes : List Byte)     -- the host stores bytes in a region
  | giveBuffer (b : HostBuf) (bytes : List Byte) -- the host hands over a DST or HBUF buffer with these contents
  -- the host's PREPARE and, with the (s, n) it returns, SENDFRAME (the common part of R125 to R127)
  | prepareAndSend (p : Addr) (len : Nat) (fin sent : Bool) (op : BitVec 4) (ext : BitVec 3) (t : Timeout) (opts : Opts)
  | pingFrame (p : List Byte) (t : Timeout)      -- the host's PINGFRAME p, t (R126)
  | setCanSend (b : Bool)                        -- the host's `can-send` changes (R123)
  | rxArrive (a : RxAnswer)                      -- the transport has an answer for `RxRead`
  | txReply (a : TxAnswer)                       -- the transport has an answer for `TxWrite`
  | drawKey (k : Key)                            -- the key source has a key
deriving DecidableEq, Repr

/-- 10_state.md R19, register 0x0. -/
structure Cfg where
  maskOut    : Bool
  rsvAllowed : BitVec 3
deriving DecidableEq, Repr

/-- 10_state.md R20 to R24, registers 0x1 to 0x4. -/
structure Hdr where
  valid  : Bool
  fin    : Bool
  rsv    : BitVec 3
  opcode : BitVec 4
  masked : Bool
  len    : BitVec 64
  key    : Key
  rem    : BitVec 64
deriving DecidableEq, Repr

/-- 10_state.md R28, register 0x5. -/
structure RxStatus where
  phase : Phase
  busy  : Bool
  fault : Bool
  cause : Cause
  hcnt  : BitVec 4
  hneed : BitVec 4
deriving DecidableEq, Repr

/-- 20_memory.md R39, 00_scope.md R6: the region sizes that are not fixed by the spec. -/
structure Sizes where
  nSend    : Nat
  nCtrlIn  : Nat
  nCtrlOut : Nat
  dst      : Nat
  hbuf     : Nat
deriving DecidableEq, Repr

/-- 20_memory.md R39: one list of (offset, byte) cells for each region, offsets strictly rising. A byte that is not
listed has not been written since reset (notes/assumptions/6.md). -/
structure Memory where
  scratch  : List Host.Cell
  send     : List Host.Cell
  inPing   : List Host.Cell
  inPong   : List Host.Cell
  inClose  : List Host.Cell
  outPong  : List Host.Cell
  outPing  : List Host.Cell
  outClose : List Host.Cell
  dst      : List Host.Cell
  hbuf     : List Host.Cell
deriving DecidableEq, Repr

structure State where
  cfg      : Cfg                -- register 0x0
  hdr      : Hdr                -- registers 0x1 to 0x4
  rxs      : RxStatus           -- register 0x5
  permit   : Permit             -- register 0x6
  sizes    : Sizes
  mem      : Memory
  rxIn     : List RxAnswer      -- the inbound stream with the transport's answers, oldest first
  txIn     : List TxAnswer      -- the transport's answers to TxWrite, oldest first
  txOut    : List Byte          -- the outbound stream, first byte first
  events   : List Event         -- in emission order
  results  : List Completion    -- in the order the commands ended
  hostResults : List Result     -- how the host's own accesses to regions ended, oldest first (R46, R62)
  sendPrepared : Bool           -- `SEND` holds a prepared frame whose SENDFRAME has not ended (R151)
  canSend  : Bool               -- HostCanSend (R123)
  keyDraws : List Key           -- key draws to come, oldest first
  rxJob    : RxJob              -- the AWAIT or RECV in progress
  pending  : List Pending       -- the SENDFRAMEs and ACQUIREs in progress
  -- the model's own state
  turns    : List Turn          -- the environment's script, next turn first
  issuer   : Agent              -- who issued the command being run
  keyCtr   : Nat                -- how many keys came from Config.freeKey
deriving DecidableEq, Repr

/-- Why the machine stops with a fault: for no reason. A command's fault is its result and the block goes on
(60_exceptions.md R134), and so is the fault of the host's own access to a region (20_memory.md R46, R62). -/
inductive Fault where
deriving DecidableEq, Repr

/-- Why the machine has no step. -/
inductive Refusal where
  /-- `exec`, for a row of the opcode table without a meaning yet. Safe. -/
  | notModelled (mnemonic : String)
  /-- `step`, for a command record whose operands are none of the forms of R86: no command of the spec. Safe. -/
  | illFormedCommand (e : DecodeError)
deriving DecidableEq, Repr

/-- No byte listed: after reset the contents of every region are any value (R142). -/
def Memory.empty : Memory :=
  { scratch := [], send := [], inPing := [], inPong := [], inClose := [], outPong := [], outPing := [],
    outClose := [], dst := [], hbuf := [] }

/-- R142: the state right after reset, for the parameters p. The HDR fields besides `VALID` have "no value" in the spec;
they stand at zero and no read reaches them (notes/assumptions/8.md). -/
def State.resetWith (p : Config.Params) : State :=
  { cfg      := { maskOut := p.maskOut, rsvAllowed := p.rsvAllowed }
    hdr      := { valid := false, fin := false, rsv := 0, opcode := 0, masked := false, len := 0,
                  key := ⟨0, 0, 0, 0⟩, rem := 0 }
    rxs      := { phase := .idle, busy := false, fault := false, cause := .noFault, hcnt := 0, hneed := 0 }
    permit   := .free
    sizes    := { nSend := p.nSend, nCtrlIn := p.nCtrlIn, nCtrlOut := p.nCtrlOut, dst := 0, hbuf := 0 }
    mem      := Memory.empty
    rxIn     := []
    txIn     := []
    txOut    := []
    events   := []
    results  := []
    hostResults := []
    sendPrepared := false
    canSend  := true
    keyDraws := []
    rxJob    := .none
    pending  := []
    turns    := []
    issuer   := .host
    keyCtr   := 0 }

/-- The machine right after reset, with the parameters of `Config.defaultParams` (notes/assumptions/5.md). -/
def State.reset : State := State.resetWith Config.defaultParams

end Sys2Proof.Machine
end

