-- ==== Sys2Proof/Machine/Operands.lean ====
section
/-! DEFINITION. The operand forms as the meanings use them: region sizes and bounds (spec/20_memory.md R39, R46), the
key byte a stream position selects (spec/41_mask_engine.md R96), the opcode classes (spec/30_encoding.md R78), the header
operand's length form (R74, R95), and the permit code of an agent (spec/42_dispatch.md R122). -/
namespace Sys2Proof.Machine

open Sys2Proof

/-- R39: the size of a region in bytes. -/
def Sizes.of (z : Sizes) : Region → Nat
  | .scratch  => Config.hdrScratch
  | .send     => Config.prefixSize + z.nSend
  | .inPing   => z.nCtrlIn
  | .inPong   => z.nCtrlIn
  | .inClose  => z.nCtrlIn
  | .outPong  => Config.prefixSize + z.nCtrlOut
  | .outPing  => Config.prefixSize + z.nCtrlOut
  | .outClose => Config.prefixSize + z.nCtrlOut
  | .dst      => z.dst
  | .hbuf     => z.hbuf

/-- `size(A)` of the pseudocode. -/
abbrev State.size (s : State) (A : Region) : Nat := s.sizes.of A

/-- The commands' own check "o + n > size(A)". -/
def State.outside (s : State) (A : Region) (o n : Nat) : Bool := decide (s.size A < o + n)

/-- R46 for the primitives `MemRead` and `MemWrite`: "An access with n = 0 never faults, whatever o is". -/
def State.accessFaults (s : State) (A : Region) (o n : Nat) : Bool := decide (n ≠ 0) && s.outside A o n

/-- R96: key byte `K[q mod 4]`. -/
def keyAt (k : Key) (q : Nat) : Byte :=
  match q % 4 with
  | 0 => k.k0
  | 1 => k.k1
  | 2 => k.k2
  | _ => k.k3

/-- R96, R97: the bytes XORed with the key stream from position pos on, each in its own lane. -/
def xorStream (k : Key) : Nat → List Byte → List Byte
  | _, []        => []
  | pos, b :: bs => (b ^^^ keyAt k pos) :: xorStream k (pos + 1) bs

/-- R78, R94: the class of an opcode, decided by the sets. -/
def opClass (op : BitVec 4) : OpClass :=
  if op = 0x0#4 ∨ op = 0x1#4 ∨ op = 0x2#4 then .data
  else if op = 0x8#4 ∨ op = 0x9#4 ∨ op = 0xA#4 then .control
  else .reserved

/-- R74: the shortest length form for `LEN`, the one `EMIT` writes. -/
def shortestLen (len : Nat) : LenField :=
  if len ≤ 125 then .short (BitVec.ofNat 7 len)
  else if len ≤ 65535 then .ext16 (BitVec.ofNat 16 len)
  else .ext64 (BitVec.ofNat 64 len)

/-- R95: the bytes `EMIT` writes for a header operand. -/
def emitBytes (h : HeaderOp) : List Byte :=
  encodeHeader h.opcode { fin := h.fin, rsv := h.rsv, len := shortestLen h.len, key := h.key }

/-- R122: "X = issuing agent's permit code (1 when TX or the host issues it, 2 when RX issues it)". -/
def permitOf : Agent → Permit
  | .rx   => .rx
  | .tx   => .host
  | .host => .host

/-- R17, R141: the pipeline on which agent a's EMIT, PREPARE and SENDFRAME run: RX for its own, else TX. -/
def txAgent : Agent → Agent
  | .rx   => .rx
  | .tx   => .tx
  | .host => .tx

/-- R110: the inbound slice of a control opcode, none for any other opcode. -/
def controlSlice (op : BitVec 4) : Option Region :=
  if op = 0x8#4 then some .inClose
  else if op = 0x9#4 then some .inPing
  else if op = 0xA#4 then some .inPong
  else none

/-- R110: k, the payload bytes read of a control frame. -/
def controlCount (op : BitVec 4) (len : Nat) : Nat :=
  if op = 0x8#4 then min 2 len else min len Config.ctrlMax

/-- R52: the close code of the first two bytes of a close payload. -/
def closeCode (p : List Byte) : BitVec 16 := BitVec.ofNat 16 (beNat (p.take 2))

/-- R13, R117: "default to 'Normal Close'". -/
def normalClose : BitVec 16 := 1000

end Sys2Proof.Machine
end

