-- ==== Sys2Proof/Machine/Flags.lean ====
section
/-! DEFINITION. The numbered codes and the register words: phases (spec/10_state.md R30), cause codes
(spec/60_exceptions.md R128), permit codes (R32), and registers 0x0 to 0x6 as `RDREG` reads them (R19, R21 to R24, R28,
R32; spec/42_dispatch.md R124). The block has no condition codes (R34). -/
namespace Sys2Proof.Machine

open Sys2Proof

/-- R30. -/
def Phase.code : Phase → BitVec 4
  | .idle => 0 | .hdr2 => 1 | .hdrrest => 2 | .ctrl => 3 | .data => 4 | .eof => 5 | .closed => 6 | .faulted => 7

/-- R128. -/
def Cause.code : Cause → BitVec 8
  | .noFault => 0
  | .rsvNotPermitted => 1 | .badOpcode => 2 | .ctrlTooLong => 3 | .ctrlFragmented => 4 | .len64Msb => 5
  | .ctrlPathData => 6
  | .unexpectedEof => 8 | .transportIo => 9 | .cancelled => 10
  | .truncated => 16 | .rxOverrun => 17 | .bounds => 18 | .emitInvalid => 19 | .stateBusy => 20
  | .statePending => 21 | .noHeader => 22 | .retireNegative => 23 | .badCmd => 24 | .notReceiving => 25
  | .badReg => 26 | .txIo => 27 | .txCancelled => 28 | .notHeld => 29 | .closedTx => 30

/-- R32. -/
def Permit.code : Permit → BitVec 2
  | .free => 0 | .host => 1 | .rx => 2

/-- R94: `DATA` (0), `CONTROL` (1) and `RESERVED` (2). -/
def OpClass.code : OpClass → Nat
  | .data => 0 | .control => 1 | .reserved => 2

/-- R19: `MASK_OUT` at bit 0, `RSV_ALLOWED` at bits 6:4, the rest 0. -/
def Cfg.word (c : Cfg) : BitVec 32 := 0#25 ++ c.rsvAllowed ++ 0#3 ++ BitVec.ofBool c.maskOut

/-- R21: `{VALID, 000000, MASKED, FIN, RSV, OPCODE}`, zero-extended. -/
def Hdr.ctlWord (h : Hdr) : BitVec 32 :=
  0#16 ++ BitVec.ofBool h.valid ++ 0#6 ++ BitVec.ofBool h.masked ++ BitVec.ofBool h.fin ++ h.rsv ++ h.opcode

/-- R28: `HNEED` 23:20, `HCNT` 19:16, `CAUSE` 15:8, `FAULT` 7, `RX_BUSY` 4, `PHASE` 3:0. -/
def RxStatus.word (r : RxStatus) : BitVec 32 :=
  0#8 ++ r.hneed ++ r.hcnt ++ r.cause.code ++ BitVec.ofBool r.fault ++ 0#2 ++ BitVec.ofBool r.busy ++ r.phase.code

/-- R32: `PERMIT` 1:0. -/
def Permit.word (p : Permit) : BitVec 32 := 0#30 ++ p.code

end Sys2Proof.Machine
end

