-- ==== Sys2Proof/Machine/Ops.lean ====
section
/-! DEFINITION. The named operations the meanings share: reading and writing regions (spec/20_memory.md), races of
ownership (R47, R62), ending a command, the sticky receive fault (spec/42_dispatch.md R109), events, the transport
(spec/10_state.md R18), the key source, the write permit (R119), the parse checks (spec/40_header_codec.md R91), EMIT's
checks (R95), and the unmasking of received payload (spec/41_mask_engine.md R101). -/
namespace Sys2Proof.Machine

open Sys2Proof

/-! ### Cells: one region's bytes -/

/-- The byte listed at an offset; none where nothing was written since reset. -/
def Cells.lookup : List Host.Cell → Nat → Option Byte
  | [], _          => none
  | (a, b) :: r, o => if a = o then some b else Cells.lookup r o

/-- Store one byte, keeping the offsets strictly rising. -/
def Cells.insert (o : Nat) (b : Byte) : List Host.Cell → List Host.Cell
  | []          => [(o, b)]
  | (a, c) :: r => if o < a then (o, b) :: (a, c) :: r
                   else if o = a then (o, b) :: r
                   else (a, c) :: Cells.insert o b r

/-- The canonical form of one region: offsets strictly rising. An unlisted offset reads as no value, so no entry can
equal what an unlisted offset reads as. -/
def Cells.wf : List Host.Cell → Bool
  | []                      => true
  | [_]                     => true
  | (a, _) :: (b, y) :: r   => decide (a < b) && Cells.wf ((b, y) :: r)

def Memory.get (m : Memory) : Region → List Host.Cell
  | .scratch => m.scratch | .send => m.send | .inPing => m.inPing | .inPong => m.inPong | .inClose => m.inClose
  | .outPong => m.outPong | .outPing => m.outPing | .outClose => m.outClose | .dst => m.dst | .hbuf => m.hbuf

def Memory.set (m : Memory) (A : Region) (c : List Host.Cell) : Memory :=
  match A with
  | .scratch  => { m with scratch := c }
  | .send     => { m with send := c }
  | .inPing   => { m with inPing := c }
  | .inPong   => { m with inPong := c }
  | .inClose  => { m with inClose := c }
  | .outPong  => { m with outPong := c }
  | .outPing  => { m with outPing := c }
  | .outClose => { m with outClose := c }
  | .dst      => { m with dst := c }
  | .hbuf     => { m with hbuf := c }

/-- All regions. -/
def Region.all : List Region :=
  [.scratch, .send, .inPing, .inPong, .inClose, .outPong, .outPing, .outClose, .dst, .hbuf]

/-- The canonical form of the whole memory. -/
def Memory.wf (m : Memory) : Bool := Region.all.all fun A => Cells.wf (m.get A)

/-! ### Region accesses (R10, R45, R46) -/

/-- One byte of a region; a byte that nothing has written since reset is a free value (notes/assumptions/6.md). -/
def Memory.byte (m : Memory) (A : Region) (o : Nat) : Byte :=
  (Cells.lookup (m.get A) o).getD (Config.initByte A o)

def State.readByte (s : State) (A : Region) (o : Nat) : Byte := s.mem.byte A o

def Memory.put (m : Memory) (A : Region) (o : Nat) (b : Byte) : Memory :=
  m.set A (Cells.insert o b (m.get A))

/-- The bytes of a list stored from an offset on. -/
def Memory.write (m : Memory) (A : Region) (o : Nat) : List Byte → Memory
  | []      => m
  | b :: bs => Memory.write (m.put A o b) A (o + 1) bs

/-- `MemRead(A:o, n)`, after its bounds check. -/
def State.memRead (s : State) (A : Region) (o n : Nat) : List Byte :=
  (List.range n).map fun i => s.readByte A (o + i)

/-- `MemWrite(A:o, n, bytes)`, after its bounds check. -/
def State.memWrite (s : State) (A : Region) (o : Nat) (bs : List Byte) : State :=
  { s with mem := s.mem.write A o bs }

/-! ### Ownership (R39, R47, R62, 70_reset_and_hazards.md R151; notes/assumptions/11.md, 12.md, 32.md) -/

/-- The regions RX owns at all times (R39). -/
def rxRegion : Region → Bool
  | .scratch | .inPing | .inPong | .inClose => true
  | _ => false

/-- Is the region in the hands of the receive command in progress? RX's own regions are; so are the destination of a RECV
(R43) and, during a pong echo, `OUT_PONG` (R47). -/
def State.rxOwns (s : State) (A : Region) : Bool :=
  match s.rxJob with
  | .none     => false
  | .recv a _ => rxRegion A || decide (A = a.region)
  | .pong _   => rxRegion A || decide (A = .outPong)
  | _         => rxRegion A

/-- Does a command in progress send bytes from the region? -/
def Pending.sendsFrom (A : Region) : Pending → Bool
  | .send j    => decide (j.addr.region = A ∧ j.n ≠ 0)
  | .acquire _ => false

/-- Does the region hold bytes that a SENDFRAME in progress sends? -/
def State.sendOwns (s : State) (A : Region) : Bool := s.pending.any (Pending.sendsFrom A)

/-- The agent that sends from the region, for a buffer that passes to the agent of the command that names it (R47). -/
def State.sender (s : State) (A : Region) : Option Agent :=
  (s.pending.find? (Pending.sendsFrom A)).bind fun
    | .send j    => some (txAgent j.issuer)
    | .acquire _ => none

/-- R39, R47: the owner agent of a region; none for a host buffer that no command in progress names. -/
def State.owner (s : State) : Region → Option Agent
  | .scratch | .inPing | .inPong | .inClose => some .rx
  | .send | .outPing | .outClose            => some .tx
  | .outPong => some (if s.rxOwns .outPong then .rx else .tx)
  | .dst     => if s.rxOwns .dst then some .rx else s.sender .dst
  | .hbuf    => if s.rxOwns .hbuf then some .rx else s.sender .hbuf

/-- R47: "Only the owner reads or writes it". The host has its commands run on the pipeline that owns the region
(30_encoding.md R88), so it is never the wrong agent. -/
def State.foreign (s : State) (g : Agent) (A : Region) : Bool :=
  match s.owner A with
  | none   => false
  | some o => decide (g ≠ .host ∧ g ≠ o)

/-- R62: reading region A as agent g races. -/
def State.readRace (s : State) (g : Agent) (A : Region) : Bool := s.rxOwns A || s.foreign g A

/-- R151: the regions no command may write although none in progress owns them: `OUT_PONG` "at any time", and `SEND`
"from `PREPARE` until its `SENDFRAME` completes". -/
def State.reserved (s : State) (A : Region) : Bool :=
  decide (A = .outPong) || (decide (A = .send) && s.sendPrepared)

/-- R62: writing region A as agent g races. -/
def State.writeRace (s : State) (g : Agent) (A : Region) : Bool := s.readRace g A || s.sendOwns A || s.reserved A

/-- R151: `PREPARE` has left a frame in region A. -/
def State.markPrepared (s : State) (A : Region) : State :=
  { s with sendPrepared := s.sendPrepared || decide (A = .send) }

/-- R151: a SENDFRAME from region A has ended. -/
def State.unmarkPrepared (s : State) (A : Region) : State :=
  { s with sendPrepared := s.sendPrepared && decide (A ≠ .send) }

/-! ### How a command ends (00_scope.md R11, 60_exceptions.md R134) -/

/-- Hand a command's result to the host. -/
def State.complete (s : State) (a : Agent) (cmd : BitVec 8) (r : Result) : State :=
  { s with results := s.results ++ [⟨a, cmd, r⟩] }

/-- A command of agent a ends with `ok`. -/
def State.succeed (s : State) (a : Agent) (cmd : BitVec 8) (v : Value) : Host.Outcome State Fault Refusal :=
  .next (s.complete a cmd (.ok v))

/-- `raise Fault(c)`, not sticky, of a command of agent a: the result and nothing else (R129, R130). With `rxFault` below
it is the block's taking of an exception (R134); no return from one exists (R135). -/
def State.raise (s : State) (a : Agent) (cmd : BitVec 8) (c : Cause) : Host.Outcome State Fault Refusal :=
  .next (s.complete a cmd (.fault c))

/-- `emit event E` (R132). -/
def State.emitEvent (s : State) (e : Event) : State := { s with events := s.events ++ [e] }

/-- `HDR.VALID <- 0`; every other field keeps its value and has none to a reader (R104). -/
def State.dropHeader (s : State) : State := { s with hdr := { s.hdr with valid := false } }

/-- R109 `rx_fault(c)`: the sticky receive fault of the RX command cmd. -/
def State.rxFault (s : State) (cmd : BitVec 8) (c : Cause) : State :=
  let s := { s with rxs := { phase := .faulted, busy := false, fault := true, cause := c, hcnt := 0, hneed := 0 },
                    rxJob := .none }
  (s.dropHeader.emitEvent (.faultRx c)).complete .rx cmd (.fault c)

/-! ### The transport and the key source (10_state.md R18, 00_scope.md R6) -/

/-- `RxRead(n)` on the answers to come: the answer and what is left; `none` while the transport has not answered (hold).
At most n bytes are taken, at least one (notes/assumptions/21.md). -/
def rxTake (n : Nat) : List RxAnswer → Option (RxAnswer × List RxAnswer)
  | []               => none
  | .bytes [] :: r   => rxTake n r
  | .bytes (b :: bs) :: r =>
    if (b :: bs).length ≤ n then some (.bytes (b :: bs), r)
    else some (.bytes ((b :: bs).take n), .bytes ((b :: bs).drop n) :: r)
  | .eof :: r        => some (.eof, r)
  | .ioerror :: r    => some (.ioerror, r)
  | .cancelled :: r  => some (.cancelled, r)

/-- The bytes of the frame that reached the outbound stream (R18, I9). -/
def TxAnswer.sentOf (a : TxAnswer) (frame : List Byte) : List Byte :=
  match a with
  | .ok          => frame
  | .ioerror k   => frame.take k
  | .cancelled k => frame.take k

/-- R6, R118: a drawn key is "a nonzero random 32-bit integer". -/
def Key.nonzero (k : Key) : Key := if k = ⟨0, 0, 0, 0⟩ then ⟨0, 0, 0, 1⟩ else k

/-- `draw KeyDraw`: the next draw listed, or a free value (notes/assumptions/7.md). -/
def State.drawnKey (s : State) : Key :=
  match s.keyDraws with
  | k :: _ => Key.nonzero k
  | []     => Key.nonzero (Config.freeKey s.keyCtr)

/-- The state after a draw. -/
def State.afterDraw (s : State) : State :=
  { s with keyDraws := s.keyDraws.tail, keyCtr := if s.keyDraws = [] then s.keyCtr + 1 else s.keyCtr }

/-! ### The write permit (42_dispatch.md R119) -/

def State.takePermit (s : State) (p : Permit) : State := { s with permit := p }

/-- R119: "Release by the holder sets `PERMIT <- 0`" (notes/assumptions/16.md). -/
def State.releasePermit (s : State) (p : Permit) : State :=
  { s with permit := if s.permit = p then .free else s.permit }

/-! ### PARSE (40_header_codec.md R91, R92) -/

/-- R91: the five protocol checks, in their order. -/
def headerFault (c : Cfg) (op : BitVec 4) (h : FrameHdr) : Option Cause :=
  if h.rsv &&& ~~~c.rsvAllowed ≠ 0#3 then some .rsvNotPermitted
  else if opClass op = .reserved then some .badOpcode
  else if opClass op = .control ∧ 125 < h.len.value then some .ctrlTooLong
  else if opClass op = .control ∧ h.fin = false then some .ctrlFragmented
  else if h.len.len7 = 127#7 ∧ 0x8000000000000000 ≤ h.len.value then some .len64Msb
  else none

/-- R91: what PARSE loads into `HDR`; the key has no value when MASKED = 0 (notes/assumptions/8.md). -/
def loadHeader (op : BitVec 4) (h : FrameHdr) : Hdr :=
  { valid := true, fin := h.fin, rsv := h.rsv, opcode := op, masked := h.key.isSome,
    len := BitVec.ofNat 64 h.len.value, key := h.key.getD ⟨0, 0, 0, 0⟩, rem := BitVec.ofNat 64 h.len.value }

/-- R91: "a data frame still has payload bytes to deliver". -/
def State.headerPending (s : State) : Bool := s.hdr.valid && decide (s.hdr.rem ≠ 0)

/-! ### EMIT (R95) -/

/-- R95: the checks of `EMIT` on its header operand, all `EMIT_INVALID`. -/
def emitInvalid (c : Cfg) (h : HeaderOp) : Bool :=
  decide (opClass h.opcode = .reserved)
  || decide (h.rsv &&& ~~~c.rsvAllowed ≠ 0#3)
  || (decide (opClass h.opcode = .control) && (decide (125 < h.len) || !h.fin))
  || decide (0x8000000000000000 ≤ h.len)

/-- R95: what `EMIT h, A:P` faults with. -/
def State.emitFault (s : State) (h : HeaderOp) (a : Addr) : Option Cause :=
  if emitInvalid s.cfg h then some .emitInvalid
  else if a.off < (emitBytes h).length ∨ s.size a.region < a.off then some .bounds
  else none

/-- R95: `MemWrite(A:(P - hl), hl, E)`. -/
def State.emitWrite (s : State) (h : HeaderOp) (a : Addr) : State :=
  s.memWrite a.region (a.off - (emitBytes h).length) (emitBytes h)

/-! ### MASK and RXMASK (41_mask_engine.md R98, R101) -/

/-- R98: the n bytes at A:o XORed in place from stream position pos on. -/
def State.maskRegion (s : State) (A : Region) (o n : Nat) (k : Key) (pos : Nat) : State :=
  s.memWrite A o (xorStream k pos (s.memRead A o n))

/-- R100: "the stream position of the next payload byte to arrive is `HDR.LEN − HDR.REM`". -/
def State.rxPosition (s : State) : Nat := s.hdr.len.toNat - s.hdr.rem.toNat

/-- R101: what RXMASK faults with, besides the host-issue check. -/
def State.rxmaskFault (s : State) (A : Region) (o n : Nat) : Option Cause :=
  if s.hdr.valid = false then some .noHeader
  else if s.hdr.rem.toNat < n then some .rxOverrun
  else if s.outside A o n then some .bounds
  else none

/-- R101: RXMASK's writes: the bytes when MASKED = 1, and `REM` always. -/
def State.rxmaskApply (s : State) (A : Region) (o n : Nat) : State :=
  { s with
    mem := if s.hdr.masked then (s.maskRegion A o n s.hdr.key s.rxPosition).mem else s.mem
    hdr := { s.hdr with rem := BitVec.ofNat 64 (s.hdr.rem.toNat - n) } }

end Sys2Proof.Machine
end

