-- ==== Sys2Proof/Machine/Codec.lean ====
section
/-! DEFINITION. The header codec's commands (spec/40_header_codec.md): HDRLEN, PARSE, OPCLASS, EMIT. -/
namespace Sys2Proof.Machine

open Sys2Proof

/-- R90. b0 is not read. -/
def execHdrlen (_b0 b1 : Byte) (s : State) : Host.Outcome State Fault Refusal :=
  s.succeed s.issuer 0x01 (.nat (headerLength b1))

/-- R91, R92: what a host-issued `PARSE A:o, n` does after its `STATE_BUSY` and `STATE_PENDING` checks. -/
def State.parseBytes (s : State) (a : Addr) (n : Nat) : Except Cause State :=
  if n < 2 then .error .truncated
  else if s.accessFaults a.region a.off 2 then .error .bounds
  else
    let h := headerLength (s.readByte a.region (a.off + 1))
    if n < h then .error .truncated
    else if s.accessFaults a.region a.off h then .error .bounds
    else match readHeader (s.memRead a.region a.off h) with
      | none => .error .truncated
      | some (op, f, _) =>
        match headerFault s.cfg op f with
        | some c => .error c
        | none   => .ok { s with hdr := loadHeader op f }

/-- R91, R92. The bytes are read as RX, so a region of another agent is a race (R47, R62; n < 2 reads none); n above the
16 of R91 is taken as given (notes/assumptions/30.md). After a sticky fault PARSE, an RX command, repeats it (R109, R154;
notes/assumptions/26.md). -/
def execParse (a : Addr) (n : Nat) (s : State) : Host.Outcome State Fault Refusal :=
  if s.rxs.busy || (decide (2 ≤ n) && s.readRace .rx a.region) then s.raise .rx 0x02 .stateBusy
  else if s.rxs.phase = .faulted then s.raise .rx 0x02 s.rxs.cause
  else if s.headerPending then s.raise .rx 0x02 .statePending
  else match s.parseBytes a n with
    | .error c => s.raise .rx 0x02 c
    | .ok s'   => s'.succeed .rx 0x02 (.nat (headerLength (s.readByte a.region (a.off + 1))))

/-- R94. -/
def execOpclass (op : BitVec 4) (s : State) : Host.Outcome State Fault Refusal :=
  s.succeed s.issuer 0x03 (.cls (opClass op))

/-- R95. -/
def execEmit (h : HeaderOp) (a : Addr) (s : State) : Host.Outcome State Fault Refusal :=
  if s.writeRace (txAgent s.issuer) a.region then s.raise s.issuer 0x04 .stateBusy
  else match s.emitFault h a with
    | some c => s.raise s.issuer 0x04 c
    | none   =>
      (s.emitWrite h a).succeed s.issuer 0x04
        (.frame (a.off - (emitBytes h).length) (emitBytes h).length)

end Sys2Proof.Machine
end

