-- ==== Sys2Proof/Machine/MaskEngine.lean ====
section
/-! DEFINITION. The XOR mask engine's commands (spec/41_mask_engine.md): MASK, RXMASK, RETIRE. -/
namespace Sys2Proof.Machine

open Sys2Proof

/-- R98: "n = 0 writes nothing and never faults". -/
def execMask (a : Addr) (n : Nat) (k : Key) (pos : Nat) (s : State) : Host.Outcome State Fault Refusal :=
  if n = 0 then s.succeed s.issuer 0x05 (.nat (pos % 4))
  else if s.writeRace s.issuer a.region then s.raise s.issuer 0x05 .stateBusy
  else if s.outside a.region a.off n then s.raise s.issuer 0x05 .bounds
  else (s.maskRegion a.region a.off n k pos).succeed s.issuer 0x05 (.nat ((pos + n) % 4))

/-- R101, host-issued. The race is one only where bytes are written (n ≠ 0 under a mask), and `MASKED` is read only
while it has a value (10_state.md R26). -/
def execRxmask (a : Addr) (n : Nat) (s : State) : Host.Outcome State Fault Refusal :=
  if s.rxs.busy then s.raise .rx 0x06 .stateBusy
  else if s.hdr.valid && s.hdr.masked && decide (n ≠ 0) && s.writeRace .rx a.region then s.raise .rx 0x06 .stateBusy
  else match s.rxmaskFault a.region a.off n with
    | some c => s.raise .rx 0x06 c
    | none   => (s.rxmaskApply a.region a.off n).succeed .rx 0x06 (.nat (s.hdr.rem.toNat - n))

/-- R104: `HDR.VALID <- 0`, and `PHASE` from `DATA` to `IDLE`. -/
def State.retired (s : State) : State :=
  let s := s.dropHeader
  if s.rxs.phase = .data then { s with rxs := { s.rxs with phase := .idle } } else s

/-- R104. -/
def execRetire (s : State) : Host.Outcome State Fault Refusal :=
  if s.rxs.busy then s.raise .rx 0x07 .stateBusy
  else if s.hdr.valid && decide (s.hdr.rem = 0) then s.retired.succeed .rx 0x07 (.nat 1)
  else s.succeed .rx 0x07 (.nat 0)

end Sys2Proof.Machine
end

