-- ==== Sys2Proof/Machine/Transmit.lean ====
section
/-! DEFINITION. The close-code payload and the transmit path (spec/42_dispatch.md sections 4 and 5): CLOSEENC, CLOSEDEC,
PREPARE, SENDFRAME with its numbered steps, ACQUIRE, RELEASE. -/
namespace Sys2Proof.Machine

open Sys2Proof

/-! ### Close codes -/

/-- R116. -/
def execCloseenc (c : BitVec 16) (a : Addr) (s : State) : Host.Outcome State Fault Refusal :=
  if s.writeRace s.issuer a.region then s.raise s.issuer 0x0C .stateBusy
  else if s.accessFaults a.region a.off 2 then s.raise s.issuer 0x0C .bounds
  else (s.memWrite a.region a.off (beBytes 2 c.toNat)).succeed s.issuer 0x0C (.nat 2)

/-- R117. -/
def execClosedec (a : Addr) (k : Nat) (s : State) : Host.Outcome State Fault Refusal :=
  if k < 2 then s.succeed s.issuer 0x0D (.code normalClose)
  else if s.readRace s.issuer a.region then s.raise s.issuer 0x0D .stateBusy
  else if s.accessFaults a.region a.off 2 then s.raise s.issuer 0x0D .bounds
  else s.succeed s.issuer 0x0D (.code (closeCode (s.memRead a.region a.off 2)))

/-! ### PREPARE (R118) -/

/-- R118: the header of the frame; the key is the next draw when `CFG.MASK_OUT` = 1. -/
def State.prepareHeader (s : State) (len : Nat) (fin sent : Bool) (op : BitVec 4) (ext : BitVec 3) : HeaderOp :=
  { fin := fin, rsv := ext, opcode := if sent then 0x0 else op, len := len,
    key := if s.cfg.maskOut then some s.drawnKey else none }

/-- R118: the checks, in the pseudocode's order (notes/assumptions/17.md). -/
def State.prepareFault (s : State) (a : Addr) (len : Nat) (fin sent : Bool) (op : BitVec 4) (ext : BitVec 3) :
    Option Cause :=
  if sent && decide (opClass op ≠ .data) then some .emitInvalid
  else if s.outside a.region a.off len then some .bounds
  else s.emitFault (s.prepareHeader len fin sent op ext) a

/-- R118: draw the key, emit the header, mask the payload from stream position 0. -/
def State.prepareApply (s : State) (a : Addr) (len : Nat) (fin sent : Bool) (op : BitVec 4) (ext : BitVec 3) : State :=
  let h := s.prepareHeader len fin sent op ext
  let s := (if s.cfg.maskOut then s.afterDraw else s).emitWrite h a
  match h.key with
  | some k => s.maskRegion a.region a.off len k 0
  | none   => s

/-- R118: hl. -/
def State.prepareHl (s : State) (len : Nat) (fin sent : Bool) (op : BitVec 4) (ext : BitVec 3) : Nat :=
  (emitBytes (s.prepareHeader len fin sent op ext)).length

/-- R118; a frame left in `SEND` is kept from writers until it is sent (R151, notes/assumptions/32.md). -/
def execPrepare (a : Addr) (len : Nat) (fin sent : Bool) (op : BitVec 4) (ext : BitVec 3) (s : State) :
    Host.Outcome State Fault Refusal :=
  if s.writeRace (txAgent s.issuer) a.region then s.raise s.issuer 0x0A .stateBusy
  else match s.prepareFault a len fin sent op ext with
    | some c => s.raise s.issuer 0x0A c
    | none   =>
      ((s.prepareApply a len fin sent op ext).markPrepared a.region).succeed s.issuer 0x0A
        (.frame (a.off - s.prepareHl len fin sent op ext) (s.prepareHl len fin sent op ext + len))

/-! ### SENDFRAME (R122) -/

/-- Step 1 of R122 as the command is issued. `BOUNDS` comes first, then the race and the permit (R131,
notes/assumptions/25.md). -/
def execSendframe (a : Addr) (n : Nat) (t : Timeout) (opts : Opts) (s : State) :
    Host.Outcome State Fault Refusal :=
  let j : SendJob := { issuer := s.issuer, addr := a, n := n, timeout := t, opts := opts, stage := .check }
  if s.outside a.region a.off n then s.raise s.issuer 0x0B .bounds
  else if n ≠ 0 ∧ s.readRace (txAgent s.issuer) a.region then s.raise s.issuer 0x0B .stateBusy
  else if opts.nolock then
    if s.permit = permitOf s.issuer then .next { s with pending := s.pending ++ [.send j] }
    else s.raise s.issuer 0x0B .notHeld
  else if s.permit = .free then
    .next { s.takePermit (permitOf s.issuer) with pending := s.pending ++ [.send j] }
  else if t = .zero then (s.unmarkPrepared a.region).succeed s.issuer 0x0B (.bool false)
  else .next { s with pending := s.pending ++ [.send { j with stage := .acquire }] }

/-- How a step of a SENDFRAME in progress ends. -/
inductive SendNext where
  | hold                            -- it waits; nothing changes
  | more (j : SendJob) (s : State)  -- the next numbered step follows
  | done (r : Result) (s : State)   -- the SENDFRAME has this result

/-- "release unless NOLOCK" of R122. -/
def State.sendRelease (s : State) (j : SendJob) : State :=
  if j.opts.nolock then s else s.releasePermit (permitOf j.issuer)

/-- A SENDFRAME ends after step 1: the release, and the end of its hold on a prepared frame (R151). -/
def State.sendEnds (s : State) (j : SendJob) : State := (s.sendRelease j).unmarkPrepared j.addr.region

/-- The wait of step 1: "a step that needs `PERMIT` = 0 and sets `PERMIT <- X`" (R119). -/
def State.sendAcquire (s : State) (j : SendJob) : SendNext :=
  if s.permit = .free then .more { j with stage := .check } (s.takePermit (permitOf j.issuer)) else .hold

/-- Step 2: the host's close state (R123). -/
def State.sendCheck (s : State) (j : SendJob) : SendNext :=
  if j.opts.ignoreclose || s.canSend then .more { j with stage := .write } s
  else if j.opts.noerrors then .done (.ok (.bool false)) (s.sendEnds j)
  else .done (.fault .closedTx) (s.sendEnds j)

/-- Step 3: `r = TxWrite(MemRead(A:s, n))`, holding until the transport answers (R18). -/
def State.sendWrite (s : State) (j : SendJob) : SendNext :=
  match s.txIn with
  | []     => .hold
  | r :: q =>
    .more { j with stage := .finish r }
      { s with txIn := q, txOut := s.txOut ++ r.sentOf (s.memRead j.addr.region j.addr.off j.n) }

/-- Step 4: release, then the result. -/
def State.sendFinish (s : State) (j : SendJob) (r : TxAnswer) : SendNext :=
  let s := s.sendEnds j
  match r with
  | .ok          => .done (.ok (.bool true)) s
  | .ioerror _   =>
    if j.opts.noerrors then .done (.ok (.bool false)) s
    else .done (.fault .txIo) (s.emitEvent (.txError .txIo))
  | .cancelled _ =>
    if j.opts.noerrors then .done (.ok (.bool false)) s
    else .done (.fault .txCancelled) (s.emitEvent (.txError .txCancelled))

/-- The next numbered step of a SENDFRAME in progress. -/
def State.sendStep (s : State) (j : SendJob) : SendNext :=
  match j.stage with
  | .acquire  => s.sendAcquire j
  | .check    => s.sendCheck j
  | .write    => s.sendWrite j
  | .finish r => s.sendFinish j r

/-! ### The permit (R119 to R121) -/

/-- R120. -/
def execAcquire (t : Timeout) (s : State) : Host.Outcome State Fault Refusal :=
  if s.permit = .host then s.raise .host 0x0F .stateBusy
  else if s.permit = .free then (s.takePermit .host).succeed .host 0x0F (.bool true)
  else if t = .zero then s.succeed .host 0x0F (.bool false)
  else .next { s with pending := s.pending ++ [.acquire t] }

/-- R121. -/
def execRelease (s : State) : Host.Outcome State Fault Refusal :=
  if s.permit = .host then (s.takePermit .free).succeed .host 0x10 .done
  else s.raise .host 0x10 .notHeld

/-! ### Commands in progress outside the receive pipeline -/

/-- The k-th command in progress takes its next step, or waits. -/
def State.pendingStep (s : State) (k : Nat) : State :=
  match s.pending[k]? with
  | none => s
  | some (.send j) =>
    match s.sendStep j with
    | .hold       => s
    | .more j' s' => { s' with pending := s'.pending.set k (.send j') }
    | .done r s'  => State.complete { s' with pending := s'.pending.eraseIdx k } j.issuer 0x0B r
  | some (.acquire _) =>
    if s.permit = .free then
      State.complete { s.takePermit .host with pending := s.pending.eraseIdx k } .host 0x0F (.ok (.bool true))
    else s

/-- Does the command in progress wait for the permit with a finite timeout? -/
def Pending.mayGiveUp : Pending → Bool
  | .send j =>
    match j.stage, j.timeout with
    | .acquire, .finite _ => true
    | _, _                => false
  | .acquire (.finite _) => true
  | .acquire _           => false

/-- R119: "with a finite t > 0, it holds, and at any step the environment may end the wait as given up", while
`PERMIT` ≠ 0. -/
def State.giveUpStep (s : State) (k : Nat) : State :=
  match s.pending[k]? with
  | none   => s
  | some p =>
    if s.permit ≠ .free ∧ p.mayGiveUp then
      match p with
      | .send j    =>
        State.complete { s.unmarkPrepared j.addr.region with pending := s.pending.eraseIdx k } j.issuer 0x0B
          (.ok (.bool false))
      | .acquire _ => State.complete { s with pending := s.pending.eraseIdx k } .host 0x0F (.ok (.bool false))
    else s

end Sys2Proof.Machine
end

