-- ==== Sys2Proof/Machine/Frames.lean ====
section
/-! DEFINITION. The frame opcodes (spec/30_encoding.md R77, R79): what a complete frame header does to the receive
sequencer, the parse and dispatch step of AWAIT (spec/42_dispatch.md R108) with control-frame handling (R110 to R113). -/
namespace Sys2Proof.Machine

open Sys2Proof

/-- R112: `PHASE <- HDR2; HCNT <- 0; HNEED <- 2`, "the loop goes on to the next frame". -/
def State.nextHeader (s : State) : State :=
  { s with rxs := { s.rxs with phase := .hdr2, hcnt := 0, hneed := 2 }, rxJob := .header }

/-- R111. -/
def State.closeReceived (s : State) (c : BitVec 16) : State :=
  let s := s.dropHeader
  let s := { s with rxs := { s.rxs with phase := .closed, busy := false }, rxJob := .none }
  ((s.emitEvent (.closeRx c)).emitEvent .activity).complete .rx 0x08 (.ok (.closeRx c))

/-- R112 for a ping, after its pong echo. -/
def State.pingHandled (s : State) : State :=
  ((s.emitEvent .pingRx).dropHeader.emitEvent .activity).nextHeader

/-- R112 for a pong with k payload bytes. -/
def State.pongHandled (s : State) (k : Nat) : State :=
  ((s.emitEvent (.pongRx (s.memRead .inPong 0 k))).dropHeader.emitEvent .activity).nextHeader

/-- R113, R42: where the payload of an outbound pong stands. -/
def pongAddr : Addr := ⟨.outPong, Config.prefixSize⟩

/-- R113: `SENDFRAME OUT_PONG:s, n, INF, {NOERRORS}`, issued by RX. -/
def pongJob (start n : Nat) : SendJob :=
  { issuer := .rx, addr := ⟨.outPong, start⟩, n := n, timeout := .inf,
    opts := { nolock := false, noerrors := true, ignoreclose := false }, stage := .acquire }

/-- R113 `PONGECHO(k)`, up to the permit. A fault inside it is handled in place: the pong is not sent and AWAIT goes on
(60_exceptions.md R135; notes/assumptions/18.md). So is the race with a SENDFRAME that still sends from `OUT_PONG`
(R62; notes/assumptions/12.md). -/
def State.pongEcho (s : State) (k : Nat) : State :=
  if s.sendOwns .outPong then s.pingHandled
  else if s.accessFaults .inPing 0 k || s.accessFaults .outPong Config.prefixSize k then s.pingHandled
  else
    let s := s.memWrite .outPong Config.prefixSize (s.memRead .inPing 0 k)
    match s.prepareFault pongAddr k true false 0xA 0 with
    | some _ => s.pingHandled
    | none   =>
      let hl := s.prepareHl k true false 0xA 0
      let s := s.prepareApply pongAddr k true false 0xA 0
      { s with rxJob := .pong (pongJob (Config.prefixSize - hl) (hl + k)) }

/-- R110 to R112, once the k payload bytes of a control frame are in the slice D. -/
def State.controlHandled (s : State) (D : Region) (k : Nat) : State :=
  match s.rxmaskFault D 0 k with
  | some c => s.rxFault 0x08 c
  | none   =>
    let s := s.rxmaskApply D 0 k
    if s.hdr.opcode = 0x8#4 then
      s.closeReceived (if k < 2 then normalClose else closeCode (s.memRead D 0 2))
    else if s.hdr.opcode = 0x9#4 then s.pongEcho k
    else s.pongHandled k

/-- R108, R110: enter control handling; with no payload to read it goes on at once. -/
def State.enterControl (s : State) : State :=
  let s := { s with rxs := { s.rxs with phase := .ctrl } }
  match controlSlice s.hdr.opcode with
  | none   => s.rxFault 0x08 .ctrlPathData
  | some D =>
    if controlCount s.hdr.opcode s.hdr.len.toNat = 0 then s.controlHandled D 0
    else { s with rxJob := .ctrl 0 }

/-- R108: the state after a successful PARSE inside AWAIT, before the dispatch by class. -/
def State.headerAccepted (s : State) (op : BitVec 4) (h : FrameHdr) : State :=
  let s := State.emitEvent { s with hdr := loadHeader op h } .activity
  { s with rxs := { s.rxs with hcnt := 0, hneed := 0 } }

/-- R108, the data branch. -/
def State.dataHeader (s : State) : State :=
  State.complete { s with rxs := { s.rxs with phase := .data, busy := false }, rxJob := .none } .rx 0x08 (.ok .dataHdr)

/-- R108: the parse and dispatch step, the meaning of every frame header. A fault of PARSE is sticky here (R109). -/
def State.dispatchFrame (s : State) (op : BitVec 4) (h : FrameHdr) : State :=
  if s.headerPending then s.rxFault 0x08 .statePending
  else match headerFault s.cfg op h with
    | some c => s.rxFault 0x08 c
    | none   =>
      match opClass op with
      | .data     => (s.headerAccepted op h).dataHeader
      | .control  => (s.headerAccepted op h).enterControl
      | .reserved => s.rxFault 0x08 .badOpcode

/-! ### The six frame opcodes (R77) -/

/-- R77, R108: surfaced as a data header. -/
def execCont (h : FrameHdr) (s : State) : Host.Outcome State Fault Refusal := .next (s.dispatchFrame 0x0 h)

/-- R77, R108: surfaced as a data header. -/
def execText (h : FrameHdr) (s : State) : Host.Outcome State Fault Refusal := .next (s.dispatchFrame 0x1 h)

/-- R77, R108: surfaced as a data header. -/
def execBinary (h : FrameHdr) (s : State) : Host.Outcome State Fault Refusal := .next (s.dispatchFrame 0x2 h)

/-- R77, R111: handled inside AWAIT. -/
def execClose (h : FrameHdr) (s : State) : Host.Outcome State Fault Refusal := .next (s.dispatchFrame 0x8 h)

/-- R77, R112: handled inside AWAIT, answered by a pong. -/
def execPing (h : FrameHdr) (s : State) : Host.Outcome State Fault Refusal := .next (s.dispatchFrame 0x9 h)

/-- R77, R112: handled inside AWAIT, reported to the host. -/
def execPong (h : FrameHdr) (s : State) : Host.Outcome State Fault Refusal := .next (s.dispatchFrame 0xA h)

/-! ### The ten reserved opcodes (R79): PARSE rejects them -/

def execReservedOp3 (h : FrameHdr) (s : State) : Host.Outcome State Fault Refusal := .next (s.dispatchFrame 0x3 h)
def execReservedOp4 (h : FrameHdr) (s : State) : Host.Outcome State Fault Refusal := .next (s.dispatchFrame 0x4 h)
def execReservedOp5 (h : FrameHdr) (s : State) : Host.Outcome State Fault Refusal := .next (s.dispatchFrame 0x5 h)
def execReservedOp6 (h : FrameHdr) (s : State) : Host.Outcome State Fault Refusal := .next (s.dispatchFrame 0x6 h)
def execReservedOp7 (h : FrameHdr) (s : State) : Host.Outcome State Fault Refusal := .next (s.dispatchFrame 0x7 h)
def execReservedOpB (h : FrameHdr) (s : State) : Host.Outcome State Fault Refusal := .next (s.dispatchFrame 0xB h)
def execReservedOpC (h : FrameHdr) (s : State) : Host.Outcome State Fault Refusal := .next (s.dispatchFrame 0xC h)
def execReservedOpD (h : FrameHdr) (s : State) : Host.Outcome State Fault Refusal := .next (s.dispatchFrame 0xD h)
def execReservedOpE (h : FrameHdr) (s : State) : Host.Outcome State Fault Refusal := .next (s.dispatchFrame 0xE h)
def execReservedOpF (h : FrameHdr) (s : State) : Host.Outcome State Fault Refusal := .next (s.dispatchFrame 0xF h)

end Sys2Proof.Machine
end

