-- ==== Sys2Proof/Machine/Receive.lean ====
section
/-! DEFINITION. The receive commands AWAIT and RECV (spec/42_dispatch.md R105, R107, R114, R115): their issue steps, and
what the transport's answers other than header bytes do. -/
namespace Sys2Proof.Machine

open Sys2Proof

/-- R105: the writes of the start step. -/
def State.awaitStart (s : State) : State :=
  let s := s.dropHeader
  { s with rxs := { s.rxs with busy := true, phase := .hdr2, hcnt := 0, hneed := 2 }, rxJob := .header }

/-- R105: the start step of AWAIT. -/
def execAwait (s : State) : Host.Outcome State Fault Refusal :=
  if s.rxs.busy then s.raise .rx 0x08 .stateBusy
  else if s.rxs.phase = .faulted then s.raise .rx 0x08 s.rxs.cause
  else if s.rxs.phase = .eof ∨ s.rxs.phase = .closed then s.raise .rx 0x08 .notReceiving
  else if s.headerPending then s.raise .rx 0x08 .statePending
  else .next s.awaitStart

/-- R114: the issue step of RECV; a race on its destination (R62) stands before the operand checks (60_exceptions.md R131) and after
the repeat of a sticky fault (R109; notes/assumptions/25.md). Its destination may be any region RX may write, where R43 and R114 speak of `DST` only: the model's choice (notes/assumptions/34.md). -/
def execRecv (a : Addr) (len : Nat) (s : State) : Host.Outcome State Fault Refusal :=
  if s.rxs.busy then s.raise .rx 0x09 .stateBusy
  else if s.rxs.phase = .faulted then s.raise .rx 0x09 s.rxs.cause
  else if decide (len ≠ 0) && s.writeRace .rx a.region then s.raise .rx 0x09 .stateBusy
  else if s.hdr.valid = false ∨ s.rxs.phase ≠ .data then s.raise .rx 0x09 .noHeader
  else if s.hdr.rem.toNat < len then s.raise .rx 0x09 .rxOverrun
  else if s.outside a.region a.off len then s.raise .rx 0x09 .bounds
  else if len = 0 then s.succeed .rx 0x09 (.nat 0)
  else .next { s with rxs := { s.rxs with busy := true }, rxJob := .recv a len }

/-- R107: is the read at a frame boundary, in `HDR2` with no byte taken? -/
def State.atBoundary (s : State) : Bool := decide (s.rxs.phase = .hdr2 ∧ s.rxs.hcnt = 0)

/-- R107: AWAIT leaves a frame boundary for the phase p: `RX_BUSY <- 0`, `HNEED <- 0`. -/
def State.awaitLeaves (s : State) (p : Phase) : State :=
  { s with rxs := { s.rxs with phase := p, busy := false, hneed := 0 }, rxJob := .none }

/-- R107: a transport outcome other than bytes, in any read step of AWAIT. -/
def State.awaitNoBytes (s : State) (r : RxAnswer) : State :=
  match r with
  | .bytes _   => s
  | .eof       =>
    if s.atBoundary then (s.awaitLeaves .eof).complete .rx 0x08 (.ok .ended)
    else s.rxFault 0x08 .unexpectedEof
  | .ioerror   => s.rxFault 0x08 .transportIo
  | .cancelled =>
    if s.atBoundary then (s.awaitLeaves .idle).complete .rx 0x08 (.fault .cancelled)
    else s.rxFault 0x08 .cancelled

/-- R115: a transport outcome other than bytes, in RECV. -/
def State.recvNoBytes (s : State) (r : RxAnswer) : State :=
  match r with
  | .bytes _   => s
  | .eof       => s.rxFault 0x09 .unexpectedEof
  | .ioerror   => s.rxFault 0x09 .transportIo
  | .cancelled => s.rxFault 0x09 .cancelled

/-- R114: the bytes bs have arrived for `RECV A:o, len`: store, unmask, count. -/
def State.recvBytes (s : State) (a : Addr) (bs : List Byte) : State :=
  match s.rxmaskFault a.region a.off bs.length with
  | some c => s.rxFault 0x09 c
  | none   =>
    let s := (s.memWrite a.region a.off bs).rxmaskApply a.region a.off bs.length
    State.complete { s with rxs := { s.rxs with busy := false }, rxJob := .none } .rx 0x09 (.ok (.nat bs.length))

/-- R114: the read step of RECV. -/
def State.recvStep (s : State) (a : Addr) (len : Nat) : State :=
  match rxTake len s.rxIn with
  | none                => s
  | some (.bytes bs, q) => State.recvBytes { s with rxIn := q } a bs
  | some (r, q)         => State.recvNoBytes { s with rxIn := q } r

/-- R110: the read step of AWAIT in `CTRL`, with `got` payload bytes stored. -/
def State.controlStep (s : State) (got : Nat) : State :=
  match controlSlice s.hdr.opcode with
  | none   => s.rxFault 0x08 .ctrlPathData
  | some D =>
    let k := controlCount s.hdr.opcode s.hdr.len.toNat
    match rxTake (k - got) s.rxIn with
    | none                => s
    | some (.bytes bs, q) =>
      let s := { s with rxIn := q }
      if s.accessFaults D got bs.length then s.rxFault 0x08 .bounds
      else
        let s := s.memWrite D got bs
        if k ≤ got + bs.length then s.controlHandled D k
        else { s with rxJob := .ctrl (got + bs.length) }
    | some (r, q)         => State.awaitNoBytes { s with rxIn := q } r

/-- R113: the next numbered step of the pong's SENDFRAME; when it ends, its result is ignored and R112 goes on. -/
def State.pongStep (s : State) (j : SendJob) : State :=
  match s.sendStep j with
  | .hold       => s
  | .more j' s' => { s' with rxJob := .pong j' }
  | .done _ s'  => s'.pingHandled

end Sys2Proof.Machine
end

