-- ==== Sys2Proof/Machine/Registers.lean ====
section
/-! DEFINITION. Register readback RDREG (spec/42_dispatch.md R124) and the reserved command codes
(spec/30_encoding.md R87). -/
namespace Sys2Proof.Machine

open Sys2Proof

/-- R124, R26: what a register reads as. -/
def State.readReg (s : State) (r : BitVec 4) : Result :=
  match r.toNat with
  | 0x0 => .ok (.reg32 s.cfg.word)
  | 0x1 => .ok (.reg32 (if s.hdr.valid then s.hdr.ctlWord else 0))
  | 0x2 => if s.hdr.valid then .ok (.reg64 s.hdr.len) else .fault .noHeader
  | 0x3 => if s.hdr.valid && s.hdr.masked then .ok (.reg32 s.hdr.key.word) else .fault .noHeader
  | 0x4 => if s.hdr.valid then .ok (.reg64 s.hdr.rem) else .fault .noHeader
  | 0x5 => .ok (.reg32 s.rxs.word)
  | 0x6 => .ok (.reg32 s.permit.word)
  | _   => .fault .badReg

/-- R124. -/
def execRdreg (r : BitVec 4) (s : State) : Host.Outcome State Fault Refusal :=
  .next (s.complete s.issuer 0x0E (s.readReg r))

/-- R87: "A command with a reserved code faults with `BAD_CMD` and changes no state". -/
def execReservedCmd (code : BitVec 8) (_args : List Nat) (s : State) : Host.Outcome State Fault Refusal :=
  s.raise s.issuer code .badCmd

end Sys2Proof.Machine
end

