-- ==== Sys2Proof/Machine/Dispatch.lean ====
section
/-! DEFINITION. One arm per constructor of `Instr`, each a direct call of that instruction's meaning. -/
namespace Sys2Proof.Machine

open Sys2Proof

def exec (i : Instr) (s : State) : Host.Outcome State Fault Refusal :=
  match i with
  | .cont h => Sys2Proof.Machine.execCont h s
  | .text h => Sys2Proof.Machine.execText h s
  | .binary h => Sys2Proof.Machine.execBinary h s
  | .close h => Sys2Proof.Machine.execClose h s
  | .ping h => Sys2Proof.Machine.execPing h s
  | .pong h => Sys2Proof.Machine.execPong h s
  | .reservedOp3 h => Sys2Proof.Machine.execReservedOp3 h s
  | .reservedOp4 h => Sys2Proof.Machine.execReservedOp4 h s
  | .reservedOp5 h => Sys2Proof.Machine.execReservedOp5 h s
  | .reservedOp6 h => Sys2Proof.Machine.execReservedOp6 h s
  | .reservedOp7 h => Sys2Proof.Machine.execReservedOp7 h s
  | .reservedOpB h => Sys2Proof.Machine.execReservedOpB h s
  | .reservedOpC h => Sys2Proof.Machine.execReservedOpC h s
  | .reservedOpD h => Sys2Proof.Machine.execReservedOpD h s
  | .reservedOpE h => Sys2Proof.Machine.execReservedOpE h s
  | .reservedOpF h => Sys2Proof.Machine.execReservedOpF h s
  | .hdrlen b0 b1 => Sys2Proof.Machine.execHdrlen b0 b1 s
  | .parse a n => Sys2Proof.Machine.execParse a n s
  | .opclass op => Sys2Proof.Machine.execOpclass op s
  | .emit h a => Sys2Proof.Machine.execEmit h a s
  | .mask a n k pos => Sys2Proof.Machine.execMask a n k pos s
  | .rxmask a n => Sys2Proof.Machine.execRxmask a n s
  | .retire => Sys2Proof.Machine.execRetire s
  | .await => Sys2Proof.Machine.execAwait s
  | .recv a len => Sys2Proof.Machine.execRecv a len s
  | .prepare a len fin sent op ext => Sys2Proof.Machine.execPrepare a len fin sent op ext s
  | .sendframe a n t opts => Sys2Proof.Machine.execSendframe a n t opts s
  | .closeenc c a => Sys2Proof.Machine.execCloseenc c a s
  | .closedec a k => Sys2Proof.Machine.execClosedec a k s
  | .rdreg r => Sys2Proof.Machine.execRdreg r s
  | .acquire t => Sys2Proof.Machine.execAcquire t s
  | .release => Sys2Proof.Machine.execRelease s
  | .reservedCmd code args => Sys2Proof.Machine.execReservedCmd code args s

end Sys2Proof.Machine
end

