-- ==== Sys2Proof/Machine/Sequencer.lean ====
section
/-! DEFINITION. What a turn does (notes/assumptions/1.md): issuing a command, the next step of a receive command in
progress (spec/42_dispatch.md R106), the next step of another command in progress, and the actions of the host, the
transport and the key source. Also where a table word is placed to be run next. -/
namespace Sys2Proof.Machine

open Sys2Proof

/-- R106, R108: the header in `SCRATCH` is complete; decode it and run its frame instruction. -/
def State.fetchHeader (s : State) : Host.Outcome State Fault Refusal :=
  match decode (.header (s.memRead .scratch 0 s.rxs.hcnt.toNat)) with
  | .error _ => .next (s.rxFault 0x08 .truncated)
  | .ok i    => exec i s

/-- R106: the bytes bs of a header read are stored and counted; after the second one `HNEED` is known. -/
def State.headerStored (s : State) (bs : List Byte) : State :=
  let n := s.rxs.hcnt.toNat + bs.length
  let s := s.memWrite .scratch s.rxs.hcnt.toNat bs
  if s.rxs.phase = .hdr2 ∧ n = 2 then
    { s with rxs := { s.rxs with phase := .hdrrest, hcnt := 2,
                                 hneed := BitVec.ofNat 4 (headerLength (s.readByte .scratch 1)) } }
  else { s with rxs := { s.rxs with hcnt := BitVec.ofNat 4 n } }

/-- R106: one `RxRead` of AWAIT in `HDR2` or `HDRREST`. -/
def State.headerStep (s : State) : Host.Outcome State Fault Refusal :=
  match rxTake (s.rxs.hneed.toNat - s.rxs.hcnt.toNat) s.rxIn with
  | none                => .next s
  | some (.bytes bs, q) =>
    let s := { s with rxIn := q }
    if s.accessFaults .scratch s.rxs.hcnt.toNat bs.length then .next (s.rxFault 0x08 .bounds)
    else
      let s := s.headerStored bs
      if s.rxs.phase = .hdrrest ∧ s.rxs.hcnt = s.rxs.hneed then s.fetchHeader else .next s
  | some (r, q)         => .next (State.awaitNoBytes { s with rxIn := q } r)

/-- The receive command in progress takes its next step, or waits. -/
def State.rxStep (s : State) : Host.Outcome State Fault Refusal :=
  match s.rxJob with
  | .none       => .next s
  | .header     => s.headerStep
  | .ctrl got   => .next (s.controlStep got)
  | .pong j     => .next (s.pongStep j)
  | .recv a len => .next (s.recvStep a len)

/-- R84, R17: an agent issues a command. -/
def State.issue (s : State) (a : Agent) (c : CmdRecord) : Host.Outcome State Fault Refusal :=
  match decode (.command c) with
  | .error e => .refused (.illFormedCommand e)
  | .ok i    => exec i { s with issuer := a }

/-! ### The host's own accesses to regions (notes/assumptions/13.md) -/

/-- How an access of the host ended. -/
def State.hostResult (s : State) (r : Result) : State := { s with hostResults := s.hostResults ++ [r] }

/-- R46, R62: what the host's `MemWrite(A:o, n, bytes)` faults with; with n = 0 it touches nothing. Where it both
races and runs past the end of the region, that it reports `STATE_BUSY` is the model's choice (notes/assumptions/36.md). -/
def State.hostWriteFault (s : State) (a : Addr) (n : Nat) : Option Cause :=
  if n ≠ 0 ∧ s.writeRace .host a.region then some .stateBusy
  else if s.accessFaults a.region a.off n then some .bounds
  else none

/-- The host stores bytes in a region. -/
def State.hostWrites (s : State) (a : Addr) (bs : List Byte) : State :=
  match s.hostWriteFault a bs.length with
  | some c => s.hostResult (.fault c)
  | none   => (s.memWrite a.region a.off bs).hostResult (.ok .done)

/-- The bytes of a list as cells from an offset on. -/
def cellsFrom : Nat → List Byte → List Host.Cell
  | _, []      => []
  | o, b :: bs => (o, b) :: cellsFrom (o + 1) bs

/-- The region whose buffer the host gives. -/
def HostBuf.region : HostBuf → Region
  | .dst  => .dst
  | .hbuf => .hbuf

/-- The sizes with a host buffer of n bytes. -/
def Sizes.withBuffer (z : Sizes) (b : HostBuf) (n : Nat) : Sizes :=
  match b with
  | .dst  => { z with dst := n }
  | .hbuf => { z with hbuf := n }

/-- The host hands over a DST or HBUF buffer (R39, notes/assumptions/10.md). -/
def State.hostGives (s : State) (b : HostBuf) (bs : List Byte) : State :=
  if s.writeRace .host b.region then s.hostResult (.fault .stateBusy)
  else State.hostResult { s with sizes := s.sizes.withBuffer b bs.length, mem := s.mem.set b.region (cellsFrom 0 bs) }
    (.ok .done)

/-! ### The pseudo-operations' turns (R126, R127; notes/assumptions/31.md, 35.md) -/

/-- The record of a command. -/
def commandRecord (i : Instr) : CmdRecord :=
  match encode i with
  | .command c => c
  | .header _  => ⟨0, []⟩

/-- `(s, n) = PREPARE p, len, fin, sent, op, ext`, and `SENDFRAME A:s, n, t, opts` as the next turn. A `PREPARE` that
faults returns no (s, n), so no SENDFRAME follows (notes/assumptions/31.md). That no other agent's turn comes between the two
is the model's choice of a schedule (93_implementation_defined.md I13; notes/assumptions/35.md). -/
def State.prepareAndSend (s : State) (p : Addr) (len : Nat) (fin sent : Bool) (op : BitVec 4) (ext : BitVec 3)
    (t : Timeout) (opts : Opts) : Host.Outcome State Fault Refusal :=
  match exec (.prepare p len fin sent op ext) { s with issuer := .host } with
  | .next u =>
    match u.results.getLast? with
    | some ⟨_, _, .ok (.frame start n)⟩ =>
      .next { u with turns := .command .host (commandRecord (.sendframe ⟨p.region, start⟩ n t opts)) :: u.turns }
    | _ => .next u
  | r => r

/-- R126 `PINGFRAME p, t`: the cap and the copy; its `PREPARE` and `SENDFRAME` follow unless one of them faults. That they
stand at the head of the turns is the model's choice of a schedule (notes/assumptions/35.md). -/
def State.pingFrame (s : State) (p : List Byte) (t : Timeout) : State :=
  let a : Addr := ⟨.outPing, Config.prefixSize⟩
  if Config.ctrlMax < p.length then s.hostResult (.fault .emitInvalid)
  else match s.hostWriteFault a p.length with
    | some c => s.hostResult (.fault c)
    | none   =>
      let s := s.hostWrites a p
      { s with turns := .prepareAndSend a p.length true false 0x9 0 t
                          { nolock := false, noerrors := false, ignoreclose := false } :: s.turns }

/-! ### Which turn comes next (R60; notes/assumptions/33.md) -/

/-- R17, R85, R141: the agent that runs a command issued by agent a. -/
def runner (a : Agent) : Instr → Agent
  | .parse _ _ | .rxmask _ _ | .retire | .await | .recv _ _      => .rx
  | .emit _ _ | .prepare _ _ _ _ _ _ | .sendframe _ _ _ _        => txAgent a
  | .acquire _ | .release                                        => .host
  | .hdrlen _ _ | .opclass _ | .mask _ _ _ _ | .closeenc _ _ | .closedec _ _ | .rdreg _ | .reservedCmd _ _ => a
  | .cont _ | .text _ | .binary _ | .close _ | .ping _ | .pong _ => a
  | .reservedOp3 _ | .reservedOp4 _ | .reservedOp5 _ | .reservedOp6 _ | .reservedOp7 _ => a
  | .reservedOpB _ | .reservedOpC _ | .reservedOpD _ | .reservedOpE _ | .reservedOpF _ => a

/-- The agents a command in progress holds: the one that runs it and, for the host's own SENDFRAME, the host, which goes on
after its result (R125, 70_reset_and_hazards.md R152). -/
def Pending.agents : Pending → List Agent
  | .send j    => if j.issuer = .host then [.host, .tx] else [j.issuer]
  | .acquire _ => [.host]

/-- The agents that have a command in progress. -/
def State.atWork (s : State) : List Agent :=
  s.pending.flatMap Pending.agents ++ (match s.rxJob with
                                       | .none => []
                                       | _     => [.rx])

/-- R145: is the command one of RX's five? -/
def readerCommand (i : Instr) : Bool := decide (runner .host i = .rx)

/-- The agents a command needs: RX for one of RX's own, else its issuer and the agent that runs it. -/
def needs (a : Agent) (i : Instr) : List Agent := if readerCommand i then [.rx] else [a, runner a i]

/-- R47, R62: does a command issued by agent a touch a region that is not its agent's? -/
def State.races (s : State) (a : Agent) : Instr → Bool
  | .emit _ p | .prepare p _ _ _ _ _ => s.writeRace (txAgent a) p.region
  | .sendframe p n _ _ => decide (n ≠ 0) && s.readRace (txAgent a) p.region
  | .mask p n _ _      => decide (n ≠ 0) && s.writeRace a p.region
  | .closeenc _ p      => s.writeRace a p.region
  | .closedec p k      => decide (2 ≤ k) && s.readRace a p.region
  | .parse p n         => decide (2 ≤ n) && s.readRace .rx p.region
  | .rxmask p n        => s.hdr.valid && s.hdr.masked && decide (n ≠ 0) && s.writeRace .rx p.region
  | .recv p n          => decide (n ≠ 0) && s.writeRace .rx p.region
  | .retire | .await | .acquire _ | .release | .hdrlen _ _ | .opclass _ | .rdreg _ | .reservedCmd _ _ => false
  | .cont _ | .text _ | .binary _ | .close _ | .ping _ | .pong _ => false
  | .reservedOp3 _ | .reservedOp4 _ | .reservedOp5 _ | .reservedOp6 _ | .reservedOp7 _ => false
  | .reservedOpB _ | .reservedOpC _ | .reservedOpD _ | .reservedOpE _ | .reservedOpF _ => false

/-- Does a command fault at once although its agent has another one in progress: as a race (R62), as a second reader
(R145), or as no command at all (R87)? -/
def State.faultsAtOnce (s : State) (a : Agent) (i : Instr) : Bool :=
  s.races a i || (decide (s.rxJob ≠ .none) && readerCommand i) ||
    (match i with
     | .reservedCmd _ _ => true
     | _                => false)

/-- R60: a command waits while an agent it needs has a command in progress. -/
def State.commandWaits (s : State) (a : Agent) (i : Instr) : Bool :=
  (needs a i).any (fun g => decide (g ∈ s.atWork)) && !s.faultsAtOnce a i

/-- Does a turn wait for a command in progress? Only an agent's or the host's own do. -/
def State.turnWaits (s : State) : Turn → Bool
  | .command a c =>
    match decode (.command c) with
    | .ok i    => s.commandWaits a i
    | .error _ => false
  | .prepareAndSend p len fin sent op ext _ _ => s.commandWaits .host (.prepare p len fin sent op ext)
  | .pingFrame _ _ | .hostWrite _ _ | .giveBuffer _ _ => decide (.host ∈ s.atWork)
  | .rx | .pending _ | .giveUp _ | .setCanSend _ | .rxArrive _ | .txReply _ | .drawKey _ => false

/-- The agent in whose order a turn comes: RX for its own commands, else the issuer; none for the steps of commands in
progress and for the environment. -/
def Turn.queue : Turn → Option Agent
  | .command a c =>
    match decode (.command c) with
    | .ok i    => some (if readerCommand i then .rx else a)
    | .error _ => some a
  | .prepareAndSend _ _ _ _ _ _ _ _ | .pingFrame _ _ | .hostWrite _ _ | .giveBuffer _ _ => some .host
  | .rx | .pending _ | .giveUp _ | .setCanSend _ | .rxArrive _ | .txReply _ | .drawKey _ => none

/-- The first turn that does not wait, and the others. An agent's later turns wait behind one of its turns that does;
`behind` lists these agents. -/
def State.nextTurn (s : State) (behind : List Agent) : List Turn → Option (Turn × List Turn)
  | []      => none
  | t :: ts =>
    if s.turnWaits t || t.queue.any (fun a => decide (a ∈ behind)) then
      (s.nextTurn (t.queue.toList ++ behind) ts).map fun u => (u.1, t :: u.2)
    else some (t, ts)

/-- What a turn does. -/
def State.runTurn (s : State) (t : Turn) : Host.Outcome State Fault Refusal :=
  match t with
  | .command a c      => s.issue a c
  | .rx               => s.rxStep
  | .pending k        => .next (s.pendingStep k)
  | .giveUp k         => .next (s.giveUpStep k)
  | .hostWrite a bs   => .next (s.hostWrites a bs)
  | .giveBuffer b bs  => .next (s.hostGives b bs)
  | .prepareAndSend p len fin sent op ext t opts => s.prepareAndSend p len fin sent op ext t opts
  | .pingFrame p t    => .next (s.pingFrame p t)
  | .setCanSend b     => .next { s with canSend := b }
  | .rxArrive a       => .next { s with rxIn := s.rxIn ++ [a] }
  | .txReply a        => .next { s with txIn := s.txIn ++ [a] }
  | .drawKey k        => .next { s with keyDraws := s.keyDraws ++ [k] }

/-! ### Placing a table word (notes/assumptions/2.md) -/

/-- The command record of a one-byte table word: its code and the zero operands its row names. -/
def tableRecord (w : Nat) : CmdRecord :=
  match readCommand (BitVec.ofNat 8 w) zeroArgs with
  | .ok (i, _) => commandRecord i
  | .error _   => ⟨0, []⟩

/-- A command is placed as the next turn; where it would wait for a command in progress, none is. -/
def State.placeCommand (s : State) (c : CmdRecord) : State :=
  let t := Turn.command s.issuer c
  let s := if s.turnWaits t then { s with pending := [], rxJob := .none, rxs := { s.rxs with busy := false } } else s
  { s with turns := t :: s.turns }

/-- A frame header is placed as the bytes AWAIT is about to finish reading: AWAIT is in progress at a frame boundary,
or with the first two bytes stored when the header is longer, and the rest is the transport's next answer. -/
def State.placeHeader (s : State) (bs : List Byte) : State :=
  let h := headerLength (bs.getD 1 0)
  let s := s.awaitStart
  let s := { s with rxs := { s.rxs with fault := false, cause := .noFault }, turns := .rx :: s.turns }
  if h = 2 then { s with rxIn := .bytes (bs.take 2) :: s.rxIn }
  else
    let s := s.memWrite .scratch 0 (bs.take 2)
    { s with rxIn := .bytes ((bs.take h).drop 2) :: s.rxIn,
             rxs := { s.rxs with phase := .hdrrest, hcnt := 2, hneed := BitVec.ofNat 4 h } }

/-- The table word, placed where the next step takes its instruction from. -/
def State.placeTableWord (s : State) (nbits w : Nat) : State :=
  if tableWordIsCommand nbits then s.placeCommand (tableRecord w)
  else s.placeHeader (tableBytes (w % 2 ^ nbits))

end Sys2Proof.Machine
end

