-- ==== Sys2Proof/Machine/Step.lean ====
section
/-! DEFINITION. One step of the machine: the next turn of the environment's script that need not wait
(notes/assumptions/1.md, 33.md). -/
namespace Sys2Proof.Machine

open Sys2Proof

/-- One atomic step (00_scope.md R5, 20_memory.md R58). "The block is reactive: it acts only when a command is issued,
or when the transport or the permit answers an agent that is holding" (60_exceptions.md R136): without a turn that can be
taken nothing changes. -/
def step (s : State) : Host.Outcome State Fault Refusal :=
  match s.nextTurn [] s.turns with
  | none         => .next s
  | some (t, ts) => State.runTurn { s with turns := ts } t

/-- s with a word of the opcode table placed so that the very next step runs it. -/
def State.withFetchWord (s : State) (nbits w : Nat) : State := s.placeTableWord nbits w

end Sys2Proof.Machine
end

