-- ==== Sys2Proof/Machine/Pseudo.lean ====
section
/-! DEFINITION. The host's pseudo-operations (spec/30_encoding.md R89; spec/42_dispatch.md R125 to R127): each is a
fixed sequence of commands, here the turns the host contributes. The turns of the environment and of a command that waits
(`Turn.pending`, `Turn.txReply`) come between them. PONGECHO (R113) is no host sequence: it is `State.pongEcho`. -/
namespace Sys2Proof.Machine

open Sys2Proof

/-- A command of the host, as a turn. -/
def hostCommand (i : Instr) : Turn := .command .host (commandRecord i)

/-- R125 `CLOSEFRAME c`. `SENDFRAME` has no timeout there; with `NOLOCK` it is not read. -/
def closeFrame (c : BitVec 16) : List Turn :=
  [hostCommand (.acquire .inf), hostCommand (.closeenc c ⟨.outClose, Config.prefixSize⟩),
   .prepareAndSend ⟨.outClose, Config.prefixSize⟩ 2 true false 0x8 0 .zero
     { nolock := true, noerrors := true, ignoreclose := true },
   hostCommand .release]

/-- R126 `PINGFRAME p, t`. -/
def pingFrame (p : List Byte) (t : Timeout) : List Turn := [.pingFrame p t]

/-- R127 `DATAFRAME`, the payload already in `SEND[16 .. 16+len)`. -/
def dataFrame (len : Nat) (fin sent : Bool) (op : BitVec 4) (ext : BitVec 3) (t : Timeout) (opts : Opts) : List Turn :=
  [.prepareAndSend ⟨.send, Config.prefixSize⟩ len fin sent op ext t opts]

end Sys2Proof.Machine
end

