-- ==== Sys2Proof/Safety.lean ====
section
/-! DEFINITION. What the statements say of states: frames, the invariant every step keeps (spec/10_state.md R25, R28, R30;
spec/20_memory.md R39, R46), and what happens only once. -/
namespace Sys2Proof.Machine

open Sys2Proof

/-! ### What a command leaves -/

/-- s with one more command result and nothing else changed. -/
def ended (s : State) (a : Agent) (cmd : BitVec 8) (r : Result) : State :=
  { s with results := s.results ++ [⟨a, cmd, r⟩] }

/-- The command ends with the fault c and writes nothing (60_exceptions.md R130). -/
def faultsWith (i : Instr) (s : State) (a : Agent) (cmd : BitVec 8) (c : Cause) : Prop :=
  exec i s = .next (ended s a cmd (.fault c))

/-- The writes of `rx_fault(c)` (42_dispatch.md R109) and its result, and nothing else. -/
def stickyFaulted (s : State) (cmd : BitVec 8) (c : Cause) : State :=
  { s with
    rxs     := { phase := .faulted, busy := false, fault := true, cause := c, hcnt := 0, hneed := 0 }
    hdr     := { s.hdr with valid := false }
    rxJob   := .none
    events  := s.events ++ [.faultRx c]
    results := s.results ++ [⟨.rx, cmd, .fault c⟩] }

/-- Every byte of every region but `A[lo .. hi)` reads in t as it reads in s. -/
def bytesKeptOutside (s t : State) (A : Region) (lo hi : Nat) : Prop :=
  ∀ B x, ¬ (B = A ∧ lo ≤ x ∧ x < hi) → t.readByte B x = s.readByte B x

/-- Every byte of every region reads in t as it reads in s. -/
def bytesKept (s t : State) : Prop := ∀ B x, t.readByte B x = s.readByte B x

/-- `A[o .. o + bs.length)` holds bs in t. -/
def bytesAre (t : State) (A : Region) (o : Nat) (bs : List Byte) : Prop :=
  ∀ i, (h : i < bs.length) → t.readByte A (o + i) = bs[i]

/-- n steps, one after the other. -/
def steps : Nat → State → Host.Outcome State Fault Refusal
  | 0, s => .next s
  | n + 1, s =>
    match step s with
    | .next t    => steps n t
    | .fault f   => .fault f
    | .refused r => .refused r

/-- The RXMASKs of a payload that arrives in chunks of the sizes ns (41_mask_engine.md R103). -/
def rxmaskChunks (A : Region) : Nat → List Nat → State → Host.Outcome State Fault Refusal
  | _, [], s => .next s
  | o, n :: ns, s =>
    match exec (.rxmask ⟨A, o⟩ n) s with
    | .next t    => rxmaskChunks A (o + n) ns t
    | .fault f   => .fault f
    | .refused r => .refused r

/-! ### The wire, byte by byte -/

/-- The length7 of the shortest form (30_encoding.md R74). -/
def wireLen7 (len : Nat) : Nat := if len ≤ 125 then len else if len ≤ 65535 then 126 else 127

/-- The extended length of the shortest form, most significant byte first (40_header_codec.md R95). -/
def wireExt (len : Nat) : List Byte :=
  if len ≤ 125 then []
  else if len ≤ 65535 then [BitVec.ofNat 8 (len / 0x100), BitVec.ofNat 8 len]
  else [BitVec.ofNat 8 (len / 0x100000000000000), BitVec.ofNat 8 (len / 0x1000000000000),
        BitVec.ofNat 8 (len / 0x10000000000), BitVec.ofNat 8 (len / 0x100000000),
        BitVec.ofNat 8 (len / 0x1000000), BitVec.ofNat 8 (len / 0x10000),
        BitVec.ofNat 8 (len / 0x100), BitVec.ofNat 8 len]

/-- 40_header_codec.md R95: E, the header bytes. -/
def wireHeader (fin : Bool) (rsv : BitVec 3) (op : BitVec 4) (len : Nat) (key : Option Key) : List Byte :=
  [BitVec.ofNat 8 (fin.toNat * 128 + rsv.toNat * 16 + op.toNat),
   BitVec.ofNat 8 (key.isSome.toNat * 128 + wireLen7 len)]
  ++ wireExt len ++ (match key with
                     | none   => []
                     | some k => [k.k0, k.k1, k.k2, k.k3])

/-- 41_mask_engine.md R96: the payload bytes XORed with the key, from stream position 0. -/
def maskedBytes (k : Key) (payload : List Byte) : List Byte := payload.mapIdx fun i b => b ^^^ keyAt k i

/-- 20_memory.md R50: "bytes on the wire equal `emit(header) ++ mask(payload, key)`". -/
def wireFrame (fin : Bool) (rsv : BitVec 3) (op : BitVec 4) (key : Option Key) (payload : List Byte) : List Byte :=
  wireHeader fin rsv op payload.length key ++ (match key with
                                               | none   => payload
                                               | some k => maskedBytes k payload)

/-- The bytes a masked frame carries, unmasked; the same bytes when it is not masked. -/
def unmasked (h : Hdr) (payload : List Byte) : List Byte :=
  if h.masked then maskedBytes h.key payload else payload

/-! ### Header checks and control frames -/

/-- 40_header_codec.md R91: no data frame has payload bytes to deliver. -/
def nothingOwed (s : State) : Prop := ¬ (s.hdr.valid = true ∧ s.hdr.rem ≠ 0)

/-- R91: the opcodes with a length limit and a FIN rule. -/
def isControl (op : BitVec 4) : Prop := op = 0x8#4 ∨ op = 0x9#4 ∨ op = 0xA#4

/-- R91: the header passes the checks besides the opcode's. -/
def frameAccepted (c : Cfg) (op : BitVec 4) (h : FrameHdr) : Prop :=
  h.rsv &&& ~~~c.rsvAllowed = 0#3 ∧ (isControl op → h.len.value ≤ 125 ∧ h.fin = true) ∧
  h.len.value < 0x8000000000000000

/-- R91: `HDR` holds the header with its opcode, all of its payload still to come. -/
def hdrHolds (r : Hdr) (op : BitVec 4) (h : FrameHdr) : Prop :=
  r.valid = true ∧ r.fin = h.fin ∧ r.rsv = h.rsv ∧ r.opcode = op ∧ r.masked = h.key.isSome ∧
  r.len.toNat = h.len.value ∧ r.rem.toNat = h.len.value ∧ (∀ k, h.key = some k → r.key = k)

/-- 42_dispatch.md R113: RX has built the pong for the payload in `OUT_PONG` and its SENDFRAME is about to acquire the
permit; s is the state before. -/
def pongReady (s t : State) (payload : List Byte) : Prop :=
  ∃ key : Option Key,
    (key.isSome = s.cfg.maskOut) ∧ (∀ k, key = some k → k ≠ ⟨0, 0, 0, 0⟩) ∧
    let hl := (wireHeader true 0#3 0xA#4 payload.length key).length
    bytesAre t .outPong (16 - hl) (wireFrame true 0#3 0xA#4 key payload) ∧
    (∀ x, ¬ (16 - hl ≤ x ∧ x < 16 + payload.length) → t.readByte .outPong x = s.readByte .outPong x) ∧
    t.rxJob = .pong { issuer := .rx, addr := ⟨.outPong, 16 - hl⟩, n := hl + payload.length, timeout := .inf,
                      opts := { nolock := false, noerrors := true, ignoreclose := false }, stage := .acquire }

/-! ### The invariant -/

/-- Every listed offset lies inside its region (R46). -/
def Memory.inside (m : Memory) (z : Sizes) : Prop := ∀ A c, c ∈ m.get A → c.1 < z.of A

/-- R25 (a) to (d). -/
def HdrInv (c : Cfg) (h : Hdr) : Prop :=
  h.valid = true →
    h.rem.toNat ≤ h.len.toNat ∧ h.len.toNat ≤ 0x7FFFFFFFFFFFFFFF ∧
    (opClass h.opcode = .control → h.fin = true ∧ h.len.toNat ≤ 125) ∧
    opClass h.opcode ≠ .reserved ∧
    h.rsv &&& ~~~c.rsvAllowed = 0#3

/-- R28, R30: `FAULTED` exactly with `FAULT` = 1; `CAUSE` is 0 exactly with `FAULT` = 0. -/
def FaultInv (r : RxStatus) : Prop :=
  (r.phase = .faulted ↔ r.fault = true) ∧ (r.cause = .noFault ↔ r.fault = false)

/-- R46: the frame of a SENDFRAME in progress lies inside its region. -/
def SendInv (z : Sizes) (j : SendJob) : Prop := j.n = 0 ∨ j.addr.off + j.n ≤ z.of j.addr.region

/-- R28, R30: what the receive command in progress fixes of phase, counts and header. -/
def JobInv (s : State) : Prop :=
  match s.rxJob with
  | .none =>
    s.rxs.busy = false ∧ s.rxs.hcnt = 0 ∧ s.rxs.hneed = 0 ∧
    (s.rxs.phase = .idle ∨ s.rxs.phase = .data ∨ s.rxs.phase = .eof ∨ s.rxs.phase = .closed ∨
      s.rxs.phase = .faulted)
  | .header =>
    s.rxs.busy = true ∧ s.hdr.valid = false ∧
    ((s.rxs.phase = .hdr2 ∧ s.rxs.hcnt.toNat < 2 ∧ s.rxs.hneed = 2) ∨
     (s.rxs.phase = .hdrrest ∧ 2 ≤ s.rxs.hcnt.toNat ∧ s.rxs.hcnt.toNat < s.rxs.hneed.toNat ∧
       s.rxs.hneed.toNat = headerLength (s.readByte .scratch 1)))
  | .ctrl got =>
    s.rxs.busy = true ∧ s.rxs.phase = .ctrl ∧ s.rxs.hcnt = 0 ∧ s.rxs.hneed = 0 ∧
    s.hdr.valid = true ∧ opClass s.hdr.opcode = .control ∧ s.hdr.rem = s.hdr.len ∧
    got < controlCount s.hdr.opcode s.hdr.len.toNat
  | .pong j =>
    s.rxs.busy = true ∧ s.rxs.phase = .ctrl ∧ s.rxs.hcnt = 0 ∧ s.rxs.hneed = 0 ∧
    s.hdr.valid = true ∧ s.hdr.opcode = 0x9#4 ∧ s.hdr.rem = 0 ∧
    j.issuer = .rx ∧ j.addr.region = .outPong ∧ SendInv s.sizes j ∧ j.timeout = .inf ∧
    j.opts = { nolock := false, noerrors := true, ignoreclose := false }
  | .recv a len =>
    s.rxs.busy = true ∧ s.rxs.phase = .data ∧ s.rxs.hcnt = 0 ∧ s.rxs.hneed = 0 ∧
    s.hdr.valid = true ∧ 0 < len ∧ len ≤ s.hdr.rem.toNat ∧ a.off + len ≤ s.sizes.of a.region

/-- The invariant of every step. -/
structure State.Inv (s : State) : Prop where
  /-- R25 -/
  hdr     : HdrInv s.cfg s.hdr
  /-- R28, R30 -/
  fault   : FaultInv s.rxs
  /-- R30: in `DATA` a header is current. -/
  data    : s.rxs.phase = .data → s.hdr.valid = true
  /-- 42_dispatch.md R109, 70_reset_and_hazards.md R154: in `FAULTED` no header is. -/
  dropped : s.rxs.phase = .faulted → s.hdr.valid = false
  /-- R28, R30 -/
  job     : JobInv s
  /-- R46 -/
  pending : ∀ j, Pending.send j ∈ s.pending → SendInv s.sizes j
  /-- R44 -/
  sizes   : 125 ≤ s.sizes.nCtrlIn ∧ 125 ≤ s.sizes.nCtrlOut
  /-- 20_memory.md R39: the canonical form of memory. -/
  memWf   : s.mem.wf = true
  /-- R46 -/
  inside  : s.mem.inside s.sizes

/-! ### The agents: the write permit, commands in progress, ownership -/

/-- Does a SENDFRAME at this step hold the permit it acquired for RX? -/
def SendJob.holdsForRx (j : SendJob) : Bool :=
  decide (j.issuer = .rx) && !j.opts.nolock && decide (j.stage ≠ .acquire)

def Pending.holdsForRx : Pending → Bool
  | .send j    => j.holdsForRx
  | .acquire _ => false

/-- How many SENDFRAMEs in progress hold the permit for RX, the pong echo's among them. -/
def State.rxHolders (s : State) : Nat :=
  s.pending.countP Pending.holdsForRx
  + (match s.rxJob with
     | .pong j => if j.holdsForRx then 1 else 0
     | _ => 0)

/-- 10_state.md R32: `PERMIT` = 2 exactly while one SENDFRAME holds the permit for RX; 42_dispatch.md R122: a SENDFRAME with
`NOLOCK` does not wait for the permit. -/
def PermitInv (s : State) : Prop :=
  s.rxHolders = (if s.permit = .rx then 1 else 0) ∧
  ∀ j, Pending.send j ∈ s.pending → j.stage = .acquire → j.opts.nolock = false

/-- What keeps the agents apart, beside the permit. -/
structure AgentInv (s : State) : Prop where
  permit : PermitInv s
  /-- 20_memory.md R60: an agent has at most one command in progress. -/
  oneEach : s.atWork.Nodup
  /-- R39, R47: only RX sends from a region RX owns at all times. -/
  owned  : ∀ j, Pending.send j ∈ s.pending → j.n ≠ 0 → rxRegion j.addr.region = true → j.issuer = .rx
  /-- R61: what the receive command in progress uses, no SENDFRAME sends from. -/
  apart  : ∀ A, s.rxOwns A = true → s.sendOwns A = false

end Sys2Proof.Machine
end

