-- ==== Sys2Proof/Certificates/Slice0/Obligations.lean ====
section
/-! DEFINITION. The statements for the provers, each named after what it states. -/

open Sys2Proof Sys2Proof.Machine

/-! ### Reset, decoding, stepping -/

/-- 70_reset_and_hazards.md R142: the table of reset values, for every choice of the parameters; "any value" of a region
byte is the free value of notes/assumptions/6.md. -/
def Obligations.ResetLeavesTheTable : Prop :=
  ∀ p : Config.Params, p.valid = true →
    let s := State.resetWith p
    s.cfg = { maskOut := p.maskOut, rsvAllowed := p.rsvAllowed } ∧
    s.hdr.valid = false ∧
    s.rxs = { phase := .idle, busy := false, fault := false, cause := .noFault, hcnt := 0, hneed := 0 } ∧
    s.permit = .free ∧
    s.cfg.word &&& 0xFFFFFF8E#32 = 0#32 ∧
    s.readReg 0x1 = .ok (.reg32 0) ∧ s.readReg 0x5 = .ok (.reg32 0) ∧ s.readReg 0x6 = .ok (.reg32 0) ∧
    s.readReg 0x2 = .fault .noHeader ∧ s.readReg 0x3 = .fault .noHeader ∧ s.readReg 0x4 = .fault .noHeader ∧
    (∀ A o, s.readByte A o = Config.initByte A o) ∧
    s.rxJob = .none ∧ s.pending = [] ∧ s.txOut = [] ∧ s.events = []

/-- 70_reset_and_hazards.md R143; `State.reset` takes the parameters of notes/assumptions/5.md. -/
def Obligations.ResetMeetsInvariant : Prop :=
  (∀ p : Config.Params, p.valid = true → (State.resetWith p).Inv ∧ AgentInv (State.resetWith p)) ∧
  Config.defaultParams.valid = true ∧ State.reset = State.resetWith Config.defaultParams

/-- Every step from a state with the invariant leads to one with the invariant: 10_state.md R25 (a) to (d), R28, R30;
42_dispatch.md R109; 20_memory.md R46; the canonical form of memory. That no header is loaded in `FAULTED` rests, for a PARSE of
the host, on notes/assumptions/26.md. -/
def Obligations.StepKeepsInvariant : Prop :=
  ∀ s t : State, s.Inv → step s = .next t → t.Inv

/-- 10_state.md R32: `PERMIT` is 2 exactly while one SENDFRAME holds the permit for RX; 20_memory.md R60: an agent has at most
one command in progress (notes/assumptions/33.md); R61: what the receive command in progress uses, no SENDFRAME sends from.
Every step keeps it so. -/
def Obligations.StepKeepsRxPermitHolder : Prop :=
  ∀ s t : State, s.Inv → AgentInv s → step s = .next t → AgentInv t

/-- Encoding and decoding agree on every well-formed instruction. -/
def Obligations.DecodeOfEncode : Prop :=
  ∀ i : Instr, i.wellFormed = true → decode (encode i) = .ok i

/-- No two words decode to one instruction, and only well-formed instructions are decoded. How a command record numbers its
operands is the model's choice (notes/assumptions/3.md). -/
def Obligations.EncodeOfDecode : Prop :=
  ∀ (w : Words) (i : Instr), decode w = .ok i → i.wellFormed = true ∧ encode i = w

/-- Words written out from 30_encoding.md R70 to R76 and R85. -/
def Obligations.WordsDecodeAsWritten : Prop :=
  decode (.header [0x81, 0x82, 0x37, 0xFA, 0x21, 0x3D])
    = .ok (.text { fin := true, rsv := 0, len := .short 2, key := some ⟨0x37, 0xFA, 0x21, 0x3D⟩ }) ∧
  decode (.header [0x02, 0x7E, 0x01, 0x00]) = .ok (.binary { fin := false, rsv := 0, len := .ext16 256, key := none }) ∧
  decode (.header [0xC8, 0x00]) = .ok (.close { fin := true, rsv := 0b100, len := .short 0, key := none }) ∧
  decode (.header [0x83, 0x7F, 0, 0, 0, 0, 0, 1, 0, 0])
    = .ok (.reservedOp3 { fin := true, rsv := 0, len := .ext64 65536, key := none }) ∧
  decode (.header [0x81, 0x7E, 0x01]) = .error .truncatedHeader ∧
  decode (.command ⟨0x03, [0x9]⟩) = .ok (.opclass 0x9) ∧
  decode (.command ⟨0x10, []⟩) = .ok .release ∧
  decode (.command ⟨0x11, [5]⟩) = .ok (.reservedCmd 0x11 [5])

/-- A command whose agents are free, or that faults although one is not, is issued and runs the instruction its record decodes
to; while an agent it needs has a command in progress it waits, and the turns of others are taken before it (20_memory.md
R60). The turns and the form of the waiting are the model's (notes/assumptions/1.md, 33.md). -/
def Obligations.StepRunsTheIssuedCommand : Prop :=
  ∀ (s : State) (ts : List Turn) (a : Agent) (c : CmdRecord) (i : Instr),
    s.turns = .command a c :: ts → decode (.command c) = .ok i →
    ((∀ g ∈ needs a i, g ∉ s.atWork) ∨ s.faultsAtOnce a i = true →
      step s = exec i { s with turns := ts, issuer := a }) ∧
    ((∃ g ∈ needs a i, g ∈ s.atWork) → s.faultsAtOnce a i = false →
      (ts = [] → step s = .next s) ∧
      (∀ u us, ts = u :: us → s.turnWaits u = false → (∀ g, u.queue = some g → (Turn.command a c).queue ≠ some g) →
        step s = State.runTurn { s with turns := .command a c :: us } u))

/-- 42_dispatch.md R106: when the bytes that arrive complete the header, AWAIT stores them and runs the instruction the
header decodes to; a header longer than 2 bytes from `HDRREST`, a 2-byte header straight from `HDR2`. -/
def Obligations.StepRunsTheArrivedHeader : Prop :=
  ∀ (s : State) (ts : List Turn) (bs : List Byte) (q : List RxAnswer) (i : Instr),
    s.turns = .rx :: ts → s.rxJob = .header → bs ≠ [] → s.rxIn = .bytes bs :: q →
    s.rxs.hcnt.toNat + bs.length = s.rxs.hneed.toNat →
    (s.rxs.phase = .hdrrest ∨ s.rxs.phase = .hdr2 ∧ s.rxs.hneed = 2) →
    decode (.header (s.memRead .scratch 0 s.rxs.hcnt.toNat ++ bs)) = .ok i →
    step s = exec i { s with turns := ts, rxIn := q, mem := (s.memWrite .scratch s.rxs.hcnt.toNat bs).mem,
                             rxs := { s.rxs with phase := .hdrrest, hcnt := s.rxs.hneed } }

/-- 00_scope.md R11 `hold`, 60_exceptions.md R136: without a command, an answer or a free permit nothing changes but the
turn taken (notes/assumptions/22.md). -/
def Obligations.WaitingChangesNothing : Prop :=
  ∀ (s : State) (ts : List Turn),
    (s.turns = [] → step s = .next s) ∧
    (s.turns = .rx :: ts → s.rxJob = .none → step s = .next { s with turns := ts }) ∧
    (s.turns = .rx :: ts → (s.rxJob = .header ∨ (∃ a len, s.rxJob = .recv a len) ∨
        (∃ got, s.rxJob = .ctrl got ∧ isControl s.hdr.opcode)) →
      s.rxIn = [] → step s = .next { s with turns := ts }) ∧
    (∀ j, s.turns = .rx :: ts → s.rxJob = .pong j → (j.stage = .acquire ∧ s.permit ≠ .free ∨
        j.stage = .write ∧ s.txIn = []) → step s = .next { s with turns := ts }) ∧
    (∀ k j, s.turns = .pending k :: ts → s.pending[k]? = some (.send j) → (j.stage = .acquire ∧ s.permit ≠ .free ∨
        j.stage = .write ∧ s.txIn = []) → step s = .next { s with turns := ts }) ∧
    (∀ k t, s.turns = .pending k :: ts → s.pending[k]? = some (.acquire t) → s.permit ≠ .free →
      step s = .next { s with turns := ts })

/-! ### Register-only commands -/

/-- 40_header_codec.md R90. -/
def Obligations.HdrlenResult : Prop :=
  ∀ (b0 b1 : Byte) (s : State),
    let h := 2 + (if b1.toNat % 128 = 126 then 2 else 0) + (if b1.toNat % 128 = 127 then 8 else 0)
               + (if 128 ≤ b1.toNat then 4 else 0)
    exec (.hdrlen b0 b1) s = .next (ended s s.issuer 0x01 (.ok (.nat h))) ∧ h ∈ [2, 4, 6, 8, 10, 14]

/-- 40_header_codec.md R94. -/
def Obligations.OpclassResult : Prop :=
  ∀ (op : BitVec 4) (s : State),
    exec (.opclass op) s = .next (ended s s.issuer 0x03 (.ok (.cls
      (if op.toNat ∈ [0x0, 0x1, 0x2] then .data else if op.toNat ∈ [0x8, 0x9, 0xA] then .control else .reserved)))) ∧
    OpClass.data.code = 0 ∧ OpClass.control.code = 1 ∧ OpClass.reserved.code = 2

/-- 30_encoding.md R87, 60_exceptions.md R131: a reserved code is `BAD_CMD`, whatever operands came with it. -/
def Obligations.ReservedCommandFaults : Prop :=
  ∀ (code : BitVec 8) (args : List Nat), (code.toNat = 0 ∨ 0x11 ≤ code.toNat) →
    decode (.command ⟨code, args⟩) = .ok (.reservedCmd code args) ∧
    ∀ s : State, faultsWith (.reservedCmd code args) s s.issuer code .badCmd

/-- 42_dispatch.md R124: every register number; the words by the bit positions of 10_state.md R19, R21, R28, R32. -/
def Obligations.RdregReadsEveryRegister : Prop :=
  ∀ s : State,
    let reads := fun (r : BitVec 4) (v : Value) => exec (.rdreg r) s = .next (ended s s.issuer 0x0E (.ok v))
    let fails := fun (r : BitVec 4) (c : Cause) => faultsWith (.rdreg r) s s.issuer 0x0E c
    (∃ v, reads 0x0 (.reg32 v) ∧ v.toNat = s.cfg.maskOut.toNat + 16 * s.cfg.rsvAllowed.toNat) ∧
    (∃ v, reads 0x1 (.reg32 v) ∧
      v.toNat = if s.hdr.valid then s.hdr.opcode.toNat + 16 * s.hdr.rsv.toNat + 128 * s.hdr.fin.toNat
                                  + 256 * s.hdr.masked.toNat + 32768
                else 0) ∧
    (if s.hdr.valid then reads 0x2 (.reg64 s.hdr.len) else fails 0x2 .noHeader) ∧
    (if s.hdr.valid ∧ s.hdr.masked then
       ∃ v, reads 0x3 (.reg32 v) ∧
         v.toNat = s.hdr.key.k0.toNat * 2 ^ 24 + s.hdr.key.k1.toNat * 2 ^ 16 + s.hdr.key.k2.toNat * 2 ^ 8
                   + s.hdr.key.k3.toNat
     else fails 0x3 .noHeader) ∧
    (if s.hdr.valid then reads 0x4 (.reg64 s.hdr.rem) else fails 0x4 .noHeader) ∧
    (∃ v, reads 0x5 (.reg32 v) ∧
      v.toNat = s.rxs.phase.code.toNat + 16 * s.rxs.busy.toNat + 128 * s.rxs.fault.toNat
                + 2 ^ 8 * s.rxs.cause.code.toNat + 2 ^ 16 * s.rxs.hcnt.toNat + 2 ^ 20 * s.rxs.hneed.toNat) ∧
    (∃ v, reads 0x6 (.reg32 v) ∧ v.toNat = s.permit.code.toNat) ∧
    (∀ r : BitVec 4, 0x7 ≤ r.toNat → fails r .badReg)

/-- 10_state.md R30, R32 and 60_exceptions.md R128: the numbers of the phases, permit holders and causes. -/
def Obligations.CodesAreNumberedAsWritten : Prop :=
  [Phase.idle, .hdr2, .hdrrest, .ctrl, .data, .eof, .closed, .faulted].map Phase.code = [0, 1, 2, 3, 4, 5, 6, 7] ∧
  [Permit.free, .host, .rx].map Permit.code = [0, 1, 2] ∧
  [Cause.noFault, .rsvNotPermitted, .badOpcode, .ctrlTooLong, .ctrlFragmented, .len64Msb, .ctrlPathData,
   .unexpectedEof, .transportIo, .cancelled, .truncated, .rxOverrun, .bounds, .emitInvalid, .stateBusy, .statePending,
   .noHeader, .retireNegative, .badCmd, .notReceiving, .badReg, .txIo, .txCancelled, .notHeld, .closedTx].map Cause.code
    = [0, 1, 2, 3, 4, 5, 6, 8, 9, 10, 16, 17, 18, 19, 20, 21, 22, 23, 24, 25, 26, 27, 28, 29, 30]

/-! ### The header codec -/

/-- 40_header_codec.md R91, R92: what PARSE loads, and which fault it reports when a check fails. The races (R62,
notes/assumptions/11.md), the sticky cause repeated in `FAULTED` (notes/assumptions/26.md) and n above 16
(notes/assumptions/30.md) are the model's reading. -/
def Obligations.ParseLoadsOrReportsFirstFailure : Prop :=
  ∀ (a : Addr) (n : Nat) (s : State),
    let b := fun i => s.readByte a.region (a.off + i)
    let h := headerLength (b 1)
    let op := (b 0).extractLsb' 0 4
    let fin := (b 0).getLsbD 7
    let rsv := (b 0).extractLsb' 4 3
    let l7 := (b 1).toNat % 128
    let len := if l7 = 126 then (b 2).toNat * 256 + (b 3).toNat
               else if l7 = 127 then
                 (b 2).toNat * 256 ^ 7 + (b 3).toNat * 256 ^ 6 + (b 4).toNat * 256 ^ 5 + (b 5).toNat * 256 ^ 4
                 + (b 6).toNat * 256 ^ 3 + (b 7).toNat * 256 ^ 2 + (b 8).toNat * 256 + (b 9).toNat
               else l7
    let fails := faultsWith (.parse a n) s .rx 0x02
    if s.rxs.busy then fails .stateBusy
    else if 2 ≤ n ∧ s.readRace .rx a.region = true then fails .stateBusy
    else if s.rxs.phase = .faulted then fails s.rxs.cause
    else if s.hdr.valid ∧ s.hdr.rem ≠ 0 then fails .statePending
    else if n < 2 then fails .truncated
    else if s.size a.region < a.off + 2 then fails .bounds
    else if n < h then fails .truncated
    else if s.size a.region < a.off + h then fails .bounds
    else if rsv &&& ~~~s.cfg.rsvAllowed ≠ 0#3 then fails .rsvNotPermitted
    else if op.toNat ∉ [0x0, 0x1, 0x2, 0x8, 0x9, 0xA] then fails .badOpcode
    else if op.toNat ∈ [0x8, 0x9, 0xA] ∧ 125 < len then fails .ctrlTooLong
    else if op.toNat ∈ [0x8, 0x9, 0xA] ∧ fin = false then fails .ctrlFragmented
    else if l7 = 127 ∧ (b 2).getLsbD 7 = true then fails .len64Msb
    else ∃ t, exec (.parse a n) s = .next t ∧
      t.hdr.valid = true ∧ t.hdr.fin = fin ∧ t.hdr.rsv = rsv ∧ t.hdr.opcode = op ∧
      t.hdr.masked = (b 1).getLsbD 7 ∧ t.hdr.len.toNat = len ∧ t.hdr.rem.toNat = len ∧
      (t.hdr.masked = true → t.hdr.key = ⟨b (h - 4), b (h - 3), b (h - 2), b (h - 1)⟩) ∧
      t.results = s.results ++ [⟨.rx, 0x02, .ok (.nat h)⟩] ∧
      { t with hdr := s.hdr, results := s.results } = s

/-- 40_header_codec.md R91: where PARSE completes, on the state and the operands alone: in every phase but `FAULTED`
(notes/assumptions/26.md) and on a region no other agent owns (R47, notes/assumptions/11.md). -/
def Obligations.ParseCompletes : Prop :=
  ∀ (a : Addr) (n : Nat) (s : State) (op : BitVec 4) (f : FrameHdr),
    s.rxs.busy = false → s.rxs.phase ≠ .faulted → s.readRace .rx a.region = false → nothingOwed s →
    f.wellFormed = true → frameAccepted s.cfg op f →
    op.toNat ∈ [0x0, 0x1, 0x2, 0x8, 0x9, 0xA] → bytesAre s a.region a.off (encodeHeader op f) →
    (encodeHeader op f).length ≤ n → a.off + (encodeHeader op f).length ≤ s.size a.region →
    ∃ t, exec (.parse a n) s = .next t ∧ hdrHolds t.hdr op f ∧
      t.results = s.results ++ [⟨.rx, 0x02, .ok (.nat (encodeHeader op f).length)⟩] ∧
      { t with hdr := s.hdr, results := s.results } = s

/-- 40_header_codec.md R95: the bytes EMIT writes and its faults, on a region its agent may write (R47, R151). -/
def Obligations.EmitWritesTheHeader : Prop :=
  ∀ (h : HeaderOp) (a : Addr) (s : State), s.writeRace (txAgent s.issuer) a.region = false →
    let E := wireHeader h.fin h.rsv h.opcode h.len h.key
    let fails := faultsWith (.emit h a) s s.issuer 0x04
    if h.opcode.toNat ∉ [0x0, 0x1, 0x2, 0x8, 0x9, 0xA] then fails .emitInvalid
    else if h.rsv &&& ~~~s.cfg.rsvAllowed ≠ 0#3 then fails .emitInvalid
    else if h.opcode.toNat ∈ [0x8, 0x9, 0xA] ∧ (125 < h.len ∨ h.fin = false) then fails .emitInvalid
    else if 2 ^ 63 ≤ h.len then fails .emitInvalid
    else if a.off < E.length ∨ s.size a.region < a.off then fails .bounds
    else ∃ t, exec (.emit h a) s = .next t ∧
      bytesAre t a.region (a.off - E.length) E ∧ bytesKeptOutside s t a.region (a.off - E.length) a.off ∧
      t.results = s.results ++ [⟨s.issuer, 0x04, .ok (.frame (a.off - E.length) E.length)⟩] ∧
      { t with mem := s.mem, results := s.results } = s

/-- 40_header_codec.md R93: PARSE of the bytes EMIT wrote, brought to a region RX may read, gives the header operand back; EMIT
of what PARSE decoded writes the same bytes exactly when they use the shortest length form. PARSE completes in every phase
but `FAULTED` (notes/assumptions/26.md). -/
def Obligations.EmitThenParseRoundTrip : Prop :=
  (∀ (h : HeaderOp) (a b : Addr) (n p hl : Nat) (s t u : State),
    exec (.emit h a) s = .next t → t.results = s.results ++ [⟨s.issuer, 0x04, .ok (.frame p hl)⟩] → hl ≤ n →
    u.cfg = s.cfg → u.rxs.busy = false → u.rxs.phase ≠ .faulted → nothingOwed u → u.readRace .rx b.region = false →
    b.off + hl ≤ u.size b.region → u.memRead b.region b.off hl = t.memRead a.region p hl →
    ∃ v, exec (.parse b n) u = .next v ∧ v.results = u.results ++ [⟨.rx, 0x02, .ok (.nat hl)⟩] ∧
      v.hdr.valid = true ∧ v.hdr.fin = h.fin ∧ v.hdr.rsv = h.rsv ∧ v.hdr.opcode = h.opcode ∧
      v.hdr.masked = h.key.isSome ∧ (∀ k, h.key = some k → v.hdr.key = k) ∧
      v.hdr.len.toNat = h.len ∧ v.hdr.rem.toNat = h.len) ∧
  (∀ (a b : Addr) (n hl : Nat) (s t : State),
    exec (.parse a n) s = .next t → t.results = s.results ++ [⟨.rx, 0x02, .ok (.nat hl)⟩] →
    t.writeRace (txAgent t.issuer) b.region = false → 14 ≤ b.off → b.off ≤ t.size b.region →
    let h : HeaderOp := { fin := t.hdr.fin, rsv := t.hdr.rsv, opcode := t.hdr.opcode, len := t.hdr.len.toNat,
                          key := if t.hdr.masked then some t.hdr.key else none }
    ∃ u p m, exec (.emit h b) t = .next u ∧ u.results = t.results ++ [⟨t.issuer, 0x04, .ok (.frame p m)⟩] ∧
      (u.memRead b.region p m = s.memRead a.region a.off hl ↔
        (s.readByte a.region (a.off + 1)).toNat % 128 = wireLen7 t.hdr.len.toNat))

/-! ### The mask engine -/

/-- 41_mask_engine.md R98, R96, R97, on a region its agent may write (R47, R151). -/
def Obligations.MaskXorsInPlace : Prop :=
  ∀ (a : Addr) (n : Nat) (k : Key) (pos : Nat) (s : State),
    (n = 0 → exec (.mask a n k pos) s = .next (ended s s.issuer 0x05 (.ok (.nat (pos % 4))))) ∧
    (n ≠ 0 → s.writeRace s.issuer a.region = false → s.size a.region < a.off + n →
      faultsWith (.mask a n k pos) s s.issuer 0x05 .bounds) ∧
    (n ≠ 0 → s.writeRace s.issuer a.region = false → a.off + n ≤ s.size a.region →
      ∃ t, exec (.mask a n k pos) s = .next t ∧
        (∀ i, i < n → t.readByte a.region (a.off + i) = s.readByte a.region (a.off + i) ^^^
          (match (pos + i) % 4 with
           | 0 => k.k0
           | 1 => k.k1
           | 2 => k.k2
           | _ => k.k3)) ∧
        bytesKeptOutside s t a.region a.off (a.off + n) ∧
        t.results = s.results ++ [⟨s.issuer, 0x05, .ok (.nat ((pos + n) % 4))⟩] ∧
        { t with mem := s.mem, results := s.results } = s)

/-- 41_mask_engine.md R99: (a) involution, (b) chunking, (c) chunks in either order, (d) the zero key. -/
def Obligations.MaskLaws : Prop :=
  ∀ (A : Region) (s : State), s.writeRace s.issuer A = false →
    (∀ o n k pos, o + n ≤ s.size A →
      ∃ t u, exec (.mask ⟨A, o⟩ n k pos) s = .next t ∧ exec (.mask ⟨A, o⟩ n k pos) t = .next u ∧ bytesKept s u) ∧
    (∀ o m n k pos, o + (m + n) ≤ s.size A →
      ∃ t u v, exec (.mask ⟨A, o⟩ m k pos) s = .next t ∧ exec (.mask ⟨A, o + m⟩ n k (pos + m)) t = .next u ∧
        exec (.mask ⟨A, o⟩ (m + n) k pos) s = .next v ∧ bytesKept u v) ∧
    (∀ o m k pos p n l qos, o + m ≤ s.size A → p + n ≤ s.size A → (o + m ≤ p ∨ p + n ≤ o) →
      ∃ t u v w, exec (.mask ⟨A, o⟩ m k pos) s = .next t ∧ exec (.mask ⟨A, p⟩ n l qos) t = .next u ∧
        exec (.mask ⟨A, p⟩ n l qos) s = .next v ∧ exec (.mask ⟨A, o⟩ m k pos) v = .next w ∧ bytesKept u w) ∧
    (∀ o n pos, o + n ≤ s.size A →
      ∃ t, exec (.mask ⟨A, o⟩ n ⟨0, 0, 0, 0⟩ pos) s = .next t ∧ bytesKept s t)

/-- 41_mask_engine.md R101, with R100's stream position, on a region RX may write where bytes are written (n ≠ 0 under a mask).
`BOUNDS` for n = 0 past the region's end is the order of the pseudocode (notes/assumptions/17.md). -/
def Obligations.RxmaskUnmasksAndCounts : Prop :=
  ∀ (a : Addr) (n : Nat) (s : State),
    (s.hdr.valid = true → s.hdr.masked = true → n ≠ 0 → s.writeRace .rx a.region = false) →
    let fails := faultsWith (.rxmask a n) s .rx 0x06
    if s.rxs.busy then fails .stateBusy
    else if s.hdr.valid = false then fails .noHeader
    else if s.hdr.rem.toNat < n then fails .rxOverrun
    else if s.size a.region < a.off + n then fails .bounds
    else ∃ t, exec (.rxmask a n) s = .next t ∧
      (∀ i, i < n → t.readByte a.region (a.off + i) =
        if s.hdr.masked then
          s.readByte a.region (a.off + i) ^^^ keyAt s.hdr.key (s.hdr.len.toNat - s.hdr.rem.toNat + i)
        else s.readByte a.region (a.off + i)) ∧
      bytesKeptOutside s t a.region a.off (a.off + n) ∧
      t.hdr.rem.toNat = s.hdr.rem.toNat - n ∧ { t.hdr with rem := s.hdr.rem } = s.hdr ∧
      t.results = s.results ++ [⟨.rx, 0x06, .ok (.nat (s.hdr.rem.toNat - n))⟩] ∧
      { t with mem := s.mem, hdr := s.hdr, results := s.results } = s

/-- 41_mask_engine.md R103: a payload received in any chunks is left unmasked as one RXMASK of it would leave it. -/
def Obligations.RxmaskChunksAgree : Prop :=
  ∀ (A : Region) (o : Nat) (ns : List Nat) (s : State),
    s.rxs.busy = false → s.hdr.valid = true → s.hdr.rem = s.hdr.len → ns.sum = s.hdr.len.toNat →
    o + s.hdr.len.toNat ≤ s.size A → (s.hdr.masked = true → s.writeRace .rx A = false) →
    ∃ t u, rxmaskChunks A o ns s = .next t ∧ exec (.rxmask ⟨A, o⟩ s.hdr.len.toNat) s = .next u ∧
      bytesKept t u ∧ bytesAre t A o (unmasked s.hdr (s.memRead A o s.hdr.len.toNat)) ∧
      t.hdr.rem = 0 ∧ u.hdr = t.hdr

/-- 41_mask_engine.md R104. -/
def Obligations.RetireDropsAFinishedHeader : Prop :=
  ∀ s : State,
    if s.rxs.busy then faultsWith .retire s .rx 0x07 .stateBusy
    else if s.hdr.valid = false then exec .retire s = .next (ended s .rx 0x07 (.ok (.nat 0)))
    else if s.hdr.rem ≠ 0 then exec .retire s = .next (ended s .rx 0x07 (.ok (.nat 0)))
    else exec .retire s = .next
      { s with hdr := { s.hdr with valid := false }
               rxs := { s.rxs with phase := if s.rxs.phase = .data then .idle else s.rxs.phase }
               results := s.results ++ [⟨.rx, 0x07, .ok (.nat 1)⟩] }

/-! ### AWAIT -/

/-- 42_dispatch.md R105: the start step. -/
def Obligations.AwaitStarts : Prop :=
  ∀ s : State,
    let fails := faultsWith .await s .rx 0x08
    if s.rxs.busy then fails .stateBusy
    else if s.rxs.phase = .faulted then fails s.rxs.cause
    else if s.rxs.phase = .eof ∨ s.rxs.phase = .closed then fails .notReceiving
    else if s.hdr.valid ∧ s.hdr.rem ≠ 0 then fails .statePending
    else exec .await s = .next
      { s with hdr := { s.hdr with valid := false }
               rxs := { s.rxs with busy := true, phase := .hdr2, hcnt := 0, hneed := 2 }
               rxJob := .header }

/-- 42_dispatch.md R106: the header read steps that do not complete the header. At most the bytes asked for are taken;
what the transport has beyond them waits (notes/assumptions/21.md). -/
def Obligations.HeaderReadStores : Prop :=
  ∀ (s : State) (ts : List Turn) (bs : List Byte) (q : List RxAnswer),
    s.turns = .rx :: ts → s.rxJob = .header → bs ≠ [] → s.rxIn = .bytes bs :: q →
    s.rxs.hcnt.toNat < s.rxs.hneed.toNat →
    let asked := s.rxs.hneed.toNat - s.rxs.hcnt.toNat
    let got := bs.take asked
    let n := s.rxs.hcnt.toNat + got.length
    let b1 := (s.memRead .scratch 0 s.rxs.hcnt.toNat ++ got).getD 1 0
    let leaves := fun (r : RxStatus) => ∃ t, step s = .next t ∧ t.rxs = r ∧
      t.rxIn = (if bs.length ≤ asked then q else .bytes (bs.drop asked) :: q) ∧ t.turns = ts ∧
      bytesAre t .scratch s.rxs.hcnt.toNat got ∧ bytesKeptOutside s t .scratch s.rxs.hcnt.toNat n ∧
      { t with rxs := s.rxs, rxIn := s.rxIn, turns := s.turns, mem := s.mem } = s
    (s.rxs.phase = .hdr2 → s.rxs.hneed = 2 → n = 1 → leaves { s.rxs with hcnt := 1 }) ∧
    (s.rxs.phase = .hdr2 → s.rxs.hneed = 2 → n = 2 → headerLength b1 ≠ 2 →
      leaves { s.rxs with phase := .hdrrest, hcnt := 2, hneed := BitVec.ofNat 4 (headerLength b1) }) ∧
    (s.rxs.phase = .hdrrest → n < s.rxs.hneed.toNat → leaves { s.rxs with hcnt := BitVec.ofNat 4 n })

/-- 42_dispatch.md R107: transport outcomes other than bytes, in every read step of AWAIT. -/
def Obligations.AwaitTransportOutcomes : Prop :=
  ∀ (s : State) (ts : List Turn) (r : RxAnswer) (q : List RxAnswer),
    s.turns = .rx :: ts → s.rxIn = r :: q →
    (s.rxJob = .header ∨ ∃ got, s.rxJob = .ctrl got ∧ isControl s.hdr.opcode) →
    let s1 := { s with turns := ts, rxIn := q }
    let boundary := s.rxs.phase = .hdr2 ∧ s.rxs.hcnt = 0
    let leaves := fun (p : Phase) (x : Result) => step s = .next
      { s1 with rxs := { s.rxs with phase := p, busy := false, hneed := 0 }, rxJob := .none,
                results := s.results ++ [⟨.rx, 0x08, x⟩] }
    (r = .eof → boundary → leaves .eof (.ok .ended)) ∧
    (r = .eof → ¬ boundary → step s = .next (stickyFaulted s1 0x08 .unexpectedEof)) ∧
    (r = .ioerror → step s = .next (stickyFaulted s1 0x08 .transportIo)) ∧
    (r = .cancelled → boundary → leaves .idle (.fault .cancelled)) ∧
    (r = .cancelled → ¬ boundary → step s = .next (stickyFaulted s1 0x08 .cancelled))

/-- 42_dispatch.md R108, the data branch: CONT, TEXT and BINARY are surfaced. -/
def Obligations.DataHeaderIsSurfaced : Prop :=
  ∀ (h : FrameHdr) (s : State) (op : BitVec 4) (i : Instr),
    (op, i) ∈ [(0x0#4, Instr.cont h), (0x1#4, .text h), (0x2#4, .binary h)] →
    nothingOwed s → frameAccepted s.cfg op h →
    ∃ t, exec i s = .next t ∧ hdrHolds t.hdr op h ∧
      t.rxs = { s.rxs with phase := .data, busy := false, hcnt := 0, hneed := 0 } ∧ t.rxJob = .none ∧
      t.events = s.events ++ [.activity] ∧ t.results = s.results ++ [⟨.rx, 0x08, .ok .dataHdr⟩] ∧
      { t with hdr := s.hdr, rxs := s.rxs, rxJob := s.rxJob, events := s.events, results := s.results } = s

/-- 30_encoding.md R79 inside AWAIT (42_dispatch.md R108, R109): every reserved opcode is rejected with `BAD_OPCODE`,
or with `RSV_NOT_PERMITTED`, which comes first. -/
def Obligations.ReservedOpcodeIsRejected : Prop :=
  ∀ (h : FrameHdr) (s : State) (i : Instr),
    i ∈ [Instr.reservedOp3 h, .reservedOp4 h, .reservedOp5 h, .reservedOp6 h, .reservedOp7 h,
         .reservedOpB h, .reservedOpC h, .reservedOpD h, .reservedOpE h, .reservedOpF h] →
    nothingOwed s →
    exec i s = .next (stickyFaulted s 0x08
      (if h.rsv &&& ~~~s.cfg.rsvAllowed ≠ 0#3 then .rsvNotPermitted else .badOpcode))

/-- 40_header_codec.md R91, R92 inside AWAIT (42_dispatch.md R108, R109): the first failing check of a supported opcode's
header is a sticky fault. -/
def Obligations.MalformedHeaderIsSticky : Prop :=
  ∀ (h : FrameHdr) (s : State) (op : BitVec 4) (i : Instr),
    (op, i) ∈ [(0x0#4, Instr.cont h), (0x1#4, .text h), (0x2#4, .binary h), (0x8#4, .close h), (0x9#4, .ping h),
               (0xA#4, .pong h)] →
    nothingOwed s →
    let fails := fun c => exec i s = .next (stickyFaulted s 0x08 c)
    (h.rsv &&& ~~~s.cfg.rsvAllowed ≠ 0#3 → fails .rsvNotPermitted) ∧
    (h.rsv &&& ~~~s.cfg.rsvAllowed = 0#3 → isControl op → 125 < h.len.value → fails .ctrlTooLong) ∧
    (h.rsv &&& ~~~s.cfg.rsvAllowed = 0#3 → isControl op → h.len.value ≤ 125 → h.fin = false →
      fails .ctrlFragmented) ∧
    (h.rsv &&& ~~~s.cfg.rsvAllowed = 0#3 → ¬ isControl op → h.len.len7 = 127#7 → 2 ^ 63 ≤ h.len.value →
      fails .len64Msb)

/-- 42_dispatch.md R108, R110: CLOSE, PING and PONG with a payload enter `CTRL` and read it. -/
def Obligations.ControlHeaderEntersCtrl : Prop :=
  ∀ (h : FrameHdr) (s : State) (op : BitVec 4) (i : Instr),
    (op, i) ∈ [(0x8#4, Instr.close h), (0x9#4, .ping h), (0xA#4, .pong h)] →
    nothingOwed s → frameAccepted s.cfg op h → 0 < h.len.value →
    ∃ t, exec i s = .next t ∧ hdrHolds t.hdr op h ∧
      t.rxs = { s.rxs with phase := .ctrl, hcnt := 0, hneed := 0 } ∧ t.rxJob = .ctrl 0 ∧
      t.events = s.events ++ [.activity] ∧
      { t with hdr := s.hdr, rxs := s.rxs, rxJob := s.rxJob, events := s.events } = s

/-- 42_dispatch.md R110 to R112 for frames without payload: CLOSE reports code 1000 and ends AWAIT, PONG reports an empty
payload and reads on, PING has its pong built, or none while a SENDFRAME still sends from `OUT_PONG`
(notes/assumptions/12.md). -/
def Obligations.EmptyControlFrameIsHandled : Prop :=
  ∀ (h : FrameHdr) (s : State), nothingOwed s → h.len.value = 0 →
    (frameAccepted s.cfg 0x8 h → ∃ t, exec (.close h) s = .next t ∧ t.hdr.valid = false ∧
      t.rxs = { s.rxs with phase := .closed, busy := false, hcnt := 0, hneed := 0 } ∧ t.rxJob = .none ∧
      t.events = s.events ++ [.activity, .closeRx 1000, .activity] ∧
      t.results = s.results ++ [⟨.rx, 0x08, .ok (.closeRx 1000)⟩] ∧ bytesKept s t ∧
      { t with hdr := s.hdr, rxs := s.rxs, rxJob := s.rxJob, events := s.events, results := s.results, mem := s.mem }
        = s) ∧
    (frameAccepted s.cfg 0xA h → ∃ t, exec (.pong h) s = .next t ∧ t.hdr.valid = false ∧
      t.rxs = { s.rxs with phase := .hdr2, hcnt := 0, hneed := 2 } ∧ t.rxJob = .header ∧
      t.events = s.events ++ [.activity, .pongRx [], .activity] ∧ bytesKept s t ∧
      { t with hdr := s.hdr, rxs := s.rxs, rxJob := s.rxJob, events := s.events, mem := s.mem } = s) ∧
    (frameAccepted s.cfg 0x9 h → s.sendOwns .outPong = true → ∃ t, exec (.ping h) s = .next t ∧ t.hdr.valid = false ∧
      t.rxs = { s.rxs with phase := .hdr2, hcnt := 0, hneed := 2 } ∧ t.rxJob = .header ∧
      t.events = s.events ++ [.activity, .pingRx, .activity] ∧ bytesKept s t ∧
      { t with hdr := s.hdr, rxs := s.rxs, rxJob := s.rxJob, events := s.events, mem := s.mem } = s) ∧
    (frameAccepted s.cfg 0x9 h → s.sendOwns .outPong = false → 125 ≤ s.sizes.nCtrlOut →
      ∃ t, exec (.ping h) s = .next t ∧ hdrHolds t.hdr 0x9 h ∧
      t.rxs = { s.rxs with phase := .ctrl, hcnt := 0, hneed := 0 } ∧ pongReady s t [] ∧
      t.events = s.events ++ [.activity] ∧ (∀ B x, B ≠ .outPong → t.readByte B x = s.readByte B x) ∧
      { t with hdr := s.hdr, rxs := s.rxs, rxJob := s.rxJob, events := s.events, mem := s.mem, keyDraws := s.keyDraws,
               keyCtr := s.keyCtr } = s)

/-- What the steps below have in common: AWAIT is in `CTRL` with `got` of the k payload bytes stored, and bs are the next
ones. -/
def ctrlReads (s : State) (ts : List Turn) (op : BitVec 4) (k got : Nat) (bs : List Byte) (q : List RxAnswer) : Prop :=
  s.turns = .rx :: ts ∧ s.rxJob = .ctrl got ∧ s.hdr.valid = true ∧ s.hdr.opcode = op ∧ s.hdr.rem = s.hdr.len ∧
  0 < s.hdr.len.toNat ∧ s.hdr.len.toNat ≤ 125 ∧ got < k ∧ bs ≠ [] ∧ s.rxIn = .bytes bs :: q ∧ got + bs.length ≤ k ∧
  125 ≤ s.sizes.nCtrlIn ∧ 125 ≤ s.sizes.nCtrlOut

/-- 42_dispatch.md R110: payload bytes of a control frame are stored in its slice until all k are there. -/
def Obligations.ControlPayloadIsStored : Prop :=
  ∀ (s : State) (ts : List Turn) (op : BitVec 4) (D : Region) (got : Nat) (bs : List Byte) (q : List RxAnswer),
    (op, D) ∈ [(0x8#4, Region.inClose), (0x9#4, .inPing), (0xA#4, .inPong)] →
    let k := if op = 0x8#4 then min 2 s.hdr.len.toNat else min s.hdr.len.toNat 125
    ctrlReads s ts op k got bs q → got + bs.length < k →
    ∃ t, step s = .next t ∧ t.rxJob = .ctrl (got + bs.length) ∧ t.rxIn = q ∧ t.turns = ts ∧
      bytesAre t D got bs ∧ bytesKeptOutside s t D got (got + bs.length) ∧
      { t with rxJob := s.rxJob, rxIn := s.rxIn, turns := s.turns, mem := s.mem } = s

/-- 42_dispatch.md R111, 20_memory.md R52: the last payload byte of a CLOSE ends AWAIT with the close code. -/
def Obligations.ClosePayloadGivesTheCode : Prop :=
  ∀ (s : State) (ts : List Turn) (got : Nat) (bs : List Byte) (q : List RxAnswer),
    let k := min 2 s.hdr.len.toNat
    ctrlReads s ts 0x8 k got bs q → got + bs.length = k →
    let p := unmasked s.hdr (s.memRead .inClose 0 got ++ bs)
    let c : BitVec 16 := if k < 2 then 1000 else BitVec.ofNat 16 ((p.getD 0 0).toNat * 256 + (p.getD 1 0).toNat)
    ∃ t, step s = .next t ∧ t.hdr.valid = false ∧
      t.rxs = { s.rxs with phase := .closed, busy := false } ∧ t.rxJob = .none ∧
      t.events = s.events ++ [.closeRx c, .activity] ∧ t.results = s.results ++ [⟨.rx, 0x08, .ok (.closeRx c)⟩] ∧
      t.rxIn = q ∧ t.turns = ts ∧ bytesAre t .inClose 0 p ∧ bytesKeptOutside s t .inClose 0 k ∧
      { t with hdr := s.hdr, rxs := s.rxs, rxJob := s.rxJob, events := s.events, results := s.results, rxIn := s.rxIn,
               turns := s.turns, mem := s.mem } = s

/-- 42_dispatch.md R112: the last payload byte of a PONG reports the unmasked payload and AWAIT reads on. -/
def Obligations.PongPayloadIsReported : Prop :=
  ∀ (s : State) (ts : List Turn) (got : Nat) (bs : List Byte) (q : List RxAnswer),
    let k := s.hdr.len.toNat
    ctrlReads s ts 0xA k got bs q → got + bs.length = k →
    let p := unmasked s.hdr (s.memRead .inPong 0 got ++ bs)
    ∃ t, step s = .next t ∧ t.hdr.valid = false ∧
      t.rxs = { s.rxs with phase := .hdr2, hcnt := 0, hneed := 2 } ∧ t.rxJob = .header ∧
      t.events = s.events ++ [.pongRx p, .activity] ∧ t.rxIn = q ∧ t.turns = ts ∧
      bytesAre t .inPong 0 p ∧ bytesKeptOutside s t .inPong 0 k ∧
      { t with hdr := s.hdr, rxs := s.rxs, rxJob := s.rxJob, events := s.events, rxIn := s.rxIn, turns := s.turns,
               mem := s.mem } = s

/-- 42_dispatch.md R113: the last payload byte of a PING has the pong built in `OUT_PONG`, or, while a SENDFRAME still sends from
`OUT_PONG`, AWAIT reads on without a pong (notes/assumptions/12.md). -/
def Obligations.PingPayloadIsEchoed : Prop :=
  ∀ (s : State) (ts : List Turn) (got : Nat) (bs : List Byte) (q : List RxAnswer),
    let k := s.hdr.len.toNat
    ctrlReads s ts 0x9 k got bs q → got + bs.length = k →
    let p := unmasked s.hdr (s.memRead .inPing 0 got ++ bs)
    (s.sendOwns .outPong = false → ∃ t, step s = .next t ∧ pongReady s t p ∧ bytesAre t .inPing 0 p ∧
      (∀ B x, B ≠ .outPong → ¬ (B = .inPing ∧ x < k) → t.readByte B x = s.readByte B x) ∧
      t.hdr = { s.hdr with rem := 0 } ∧ t.rxIn = q ∧ t.turns = ts ∧
      { t with hdr := s.hdr, rxJob := s.rxJob, rxIn := s.rxIn, turns := s.turns, mem := s.mem, keyDraws := s.keyDraws,
               keyCtr := s.keyCtr } = s) ∧
    (s.sendOwns .outPong = true → ∃ t, step s = .next t ∧ bytesAre t .inPing 0 p ∧ bytesKeptOutside s t .inPing 0 k ∧
      t.hdr.valid = false ∧ t.rxs = { s.rxs with phase := .hdr2, hcnt := 0, hneed := 2 } ∧ t.rxJob = .header ∧
      t.events = s.events ++ [.pingRx, .activity] ∧ t.rxIn = q ∧ t.turns = ts ∧
      { t with hdr := s.hdr, rxs := s.rxs, rxJob := s.rxJob, events := s.events, rxIn := s.rxIn, turns := s.turns,
               mem := s.mem } = s)

/-- 42_dispatch.md R113, 60_exceptions.md R135: however the pong's SENDFRAME ends, its result is ignored, the permit is
released and AWAIT reads on. -/
def Obligations.PongSendEndsAndAwaitGoesOn : Prop :=
  ∀ (s : State) (ts : List Turn) (j : SendJob),
    s.turns = .rx :: ts → s.rxJob = .pong j → j.issuer = .rx → j.addr.region = .outPong →
    j.opts = { nolock := false, noerrors := true, ignoreclose := false } → s.permit = .rx →
    ((∃ r, j.stage = .finish r) ∨ (j.stage = .check ∧ s.canSend = false)) →
    step s = .next
      { s with turns := ts, permit := .free, events := s.events ++ [.pingRx, .activity]
               hdr := { s.hdr with valid := false }
               rxs := { s.rxs with phase := .hdr2, hcnt := 0, hneed := 2 }
               rxJob := .header }

/-- 42_dispatch.md R110, R112, R113, R122 in one run: a ping whose last payload byte arrives is answered on the wire by a
pong with the unmasked payload, masked again exactly for a client, and AWAIT reads on. -/
def Obligations.PingIsAnsweredOnTheWire : Prop :=
  ∀ (s : State) (ts : List Turn) (got : Nat) (bs : List Byte) (q : List RxAnswer) (r : List TxAnswer),
    ctrlReads s (.rx :: .rx :: .rx :: .rx :: ts) 0x9 s.hdr.len.toNat got bs q → got + bs.length = s.hdr.len.toNat →
    s.sendOwns .outPong = false → s.permit = .free → s.canSend = true → s.txIn = .ok :: r →
    ∃ t key, steps 5 s = .next t ∧ key.isSome = s.cfg.maskOut ∧
      t.txOut = s.txOut ++ wireFrame true 0 0xA key (unmasked s.hdr (s.memRead .inPing 0 got ++ bs)) ∧
      t.permit = .free ∧ t.hdr.valid = false ∧ t.rxs = { s.rxs with phase := .hdr2, hcnt := 0, hneed := 2 } ∧
      t.rxJob = .header ∧ t.events = s.events ++ [.pingRx, .activity] ∧ t.results = s.results ∧ t.turns = ts ∧
      t.rxIn = q ∧ t.txIn = r ∧ t.pending = s.pending ∧ t.cfg = s.cfg

/-! ### RECV -/

/-- 42_dispatch.md R114: the issue step. Where the race of its destination (20_memory.md R62) stands among the checks is read
from 60_exceptions.md R131 and R129 (notes/assumptions/25.md; what races: 11.md). `BOUNDS` for len = 0 past
the region's end is the order of the pseudocode (notes/assumptions/17.md). That a region other than `DST` is taken too is the model's choice
(notes/assumptions/34.md). -/
def Obligations.RecvIsIssued : Prop :=
  ∀ (a : Addr) (len : Nat) (s : State),
    let fails := faultsWith (.recv a len) s .rx 0x09
    if s.rxs.busy then fails .stateBusy
    else if s.rxs.phase = .faulted then fails s.rxs.cause
    else if len ≠ 0 ∧ s.writeRace .rx a.region = true then fails .stateBusy
    else if s.hdr.valid = false ∨ s.rxs.phase ≠ .data then fails .noHeader
    else if s.hdr.rem.toNat < len then fails .rxOverrun
    else if s.size a.region < a.off + len then fails .bounds
    else if len = 0 then exec (.recv a len) s = .next (ended s .rx 0x09 (.ok (.nat 0)))
    else exec (.recv a len) s = .next { s with rxs := { s.rxs with busy := true }, rxJob := .recv a len }

/-- 42_dispatch.md R114: the read step. It takes one answer of the transport, at most len bytes of it
(notes/assumptions/21.md), and leaves them unmasked. A destination other than `DST` is the model's choice
(notes/assumptions/34.md). -/
def Obligations.RecvDeliversUnmasked : Prop :=
  ∀ (s : State) (ts : List Turn) (a : Addr) (len : Nat) (bs : List Byte) (q : List RxAnswer),
    s.turns = .rx :: ts → s.rxJob = .recv a len → s.hdr.valid = true → len ≤ s.hdr.rem.toNat →
    a.off + len ≤ s.size a.region → 0 < len → bs ≠ [] → s.rxIn = .bytes bs :: q →
    let got := bs.take len
    ∃ t, step s = .next t ∧
      (∀ i, (h : i < got.length) → t.readByte a.region (a.off + i) =
        if s.hdr.masked then got[i] ^^^ keyAt s.hdr.key (s.hdr.len.toNat - s.hdr.rem.toNat + i) else got[i]) ∧
      bytesKeptOutside s t a.region a.off (a.off + got.length) ∧
      t.hdr.rem.toNat = s.hdr.rem.toNat - got.length ∧ { t.hdr with rem := s.hdr.rem } = s.hdr ∧
      t.rxs = { s.rxs with busy := false } ∧ t.rxJob = .none ∧
      t.results = s.results ++ [⟨.rx, 0x09, .ok (.nat got.length)⟩] ∧
      t.rxIn = (if bs.length ≤ len then q else .bytes (bs.drop len) :: q) ∧ t.turns = ts ∧
      { t with hdr := s.hdr, rxs := s.rxs, rxJob := s.rxJob, results := s.results, rxIn := s.rxIn, turns := s.turns,
               mem := s.mem } = s

/-- 42_dispatch.md R115: every other transport outcome of RECV is a sticky fault. -/
def Obligations.RecvTransportOutcomes : Prop :=
  ∀ (s : State) (ts : List Turn) (a : Addr) (len : Nat) (q : List RxAnswer) (r : RxAnswer) (c : Cause),
    s.turns = .rx :: ts → s.rxJob = .recv a len → s.rxIn = r :: q →
    (r, c) ∈ [(RxAnswer.eof, Cause.unexpectedEof), (.ioerror, .transportIo), (.cancelled, .cancelled)] →
    step s = .next (stickyFaulted { s with turns := ts, rxIn := q } 0x09 c)

/-! ### Close codes -/

/-- 42_dispatch.md R116, on a region its agent may write (R47, R151). -/
def Obligations.CloseencWritesBigEndian : Prop :=
  ∀ (c : BitVec 16) (a : Addr) (s : State), s.writeRace s.issuer a.region = false →
    (s.size a.region < a.off + 2 → faultsWith (.closeenc c a) s s.issuer 0x0C .bounds) ∧
    (a.off + 2 ≤ s.size a.region → ∃ t, exec (.closeenc c a) s = .next t ∧
      t.readByte a.region a.off = c.extractLsb' 8 8 ∧ t.readByte a.region (a.off + 1) = c.extractLsb' 0 8 ∧
      bytesKeptOutside s t a.region a.off (a.off + 2) ∧
      t.results = s.results ++ [⟨s.issuer, 0x0C, .ok (.nat 2)⟩] ∧
      { t with mem := s.mem, results := s.results } = s)

/-- 42_dispatch.md R117; where bytes are read (2 ≤ k), on a region its agent may read (R47). -/
def Obligations.ClosedecReadsBigEndian : Prop :=
  ∀ (a : Addr) (k : Nat) (s : State),
    (k < 2 → exec (.closedec a k) s = .next (ended s s.issuer 0x0D (.ok (.code 1000)))) ∧
    (2 ≤ k → s.readRace s.issuer a.region = false → s.size a.region < a.off + 2 →
      faultsWith (.closedec a k) s s.issuer 0x0D .bounds) ∧
    (2 ≤ k → s.readRace s.issuer a.region = false → a.off + 2 ≤ s.size a.region → ∃ c : BitVec 16,
      exec (.closedec a k) s = .next (ended s s.issuer 0x0D (.ok (.code c))) ∧
      c.toNat = (s.readByte a.region a.off).toNat * 256 + (s.readByte a.region (a.off + 1)).toNat)

/-! ### The transmit path -/

/-- 42_dispatch.md R118, on a region its agent may write: the frame PREPARE leaves, the fresh nonzero key of a
client, and the faults in the order of its pseudocode (notes/assumptions/17.md). How the
draws are listed and that a fault takes none is the model's choice (notes/assumptions/7.md, 23.md). A frame left in `SEND` is
kept from writers (70_reset_and_hazards.md R151, notes/assumptions/32.md). -/
def Obligations.PrepareBuildsTheFrame : Prop :=
  ∀ (a : Addr) (len : Nat) (fin sent : Bool) (op : BitVec 4) (ext : BitVec 3) (s : State),
    s.writeRace (txAgent s.issuer) a.region = false →
    let opx := if sent then 0x0#4 else op
    let hl := (wireHeader fin ext opx len (if s.cfg.maskOut then some ⟨0, 0, 0, 0⟩ else none)).length
    let fails := faultsWith (.prepare a len fin sent op ext) s s.issuer 0x0A
    if sent ∧ op.toNat ∉ [0x0, 0x1, 0x2] then fails .emitInvalid
    else if s.size a.region < a.off + len then fails .bounds
    else if opx.toNat ∉ [0x0, 0x1, 0x2, 0x8, 0x9, 0xA] then fails .emitInvalid
    else if ext &&& ~~~s.cfg.rsvAllowed ≠ 0#3 then fails .emitInvalid
    else if opx.toNat ∈ [0x8, 0x9, 0xA] ∧ (125 < len ∨ fin = false) then fails .emitInvalid
    else if 2 ^ 63 ≤ len then fails .emitInvalid
    else if a.off < hl then fails .bounds
    else ∃ (t : State) (key : Option Key), exec (.prepare a len fin sent op ext) s = .next t ∧
      key.isSome = s.cfg.maskOut ∧ (∀ k, key = some k → k ≠ ⟨0, 0, 0, 0⟩) ∧
      (∀ k r, s.cfg.maskOut = true → s.keyDraws = k :: r →
        (k ≠ ⟨0, 0, 0, 0⟩ → key = some k) ∧ t.keyDraws = r ∧ t.keyCtr = s.keyCtr) ∧
      (s.cfg.maskOut = false → t.keyDraws = s.keyDraws ∧ t.keyCtr = s.keyCtr) ∧
      bytesAre t a.region (a.off - hl) (wireFrame fin ext opx key (s.memRead a.region a.off len)) ∧
      bytesKeptOutside s t a.region (a.off - hl) (a.off + len) ∧
      t.results = s.results ++ [⟨s.issuer, 0x0A, .ok (.frame (a.off - hl) (hl + len))⟩] ∧
      (a.region = .send → t.sendPrepared = true) ∧ (a.region ≠ .send → t.sendPrepared = s.sendPrepared) ∧
      { t with mem := s.mem, keyDraws := s.keyDraws, keyCtr := s.keyCtr, results := s.results,
               sendPrepared := s.sendPrepared } = s

/-- 42_dispatch.md R122, step 1, on a region its agent may read where there are bytes to send. That an attempt given up at once
ends the hold on a frame in `SEND` is the model's choice (notes/assumptions/32.md). `BOUNDS` for n = 0 past the region's end is
the order of the pseudocode (notes/assumptions/17.md). -/
def Obligations.SendframeIsIssued : Prop :=
  ∀ (a : Addr) (n : Nat) (t : Timeout) (o : Opts) (s : State), (n ≠ 0 → s.readRace (txAgent s.issuer) a.region = false) →
    let X := if s.issuer = .rx then Permit.rx else Permit.host
    let job := fun st => Pending.send { issuer := s.issuer, addr := a, n := n, timeout := t, opts := o, stage := st }
    let goes := fun (p : Permit) (st : SendStage) =>
      exec (.sendframe a n t o) s = .next { s with permit := p, pending := s.pending ++ [job st] }
    if s.size a.region < a.off + n then faultsWith (.sendframe a n t o) s s.issuer 0x0B .bounds
    else if o.nolock then
      if s.permit = X then goes s.permit .check else faultsWith (.sendframe a n t o) s s.issuer 0x0B .notHeld
    else if s.permit = .free then goes X .check
    else if t = .zero then exec (.sendframe a n t o) s = .next
      { ended s s.issuer 0x0B (.ok (.bool false)) with sendPrepared := s.sendPrepared && decide (a.region ≠ .send) }
    else goes s.permit .acquire

/-- 42_dispatch.md R122, R119: the steps after step 1, for a SENDFRAME that holds the permit it needs. A failed write puts
a prefix of the frame on the stream. The end of a SENDFRAME from `SEND` ends the hold on its frame (70_reset_and_hazards.md
R151, notes/assumptions/32.md). -/
def Obligations.SendframeStepsFollow : Prop :=
  ∀ (s : State) (ts : List Turn) (k : Nat) (j : SendJob),
    s.turns = .pending k :: ts → s.pending[k]? = some (.send j) →
    let X := if j.issuer = .rx then Permit.rx else Permit.host
    let s1 := { s with turns := ts }
    let frame := s.memRead j.addr.region j.addr.off j.n
    let goes := fun (u : State) (st : SendStage) =>
      step s = .next { u with pending := s.pending.set k (.send { j with stage := st }) }
    let ends := fun (r : Result) (ev : List Event) => step s = .next
      { s1 with permit := if j.opts.nolock then s.permit else .free, pending := s.pending.eraseIdx k
                events := s.events ++ ev, results := s.results ++ [⟨j.issuer, 0x0B, r⟩]
                sendPrepared := s.sendPrepared && decide (j.addr.region ≠ .send) }
    (j.stage = .acquire → s.permit = .free → goes { s1 with permit := X } .check) ∧
    ((j.opts.nolock = false → s.permit = X) →
      (j.stage = .check → (j.opts.ignoreclose = true ∨ s.canSend = true) → goes s1 .write) ∧
      (j.stage = .check → j.opts.ignoreclose = false → s.canSend = false →
        ends (if j.opts.noerrors then .ok (.bool false) else .fault .closedTx) []) ∧
      (∀ r q, j.stage = .write → s.txIn = r :: q →
        ∃ m, m ≤ frame.length ∧ (r = .ok → m = frame.length) ∧
          goes { s1 with txIn := q, txOut := s.txOut ++ frame.take m } (.finish r)) ∧
      (j.stage = .finish .ok → ends (.ok (.bool true)) []) ∧
      (∀ m, j.stage = .finish (.ioerror m) →
        if j.opts.noerrors then ends (.ok (.bool false)) [] else ends (.fault .txIo) [.txError .txIo]) ∧
      (∀ m, j.stage = .finish (.cancelled m) →
        if j.opts.noerrors then ends (.ok (.bool false)) [] else ends (.fault .txCancelled) [.txError .txCancelled]))

/-- 42_dispatch.md R122, 20_memory.md R64 in one run: a SENDFRAME of the host with the permit free and an open transport
puts its frame on the wire, contiguous, and gives the permit back. That it then ends the hold on a frame in `SEND`
(70_reset_and_hazards.md R151) is the model's choice (notes/assumptions/32.md). -/
def Obligations.SendframeReachesTheWire : Prop :=
  ∀ (s : State) (ts : List Turn) (a : Addr) (n : Nat) (t : Timeout) (o : Opts) (r : List TxAnswer),
    let k := s.pending.length
    s.turns = hostCommand (.sendframe a n t o) :: .pending k :: .pending k :: .pending k :: ts →
    (Instr.sendframe a n t o).wellFormed = true → o.nolock = false →
    .host ∉ s.atWork → .tx ∉ s.atWork → a.off + n ≤ s.size a.region → (n ≠ 0 → s.readRace .tx a.region = false) →
    s.permit = .free → s.canSend = true → s.txIn = .ok :: r →
    steps 4 s = .next
      { s with turns := ts, issuer := .host, txIn := r
               txOut := s.txOut ++ s.memRead a.region a.off n
               sendPrepared := s.sendPrepared && decide (a.region ≠ .send)
               results := s.results ++ [⟨.host, 0x0B, .ok (.bool true)⟩] }

/-- 42_dispatch.md R120, R119. -/
def Obligations.AcquireTakesThePermit : Prop :=
  ∀ (t : Timeout) (s : State),
    if s.permit = .host then faultsWith (.acquire t) s .host 0x0F .stateBusy
    else if s.permit = .free then
      exec (.acquire t) s = .next { ended s .host 0x0F (.ok (.bool true)) with permit := .host }
    else if t = .zero then exec (.acquire t) s = .next (ended s .host 0x0F (.ok (.bool false)))
    else exec (.acquire t) s = .next { s with pending := s.pending ++ [.acquire t] }

/-- 42_dispatch.md R119: a waiting ACQUIRE takes the permit when it is free; only a finite wait may be ended as given up,
of an ACQUIRE and of a SENDFRAME alike; the latter then ends its hold on a frame in `SEND` (notes/assumptions/32.md). -/
def Obligations.WaitForThePermit : Prop :=
  ∀ (s : State) (ts : List Turn) (k : Nat),
    (∀ t, s.turns = .pending k :: ts → s.pending[k]? = some (.acquire t) → s.permit = .free →
      step s = .next { s with turns := ts, permit := .host, pending := s.pending.eraseIdx k
                              results := s.results ++ [⟨.host, 0x0F, .ok (.bool true)⟩] }) ∧
    (∀ t, s.turns = .giveUp k :: ts → s.pending[k]? = some (.acquire t) → s.permit ≠ .free →
      (∀ d, t = .finite d →
        step s = .next { s with turns := ts, pending := s.pending.eraseIdx k
                                results := s.results ++ [⟨.host, 0x0F, .ok (.bool false)⟩] }) ∧
      (t = .inf → step s = .next { s with turns := ts })) ∧
    (∀ j, s.turns = .giveUp k :: ts → s.pending[k]? = some (.send j) → j.stage = .acquire → s.permit ≠ .free →
      (∀ d, j.timeout = .finite d →
        step s = .next { s with turns := ts, pending := s.pending.eraseIdx k
                                results := s.results ++ [⟨j.issuer, 0x0B, .ok (.bool false)⟩]
                                sendPrepared := s.sendPrepared && decide (j.addr.region ≠ .send) }) ∧
      (j.timeout = .inf → step s = .next { s with turns := ts }))

/-- 42_dispatch.md R121. -/
def Obligations.ReleaseFreesThePermit : Prop :=
  ∀ s : State,
    if s.permit ≠ .host then faultsWith .release s .host 0x10 .notHeld
    else exec .release s = .next { ended s .host 0x10 (.ok .done) with permit := .free }

/-- 42_dispatch.md R125, R118, R122 in one run: CLOSEFRAME c puts the close frame with the big-endian code on the wire and
leaves the permit free, whatever the host's close state. The three turns after it are the steps 2 to 4 of its SENDFRAME, which
`RELEASE` waits for (notes/assumptions/33.md). That its SENDFRAME is the turn after its PREPARE is the model's choice of a
schedule (notes/assumptions/35.md). -/
def Obligations.CloseframeReachesTheWire : Prop :=
  ∀ (s : State) (ts : List Turn) (c : BitVec 16) (r : List TxAnswer),
    s.turns = closeFrame c ++ [.pending 0, .pending 0, .pending 0] ++ ts →
    s.pending = [] → s.rxOwns .outClose = false → s.permit = .free → 125 ≤ s.sizes.nCtrlOut → s.txIn = .ok :: r →
    ∃ t key, steps 8 s = .next t ∧ key.isSome = s.cfg.maskOut ∧ (∀ k, key = some k → k ≠ ⟨0, 0, 0, 0⟩) ∧
      t.txOut = s.txOut ++ wireFrame true 0 0x8 key [c.extractLsb' 8 8, c.extractLsb' 0 8] ∧
      t.permit = .free ∧ t.pending = [] ∧ t.txIn = r ∧ t.turns = ts ∧ t.events = s.events ∧
      t.cfg = s.cfg ∧ t.hdr = s.hdr ∧ t.rxs = s.rxs

/-- 42_dispatch.md R127, 20_memory.md R50, R64 in one run: DATAFRAME puts header and (for a client masked) payload of
`SEND[16 .. 16+len)` on the wire; R126: PINGFRAME p, t puts a ping frame with the payload p there, and a payload of more than
125 bytes is `EMIT_INVALID`. A PREPARE that faults, here for an RSV bit that is not allowed, is followed by no SENDFRAME
(notes/assumptions/31.md). That the SENDFRAME is the turn after the PREPARE is the model's choice of a schedule
(notes/assumptions/35.md), and so is the end of the hold on the frame in `SEND` (70_reset_and_hazards.md R151,
notes/assumptions/32.md). The result of PINGFRAME's own copy and check stands in `hostResults` (notes/assumptions/13.md). -/
def Obligations.DataframeReachesTheWire : Prop :=
  ∀ (s : State) (ts : List Turn) (t : Timeout) (r : List TxAnswer),
    t.wellFormed = true → s.pending = [] →
    (∀ (len : Nat) (fin sent : Bool) (op : BitVec 4) (ext : BitVec 3) (o : Opts),
      op.toNat ∈ [0x0, 0x1, 0x2] → len ≤ s.sizes.nSend → len + 14 < 2 ^ 63 → s.writeRace .tx .send = false →
      (s.turns = dataFrame len fin sent op ext t o ++ [.pending 0, .pending 0, .pending 0] ++ ts →
        ext &&& ~~~s.cfg.rsvAllowed = 0#3 → o.nolock = false → s.permit = .free → s.canSend = true → s.txIn = .ok :: r →
        ∃ u key, steps 5 s = .next u ∧ key.isSome = s.cfg.maskOut ∧ (∀ k, key = some k → k ≠ ⟨0, 0, 0, 0⟩) ∧
          u.txOut = s.txOut ++ wireFrame fin ext (if sent then 0x0 else op) key (s.memRead .send 16 len) ∧
          u.permit = .free ∧ u.pending = [] ∧ u.txIn = r ∧ u.turns = ts ∧ u.events = s.events ∧ u.hdr = s.hdr ∧
          u.rxs = s.rxs ∧ u.sendPrepared = false) ∧
      (s.turns = dataFrame len fin sent op ext t o ++ ts → ext &&& ~~~s.cfg.rsvAllowed ≠ 0#3 →
        step s = .next (ended { s with turns := ts, issuer := .host } .host 0x0A (.fault .emitInvalid)))) ∧
    (∀ p : List Byte,
      (s.turns = pingFrame p t ++ [.pending 0, .pending 0, .pending 0] ++ ts → p.length ≤ 125 →
        125 ≤ s.sizes.nCtrlOut → s.rxOwns .outPing = false → s.permit = .free → s.canSend = true → s.txIn = .ok :: r →
        ∃ u key, steps 6 s = .next u ∧ key.isSome = s.cfg.maskOut ∧ (∀ k, key = some k → k ≠ ⟨0, 0, 0, 0⟩) ∧
          u.txOut = s.txOut ++ wireFrame true 0 0x9 key p ∧
          u.permit = .free ∧ u.pending = [] ∧ u.txIn = r ∧ u.turns = ts ∧ u.events = s.events ∧ u.hdr = s.hdr ∧
          u.rxs = s.rxs) ∧
      (s.turns = pingFrame p t ++ ts → 125 < p.length →
        step s = .next { s with turns := ts, hostResults := s.hostResults ++ [.fault .emitInvalid] }))

/-! ### Whole-machine rules -/

/-- 70_reset_and_hazards.md R145. -/
def Obligations.SecondReaderIsRefused : Prop :=
  ∀ (s : State), s.rxs.busy = true →
    faultsWith .await s .rx 0x08 .stateBusy ∧ faultsWith .retire s .rx 0x07 .stateBusy ∧
    (∀ a n, faultsWith (.recv a n) s .rx 0x09 .stateBusy ∧ faultsWith (.rxmask a n) s .rx 0x06 .stateBusy ∧
      faultsWith (.parse a n) s .rx 0x02 .stateBusy)

/-- 20_memory.md R39, R47, R62, 70_reset_and_hazards.md R151, with the readings of notes/assumptions/11.md, 13.md, 25.md,
32.md and, for a MemWrite of the host past the region's end, 36.md: which agent races on which region, and that a command that races faults `STATE_BUSY` and writes nothing. -/
def Obligations.RaceFaultsAndWritesNothing : Prop :=
  ∀ (a : Addr) (s : State),
    -- who races
    (a.region ∈ [Region.scratch, .inPing, .inPong, .inClose] → s.readRace .tx a.region = true) ∧
    (a.region ∈ [Region.send, .outPing, .outClose] → s.readRace .rx a.region = true) ∧
    (∀ g, s.rxJob ≠ .none → a.region ∈ [Region.scratch, .inPing, .inPong, .inClose] → s.readRace g a.region = true) ∧
    (∀ g b len, s.rxJob = .recv b len → s.readRace g b.region = true) ∧
    (∀ g j, s.rxJob = .pong j → s.readRace g .outPong = true) ∧
    (∀ g j, .send j ∈ s.pending → j.n ≠ 0 → s.writeRace g j.addr.region = true) ∧
    (∀ g, s.writeRace g .outPong = true) ∧ (∀ g, s.sendPrepared = true → s.writeRace g .send = true) ∧
    (∀ g, s.readRace g a.region = true → s.writeRace g a.region = true) ∧
    -- what a race does
    (s.writeRace s.issuer a.region = true →
      (∀ n k pos, n ≠ 0 → faultsWith (.mask a n k pos) s s.issuer 0x05 .stateBusy) ∧
      (∀ c, faultsWith (.closeenc c a) s s.issuer 0x0C .stateBusy)) ∧
    (s.writeRace (txAgent s.issuer) a.region = true →
      (∀ h, faultsWith (.emit h a) s s.issuer 0x04 .stateBusy) ∧
      (∀ len fin sent op ext, faultsWith (.prepare a len fin sent op ext) s s.issuer 0x0A .stateBusy)) ∧
    (s.readRace s.issuer a.region = true → ∀ k, 2 ≤ k → faultsWith (.closedec a k) s s.issuer 0x0D .stateBusy) ∧
    (s.readRace (txAgent s.issuer) a.region = true →
      ∀ n t o, n ≠ 0 → a.off + n ≤ s.size a.region → faultsWith (.sendframe a n t o) s s.issuer 0x0B .stateBusy) ∧
    (s.readRace .rx a.region = true → ∀ n, 2 ≤ n → faultsWith (.parse a n) s .rx 0x02 .stateBusy) ∧
    (s.writeRace .rx a.region = true →
      (∀ n, s.hdr.valid = true → s.hdr.masked = true → n ≠ 0 → faultsWith (.rxmask a n) s .rx 0x06 .stateBusy) ∧
      (∀ len, len ≠ 0 → s.rxs.phase ≠ .faulted → faultsWith (.recv a len) s .rx 0x09 .stateBusy)) ∧
    (s.writeRace .host a.region = true → ∀ ts bs, bs ≠ [] → s.turns = .hostWrite a bs :: ts → .host ∉ s.atWork →
      step s = .next { s with turns := ts, hostResults := s.hostResults ++ [.fault .stateBusy] })

/-- 10_state.md R19: nothing writes `CFG`; nor does a step change a parameter of 00_scope.md R6. -/
def Obligations.ConfigurationNeverChanges : Prop :=
  ∀ s t : State, step s = .next t →
    t.cfg = s.cfg ∧ t.sizes.nSend = s.sizes.nSend ∧ t.sizes.nCtrlIn = s.sizes.nCtrlIn ∧
    t.sizes.nCtrlOut = s.sizes.nCtrlOut

/-- 10_state.md R27: what may write `HDR`: the turn taken is a step of the receive command in progress or issues PARSE, RXMASK,
RETIRE or AWAIT. -/
def Obligations.OnlyReceiveCommandsWriteHdr : Prop :=
  ∀ s t : State, step s = .next t → t.hdr = s.hdr ∨
    ∃ u ts, s.nextTurn [] s.turns = some (u, ts) ∧
      (u = .rx ∨ ∃ a c, u = .command a c ∧ c.code.toNat ∈ [0x02, 0x06, 0x07, 0x08])

/-- 10_state.md R31, with R105's start from `DATA` once the header is finished: no step makes another transition. A step
may take several of the table's transitions at once (a header, its dispatch and a control frame without payload;
notes/assumptions/20.md, 27.md). -/
def Obligations.PhaseTransitions : Prop :=
  ∀ s t : State, s.Inv → step s = .next t → t.rxs.phase = s.rxs.phase ∨
    (match s.rxs.phase with
     | .idle    => t.rxs.phase = .hdr2
     | .hdr2    => t.rxs.phase ∈ [Phase.hdrrest, .ctrl, .data, .closed, .faulted, .eof, .idle]
     | .hdrrest => t.rxs.phase ∈ [Phase.hdr2, .ctrl, .data, .closed, .faulted]
     | .ctrl    => t.rxs.phase ∈ [Phase.hdr2, .closed, .faulted]
     | .data    => t.rxs.phase ∈ [Phase.idle, .hdr2, .faulted]
     | .eof     => False
     | .closed  => False
     | .faulted => False)

/-- 60_exceptions.md R129, 42_dispatch.md R109, 70_reset_and_hazards.md R154: after a sticky fault AWAIT and RECV repeat the
cause, RXMASK has no header, RETIRE drops none, and no step clears the fault. That PARSE of the host repeats the cause too is
the model's reading (notes/assumptions/26.md), as is that RECV repeats it even where it races (notes/assumptions/25.md). -/
def Obligations.StickyFaultStays : Prop :=
  ∀ s : State, s.Inv → s.rxs.fault = true →
    (∀ t, step s = .next t → t.rxs = s.rxs ∧ t.hdr = s.hdr) ∧
    faultsWith .await s .rx 0x08 s.rxs.cause ∧
    (∀ a n, faultsWith (.recv a n) s .rx 0x09 s.rxs.cause) ∧
    (∀ a n, faultsWith (.parse a n) s .rx 0x02
      (if 2 ≤ n ∧ s.readRace .rx a.region = true then .stateBusy else s.rxs.cause)) ∧
    (∀ a n, faultsWith (.rxmask a n) s .rx 0x06 .noHeader) ∧
    exec .retire s = .next (ended s .rx 0x07 (.ok (.nat 0)))

/-- 42_dispatch.md R119, 10_state.md R37: the permit changes only by an acquisition of a free permit or by a release. -/
def Obligations.PermitPassesThroughFree : Prop :=
  ∀ s t : State, step s = .next t → t.permit = s.permit ∨ s.permit = .free ∨ t.permit = .free

/-- 20_memory.md R59, R64; 60_exceptions.md R132: what was sent, signalled or answered stays, and a step adds to the
outbound stream only a prefix of the frame of one SENDFRAME that stands at its write step. -/
def Obligations.OutputsOnlyGrow : Prop :=
  ∀ s t : State, step s = .next t →
    s.events <+: t.events ∧ s.results <+: t.results ∧ s.hostResults <+: t.hostResults ∧
    (t.txOut = s.txOut ∨ ∃ j m, j.stage = .write ∧ (s.rxJob = .pong j ∨ .send j ∈ s.pending) ∧
      t.txOut = s.txOut ++ (s.memRead j.addr.region j.addr.off j.n).take m)
end

