-- ==== Sys2Proof/Laws/Decode.lean ====
section
/-! SUPPORT. The byte-order helpers, the header reader and the operand readers undo what the encoder writes. -/
namespace Sys2Proof

/-! ### Byte order -/

@[simp] theorem beBytes_length (k n : Nat) : (beBytes k n).length = k := by
  induction k with
  | zero => rfl
  | succ k ih => simp [beBytes, ih]

theorem beNat_beBytes (k n : Nat) : beNat (beBytes k n) = n % 256 ^ k := by
  induction k with
  | zero => simp [beBytes, beNat, Nat.mod_one]
  | succ k ih =>
    have h : n % 256 ^ (k + 1) = n % 256 ^ k + 256 ^ k * (n / 256 ^ k % 256) := by rw [Nat.pow_succ, Nat.mod_mul]
    simp only [beBytes, beNat, beBytes_length, ih, BitVec.toNat_ofNat, h]
    rw [Nat.add_comm, Nat.mul_comm]

theorem beNat_lt (bs : List Byte) : beNat bs < 256 ^ bs.length := by
  induction bs with
  | nil => simp [beNat]
  | cons b bs ih =>
    have hb := b.isLt
    have hm : b.toNat * 256 ^ bs.length ≤ 255 * 256 ^ bs.length := Nat.mul_le_mul_right _ (by omega)
    simp only [beNat, List.length_cons, Nat.pow_succ]
    omega

theorem beBytes_beNat (bs : List Byte) : beBytes bs.length (beNat bs) = bs := by
  suffices h : ∀ (bs : List Byte) (m : Nat), beBytes bs.length (m * 256 ^ bs.length + beNat bs) = bs by
    simpa using h bs 0
  intro bs
  induction bs with
  | nil => intro m; rfl
  | cons b bs ih =>
    intro m
    have hlt := beNat_lt bs
    have hpos : 0 < 256 ^ bs.length := Nat.pow_pos (by decide)
    have hsplit : m * 256 ^ (bs.length + 1) + (b.toNat * 256 ^ bs.length + beNat bs)
        = (m * 256 + b.toNat) * 256 ^ bs.length + beNat bs := by ring
    simp only [List.length_cons, beBytes, beNat, hsplit, ih]
    congr 1
    rw [Nat.add_comm, Nat.add_mul_div_right _ _ hpos, Nat.div_eq_of_lt hlt, Nat.zero_add]
    apply BitVec.eq_of_toNat_eq
    have := b.isLt
    simp only [BitVec.toNat_ofNat]
    omega

@[simp] theorem Key.ofNat_toNat (k : Key) : Key.ofNat k.toNat = k := by
  have h0 := k.k0.isLt; have h1 := k.k1.isLt; have h2 := k.k2.isLt; have h3 := k.k3.isLt
  rcases k with ⟨k0, k1, k2, k3⟩
  simp only [Key.ofNat, Key.toNat, Key.mk.injEq]
  simp only at h0 h1 h2 h3
  refine ⟨?_, ?_, ?_, ?_⟩ <;> apply BitVec.eq_of_toNat_eq <;> simp only [BitVec.toNat_ofNat] <;> omega

theorem Key.toNat_lt (k : Key) : k.toNat < 0x100000000 := by
  have h0 := k.k0.isLt; have h1 := k.k1.isLt; have h2 := k.k2.isLt; have h3 := k.k3.isLt
  simp only [Key.toNat]; omega

/-! ### Header bytes -/

@[simp] theorem headerByte0_fin (fin : Bool) (rsv : BitVec 3) (op : BitVec 4) :
    (headerByte0 fin rsv op)[7] = fin := by
  revert fin rsv op; decide

@[simp] theorem headerByte0_rsv (fin : Bool) (rsv : BitVec 3) (op : BitVec 4) :
    (headerByte0 fin rsv op).extractLsb' 4 3 = rsv := by
  revert fin rsv op; decide

@[simp] theorem headerByte0_opcode (fin : Bool) (rsv : BitVec 3) (op : BitVec 4) :
    (headerByte0 fin rsv op).extractLsb' 0 4 = op := by
  revert fin rsv op; decide

@[simp] theorem headerByte1_masked (m : Bool) (l : BitVec 7) : (headerByte1 m l)[7] = m := by
  revert m l; decide

@[simp] theorem headerByte1_len7 (m : Bool) (l : BitVec 7) : (headerByte1 m l).extractLsb' 0 7 = l := by
  revert m l; decide

theorem headerByte0_of_fields (b : Byte) :
    headerByte0 (b.getLsbD 7) (b.extractLsb' 4 3) (b.extractLsb' 0 4) = b := by
  revert b; decide

theorem headerByte1_of_fields (b : Byte) : headerByte1 (b.getLsbD 7) (b.extractLsb' 0 7) = b := by
  revert b; decide

theorem readLen_extBytes (l : LenField) (h : l.wellFormed = true) (rest : List Byte) :
    readLen l.len7 (l.extBytes ++ rest) = some (l, rest) := by
  cases l with
  | short v =>
    simp only [LenField.wellFormed, decide_eq_true_eq] at h
    have h1 : v ≠ 126#7 := by rintro rfl; simp at h
    have h2 : v ≠ 127#7 := by rintro rfl; simp at h
    simp [readLen, LenField.len7, LenField.extBytes, h1, h2]
  | ext16 v =>
    have hb := beNat_beBytes 2 v.toNat
    have hv := v.isLt
    simp only [beBytes] at hb
    simp only [readLen, LenField.len7, LenField.extBytes, beBytes, List.cons_append, List.nil_append, hb]
    rw [Nat.mod_eq_of_lt (by simpa using hv)]; simp
  | ext64 v =>
    have hb := beNat_beBytes 8 v.toNat
    have hv := v.isLt
    simp only [beBytes] at hb
    have h7 : (127 : BitVec 7) ≠ 126#7 := by decide
    simp only [readLen, LenField.len7, LenField.extBytes, beBytes, List.cons_append, List.nil_append, hb,
      h7, if_false]
    rw [Nat.mod_eq_of_lt (by simpa using hv)]; simp

theorem readKey_keyBytes (k : Option Key) (rest : List Byte) :
    readKey k.isSome (keyBytes k ++ rest) = some (k, rest) := by
  cases k <;> rfl

/-- Reading the bytes written for a header gives the header back, with whatever bytes followed it. -/
theorem readHeader_encodeHeader (op : BitVec 4) (h : FrameHdr) (wf : h.wellFormed = true) (rest : List Byte) :
    readHeader (encodeHeader op h ++ rest) = some (op, h, rest) := by
  simp [encodeHeader, readHeader, List.append_assoc, readLen_extBytes h.len wf, readKey_keyBytes]

/-- R76: the length that header byte 1 tells is the number of bytes the encoder writes. -/
theorem encodeHeader_length (op : BitVec 4) (h : FrameHdr) (wf : h.wellFormed = true) :
    (encodeHeader op h).length = headerLength (headerByte1 h.key.isSome h.len.len7) := by
  rcases h with ⟨fin, rsv, len, key⟩
  cases len with
  | short v =>
    simp only [FrameHdr.wellFormed, LenField.wellFormed, decide_eq_true_eq] at wf
    have h1 : v ≠ 126#7 := by rintro rfl; simp at wf
    have h2 : v ≠ 127#7 := by rintro rfl; simp at wf
    cases key <;> simp [encodeHeader, headerLength, LenField.len7, LenField.extBytes, keyBytes, Key.bytes, h1, h2]
  | ext16 v =>
    cases key <;> simp [encodeHeader, headerLength, LenField.len7, LenField.extBytes, keyBytes, Key.bytes]
  | ext64 v =>
    cases key <;> simp [encodeHeader, headerLength, LenField.len7, LenField.extBytes, keyBytes, Key.bytes]

/-! ### Operand readers -/

/-- A reader that succeeded hands its operand on. -/
@[simp] theorem ok_bind {α β : Type} (p : α) (f : α → Except DecodeError β) :
    ((Except.ok p : Except DecodeError α) >>= f) = f p := rfl

theorem takeBelow_of_lt {b x : Nat} (h : x < b) (r : List Nat) : takeBelow b (x :: r) = .ok (x, r) := by
  simp [takeBelow, h]

@[simp] theorem takeBits_toNat {w : Nat} (v : BitVec w) (r : List Nat) : takeBits w (v.toNat :: r) = .ok (v, r) := by
  simp [takeBits, v.isLt]

@[simp] theorem takeFlag_flagArg (b : Bool) (r : List Nat) : takeFlag (flagArg b :: r) = .ok (b, r) := by
  cases b <;> rfl

@[simp] theorem takeAddr_args (a : Addr) (r : List Nat) : takeAddr (a.args ++ r) = .ok (a, r) := by
  rcases a with ⟨A, o⟩; cases A <;> rfl

@[simp] theorem takeAddr_args_nil (a : Addr) : takeAddr a.args = .ok (a, []) := by
  rcases a with ⟨A, o⟩; cases A <;> rfl

@[simp] theorem takeKey_toNat (k : Key) (r : List Nat) : takeKey (k.toNat :: r) = .ok (k, r) := by
  unfold takeKey
  rw [takeBelow_of_lt k.toNat_lt]
  show Except.ok (Key.ofNat k.toNat, r) = _
  rw [Key.ofNat_toNat]

theorem takeTimeout_args (t : Timeout) (h : t.wellFormed = true) (r : List Nat) :
    takeTimeout (t.args ++ r) = .ok (t, r) := by
  cases t with
  | zero => rfl
  | inf => rfl
  | finite d =>
    cases d with
    | zero => simp [Timeout.wellFormed] at h
    | succ d => rfl

@[simp] theorem takeOpts_args (o : Opts) (r : List Nat) : takeOpts (o.args ++ r) = .ok (o, r) := by
  rcases o with ⟨a, b, c⟩; cases a <;> cases b <;> cases c <;> rfl

theorem takeHeaderOp_unmasked (fin : Bool) (rsv : BitVec 3) (op : BitVec 4) {len : Nat}
    (wf : len < 0x10000000000000000) (r : List Nat) :
    takeHeaderOp (flagArg fin :: rsv.toNat :: op.toNat :: flagArg false :: len :: r)
      = .ok (⟨fin, rsv, op, len, none⟩, r) := by
  unfold takeHeaderOp
  rw [takeFlag_flagArg, ok_bind]
  show (takeBits 3 (rsv.toNat :: _) >>= _) = _
  rw [takeBits_toNat, ok_bind]
  show (takeBits 4 (op.toNat :: _) >>= _) = _
  rw [takeBits_toNat, ok_bind]
  show (takeFlag (flagArg false :: _) >>= _) = _
  rw [takeFlag_flagArg, ok_bind]
  show (takeBelow 0x10000000000000000 (len :: _) >>= _) = _
  rw [takeBelow_of_lt wf, ok_bind]
  rfl

theorem takeHeaderOp_masked (fin : Bool) (rsv : BitVec 3) (op : BitVec 4) {len : Nat}
    (wf : len < 0x10000000000000000) (k : Key) (r : List Nat) :
    takeHeaderOp (flagArg fin :: rsv.toNat :: op.toNat :: flagArg true :: len :: k.toNat :: r)
      = .ok (⟨fin, rsv, op, len, some k⟩, r) := by
  unfold takeHeaderOp
  rw [takeFlag_flagArg, ok_bind]
  show (takeBits 3 (rsv.toNat :: _) >>= _) = _
  rw [takeBits_toNat, ok_bind]
  show (takeBits 4 (op.toNat :: _) >>= _) = _
  rw [takeBits_toNat, ok_bind]
  show (takeFlag (flagArg true :: _) >>= _) = _
  rw [takeFlag_flagArg, ok_bind]
  show (takeBelow 0x10000000000000000 (len :: _) >>= _) = _
  rw [takeBelow_of_lt wf, ok_bind]
  show (takeKey (k.toNat :: _) >>= _) = _
  rw [takeKey_toNat, ok_bind]

theorem takeHeaderOp_args (h : HeaderOp) (wf : h.wellFormed = true) (r : List Nat) :
    takeHeaderOp (h.args ++ r) = .ok (h, r) := by
  rcases h with ⟨fin, rsv, op, len, key⟩
  have hl : len < 0x10000000000000000 := of_decide_eq_true wf
  cases key with
  | none   => exact takeHeaderOp_unmasked fin rsv op hl r
  | some k => exact takeHeaderOp_masked fin rsv op hl k r

theorem takeLength_of_lt {n : Nat} (h : lengthOk n = true) (r : List Nat) : takeLength (n :: r) = .ok (n, r) :=
  takeBelow_of_lt (by simpa [lengthOk] using h) r

theorem takePosition_of_lt {n : Nat} (h : n < 0x10000000000000000) (r : List Nat) :
    takePosition (n :: r) = .ok (n, r) :=
  takeBelow_of_lt h r

/-- R87: a reserved code takes everything that came with it. -/
theorem readCommand_reserved (code : BitVec 8) (h : reservedCode code = true) (r : List Nat) :
    readCommand code r = .ok (.reservedCmd code r, []) := by
  simp only [reservedCode, decide_eq_true_eq] at h
  unfold readCommand
  split <;> first | rfl | omega

/-! ### What a successful reader says of its words -/

theorem bind_ok {α β : Type} {x : Except DecodeError α} {f : α → Except DecodeError β} {y : β}
    (h : (x >>= f) = .ok y) : ∃ a, x = .ok a ∧ f a = .ok y := by
  cases x with
  | error e => cases h
  | ok a => exact ⟨a, rfl, h⟩

theorem takeBelow_ok {b x : Nat} {r r' : List Nat} (h : takeBelow b r = .ok (x, r')) : r = x :: r' ∧ x < b := by
  unfold takeBelow at h
  split at h
  · cases h
  · split at h
    · cases h; exact ⟨rfl, ‹_›⟩
    · cases h

theorem takeBits_ok {w : Nat} {v : BitVec w} {r r' : List Nat} (h : takeBits w r = .ok (v, r')) : r = v.toNat :: r' := by
  unfold takeBits at h
  split at h
  · cases h
  · split at h
    · next hx => cases h; simp [Nat.mod_eq_of_lt hx]
    · cases h

theorem takeFlag_ok {f : Bool} {r r' : List Nat} (h : takeFlag r = .ok (f, r')) : r = flagArg f :: r' := by
  unfold takeFlag at h
  split at h <;> cases h <;> rfl

theorem takeAddr_ok {a : Addr} {r r' : List Nat} (h : takeAddr r = .ok (a, r')) : r = a.args ++ r' := by
  obtain ⟨⟨A, r1⟩, h1, h⟩ := bind_ok h
  obtain ⟨⟨o, r2⟩, h2, h⟩ := bind_ok h
  cases h
  have h2' : r1 = o :: r' := by
    change takeOffset r1 = _ at h2
    unfold takeOffset at h2; split at h2 <;> cases h2; rfl
  subst h2'
  unfold takeRegion at h1
  split at h1 <;> cases h1 <;> rfl

theorem Key.toNat_ofNat {n : Nat} (h : n < 0x100000000) : (Key.ofNat n).toNat = n := by
  simp only [Key.toNat, Key.ofNat, BitVec.toNat_ofNat]; omega

theorem takeKey_ok {k : Key} {r r' : List Nat} (h : takeKey r = .ok (k, r')) : r = k.toNat :: r' := by
  obtain ⟨⟨n, r1⟩, h1, h⟩ := bind_ok h
  cases h
  obtain ⟨rfl, hn⟩ := takeBelow_ok h1
  show _ = (Key.ofNat n).toNat :: _
  rw [Key.toNat_ofNat hn]

theorem takeTimeout_ok {t : Timeout} {r r' : List Nat} (h : takeTimeout r = .ok (t, r')) :
    r = t.args ++ r' ∧ t.wellFormed = true := by
  unfold takeTimeout at h
  split at h <;> cases h <;> simp [Timeout.args, Timeout.wellFormed]

theorem takeOpts_ok {o : Opts} {r r' : List Nat} (h : takeOpts r = .ok (o, r')) : r = o.args ++ r' := by
  obtain ⟨⟨b, r1⟩, h1, h⟩ := bind_ok h
  cases h
  rw [takeBits_ok h1]
  have : ∀ b : BitVec 3, b.toNat = flagArg (b.getLsbD 0) + 2 * flagArg (b.getLsbD 1) + 4 * flagArg (b.getLsbD 2) := by
    decide
  rw [this b]; rfl

theorem takeHeaderOp_ok {h : HeaderOp} {r r' : List Nat} (e : takeHeaderOp r = .ok (h, r')) :
    r = h.args ++ r' ∧ h.wellFormed = true := by
  obtain ⟨⟨fin, r1⟩, h1, e⟩ := bind_ok e
  obtain ⟨⟨rsv, r2⟩, h2, e⟩ := bind_ok e
  obtain ⟨⟨op, r3⟩, h3, e⟩ := bind_ok e
  obtain ⟨⟨m, r4⟩, h4, e⟩ := bind_ok e
  obtain ⟨⟨len, r5⟩, h5, e⟩ := bind_ok e
  have h1 := takeFlag_ok h1
  have h2 := takeBits_ok h2
  have h3 := takeBits_ok h3
  have h4 := takeFlag_ok h4
  obtain ⟨h5, hl⟩ := takeBelow_ok h5
  cases m with
  | false =>
    cases e
    refine ⟨?_, decide_eq_true hl⟩
    rw [h1, h2, h3, h4, h5]; rfl
  | true =>
    obtain ⟨⟨k, r6⟩, h6, e⟩ := bind_ok (x := takeKey r5) e
    cases e
    have h6 := takeKey_ok h6
    refine ⟨?_, decide_eq_true hl⟩
    rw [h1, h2, h3, h4, h5, h6]; rfl

theorem takeLength_ok {n : Nat} {r r' : List Nat} (h : takeLength r = .ok (n, r')) :
    r = n :: r' ∧ lengthOk n = true := by
  obtain ⟨h, hn⟩ := takeBelow_ok h
  exact ⟨h, decide_eq_true hn⟩

theorem takePosition_ok {n : Nat} {r r' : List Nat} (h : takePosition r = .ok (n, r')) :
    r = n :: r' ∧ n < 0x10000000000000000 := takeBelow_ok h

/-- A command that decodes is well formed, and its record is the one the encoder writes. -/
theorem readCommand_ok {code : BitVec 8} {r r' : List Nat} {i : Instr} (h : readCommand code r = .ok (i, r')) :
    i.wellFormed = true ∧ ∃ args, r = args ++ r' ∧ encode i = .command ⟨code, args⟩ := by
  unfold readCommand at h
  split at h
  case h_1 hc =>
    obtain ⟨⟨b0, r1⟩, h1, h⟩ := bind_ok h
    obtain ⟨⟨b1, r2⟩, h2, h⟩ := bind_ok h
    cases h
    refine ⟨rfl, [b0.toNat, b1.toNat], ?_, ?_⟩
    · rw [takeBits_ok h1, takeBits_ok h2]; rfl
    · simp only [encode]; congr; exact BitVec.eq_of_toNat_eq hc.symm
  case h_2 hc =>
    obtain ⟨⟨a, r1⟩, h1, h⟩ := bind_ok h
    obtain ⟨⟨n, r2⟩, h2, h⟩ := bind_ok h
    cases h
    obtain ⟨h2, hn⟩ := takeLength_ok h2
    refine ⟨hn, a.args ++ [n], ?_, ?_⟩
    · rw [takeAddr_ok h1, h2]; simp
    · simp only [encode]; congr; exact BitVec.eq_of_toNat_eq hc.symm
  case h_3 hc =>
    obtain ⟨⟨op, r1⟩, h1, h⟩ := bind_ok h
    cases h
    refine ⟨rfl, [op.toNat], ?_, ?_⟩
    · rw [takeBits_ok h1]; rfl
    · simp only [encode]; congr; exact BitVec.eq_of_toNat_eq hc.symm
  case h_4 hc =>
    obtain ⟨⟨e, r1⟩, h1, h⟩ := bind_ok h
    obtain ⟨⟨a, r2⟩, h2, h⟩ := bind_ok h
    cases h
    obtain ⟨h1, hw⟩ := takeHeaderOp_ok h1
    refine ⟨hw, e.args ++ a.args, ?_, ?_⟩
    · rw [h1, takeAddr_ok h2]; simp
    · simp only [encode]; congr; exact BitVec.eq_of_toNat_eq hc.symm
  case h_5 hc =>
    obtain ⟨⟨a, r1⟩, h1, h⟩ := bind_ok h
    obtain ⟨⟨n, r2⟩, h2, h⟩ := bind_ok h
    obtain ⟨⟨k, r3⟩, h3, h⟩ := bind_ok h
    obtain ⟨⟨p, r4⟩, h4, h⟩ := bind_ok h
    cases h
    obtain ⟨h2, hn⟩ := takeLength_ok h2
    obtain ⟨h4, hp⟩ := takePosition_ok h4
    refine ⟨?_, a.args ++ [n, k.toNat, p], ?_, ?_⟩
    · show (lengthOk n && decide (p < 0x10000000000000000)) = true
      rw [hn, decide_eq_true hp]; rfl
    · rw [takeAddr_ok h1, h2, takeKey_ok h3, h4]; simp
    · simp only [encode]; congr; exact BitVec.eq_of_toNat_eq hc.symm
  case h_6 hc =>
    obtain ⟨⟨a, r1⟩, h1, h⟩ := bind_ok h
    obtain ⟨⟨n, r2⟩, h2, h⟩ := bind_ok h
    cases h
    obtain ⟨h2, hn⟩ := takeLength_ok h2
    refine ⟨hn, a.args ++ [n], ?_, ?_⟩
    · rw [takeAddr_ok h1, h2]; simp
    · simp only [encode]; congr; exact BitVec.eq_of_toNat_eq hc.symm
  case h_7 hc =>
    cases h
    exact ⟨rfl, [], rfl, by simp only [encode]; congr; exact BitVec.eq_of_toNat_eq hc.symm⟩
  case h_8 hc =>
    cases h
    exact ⟨rfl, [], rfl, by simp only [encode]; congr; exact BitVec.eq_of_toNat_eq hc.symm⟩
  case h_9 hc =>
    obtain ⟨⟨a, r1⟩, h1, h⟩ := bind_ok h
    obtain ⟨⟨n, r2⟩, h2, h⟩ := bind_ok h
    cases h
    obtain ⟨h2, hn⟩ := takeLength_ok h2
    refine ⟨hn, a.args ++ [n], ?_, ?_⟩
    · rw [takeAddr_ok h1, h2]; simp
    · simp only [encode]; congr; exact BitVec.eq_of_toNat_eq hc.symm
  case h_10 hc =>
    obtain ⟨⟨a, r1⟩, h1, h⟩ := bind_ok h
    obtain ⟨⟨n, r2⟩, h2, h⟩ := bind_ok h
    obtain ⟨⟨fin, r3⟩, h3, h⟩ := bind_ok h
    obtain ⟨⟨sent, r4⟩, h4, h⟩ := bind_ok h
    obtain ⟨⟨op, r5⟩, h5, h⟩ := bind_ok h
    obtain ⟨⟨ext, r6⟩, h6, h⟩ := bind_ok h
    cases h
    obtain ⟨h2, hn⟩ := takeLength_ok h2
    refine ⟨hn, a.args ++ [n, flagArg fin, flagArg sent, op.toNat, ext.toNat], ?_, ?_⟩
    · rw [takeAddr_ok h1, h2, takeFlag_ok h3, takeFlag_ok h4, takeBits_ok h5, takeBits_ok h6]; simp
    · simp only [encode]; congr; exact BitVec.eq_of_toNat_eq hc.symm
  case h_11 hc =>
    obtain ⟨⟨a, r1⟩, h1, h⟩ := bind_ok h
    obtain ⟨⟨n, r2⟩, h2, h⟩ := bind_ok h
    obtain ⟨⟨t, r3⟩, h3, h⟩ := bind_ok h
    obtain ⟨⟨o, r4⟩, h4, h⟩ := bind_ok h
    cases h
    obtain ⟨h2, hn⟩ := takeLength_ok h2
    obtain ⟨h3, ht⟩ := takeTimeout_ok h3
    refine ⟨?_, a.args ++ [n] ++ t.args ++ o.args, ?_, ?_⟩
    · show (lengthOk n && t.wellFormed) = true
      rw [hn, ht]; rfl
    · rw [takeAddr_ok h1, h2, h3, takeOpts_ok h4]; simp
    · simp only [encode]; congr; exact BitVec.eq_of_toNat_eq hc.symm
  case h_12 hc =>
    obtain ⟨⟨c, r1⟩, h1, h⟩ := bind_ok h
    obtain ⟨⟨a, r2⟩, h2, h⟩ := bind_ok h
    cases h
    refine ⟨rfl, c.toNat :: a.args, ?_, ?_⟩
    · rw [takeBits_ok h1, takeAddr_ok h2]; rfl
    · simp only [encode]; congr; exact BitVec.eq_of_toNat_eq hc.symm
  case h_13 hc =>
    obtain ⟨⟨a, r1⟩, h1, h⟩ := bind_ok h
    obtain ⟨⟨n, r2⟩, h2, h⟩ := bind_ok h
    cases h
    obtain ⟨h2, hn⟩ := takeLength_ok h2
    refine ⟨hn, a.args ++ [n], ?_, ?_⟩
    · rw [takeAddr_ok h1, h2]; simp
    · simp only [encode]; congr; exact BitVec.eq_of_toNat_eq hc.symm
  case h_14 hc =>
    obtain ⟨⟨g, r1⟩, h1, h⟩ := bind_ok h
    cases h
    refine ⟨rfl, [g.toNat], ?_, ?_⟩
    · rw [takeBits_ok h1]; rfl
    · simp only [encode]; congr; exact BitVec.eq_of_toNat_eq hc.symm
  case h_15 hc =>
    obtain ⟨⟨t, r1⟩, h1, h⟩ := bind_ok h
    cases h
    obtain ⟨h1, ht⟩ := takeTimeout_ok h1
    refine ⟨ht, t.args, h1, ?_⟩
    simp only [encode]; congr; exact BitVec.eq_of_toNat_eq hc.symm
  case h_16 hc =>
    cases h
    exact ⟨rfl, [], rfl, by simp only [encode]; congr; exact BitVec.eq_of_toNat_eq hc.symm⟩
  case h_17 =>
    cases h
    refine ⟨?_, r, by simp, rfl⟩
    have hlt := code.isLt
    show reservedCode code = true
    refine decide_eq_true ?_
    simp only [imp_false] at *
    omega

theorem readLen_ok {l7 : BitVec 7} {bs rest : List Byte} {l : LenField} (h : readLen l7 bs = some (l, rest)) :
    l.wellFormed = true ∧ l.len7 = l7 ∧ bs = l.extBytes ++ rest := by
  unfold readLen at h
  split at h
  · next h7 =>
    subst h7
    split at h
    · next b0 b1 r =>
      cases h
      refine ⟨rfl, rfl, ?_⟩
      have hlt := beNat_lt [b0, b1]
      have hb := beBytes_beNat [b0, b1]
      simp only [LenField.extBytes, BitVec.toNat_ofNat]
      rw [Nat.mod_eq_of_lt (by simpa using hlt)]
      simp only [List.length_cons, List.length_nil] at hb
      rw [hb]; rfl
    · cases h
  · split at h
    · next h7 =>
      subst h7
      split at h
      · next b0 b1 b2 b3 b4 b5 b6 b7 r =>
        cases h
        refine ⟨rfl, rfl, ?_⟩
        have hlt := beNat_lt [b0, b1, b2, b3, b4, b5, b6, b7]
        have hb := beBytes_beNat [b0, b1, b2, b3, b4, b5, b6, b7]
        simp only [LenField.extBytes, BitVec.toNat_ofNat]
        rw [Nat.mod_eq_of_lt (by simpa using hlt)]
        simp only [List.length_cons, List.length_nil] at hb
        rw [hb]; rfl
      · cases h
    · next h1 h2 =>
      cases h
      refine ⟨?_, rfl, rfl⟩
      simp only [LenField.wellFormed, decide_eq_true_eq]
      have h1 : l7.toNat ≠ 126 := fun e => h1 (BitVec.eq_of_toNat_eq e)
      have h2 : l7.toNat ≠ 127 := fun e => h2 (BitVec.eq_of_toNat_eq e)
      have := l7.isLt
      omega

theorem readKey_ok {m : Bool} {bs rest : List Byte} {k : Option Key} (h : readKey m bs = some (k, rest)) :
    k.isSome = m ∧ bs = keyBytes k ++ rest := by
  unfold readKey at h
  split at h
  · next hm =>
    split at h
    · cases h; exact ⟨hm.symm, rfl⟩
    · cases h
  · next hm => cases h; exact ⟨by simpa using hm, rfl⟩

/-- A header that is read is well formed, and its bytes are the ones the encoder writes. -/
theorem readHeader_ok {bs rest : List Byte} {op : BitVec 4} {f : FrameHdr} (h : readHeader bs = some (op, f, rest)) :
    f.wellFormed = true ∧ bs = encodeHeader op f ++ rest := by
  unfold readHeader at h
  split at h
  · next b0 b1 r =>
    split at h
    · cases h
    · next l r1 hl =>
      split at h
      · cases h
      · next k r2 hk =>
        cases h
        obtain ⟨hw, h7, hb⟩ := readLen_ok hl
        obtain ⟨hm, hk⟩ := readKey_ok hk
        refine ⟨hw, ?_⟩
        simp only [encodeHeader, hm, h7, headerByte0_of_fields, headerByte1_of_fields, hb, hk]
        simp
  · cases h

theorem encode_frameInstr (op : BitVec 4) (f : FrameHdr) : encode (frameInstr op f) = .header (encodeHeader op f) := by
  have : ∀ n : Fin 16, encode (frameInstr (BitVec.ofFin n) f) = .header (encodeHeader (BitVec.ofFin n) f) := by
    intro n; fin_cases n <;> rfl
  exact this op.toFin

theorem wellFormed_frameInstr (op : BitVec 4) (f : FrameHdr) : (frameInstr op f).wellFormed = f.wellFormed := by
  have : ∀ n : Fin 16, (frameInstr (BitVec.ofFin n) f).wellFormed = f.wellFormed := by
    intro n; fin_cases n <;> rfl
  exact this op.toFin

end Sys2Proof
end

