-- ==== Sys2Proof/Laws/State.lean ====
section
/-! SUPPORT. What each update of the state does to each field, so that no proof unfolds a record update. -/
namespace Sys2Proof.Machine

open Sys2Proof

/-! ### complete -/

@[simp] theorem complete_cfg (s : State) (a : Agent) (c : BitVec 8) (r : Result) : (s.complete a c r).cfg = s.cfg := (rfl)
@[simp] theorem complete_hdr (s : State) (a : Agent) (c : BitVec 8) (r : Result) : (s.complete a c r).hdr = s.hdr := (rfl)
@[simp] theorem complete_rxs (s : State) (a : Agent) (c : BitVec 8) (r : Result) : (s.complete a c r).rxs = s.rxs := (rfl)
@[simp] theorem complete_permit (s : State) (a : Agent) (c : BitVec 8) (r : Result) : (s.complete a c r).permit = s.permit := (rfl)
@[simp] theorem complete_sizes (s : State) (a : Agent) (c : BitVec 8) (r : Result) : (s.complete a c r).sizes = s.sizes := (rfl)
@[simp] theorem complete_mem (s : State) (a : Agent) (c : BitVec 8) (r : Result) : (s.complete a c r).mem = s.mem := (rfl)
@[simp] theorem complete_rxIn (s : State) (a : Agent) (c : BitVec 8) (r : Result) : (s.complete a c r).rxIn = s.rxIn := (rfl)
@[simp] theorem complete_txIn (s : State) (a : Agent) (c : BitVec 8) (r : Result) : (s.complete a c r).txIn = s.txIn := (rfl)
@[simp] theorem complete_txOut (s : State) (a : Agent) (c : BitVec 8) (r : Result) : (s.complete a c r).txOut = s.txOut := (rfl)
@[simp] theorem complete_events (s : State) (a : Agent) (c : BitVec 8) (r : Result) : (s.complete a c r).events = s.events := (rfl)
@[simp] theorem complete_results (s : State) (a : Agent) (c : BitVec 8) (r : Result) : (s.complete a c r).results = s.results ++ [⟨a, c, r⟩] := (rfl)
@[simp] theorem complete_hostResults (s : State) (a : Agent) (c : BitVec 8) (r : Result) : (s.complete a c r).hostResults = s.hostResults := (rfl)
@[simp] theorem complete_sendPrepared (s : State) (a : Agent) (c : BitVec 8) (r : Result) : (s.complete a c r).sendPrepared = s.sendPrepared := (rfl)
@[simp] theorem complete_canSend (s : State) (a : Agent) (c : BitVec 8) (r : Result) : (s.complete a c r).canSend = s.canSend := (rfl)
@[simp] theorem complete_keyDraws (s : State) (a : Agent) (c : BitVec 8) (r : Result) : (s.complete a c r).keyDraws = s.keyDraws := (rfl)
@[simp] theorem complete_rxJob (s : State) (a : Agent) (c : BitVec 8) (r : Result) : (s.complete a c r).rxJob = s.rxJob := (rfl)
@[simp] theorem complete_pending (s : State) (a : Agent) (c : BitVec 8) (r : Result) : (s.complete a c r).pending = s.pending := (rfl)
@[simp] theorem complete_turns (s : State) (a : Agent) (c : BitVec 8) (r : Result) : (s.complete a c r).turns = s.turns := (rfl)
@[simp] theorem complete_issuer (s : State) (a : Agent) (c : BitVec 8) (r : Result) : (s.complete a c r).issuer = s.issuer := (rfl)
@[simp] theorem complete_keyCtr (s : State) (a : Agent) (c : BitVec 8) (r : Result) : (s.complete a c r).keyCtr = s.keyCtr := (rfl)

/-! ### emitEvent -/

@[simp] theorem emitEvent_cfg (s : State) (e : Event) : (s.emitEvent e).cfg = s.cfg := (rfl)
@[simp] theorem emitEvent_hdr (s : State) (e : Event) : (s.emitEvent e).hdr = s.hdr := (rfl)
@[simp] theorem emitEvent_rxs (s : State) (e : Event) : (s.emitEvent e).rxs = s.rxs := (rfl)
@[simp] theorem emitEvent_permit (s : State) (e : Event) : (s.emitEvent e).permit = s.permit := (rfl)
@[simp] theorem emitEvent_sizes (s : State) (e : Event) : (s.emitEvent e).sizes = s.sizes := (rfl)
@[simp] theorem emitEvent_mem (s : State) (e : Event) : (s.emitEvent e).mem = s.mem := (rfl)
@[simp] theorem emitEvent_rxIn (s : State) (e : Event) : (s.emitEvent e).rxIn = s.rxIn := (rfl)
@[simp] theorem emitEvent_txIn (s : State) (e : Event) : (s.emitEvent e).txIn = s.txIn := (rfl)
@[simp] theorem emitEvent_txOut (s : State) (e : Event) : (s.emitEvent e).txOut = s.txOut := (rfl)
@[simp] theorem emitEvent_events (s : State) (e : Event) : (s.emitEvent e).events = s.events ++ [e] := (rfl)
@[simp] theorem emitEvent_results (s : State) (e : Event) : (s.emitEvent e).results = s.results := (rfl)
@[simp] theorem emitEvent_hostResults (s : State) (e : Event) : (s.emitEvent e).hostResults = s.hostResults := (rfl)
@[simp] theorem emitEvent_sendPrepared (s : State) (e : Event) : (s.emitEvent e).sendPrepared = s.sendPrepared := (rfl)
@[simp] theorem emitEvent_canSend (s : State) (e : Event) : (s.emitEvent e).canSend = s.canSend := (rfl)
@[simp] theorem emitEvent_keyDraws (s : State) (e : Event) : (s.emitEvent e).keyDraws = s.keyDraws := (rfl)
@[simp] theorem emitEvent_rxJob (s : State) (e : Event) : (s.emitEvent e).rxJob = s.rxJob := (rfl)
@[simp] theorem emitEvent_pending (s : State) (e : Event) : (s.emitEvent e).pending = s.pending := (rfl)
@[simp] theorem emitEvent_turns (s : State) (e : Event) : (s.emitEvent e).turns = s.turns := (rfl)
@[simp] theorem emitEvent_issuer (s : State) (e : Event) : (s.emitEvent e).issuer = s.issuer := (rfl)
@[simp] theorem emitEvent_keyCtr (s : State) (e : Event) : (s.emitEvent e).keyCtr = s.keyCtr := (rfl)

/-! ### dropHeader -/

@[simp] theorem dropHeader_cfg (s : State) : (s.dropHeader).cfg = s.cfg := (rfl)
@[simp] theorem dropHeader_hdr (s : State) : (s.dropHeader).hdr = { s.hdr with valid := false } := (rfl)
@[simp] theorem dropHeader_rxs (s : State) : (s.dropHeader).rxs = s.rxs := (rfl)
@[simp] theorem dropHeader_permit (s : State) : (s.dropHeader).permit = s.permit := (rfl)
@[simp] theorem dropHeader_sizes (s : State) : (s.dropHeader).sizes = s.sizes := (rfl)
@[simp] theorem dropHeader_mem (s : State) : (s.dropHeader).mem = s.mem := (rfl)
@[simp] theorem dropHeader_rxIn (s : State) : (s.dropHeader).rxIn = s.rxIn := (rfl)
@[simp] theorem dropHeader_txIn (s : State) : (s.dropHeader).txIn = s.txIn := (rfl)
@[simp] theorem dropHeader_txOut (s : State) : (s.dropHeader).txOut = s.txOut := (rfl)
@[simp] theorem dropHeader_events (s : State) : (s.dropHeader).events = s.events := (rfl)
@[simp] theorem dropHeader_results (s : State) : (s.dropHeader).results = s.results := (rfl)
@[simp] theorem dropHeader_hostResults (s : State) : (s.dropHeader).hostResults = s.hostResults := (rfl)
@[simp] theorem dropHeader_sendPrepared (s : State) : (s.dropHeader).sendPrepared = s.sendPrepared := (rfl)
@[simp] theorem dropHeader_canSend (s : State) : (s.dropHeader).canSend = s.canSend := (rfl)
@[simp] theorem dropHeader_keyDraws (s : State) : (s.dropHeader).keyDraws = s.keyDraws := (rfl)
@[simp] theorem dropHeader_rxJob (s : State) : (s.dropHeader).rxJob = s.rxJob := (rfl)
@[simp] theorem dropHeader_pending (s : State) : (s.dropHeader).pending = s.pending := (rfl)
@[simp] theorem dropHeader_turns (s : State) : (s.dropHeader).turns = s.turns := (rfl)
@[simp] theorem dropHeader_issuer (s : State) : (s.dropHeader).issuer = s.issuer := (rfl)
@[simp] theorem dropHeader_keyCtr (s : State) : (s.dropHeader).keyCtr = s.keyCtr := (rfl)

/-! ### takePermit -/

@[simp] theorem takePermit_cfg (s : State) (p : Permit) : (s.takePermit p).cfg = s.cfg := (rfl)
@[simp] theorem takePermit_hdr (s : State) (p : Permit) : (s.takePermit p).hdr = s.hdr := (rfl)
@[simp] theorem takePermit_rxs (s : State) (p : Permit) : (s.takePermit p).rxs = s.rxs := (rfl)
@[simp] theorem takePermit_permit (s : State) (p : Permit) : (s.takePermit p).permit = p := (rfl)
@[simp] theorem takePermit_sizes (s : State) (p : Permit) : (s.takePermit p).sizes = s.sizes := (rfl)
@[simp] theorem takePermit_mem (s : State) (p : Permit) : (s.takePermit p).mem = s.mem := (rfl)
@[simp] theorem takePermit_rxIn (s : State) (p : Permit) : (s.takePermit p).rxIn = s.rxIn := (rfl)
@[simp] theorem takePermit_txIn (s : State) (p : Permit) : (s.takePermit p).txIn = s.txIn := (rfl)
@[simp] theorem takePermit_txOut (s : State) (p : Permit) : (s.takePermit p).txOut = s.txOut := (rfl)
@[simp] theorem takePermit_events (s : State) (p : Permit) : (s.takePermit p).events = s.events := (rfl)
@[simp] theorem takePermit_results (s : State) (p : Permit) : (s.takePermit p).results = s.results := (rfl)
@[simp] theorem takePermit_hostResults (s : State) (p : Permit) : (s.takePermit p).hostResults = s.hostResults := (rfl)
@[simp] theorem takePermit_sendPrepared (s : State) (p : Permit) : (s.takePermit p).sendPrepared = s.sendPrepared := (rfl)
@[simp] theorem takePermit_canSend (s : State) (p : Permit) : (s.takePermit p).canSend = s.canSend := (rfl)
@[simp] theorem takePermit_keyDraws (s : State) (p : Permit) : (s.takePermit p).keyDraws = s.keyDraws := (rfl)
@[simp] theorem takePermit_rxJob (s : State) (p : Permit) : (s.takePermit p).rxJob = s.rxJob := (rfl)
@[simp] theorem takePermit_pending (s : State) (p : Permit) : (s.takePermit p).pending = s.pending := (rfl)
@[simp] theorem takePermit_turns (s : State) (p : Permit) : (s.takePermit p).turns = s.turns := (rfl)
@[simp] theorem takePermit_issuer (s : State) (p : Permit) : (s.takePermit p).issuer = s.issuer := (rfl)
@[simp] theorem takePermit_keyCtr (s : State) (p : Permit) : (s.takePermit p).keyCtr = s.keyCtr := (rfl)

/-! ### rxFault -/

@[simp] theorem rxFault_cfg (s : State) (cmd : BitVec 8) (c : Cause) : (s.rxFault cmd c).cfg = s.cfg := (rfl)
@[simp] theorem rxFault_hdr (s : State) (cmd : BitVec 8) (c : Cause) : (s.rxFault cmd c).hdr = { s.hdr with valid := false } := (rfl)
@[simp] theorem rxFault_rxs (s : State) (cmd : BitVec 8) (c : Cause) : (s.rxFault cmd c).rxs = { phase := .faulted, busy := false, fault := true, cause := c, hcnt := 0, hneed := 0 } := (rfl)
@[simp] theorem rxFault_permit (s : State) (cmd : BitVec 8) (c : Cause) : (s.rxFault cmd c).permit = s.permit := (rfl)
@[simp] theorem rxFault_sizes (s : State) (cmd : BitVec 8) (c : Cause) : (s.rxFault cmd c).sizes = s.sizes := (rfl)
@[simp] theorem rxFault_mem (s : State) (cmd : BitVec 8) (c : Cause) : (s.rxFault cmd c).mem = s.mem := (rfl)
@[simp] theorem rxFault_rxIn (s : State) (cmd : BitVec 8) (c : Cause) : (s.rxFault cmd c).rxIn = s.rxIn := (rfl)
@[simp] theorem rxFault_txIn (s : State) (cmd : BitVec 8) (c : Cause) : (s.rxFault cmd c).txIn = s.txIn := (rfl)
@[simp] theorem rxFault_txOut (s : State) (cmd : BitVec 8) (c : Cause) : (s.rxFault cmd c).txOut = s.txOut := (rfl)
@[simp] theorem rxFault_events (s : State) (cmd : BitVec 8) (c : Cause) : (s.rxFault cmd c).events = s.events ++ [.faultRx c] := (rfl)
@[simp] theorem rxFault_results (s : State) (cmd : BitVec 8) (c : Cause) : (s.rxFault cmd c).results = s.results ++ [⟨.rx, cmd, .fault c⟩] := (rfl)
@[simp] theorem rxFault_hostResults (s : State) (cmd : BitVec 8) (c : Cause) : (s.rxFault cmd c).hostResults = s.hostResults := (rfl)
@[simp] theorem rxFault_sendPrepared (s : State) (cmd : BitVec 8) (c : Cause) : (s.rxFault cmd c).sendPrepared = s.sendPrepared := (rfl)
@[simp] theorem rxFault_canSend (s : State) (cmd : BitVec 8) (c : Cause) : (s.rxFault cmd c).canSend = s.canSend := (rfl)
@[simp] theorem rxFault_keyDraws (s : State) (cmd : BitVec 8) (c : Cause) : (s.rxFault cmd c).keyDraws = s.keyDraws := (rfl)
@[simp] theorem rxFault_rxJob (s : State) (cmd : BitVec 8) (c : Cause) : (s.rxFault cmd c).rxJob = .none := (rfl)
@[simp] theorem rxFault_pending (s : State) (cmd : BitVec 8) (c : Cause) : (s.rxFault cmd c).pending = s.pending := (rfl)
@[simp] theorem rxFault_turns (s : State) (cmd : BitVec 8) (c : Cause) : (s.rxFault cmd c).turns = s.turns := (rfl)
@[simp] theorem rxFault_issuer (s : State) (cmd : BitVec 8) (c : Cause) : (s.rxFault cmd c).issuer = s.issuer := (rfl)
@[simp] theorem rxFault_keyCtr (s : State) (cmd : BitVec 8) (c : Cause) : (s.rxFault cmd c).keyCtr = s.keyCtr := (rfl)

/-! ### releasePermit -/

@[simp] theorem releasePermit_cfg (s : State) (p : Permit) : (s.releasePermit p).cfg = s.cfg := (rfl)
@[simp] theorem releasePermit_hdr (s : State) (p : Permit) : (s.releasePermit p).hdr = s.hdr := (rfl)
@[simp] theorem releasePermit_rxs (s : State) (p : Permit) : (s.releasePermit p).rxs = s.rxs := (rfl)
@[simp] theorem releasePermit_permit (s : State) (p : Permit) : (s.releasePermit p).permit = if s.permit = p then .free else s.permit := (rfl)
@[simp] theorem releasePermit_sizes (s : State) (p : Permit) : (s.releasePermit p).sizes = s.sizes := (rfl)
@[simp] theorem releasePermit_mem (s : State) (p : Permit) : (s.releasePermit p).mem = s.mem := (rfl)
@[simp] theorem releasePermit_rxIn (s : State) (p : Permit) : (s.releasePermit p).rxIn = s.rxIn := (rfl)
@[simp] theorem releasePermit_txIn (s : State) (p : Permit) : (s.releasePermit p).txIn = s.txIn := (rfl)
@[simp] theorem releasePermit_txOut (s : State) (p : Permit) : (s.releasePermit p).txOut = s.txOut := (rfl)
@[simp] theorem releasePermit_events (s : State) (p : Permit) : (s.releasePermit p).events = s.events := (rfl)
@[simp] theorem releasePermit_results (s : State) (p : Permit) : (s.releasePermit p).results = s.results := (rfl)
@[simp] theorem releasePermit_hostResults (s : State) (p : Permit) : (s.releasePermit p).hostResults = s.hostResults := (rfl)
@[simp] theorem releasePermit_sendPrepared (s : State) (p : Permit) : (s.releasePermit p).sendPrepared = s.sendPrepared := (rfl)
@[simp] theorem releasePermit_canSend (s : State) (p : Permit) : (s.releasePermit p).canSend = s.canSend := (rfl)
@[simp] theorem releasePermit_keyDraws (s : State) (p : Permit) : (s.releasePermit p).keyDraws = s.keyDraws := (rfl)
@[simp] theorem releasePermit_rxJob (s : State) (p : Permit) : (s.releasePermit p).rxJob = s.rxJob := (rfl)
@[simp] theorem releasePermit_pending (s : State) (p : Permit) : (s.releasePermit p).pending = s.pending := (rfl)
@[simp] theorem releasePermit_turns (s : State) (p : Permit) : (s.releasePermit p).turns = s.turns := (rfl)
@[simp] theorem releasePermit_issuer (s : State) (p : Permit) : (s.releasePermit p).issuer = s.issuer := (rfl)
@[simp] theorem releasePermit_keyCtr (s : State) (p : Permit) : (s.releasePermit p).keyCtr = s.keyCtr := (rfl)

/-! ### afterDraw -/

@[simp] theorem afterDraw_cfg (s : State) : (s.afterDraw).cfg = s.cfg := (rfl)
@[simp] theorem afterDraw_hdr (s : State) : (s.afterDraw).hdr = s.hdr := (rfl)
@[simp] theorem afterDraw_rxs (s : State) : (s.afterDraw).rxs = s.rxs := (rfl)
@[simp] theorem afterDraw_permit (s : State) : (s.afterDraw).permit = s.permit := (rfl)
@[simp] theorem afterDraw_sizes (s : State) : (s.afterDraw).sizes = s.sizes := (rfl)
@[simp] theorem afterDraw_mem (s : State) : (s.afterDraw).mem = s.mem := (rfl)
@[simp] theorem afterDraw_rxIn (s : State) : (s.afterDraw).rxIn = s.rxIn := (rfl)
@[simp] theorem afterDraw_txIn (s : State) : (s.afterDraw).txIn = s.txIn := (rfl)
@[simp] theorem afterDraw_txOut (s : State) : (s.afterDraw).txOut = s.txOut := (rfl)
@[simp] theorem afterDraw_events (s : State) : (s.afterDraw).events = s.events := (rfl)
@[simp] theorem afterDraw_results (s : State) : (s.afterDraw).results = s.results := (rfl)
@[simp] theorem afterDraw_hostResults (s : State) : (s.afterDraw).hostResults = s.hostResults := (rfl)
@[simp] theorem afterDraw_sendPrepared (s : State) : (s.afterDraw).sendPrepared = s.sendPrepared := (rfl)
@[simp] theorem afterDraw_canSend (s : State) : (s.afterDraw).canSend = s.canSend := (rfl)
@[simp] theorem afterDraw_keyDraws (s : State) : (s.afterDraw).keyDraws = s.keyDraws.tail := (rfl)
@[simp] theorem afterDraw_rxJob (s : State) : (s.afterDraw).rxJob = s.rxJob := (rfl)
@[simp] theorem afterDraw_pending (s : State) : (s.afterDraw).pending = s.pending := (rfl)
@[simp] theorem afterDraw_turns (s : State) : (s.afterDraw).turns = s.turns := (rfl)
@[simp] theorem afterDraw_issuer (s : State) : (s.afterDraw).issuer = s.issuer := (rfl)
@[simp] theorem afterDraw_keyCtr (s : State) : (s.afterDraw).keyCtr = if s.keyDraws = [] then s.keyCtr + 1 else s.keyCtr := (rfl)

/-! ### memWrite -/

@[simp] theorem memWrite_cfg (s : State) (A : Region) (o : Nat) (bs : List Byte) : (s.memWrite A o bs).cfg = s.cfg := (rfl)
@[simp] theorem memWrite_hdr (s : State) (A : Region) (o : Nat) (bs : List Byte) : (s.memWrite A o bs).hdr = s.hdr := (rfl)
@[simp] theorem memWrite_rxs (s : State) (A : Region) (o : Nat) (bs : List Byte) : (s.memWrite A o bs).rxs = s.rxs := (rfl)
@[simp] theorem memWrite_permit (s : State) (A : Region) (o : Nat) (bs : List Byte) : (s.memWrite A o bs).permit = s.permit := (rfl)
@[simp] theorem memWrite_sizes (s : State) (A : Region) (o : Nat) (bs : List Byte) : (s.memWrite A o bs).sizes = s.sizes := (rfl)
@[simp] theorem memWrite_mem (s : State) (A : Region) (o : Nat) (bs : List Byte) : (s.memWrite A o bs).mem = s.mem.write A o bs := (rfl)
@[simp] theorem memWrite_rxIn (s : State) (A : Region) (o : Nat) (bs : List Byte) : (s.memWrite A o bs).rxIn = s.rxIn := (rfl)
@[simp] theorem memWrite_txIn (s : State) (A : Region) (o : Nat) (bs : List Byte) : (s.memWrite A o bs).txIn = s.txIn := (rfl)
@[simp] theorem memWrite_txOut (s : State) (A : Region) (o : Nat) (bs : List Byte) : (s.memWrite A o bs).txOut = s.txOut := (rfl)
@[simp] theorem memWrite_events (s : State) (A : Region) (o : Nat) (bs : List Byte) : (s.memWrite A o bs).events = s.events := (rfl)
@[simp] theorem memWrite_results (s : State) (A : Region) (o : Nat) (bs : List Byte) : (s.memWrite A o bs).results = s.results := (rfl)
@[simp] theorem memWrite_hostResults (s : State) (A : Region) (o : Nat) (bs : List Byte) : (s.memWrite A o bs).hostResults = s.hostResults := (rfl)
@[simp] theorem memWrite_sendPrepared (s : State) (A : Region) (o : Nat) (bs : List Byte) : (s.memWrite A o bs).sendPrepared = s.sendPrepared := (rfl)
@[simp] theorem memWrite_canSend (s : State) (A : Region) (o : Nat) (bs : List Byte) : (s.memWrite A o bs).canSend = s.canSend := (rfl)
@[simp] theorem memWrite_keyDraws (s : State) (A : Region) (o : Nat) (bs : List Byte) : (s.memWrite A o bs).keyDraws = s.keyDraws := (rfl)
@[simp] theorem memWrite_rxJob (s : State) (A : Region) (o : Nat) (bs : List Byte) : (s.memWrite A o bs).rxJob = s.rxJob := (rfl)
@[simp] theorem memWrite_pending (s : State) (A : Region) (o : Nat) (bs : List Byte) : (s.memWrite A o bs).pending = s.pending := (rfl)
@[simp] theorem memWrite_turns (s : State) (A : Region) (o : Nat) (bs : List Byte) : (s.memWrite A o bs).turns = s.turns := (rfl)
@[simp] theorem memWrite_issuer (s : State) (A : Region) (o : Nat) (bs : List Byte) : (s.memWrite A o bs).issuer = s.issuer := (rfl)
@[simp] theorem memWrite_keyCtr (s : State) (A : Region) (o : Nat) (bs : List Byte) : (s.memWrite A o bs).keyCtr = s.keyCtr := (rfl)

/-! ### emitWrite -/

@[simp] theorem emitWrite_cfg (s : State) (h : HeaderOp) (a : Addr) : (s.emitWrite h a).cfg = s.cfg := (rfl)
@[simp] theorem emitWrite_hdr (s : State) (h : HeaderOp) (a : Addr) : (s.emitWrite h a).hdr = s.hdr := (rfl)
@[simp] theorem emitWrite_rxs (s : State) (h : HeaderOp) (a : Addr) : (s.emitWrite h a).rxs = s.rxs := (rfl)
@[simp] theorem emitWrite_permit (s : State) (h : HeaderOp) (a : Addr) : (s.emitWrite h a).permit = s.permit := (rfl)
@[simp] theorem emitWrite_sizes (s : State) (h : HeaderOp) (a : Addr) : (s.emitWrite h a).sizes = s.sizes := (rfl)
@[simp] theorem emitWrite_mem (s : State) (h : HeaderOp) (a : Addr) : (s.emitWrite h a).mem = s.mem.write a.region (a.off - (emitBytes h).length) (emitBytes h) := (rfl)
@[simp] theorem emitWrite_rxIn (s : State) (h : HeaderOp) (a : Addr) : (s.emitWrite h a).rxIn = s.rxIn := (rfl)
@[simp] theorem emitWrite_txIn (s : State) (h : HeaderOp) (a : Addr) : (s.emitWrite h a).txIn = s.txIn := (rfl)
@[simp] theorem emitWrite_txOut (s : State) (h : HeaderOp) (a : Addr) : (s.emitWrite h a).txOut = s.txOut := (rfl)
@[simp] theorem emitWrite_events (s : State) (h : HeaderOp) (a : Addr) : (s.emitWrite h a).events = s.events := (rfl)
@[simp] theorem emitWrite_results (s : State) (h : HeaderOp) (a : Addr) : (s.emitWrite h a).results = s.results := (rfl)
@[simp] theorem emitWrite_hostResults (s : State) (h : HeaderOp) (a : Addr) : (s.emitWrite h a).hostResults = s.hostResults := (rfl)
@[simp] theorem emitWrite_sendPrepared (s : State) (h : HeaderOp) (a : Addr) : (s.emitWrite h a).sendPrepared = s.sendPrepared := (rfl)
@[simp] theorem emitWrite_canSend (s : State) (h : HeaderOp) (a : Addr) : (s.emitWrite h a).canSend = s.canSend := (rfl)
@[simp] theorem emitWrite_keyDraws (s : State) (h : HeaderOp) (a : Addr) : (s.emitWrite h a).keyDraws = s.keyDraws := (rfl)
@[simp] theorem emitWrite_rxJob (s : State) (h : HeaderOp) (a : Addr) : (s.emitWrite h a).rxJob = s.rxJob := (rfl)
@[simp] theorem emitWrite_pending (s : State) (h : HeaderOp) (a : Addr) : (s.emitWrite h a).pending = s.pending := (rfl)
@[simp] theorem emitWrite_turns (s : State) (h : HeaderOp) (a : Addr) : (s.emitWrite h a).turns = s.turns := (rfl)
@[simp] theorem emitWrite_issuer (s : State) (h : HeaderOp) (a : Addr) : (s.emitWrite h a).issuer = s.issuer := (rfl)
@[simp] theorem emitWrite_keyCtr (s : State) (h : HeaderOp) (a : Addr) : (s.emitWrite h a).keyCtr = s.keyCtr := (rfl)

/-! ### maskRegion -/

@[simp] theorem maskRegion_cfg (s : State) (A : Region) (o n : Nat) (k : Key) (pos : Nat) : (s.maskRegion A o n k pos).cfg = s.cfg := (rfl)
@[simp] theorem maskRegion_hdr (s : State) (A : Region) (o n : Nat) (k : Key) (pos : Nat) : (s.maskRegion A o n k pos).hdr = s.hdr := (rfl)
@[simp] theorem maskRegion_rxs (s : State) (A : Region) (o n : Nat) (k : Key) (pos : Nat) : (s.maskRegion A o n k pos).rxs = s.rxs := (rfl)
@[simp] theorem maskRegion_permit (s : State) (A : Region) (o n : Nat) (k : Key) (pos : Nat) : (s.maskRegion A o n k pos).permit = s.permit := (rfl)
@[simp] theorem maskRegion_sizes (s : State) (A : Region) (o n : Nat) (k : Key) (pos : Nat) : (s.maskRegion A o n k pos).sizes = s.sizes := (rfl)
@[simp] theorem maskRegion_mem (s : State) (A : Region) (o n : Nat) (k : Key) (pos : Nat) : (s.maskRegion A o n k pos).mem = s.mem.write A o (xorStream k pos (s.memRead A o n)) := (rfl)
@[simp] theorem maskRegion_rxIn (s : State) (A : Region) (o n : Nat) (k : Key) (pos : Nat) : (s.maskRegion A o n k pos).rxIn = s.rxIn := (rfl)
@[simp] theorem maskRegion_txIn (s : State) (A : Region) (o n : Nat) (k : Key) (pos : Nat) : (s.maskRegion A o n k pos).txIn = s.txIn := (rfl)
@[simp] theorem maskRegion_txOut (s : State) (A : Region) (o n : Nat) (k : Key) (pos : Nat) : (s.maskRegion A o n k pos).txOut = s.txOut := (rfl)
@[simp] theorem maskRegion_events (s : State) (A : Region) (o n : Nat) (k : Key) (pos : Nat) : (s.maskRegion A o n k pos).events = s.events := (rfl)
@[simp] theorem maskRegion_results (s : State) (A : Region) (o n : Nat) (k : Key) (pos : Nat) : (s.maskRegion A o n k pos).results = s.results := (rfl)
@[simp] theorem maskRegion_hostResults (s : State) (A : Region) (o n : Nat) (k : Key) (pos : Nat) : (s.maskRegion A o n k pos).hostResults = s.hostResults := (rfl)
@[simp] theorem maskRegion_sendPrepared (s : State) (A : Region) (o n : Nat) (k : Key) (pos : Nat) : (s.maskRegion A o n k pos).sendPrepared = s.sendPrepared := (rfl)
@[simp] theorem maskRegion_canSend (s : State) (A : Region) (o n : Nat) (k : Key) (pos : Nat) : (s.maskRegion A o n k pos).canSend = s.canSend := (rfl)
@[simp] theorem maskRegion_keyDraws (s : State) (A : Region) (o n : Nat) (k : Key) (pos : Nat) : (s.maskRegion A o n k pos).keyDraws = s.keyDraws := (rfl)
@[simp] theorem maskRegion_rxJob (s : State) (A : Region) (o n : Nat) (k : Key) (pos : Nat) : (s.maskRegion A o n k pos).rxJob = s.rxJob := (rfl)
@[simp] theorem maskRegion_pending (s : State) (A : Region) (o n : Nat) (k : Key) (pos : Nat) : (s.maskRegion A o n k pos).pending = s.pending := (rfl)
@[simp] theorem maskRegion_turns (s : State) (A : Region) (o n : Nat) (k : Key) (pos : Nat) : (s.maskRegion A o n k pos).turns = s.turns := (rfl)
@[simp] theorem maskRegion_issuer (s : State) (A : Region) (o n : Nat) (k : Key) (pos : Nat) : (s.maskRegion A o n k pos).issuer = s.issuer := (rfl)
@[simp] theorem maskRegion_keyCtr (s : State) (A : Region) (o n : Nat) (k : Key) (pos : Nat) : (s.maskRegion A o n k pos).keyCtr = s.keyCtr := (rfl)

/-! ### rxmaskApply -/

@[simp] theorem rxmaskApply_cfg (s : State) (A : Region) (o n : Nat) : (s.rxmaskApply A o n).cfg = s.cfg := (rfl)
@[simp] theorem rxmaskApply_hdr (s : State) (A : Region) (o n : Nat) : (s.rxmaskApply A o n).hdr = { s.hdr with rem := BitVec.ofNat 64 (s.hdr.rem.toNat - n) } := (rfl)
@[simp] theorem rxmaskApply_rxs (s : State) (A : Region) (o n : Nat) : (s.rxmaskApply A o n).rxs = s.rxs := (rfl)
@[simp] theorem rxmaskApply_permit (s : State) (A : Region) (o n : Nat) : (s.rxmaskApply A o n).permit = s.permit := (rfl)
@[simp] theorem rxmaskApply_sizes (s : State) (A : Region) (o n : Nat) : (s.rxmaskApply A o n).sizes = s.sizes := (rfl)
@[simp] theorem rxmaskApply_mem (s : State) (A : Region) (o n : Nat) : (s.rxmaskApply A o n).mem = if s.hdr.masked then (s.maskRegion A o n s.hdr.key s.rxPosition).mem else s.mem := (rfl)
@[simp] theorem rxmaskApply_rxIn (s : State) (A : Region) (o n : Nat) : (s.rxmaskApply A o n).rxIn = s.rxIn := (rfl)
@[simp] theorem rxmaskApply_txIn (s : State) (A : Region) (o n : Nat) : (s.rxmaskApply A o n).txIn = s.txIn := (rfl)
@[simp] theorem rxmaskApply_txOut (s : State) (A : Region) (o n : Nat) : (s.rxmaskApply A o n).txOut = s.txOut := (rfl)
@[simp] theorem rxmaskApply_events (s : State) (A : Region) (o n : Nat) : (s.rxmaskApply A o n).events = s.events := (rfl)
@[simp] theorem rxmaskApply_results (s : State) (A : Region) (o n : Nat) : (s.rxmaskApply A o n).results = s.results := (rfl)
@[simp] theorem rxmaskApply_hostResults (s : State) (A : Region) (o n : Nat) : (s.rxmaskApply A o n).hostResults = s.hostResults := (rfl)
@[simp] theorem rxmaskApply_sendPrepared (s : State) (A : Region) (o n : Nat) : (s.rxmaskApply A o n).sendPrepared = s.sendPrepared := (rfl)
@[simp] theorem rxmaskApply_canSend (s : State) (A : Region) (o n : Nat) : (s.rxmaskApply A o n).canSend = s.canSend := (rfl)
@[simp] theorem rxmaskApply_keyDraws (s : State) (A : Region) (o n : Nat) : (s.rxmaskApply A o n).keyDraws = s.keyDraws := (rfl)
@[simp] theorem rxmaskApply_rxJob (s : State) (A : Region) (o n : Nat) : (s.rxmaskApply A o n).rxJob = s.rxJob := (rfl)
@[simp] theorem rxmaskApply_pending (s : State) (A : Region) (o n : Nat) : (s.rxmaskApply A o n).pending = s.pending := (rfl)
@[simp] theorem rxmaskApply_turns (s : State) (A : Region) (o n : Nat) : (s.rxmaskApply A o n).turns = s.turns := (rfl)
@[simp] theorem rxmaskApply_issuer (s : State) (A : Region) (o n : Nat) : (s.rxmaskApply A o n).issuer = s.issuer := (rfl)
@[simp] theorem rxmaskApply_keyCtr (s : State) (A : Region) (o n : Nat) : (s.rxmaskApply A o n).keyCtr = s.keyCtr := (rfl)

/-! ### prepareApply -/

@[simp] theorem prepareApply_cfg (s : State) (a : Addr) (len : Nat) (fin sent : Bool) (op : BitVec 4) (ext : BitVec 3) : (s.prepareApply a len fin sent op ext).cfg = s.cfg := by unfold State.prepareApply; simp only [State.prepareHeader]; split <;> split <;> rfl
@[simp] theorem prepareApply_hdr (s : State) (a : Addr) (len : Nat) (fin sent : Bool) (op : BitVec 4) (ext : BitVec 3) : (s.prepareApply a len fin sent op ext).hdr = s.hdr := by unfold State.prepareApply; simp only [State.prepareHeader]; split <;> split <;> rfl
@[simp] theorem prepareApply_rxs (s : State) (a : Addr) (len : Nat) (fin sent : Bool) (op : BitVec 4) (ext : BitVec 3) : (s.prepareApply a len fin sent op ext).rxs = s.rxs := by unfold State.prepareApply; simp only [State.prepareHeader]; split <;> split <;> rfl
@[simp] theorem prepareApply_permit (s : State) (a : Addr) (len : Nat) (fin sent : Bool) (op : BitVec 4) (ext : BitVec 3) : (s.prepareApply a len fin sent op ext).permit = s.permit := by unfold State.prepareApply; simp only [State.prepareHeader]; split <;> split <;> rfl
@[simp] theorem prepareApply_sizes (s : State) (a : Addr) (len : Nat) (fin sent : Bool) (op : BitVec 4) (ext : BitVec 3) : (s.prepareApply a len fin sent op ext).sizes = s.sizes := by unfold State.prepareApply; simp only [State.prepareHeader]; split <;> split <;> rfl
@[simp] theorem prepareApply_rxIn (s : State) (a : Addr) (len : Nat) (fin sent : Bool) (op : BitVec 4) (ext : BitVec 3) : (s.prepareApply a len fin sent op ext).rxIn = s.rxIn := by unfold State.prepareApply; simp only [State.prepareHeader]; split <;> split <;> rfl
@[simp] theorem prepareApply_txIn (s : State) (a : Addr) (len : Nat) (fin sent : Bool) (op : BitVec 4) (ext : BitVec 3) : (s.prepareApply a len fin sent op ext).txIn = s.txIn := by unfold State.prepareApply; simp only [State.prepareHeader]; split <;> split <;> rfl
@[simp] theorem prepareApply_txOut (s : State) (a : Addr) (len : Nat) (fin sent : Bool) (op : BitVec 4) (ext : BitVec 3) : (s.prepareApply a len fin sent op ext).txOut = s.txOut := by unfold State.prepareApply; simp only [State.prepareHeader]; split <;> split <;> rfl
@[simp] theorem prepareApply_events (s : State) (a : Addr) (len : Nat) (fin sent : Bool) (op : BitVec 4) (ext : BitVec 3) : (s.prepareApply a len fin sent op ext).events = s.events := by unfold State.prepareApply; simp only [State.prepareHeader]; split <;> split <;> rfl
@[simp] theorem prepareApply_results (s : State) (a : Addr) (len : Nat) (fin sent : Bool) (op : BitVec 4) (ext : BitVec 3) : (s.prepareApply a len fin sent op ext).results = s.results := by unfold State.prepareApply; simp only [State.prepareHeader]; split <;> split <;> rfl
@[simp] theorem prepareApply_hostResults (s : State) (a : Addr) (len : Nat) (fin sent : Bool) (op : BitVec 4) (ext : BitVec 3) : (s.prepareApply a len fin sent op ext).hostResults = s.hostResults := by unfold State.prepareApply; simp only [State.prepareHeader]; split <;> split <;> rfl
@[simp] theorem prepareApply_sendPrepared (s : State) (a : Addr) (len : Nat) (fin sent : Bool) (op : BitVec 4) (ext : BitVec 3) : (s.prepareApply a len fin sent op ext).sendPrepared = s.sendPrepared := by unfold State.prepareApply; simp only [State.prepareHeader]; split <;> split <;> rfl
@[simp] theorem prepareApply_canSend (s : State) (a : Addr) (len : Nat) (fin sent : Bool) (op : BitVec 4) (ext : BitVec 3) : (s.prepareApply a len fin sent op ext).canSend = s.canSend := by unfold State.prepareApply; simp only [State.prepareHeader]; split <;> split <;> rfl
@[simp] theorem prepareApply_rxJob (s : State) (a : Addr) (len : Nat) (fin sent : Bool) (op : BitVec 4) (ext : BitVec 3) : (s.prepareApply a len fin sent op ext).rxJob = s.rxJob := by unfold State.prepareApply; simp only [State.prepareHeader]; split <;> split <;> rfl
@[simp] theorem prepareApply_pending (s : State) (a : Addr) (len : Nat) (fin sent : Bool) (op : BitVec 4) (ext : BitVec 3) : (s.prepareApply a len fin sent op ext).pending = s.pending := by unfold State.prepareApply; simp only [State.prepareHeader]; split <;> split <;> rfl
@[simp] theorem prepareApply_turns (s : State) (a : Addr) (len : Nat) (fin sent : Bool) (op : BitVec 4) (ext : BitVec 3) : (s.prepareApply a len fin sent op ext).turns = s.turns := by unfold State.prepareApply; simp only [State.prepareHeader]; split <;> split <;> rfl
@[simp] theorem prepareApply_issuer (s : State) (a : Addr) (len : Nat) (fin sent : Bool) (op : BitVec 4) (ext : BitVec 3) : (s.prepareApply a len fin sent op ext).issuer = s.issuer := by unfold State.prepareApply; simp only [State.prepareHeader]; split <;> split <;> rfl

/-! ### hostResult -/

@[simp] theorem hostResult_cfg (s : State) (r : Result) : (s.hostResult r).cfg = s.cfg := (rfl)
@[simp] theorem hostResult_hdr (s : State) (r : Result) : (s.hostResult r).hdr = s.hdr := (rfl)
@[simp] theorem hostResult_rxs (s : State) (r : Result) : (s.hostResult r).rxs = s.rxs := (rfl)
@[simp] theorem hostResult_permit (s : State) (r : Result) : (s.hostResult r).permit = s.permit := (rfl)
@[simp] theorem hostResult_sizes (s : State) (r : Result) : (s.hostResult r).sizes = s.sizes := (rfl)
@[simp] theorem hostResult_mem (s : State) (r : Result) : (s.hostResult r).mem = s.mem := (rfl)
@[simp] theorem hostResult_rxIn (s : State) (r : Result) : (s.hostResult r).rxIn = s.rxIn := (rfl)
@[simp] theorem hostResult_txIn (s : State) (r : Result) : (s.hostResult r).txIn = s.txIn := (rfl)
@[simp] theorem hostResult_txOut (s : State) (r : Result) : (s.hostResult r).txOut = s.txOut := (rfl)
@[simp] theorem hostResult_events (s : State) (r : Result) : (s.hostResult r).events = s.events := (rfl)
@[simp] theorem hostResult_results (s : State) (r : Result) : (s.hostResult r).results = s.results := (rfl)
@[simp] theorem hostResult_hostResults (s : State) (r : Result) : (s.hostResult r).hostResults = s.hostResults ++ [r] := (rfl)
@[simp] theorem hostResult_sendPrepared (s : State) (r : Result) : (s.hostResult r).sendPrepared = s.sendPrepared := (rfl)
@[simp] theorem hostResult_canSend (s : State) (r : Result) : (s.hostResult r).canSend = s.canSend := (rfl)
@[simp] theorem hostResult_keyDraws (s : State) (r : Result) : (s.hostResult r).keyDraws = s.keyDraws := (rfl)
@[simp] theorem hostResult_rxJob (s : State) (r : Result) : (s.hostResult r).rxJob = s.rxJob := (rfl)
@[simp] theorem hostResult_pending (s : State) (r : Result) : (s.hostResult r).pending = s.pending := (rfl)
@[simp] theorem hostResult_turns (s : State) (r : Result) : (s.hostResult r).turns = s.turns := (rfl)
@[simp] theorem hostResult_issuer (s : State) (r : Result) : (s.hostResult r).issuer = s.issuer := (rfl)
@[simp] theorem hostResult_keyCtr (s : State) (r : Result) : (s.hostResult r).keyCtr = s.keyCtr := (rfl)

/-! ### markPrepared -/

@[simp] theorem markPrepared_cfg (s : State) (A : Region) : (s.markPrepared A).cfg = s.cfg := (rfl)
@[simp] theorem markPrepared_hdr (s : State) (A : Region) : (s.markPrepared A).hdr = s.hdr := (rfl)
@[simp] theorem markPrepared_rxs (s : State) (A : Region) : (s.markPrepared A).rxs = s.rxs := (rfl)
@[simp] theorem markPrepared_permit (s : State) (A : Region) : (s.markPrepared A).permit = s.permit := (rfl)
@[simp] theorem markPrepared_sizes (s : State) (A : Region) : (s.markPrepared A).sizes = s.sizes := (rfl)
@[simp] theorem markPrepared_mem (s : State) (A : Region) : (s.markPrepared A).mem = s.mem := (rfl)
@[simp] theorem markPrepared_rxIn (s : State) (A : Region) : (s.markPrepared A).rxIn = s.rxIn := (rfl)
@[simp] theorem markPrepared_txIn (s : State) (A : Region) : (s.markPrepared A).txIn = s.txIn := (rfl)
@[simp] theorem markPrepared_txOut (s : State) (A : Region) : (s.markPrepared A).txOut = s.txOut := (rfl)
@[simp] theorem markPrepared_events (s : State) (A : Region) : (s.markPrepared A).events = s.events := (rfl)
@[simp] theorem markPrepared_results (s : State) (A : Region) : (s.markPrepared A).results = s.results := (rfl)
@[simp] theorem markPrepared_hostResults (s : State) (A : Region) : (s.markPrepared A).hostResults = s.hostResults := (rfl)
@[simp] theorem markPrepared_sendPrepared (s : State) (A : Region) : (s.markPrepared A).sendPrepared = (s.sendPrepared || decide (A = .send)) := (rfl)
@[simp] theorem markPrepared_canSend (s : State) (A : Region) : (s.markPrepared A).canSend = s.canSend := (rfl)
@[simp] theorem markPrepared_keyDraws (s : State) (A : Region) : (s.markPrepared A).keyDraws = s.keyDraws := (rfl)
@[simp] theorem markPrepared_rxJob (s : State) (A : Region) : (s.markPrepared A).rxJob = s.rxJob := (rfl)
@[simp] theorem markPrepared_pending (s : State) (A : Region) : (s.markPrepared A).pending = s.pending := (rfl)
@[simp] theorem markPrepared_turns (s : State) (A : Region) : (s.markPrepared A).turns = s.turns := (rfl)
@[simp] theorem markPrepared_issuer (s : State) (A : Region) : (s.markPrepared A).issuer = s.issuer := (rfl)
@[simp] theorem markPrepared_keyCtr (s : State) (A : Region) : (s.markPrepared A).keyCtr = s.keyCtr := (rfl)

/-! ### unmarkPrepared -/

@[simp] theorem unmarkPrepared_cfg (s : State) (A : Region) : (s.unmarkPrepared A).cfg = s.cfg := (rfl)
@[simp] theorem unmarkPrepared_hdr (s : State) (A : Region) : (s.unmarkPrepared A).hdr = s.hdr := (rfl)
@[simp] theorem unmarkPrepared_rxs (s : State) (A : Region) : (s.unmarkPrepared A).rxs = s.rxs := (rfl)
@[simp] theorem unmarkPrepared_permit (s : State) (A : Region) : (s.unmarkPrepared A).permit = s.permit := (rfl)
@[simp] theorem unmarkPrepared_sizes (s : State) (A : Region) : (s.unmarkPrepared A).sizes = s.sizes := (rfl)
@[simp] theorem unmarkPrepared_mem (s : State) (A : Region) : (s.unmarkPrepared A).mem = s.mem := (rfl)
@[simp] theorem unmarkPrepared_rxIn (s : State) (A : Region) : (s.unmarkPrepared A).rxIn = s.rxIn := (rfl)
@[simp] theorem unmarkPrepared_txIn (s : State) (A : Region) : (s.unmarkPrepared A).txIn = s.txIn := (rfl)
@[simp] theorem unmarkPrepared_txOut (s : State) (A : Region) : (s.unmarkPrepared A).txOut = s.txOut := (rfl)
@[simp] theorem unmarkPrepared_events (s : State) (A : Region) : (s.unmarkPrepared A).events = s.events := (rfl)
@[simp] theorem unmarkPrepared_results (s : State) (A : Region) : (s.unmarkPrepared A).results = s.results := (rfl)
@[simp] theorem unmarkPrepared_hostResults (s : State) (A : Region) : (s.unmarkPrepared A).hostResults = s.hostResults := (rfl)
@[simp] theorem unmarkPrepared_sendPrepared (s : State) (A : Region) : (s.unmarkPrepared A).sendPrepared = (s.sendPrepared && decide (A ≠ .send)) := (rfl)
@[simp] theorem unmarkPrepared_canSend (s : State) (A : Region) : (s.unmarkPrepared A).canSend = s.canSend := (rfl)
@[simp] theorem unmarkPrepared_keyDraws (s : State) (A : Region) : (s.unmarkPrepared A).keyDraws = s.keyDraws := (rfl)
@[simp] theorem unmarkPrepared_rxJob (s : State) (A : Region) : (s.unmarkPrepared A).rxJob = s.rxJob := (rfl)
@[simp] theorem unmarkPrepared_pending (s : State) (A : Region) : (s.unmarkPrepared A).pending = s.pending := (rfl)
@[simp] theorem unmarkPrepared_turns (s : State) (A : Region) : (s.unmarkPrepared A).turns = s.turns := (rfl)
@[simp] theorem unmarkPrepared_issuer (s : State) (A : Region) : (s.unmarkPrepared A).issuer = s.issuer := (rfl)
@[simp] theorem unmarkPrepared_keyCtr (s : State) (A : Region) : (s.unmarkPrepared A).keyCtr = s.keyCtr := (rfl)

/-! ### sendEnds -/

@[simp] theorem sendEnds_cfg (s : State) (j : SendJob) : (s.sendEnds j).cfg = s.cfg := by unfold State.sendEnds State.sendRelease State.releasePermit State.unmarkPrepared; split <;> rfl
@[simp] theorem sendEnds_hdr (s : State) (j : SendJob) : (s.sendEnds j).hdr = s.hdr := by unfold State.sendEnds State.sendRelease State.releasePermit State.unmarkPrepared; split <;> rfl
@[simp] theorem sendEnds_rxs (s : State) (j : SendJob) : (s.sendEnds j).rxs = s.rxs := by unfold State.sendEnds State.sendRelease State.releasePermit State.unmarkPrepared; split <;> rfl
@[simp] theorem sendEnds_permit (s : State) (j : SendJob) : (s.sendEnds j).permit = if j.opts.nolock then s.permit else if s.permit = permitOf j.issuer then .free else s.permit := by unfold State.sendEnds State.sendRelease State.releasePermit State.unmarkPrepared; split <;> rfl
@[simp] theorem sendEnds_sizes (s : State) (j : SendJob) : (s.sendEnds j).sizes = s.sizes := by unfold State.sendEnds State.sendRelease State.releasePermit State.unmarkPrepared; split <;> rfl
@[simp] theorem sendEnds_mem (s : State) (j : SendJob) : (s.sendEnds j).mem = s.mem := by unfold State.sendEnds State.sendRelease State.releasePermit State.unmarkPrepared; split <;> rfl
@[simp] theorem sendEnds_rxIn (s : State) (j : SendJob) : (s.sendEnds j).rxIn = s.rxIn := by unfold State.sendEnds State.sendRelease State.releasePermit State.unmarkPrepared; split <;> rfl
@[simp] theorem sendEnds_txIn (s : State) (j : SendJob) : (s.sendEnds j).txIn = s.txIn := by unfold State.sendEnds State.sendRelease State.releasePermit State.unmarkPrepared; split <;> rfl
@[simp] theorem sendEnds_txOut (s : State) (j : SendJob) : (s.sendEnds j).txOut = s.txOut := by unfold State.sendEnds State.sendRelease State.releasePermit State.unmarkPrepared; split <;> rfl
@[simp] theorem sendEnds_events (s : State) (j : SendJob) : (s.sendEnds j).events = s.events := by unfold State.sendEnds State.sendRelease State.releasePermit State.unmarkPrepared; split <;> rfl
@[simp] theorem sendEnds_results (s : State) (j : SendJob) : (s.sendEnds j).results = s.results := by unfold State.sendEnds State.sendRelease State.releasePermit State.unmarkPrepared; split <;> rfl
@[simp] theorem sendEnds_hostResults (s : State) (j : SendJob) : (s.sendEnds j).hostResults = s.hostResults := by unfold State.sendEnds State.sendRelease State.releasePermit State.unmarkPrepared; split <;> rfl
@[simp] theorem sendEnds_sendPrepared (s : State) (j : SendJob) : (s.sendEnds j).sendPrepared = (s.sendPrepared && decide (j.addr.region ≠ .send)) := by unfold State.sendEnds State.sendRelease State.releasePermit State.unmarkPrepared; split <;> rfl
@[simp] theorem sendEnds_canSend (s : State) (j : SendJob) : (s.sendEnds j).canSend = s.canSend := by unfold State.sendEnds State.sendRelease State.releasePermit State.unmarkPrepared; split <;> rfl
@[simp] theorem sendEnds_keyDraws (s : State) (j : SendJob) : (s.sendEnds j).keyDraws = s.keyDraws := by unfold State.sendEnds State.sendRelease State.releasePermit State.unmarkPrepared; split <;> rfl
@[simp] theorem sendEnds_rxJob (s : State) (j : SendJob) : (s.sendEnds j).rxJob = s.rxJob := by unfold State.sendEnds State.sendRelease State.releasePermit State.unmarkPrepared; split <;> rfl
@[simp] theorem sendEnds_pending (s : State) (j : SendJob) : (s.sendEnds j).pending = s.pending := by unfold State.sendEnds State.sendRelease State.releasePermit State.unmarkPrepared; split <;> rfl
@[simp] theorem sendEnds_turns (s : State) (j : SendJob) : (s.sendEnds j).turns = s.turns := by unfold State.sendEnds State.sendRelease State.releasePermit State.unmarkPrepared; split <;> rfl
@[simp] theorem sendEnds_issuer (s : State) (j : SendJob) : (s.sendEnds j).issuer = s.issuer := by unfold State.sendEnds State.sendRelease State.releasePermit State.unmarkPrepared; split <;> rfl
@[simp] theorem sendEnds_keyCtr (s : State) (j : SendJob) : (s.sendEnds j).keyCtr = s.keyCtr := by unfold State.sendEnds State.sendRelease State.releasePermit State.unmarkPrepared; split <;> rfl

end Sys2Proof.Machine
end

