-- ==== Sys2Proof/Laws/Ops.lean ====
section
/-! SUPPORT. The laws of the shared operations over regions: reading after writing, the canonical form of memory (spec/
20_memory.md R39, R46), and the key stream (spec/41_mask_engine.md R96 to R99). -/
namespace Sys2Proof.Machine

open Sys2Proof

/-! ### Cells -/

theorem Cells.lookup_insert (c : List Host.Cell) (o x : Nat) (b : Byte) :
    Cells.lookup (Cells.insert o b c) x = if x = o then some b else Cells.lookup c x := by
  induction c with
  | nil => simp [Cells.insert, Cells.lookup, eq_comm]
  | cons p r ih =>
    obtain ⟨a, y⟩ := p
    simp only [Cells.insert]
    split
    · simp [Cells.lookup, eq_comm]
    · split
      · subst o; simp only [Cells.lookup]; by_cases hx : x = a <;> simp [hx, eq_comm]
      · simp only [Cells.lookup, ih]
        by_cases hx : x = o
        · subst hx; simp [show a ≠ x by omega]
        · simp [hx]

theorem Cells.mem_insert {c : List Host.Cell} {o : Nat} {b : Byte} {p : Host.Cell} (h : p ∈ Cells.insert o b c) :
    p = (o, b) ∨ p ∈ c := by
  induction c with
  | nil => simpa [Cells.insert] using h
  | cons q r ih =>
    obtain ⟨a, y⟩ := q
    simp only [Cells.insert] at h
    split at h
    · simpa using h
    · split at h
      · simp at h ⊢; tauto
      · simp only [List.mem_cons] at h ⊢
        rcases h with h | h
        · exact .inr (.inl h)
        · exact (ih h).imp id .inr

theorem Cells.wf_cons (a : Nat) (y : Byte) (r : List Host.Cell) :
    Cells.wf ((a, y) :: r) = true ↔ (∀ p ∈ r.head?, a < p.1) ∧ Cells.wf r = true := by
  cases r with
  | nil => simp [Cells.wf]
  | cons p r => obtain ⟨b, z⟩ := p; simp [Cells.wf]

theorem Cells.wf_insert (c : List Host.Cell) (o : Nat) (b : Byte) (h : Cells.wf c = true) :
    Cells.wf (Cells.insert o b c) = true := by
  induction c with
  | nil => rfl
  | cons p r ih =>
    obtain ⟨a, y⟩ := p
    have h' := (Cells.wf_cons a y r).1 h
    simp only [Cells.insert]
    split
    · rw [Cells.wf_cons]; exact ⟨by simpa, h⟩
    · split
      · subst o; rw [Cells.wf_cons]; exact h'
      · rw [Cells.wf_cons]
        refine ⟨?_, ih h'.2⟩
        cases r with
        | nil => simp [Cells.insert]; omega
        | cons q r =>
          obtain ⟨c, z⟩ := q
          have := h'.1
          simp only [Cells.insert]
          split
          · simp; omega
          · split <;> simp_all

/-! ### Regions -/

@[simp] theorem Memory.get_set_self (m : Memory) (A : Region) (c : List Host.Cell) : (m.set A c).get A = c := by
  cases A <;> rfl

theorem Memory.get_set (m : Memory) (A B : Region) (c : List Host.Cell) :
    (m.set A c).get B = if B = A then c else m.get B := by
  cases A <;> cases B <;> rfl

theorem Memory.wf_iff (m : Memory) : m.wf = true ↔ ∀ A, Cells.wf (m.get A) = true := by
  constructor
  · intro h A
    simp only [Memory.wf, Region.all, List.all_cons, List.all_nil, Bool.and_eq_true] at h
    cases A <;> simp_all
  · intro h; simp [Memory.wf, Region.all, h]

theorem Memory.wf_set (m : Memory) (A : Region) (c : List Host.Cell) (h : m.wf = true) (hc : Cells.wf c = true) :
    (m.set A c).wf = true := by
  rw [Memory.wf_iff] at h ⊢
  intro B; rw [Memory.get_set]; split
  · exact hc
  · exact h B

/-- A store of one byte keeps the canonical form. -/
theorem Memory.put_wf (m : Memory) (A : Region) (o : Nat) (b : Byte) (h : m.wf = true) : (m.put A o b).wf = true :=
  Memory.wf_set _ _ _ h (Cells.wf_insert _ _ _ ((Memory.wf_iff _).1 h A))

/-- `MemWrite` keeps the canonical form. -/
theorem Memory.write_wf (m : Memory) (A : Region) (o : Nat) (bs : List Byte) (h : m.wf = true) :
    (m.write A o bs).wf = true := by
  induction bs generalizing m o with
  | nil => exact h
  | cons b bs ih => exact ih _ _ (Memory.put_wf m A o b h)

theorem memWrite_wf (s : State) (A : Region) (o : Nat) (bs : List Byte) (h : s.mem.wf = true) :
    (s.memWrite A o bs).mem.wf = true := Memory.write_wf _ _ _ _ h

theorem cellsFrom_wf (o : Nat) (bs : List Byte) : Cells.wf (cellsFrom o bs) = true := by
  induction bs generalizing o with
  | nil => rfl
  | cons b bs ih =>
    rw [cellsFrom, Cells.wf_cons]
    exact ⟨by cases bs <;> simp [cellsFrom], ih _⟩

theorem cellsFrom_mem {o : Nat} {bs : List Byte} {p : Host.Cell} (h : p ∈ cellsFrom o bs) :
    o ≤ p.1 ∧ p.1 < o + bs.length := by
  induction bs generalizing o with
  | nil => simp [cellsFrom] at h
  | cons b bs ih =>
    simp only [cellsFrom, List.mem_cons] at h
    rcases h with h | h
    · subst h; simp
    · have := ih h; simp; omega

/-- A handed-over buffer is in canonical form. -/
theorem hostGives_wf (m : Memory) (A : Region) (bs : List Byte) (h : m.wf = true) :
    (m.set A (cellsFrom 0 bs)).wf = true := Memory.wf_set _ _ _ h (cellsFrom_wf 0 bs)

/-- Reset memory is in canonical form. -/
theorem reset_wf (p : Config.Params) : (State.resetWith p).mem.wf = true := by
  rw [Memory.wf_iff]; intro A; cases A <;> rfl

/-- Nothing is listed at reset: every byte is a free value. -/
theorem reset_readByte (p : Config.Params) (A : Region) (o : Nat) :
    (State.resetWith p).readByte A o = Config.initByte A o := by cases A <;> rfl

/-! ### Reading after writing -/

theorem Memory.byte_put (m : Memory) (A B : Region) (o x : Nat) (b : Byte) :
    (m.put A o b).byte B x = if B = A ∧ x = o then b else m.byte B x := by
  simp only [Memory.byte, Memory.put, Memory.get_set]
  by_cases hB : B = A
  · subst hB; simp only [if_true, Cells.lookup_insert]; by_cases hx : x = o <;> simp [hx]
  · simp [hB]

/-- The value law and the frame law of `MemWrite` in one. -/
theorem Memory.byte_write (m : Memory) (A B : Region) (o x : Nat) (bs : List Byte) :
    (m.write A o bs).byte B x = if B = A ∧ o ≤ x ∧ x < o + bs.length then bs.getD (x - o) 0 else m.byte B x := by
  induction bs generalizing m o with
  | nil => simp [Memory.write]
  | cons b bs ih =>
    rw [Memory.write, ih, Memory.byte_put]
    by_cases hB : B = A
    · by_cases hx : x = o
      · subst hx; simp [hB]
      · by_cases h1 : o + 1 ≤ x ∧ x < o + 1 + bs.length
        · have : x - o = (x - (o + 1)) + 1 := by omega
          simp only [hB, hx, h1, List.length_cons, this, List.getD_cons_succ]
          rw [if_pos (by simp), if_pos ⟨trivial, by omega, by omega⟩]
        · simp only [hB, hx, List.length_cons]
          rw [if_neg (by omega), if_neg (by simp), if_neg (by omega)]
    · simp [hB]

theorem readByte_memWrite (s : State) (A B : Region) (o x : Nat) (bs : List Byte) :
    (s.memWrite A o bs).readByte B x =
      if B = A ∧ o ≤ x ∧ x < o + bs.length then bs.getD (x - o) 0 else s.readByte B x :=
  Memory.byte_write s.mem A B o x bs

/-- `MemWrite` changes no other byte. -/
theorem memWrite_kept (s : State) (A : Region) (o : Nat) (bs : List Byte) :
    bytesKeptOutside s (s.memWrite A o bs) A o (o + bs.length) := by
  intro B x h; rw [readByte_memWrite, if_neg h]

/-- `MemWrite` stores its bytes. -/
theorem memWrite_are (s : State) (A : Region) (o : Nat) (bs : List Byte) : bytesAre (s.memWrite A o bs) A o bs := by
  intro i h
  rw [readByte_memWrite, if_pos ⟨rfl, by omega, by omega⟩]
  simp [h]

@[simp] theorem memRead_length (s : State) (A : Region) (o n : Nat) : (s.memRead A o n).length = n := by
  simp [State.memRead]

theorem memRead_getElem (s : State) (A : Region) (o n i : Nat) (h : i < (s.memRead A o n).length) :
    (s.memRead A o n)[i] = s.readByte A (o + i) := by
  simp [State.memRead]

/-- Two states whose bytes agree on the range read the same. -/
theorem memRead_congr {s t : State} {A B : Region} {o p n : Nat}
    (h : ∀ i, i < n → t.readByte B (p + i) = s.readByte A (o + i)) : t.memRead B p n = s.memRead A o n := by
  apply List.ext_getElem
  · simp
  · intro i h1 h2
    rw [memRead_getElem, memRead_getElem]
    exact h i (by simpa using h1)

theorem memRead_memWrite (s : State) (A : Region) (o : Nat) (bs : List Byte) :
    (s.memWrite A o bs).memRead A o bs.length = bs := by
  apply List.ext_getElem
  · simp
  · intro i h1 h2
    rw [memRead_getElem, memWrite_are s A o bs i h2]

theorem memRead_add (s : State) (A : Region) (o m n : Nat) :
    s.memRead A o (m + n) = s.memRead A o m ++ s.memRead A (o + m) n := by
  simp [State.memRead, List.range_add, Nat.add_assoc]

theorem readByte_eq_of_mem {s t : State} (h : t.mem = s.mem) (A : Region) (x : Nat) :
    t.readByte A x = s.readByte A x := by simp only [State.readByte, h]

theorem memRead_eq_of_mem {s t : State} (h : t.mem = s.mem) (A : Region) (o n : Nat) :
    t.memRead A o n = s.memRead A o n := memRead_congr fun _ _ => readByte_eq_of_mem h A _

/-! ### Bounds -/

theorem Memory.write_inside (m : Memory) (z : Sizes) (A : Region) (o : Nat) (bs : List Byte) (h : m.inside z)
    (hb : bs = [] ∨ o + bs.length ≤ z.of A) : (m.write A o bs).inside z := by
  induction bs generalizing m o with
  | nil => exact h
  | cons b bs ih =>
    have hb : o + (bs.length + 1) ≤ z.of A := by simpa using hb
    refine ih _ _ ?_ (.inr (by omega))
    intro B c hc
    simp only [Memory.put, Memory.get_set] at hc
    split at hc
    · subst B
      rcases Cells.mem_insert hc with h' | h'
      · subst h'; show o < _; omega
      · exact h A c h'
    · exact h B c hc

theorem memWrite_inside (s : State) (z : Sizes) (A : Region) (o : Nat) (bs : List Byte) (h : s.mem.inside z)
    (hb : bs = [] ∨ o + bs.length ≤ z.of A) : (s.memWrite A o bs).mem.inside z := Memory.write_inside _ _ _ _ _ h hb

theorem outside_eq_false {s : State} {A : Region} {o n : Nat} :
    s.outside A o n = false ↔ o + n ≤ s.sizes.of A :=
  decide_eq_false_iff_not.trans Nat.not_lt

theorem accessFaults_eq_false {s : State} {A : Region} {o n : Nat} :
    s.accessFaults A o n = false ↔ n = 0 ∨ o + n ≤ s.sizes.of A := by
  by_cases h : n = 0
  · simp [State.accessFaults, h]
  · simp only [State.accessFaults, h, false_or, ne_eq, not_false_eq_true, decide_true, Bool.true_and]
    exact outside_eq_false

/-! ### The key stream -/

@[simp] theorem xorStream_length (k : Key) (pos : Nat) (bs : List Byte) : (xorStream k pos bs).length = bs.length := by
  induction bs generalizing pos with
  | nil => rfl
  | cons b bs ih => simp [xorStream, ih]

theorem xorStream_getElem (k : Key) (pos : Nat) (bs : List Byte) (i : Nat) (h : i < (xorStream k pos bs).length) :
    (xorStream k pos bs)[i] = bs[i]'(by simpa using h) ^^^ keyAt k (pos + i) := by
  induction bs generalizing pos i with
  | nil => simp at h
  | cons b bs ih =>
    cases i with
    | zero => simp [xorStream]
    | succ i => simp only [xorStream, List.getElem_cons_succ]; rw [ih]; congr 2; omega

/-- Only the position mod 4 counts (R96). -/
theorem keyAt_add_mul (k : Key) (q m : Nat) : keyAt k (q + 4 * m) = keyAt k q := by
  simp [keyAt]

theorem keyAt_mod (k : Key) (q : Nat) : keyAt k (q % 4) = keyAt k q := by simp [keyAt]

/-- The zero key selects zero everywhere. -/
theorem keyAt_zero (q : Nat) : keyAt ⟨0, 0, 0, 0⟩ q = 0 := by
  unfold keyAt; split <;> rfl

theorem xorStream_append (k : Key) (pos : Nat) (xs ys : List Byte) :
    xorStream k pos (xs ++ ys) = xorStream k pos xs ++ xorStream k (pos + xs.length) ys := by
  induction xs generalizing pos with
  | nil => simp [xorStream]
  | cons b bs ih => simp [xorStream, ih, Nat.add_assoc, Nat.add_comm 1]

theorem xorStream_xorStream (k : Key) (pos : Nat) (bs : List Byte) : xorStream k pos (xorStream k pos bs) = bs := by
  apply List.ext_getElem
  · simp
  · intro i h1 h2; rw [xorStream_getElem, xorStream_getElem, BitVec.xor_assoc, BitVec.xor_self, BitVec.xor_zero]

/-- One byte after `MASK`. -/
theorem readByte_maskRegion (s : State) (A B : Region) (o n x : Nat) (k : Key) (pos : Nat) :
    (s.maskRegion A o n k pos).readByte B x =
      if B = A ∧ o ≤ x ∧ x < o + n then s.readByte A x ^^^ keyAt k (pos + (x - o)) else s.readByte B x := by
  rw [State.maskRegion, readByte_memWrite]
  simp only [xorStream_length, memRead_length]
  split
  · next h =>
    have hl : x - o < (xorStream k pos (s.memRead A o n)).length := by simp; omega
    rw [List.getD_eq_getElem _ _ hl, xorStream_getElem, memRead_getElem]
    congr 2; omega
  · rfl

theorem maskRegion_kept (s : State) (A : Region) (o n : Nat) (k : Key) (pos : Nat) :
    bytesKeptOutside s (s.maskRegion A o n k pos) A o (o + n) := by
  intro B x h; rw [readByte_maskRegion, if_neg h]

theorem maskRegion_wf (s : State) (A : Region) (o n : Nat) (k : Key) (pos : Nat) (h : s.mem.wf = true) :
    (s.maskRegion A o n k pos).mem.wf = true := memWrite_wf _ _ _ _ h

theorem rxmaskApply_wf (s : State) (A : Region) (o n : Nat) (h : s.mem.wf = true) :
    (s.rxmaskApply A o n).mem.wf = true := by
  rw [rxmaskApply_mem]; split
  · exact maskRegion_wf s A o n _ _ h
  · exact h

theorem emitWrite_wf (s : State) (h : HeaderOp) (a : Addr) (hw : s.mem.wf = true) :
    (s.emitWrite h a).mem.wf = true := memWrite_wf _ _ _ _ hw

/-- One byte after RXMASK's writes. -/
theorem readByte_rxmaskApply (s : State) (A B : Region) (o n x : Nat) :
    (s.rxmaskApply A o n).readByte B x =
      if s.hdr.masked = true ∧ B = A ∧ o ≤ x ∧ x < o + n
      then s.readByte A x ^^^ keyAt s.hdr.key (s.rxPosition + (x - o)) else s.readByte B x := by
  by_cases hm : s.hdr.masked = true
  · simp only [hm, true_and]
    rw [← readByte_maskRegion]
    exact readByte_eq_of_mem (by rw [rxmaskApply_mem, if_pos hm]) B x
  · simp only [hm]
    exact readByte_eq_of_mem (by rw [rxmaskApply_mem, if_neg hm]) B x

end Sys2Proof.Machine
end

