-- ==== Sys2Proof/Laws/Inv.lean ====
section
/-! SUPPORT. The invariant of Safety.lean, one operation and one command at a time. -/
namespace Sys2Proof.Machine
open Sys2Proof

theorem JobInv.congr {s t : State} (h : JobInv s) (hj : t.rxJob = s.rxJob) (hr : t.rxs = s.rxs) (hh : t.hdr = s.hdr)
    (hz : t.sizes = s.sizes) (hb : s.rxJob = .header → t.readByte .scratch 1 = s.readByte .scratch 1) : JobInv t := by
  unfold JobInv at h ⊢
  rw [hj, hr, hh, hz]
  revert h
  cases hs : s.rxJob <;> simp_all

/-- Everything the invariant reads. -/
theorem State.Inv.congr {s t : State} (h : s.Inv) (hc : t.cfg = s.cfg) (hh : t.hdr = s.hdr) (hr : t.rxs = s.rxs)
    (hj : t.rxJob = s.rxJob) (hz : t.sizes = s.sizes)
    (hp : ∀ j, Pending.send j ∈ t.pending → Pending.send j ∈ s.pending ∨ SendInv s.sizes j)
    (hw : t.mem.wf = true) (hi : t.mem.inside s.sizes)
    (hb : s.rxJob = .header → t.readByte .scratch 1 = s.readByte .scratch 1) : t.Inv where
  hdr := by rw [hc, hh]; exact h.hdr
  fault := by rw [hr]; exact h.fault
  data := by rw [hr, hh]; exact h.data
  dropped := by rw [hr, hh]; exact h.dropped
  job := h.job.congr hj hr hh hz hb
  pending := fun j hm => by rw [hz]; exact (hp j hm).elim (h.pending j) id
  sizes := by rw [hz]; exact h.sizes
  memWf := hw
  inside := by rw [hz]; exact hi

/-- A change of state the invariant does not read. -/
theorem State.Inv.of_eq {s t : State} (h : s.Inv) (hc : t.cfg = s.cfg) (hh : t.hdr = s.hdr) (hr : t.rxs = s.rxs)
    (hj : t.rxJob = s.rxJob) (hz : t.sizes = s.sizes) (hm : t.mem = s.mem)
    (hp : ∀ j, Pending.send j ∈ t.pending → Pending.send j ∈ s.pending ∨ SendInv s.sizes j) : t.Inv :=
  h.congr hc hh hr hj hz hp (by rw [hm]; exact h.memWf) (by rw [hm]; exact h.inside)
    fun _ => readByte_eq_of_mem hm _ _

theorem State.Inv.complete {s : State} (h : s.Inv) (a c r) : (s.complete a c r).Inv :=
  h.of_eq rfl rfl rfl rfl rfl rfl fun _ hm => .inl hm

theorem State.Inv.emitEvent {s : State} (h : s.Inv) (e) : (s.emitEvent e).Inv :=
  h.of_eq rfl rfl rfl rfl rfl rfl fun _ hm => .inl hm

/-- A store to a region the receive command in progress does not own. -/
theorem State.Inv.memWrite {s : State} (h : s.Inv) {A : Region} {o : Nat} {bs : List Byte} (hr : s.rxOwns A = false)
    (hb : bs = [] ∨ o + bs.length ≤ s.sizes.of A) : (s.memWrite A o bs).Inv := by
  refine h.congr (by simp) (by simp) (by simp) (by simp) (by simp) (fun _ hm => .inl (by simpa using hm))
    (memWrite_wf _ _ _ _ h.memWf) (memWrite_inside _ _ _ _ _ h.inside hb) fun hj => ?_
  rw [readByte_memWrite, if_neg]
  rintro ⟨rfl, -⟩
  rw [State.rxOwns, hj] at hr; cases hr

theorem HdrInv.loadHeader {c : Cfg} {op : BitVec 4} {f : FrameHdr} (hf : headerFault c op f = none) :
    HdrInv c (loadHeader op f) := by
  intro _
  unfold headerFault at hf
  simp only [Machine.loadHeader]
  split at hf; · cases hf
  split at hf; · cases hf
  split at hf; · cases hf
  split at hf; · cases hf
  split at hf; · cases hf
  rename_i h1 h2 h3 h4 h5
  have hl : f.len.value < 2 ^ 63 := by
    cases hl : f.len with
    | short v => simp only [LenField.value]; omega
    | ext16 v => simp only [LenField.value]; omega
    | ext64 v =>
      rw [hl] at h5
      simp only [LenField.len7, LenField.value] at h5 ⊢
      simp at h5; exact h5
  have hm : (BitVec.ofNat 64 f.len.value).toNat = f.len.value := by
    rw [BitVec.toNat_ofNat]; omega
  rw [hm]
  refine ⟨Nat.le_refl _, by omega, fun hc => ⟨?_, ?_⟩, h2, ?_⟩
  · have := fun h => h4 ⟨hc, h⟩; simpa using this
  · exact Nat.not_lt.1 fun h => h3 ⟨hc, h⟩
  · simpa using h1

theorem HdrInv.invalid {c : Cfg} {h : Hdr} (hv : h.valid = false) : HdrInv c h := by
  intro h'; rw [hv] at h'; cases h'

theorem State.Inv.busy_false {s : State} (h : s.Inv) (hb : s.rxs.busy = false) : s.rxJob = .none := by
  have := h.job; unfold JobInv at this
  cases hj : s.rxJob <;> simp_all

theorem headerFault_ne {c : Cfg} {op : BitVec 4} {f : FrameHdr} {x : Cause} (h : headerFault c op f = some x) :
    x ≠ .noFault := by
  unfold headerFault at h
  repeat' split at h
  all_goals cases h <;> decide

theorem rxmaskFault_ne {s : State} {A o n} {x : Cause} (h : s.rxmaskFault A o n = some x) : x ≠ .noFault := by
  unfold State.rxmaskFault at h
  repeat' split at h
  all_goals cases h <;> decide

theorem State.Inv.rxFault {s : State} (h : s.Inv) (cmd) {c : Cause} (hc : c ≠ .noFault) : (s.rxFault cmd c).Inv where
  hdr := HdrInv.invalid (by simp)
  fault := by simp [FaultInv, hc]
  data := by simp
  dropped := by simp
  job := by simp [JobInv]
  pending := by simpa using h.pending
  sizes := by simpa using h.sizes
  memWf := by simpa using h.memWf
  inside := by simpa using h.inside

/-! ### Commands -/
theorem writeRace_eq_false {s : State} {g A} :
    s.writeRace g A = false ↔ s.rxOwns A = false ∧ s.foreign g A = false ∧ s.sendOwns A = false ∧ s.reserved A = false := by
  simp only [State.writeRace, State.readRace, Bool.or_eq_false_iff, and_assoc]

theorem rxOwns_of_writeRace {s : State} {g A} (h : s.writeRace g A = false) : s.rxOwns A = false :=
  (writeRace_eq_false.1 h).1

theorem State.Inv.execHdrlen {s t : State} (h : s.Inv) {b0 b1} (ht : execHdrlen b0 b1 s = .next t) : t.Inv := by
  cases ht; exact h.complete _ _ _
theorem State.Inv.execOpclass {s t : State} (h : s.Inv) {b0} (ht : execOpclass b0 s = .next t) : t.Inv := by
  cases ht; exact h.complete _ _ _
theorem State.Inv.execRdreg {s t : State} (h : s.Inv) {b0} (ht : execRdreg b0 s = .next t) : t.Inv := by
  cases ht; exact h.complete _ _ _
theorem State.Inv.execReservedCmd {s t : State} (h : s.Inv) {b0 b1} (ht : execReservedCmd b0 b1 s = .next t) : t.Inv := by
  cases ht; exact h.complete _ _ _

theorem parseBytes_ok {s s' : State} {a n} (hs : s.parseBytes a n = .ok s') :
    ∃ op f, headerFault s.cfg op f = none ∧ s' = { s with hdr := loadHeader op f } := by
  unfold State.parseBytes at hs
  split at hs; · cases hs
  split at hs; · cases hs
  simp only at hs
  split at hs; · cases hs
  split at hs; · cases hs
  split at hs
  · cases hs
  · split at hs
    · cases hs
    · next hf => cases hs; exact ⟨_, _, hf, rfl⟩

theorem State.Inv.execParse {s t : State} (h : s.Inv) {a n} (ht : execParse a n s = .next t) : t.Inv := by
  unfold Machine.execParse at ht
  split at ht
  · cases ht; exact h.complete _ _ _
  · next hb =>
    split at ht
    · cases ht; exact h.complete _ _ _
    · next hph =>
      split at ht
      · cases ht; exact h.complete _ _ _
      · split at ht
        · cases ht; exact h.complete _ _ _
        · next s' hs =>
          cases ht
          refine State.Inv.complete ?_ _ _ _
          obtain ⟨op, f, hf, rfl⟩ := parseBytes_ok hs
          simp only [Bool.or_eq_true, not_or, Bool.not_eq_true] at hb
          have hj := h.busy_false hb.1
          have hJ := h.job
          unfold JobInv at hJ
          exact
            { hdr := HdrInv.loadHeader hf
              fault := h.fault
              data := fun _ => rfl
              dropped := fun e => absurd e hph
              job := by unfold JobInv; simp only [hj] at hJ ⊢; exact hJ
              pending := h.pending
              sizes := h.sizes
              memWf := h.memWf
              inside := h.inside }

theorem emitBytes_pos (h : HeaderOp) : 2 ≤ (emitBytes h).length := by simp [emitBytes, encodeHeader]

theorem State.Inv.emitWrite {s : State} (h : s.Inv) {e : HeaderOp} {a : Addr} (hr : s.rxOwns a.region = false)
    (hf : s.emitFault e a = none) : (s.emitWrite e a).Inv := by
  unfold State.emitFault at hf
  split at hf; · cases hf
  split at hf; · cases hf
  next hb =>
  refine h.memWrite hr (.inr ?_)
  have : s.size a.region = s.sizes.of a.region := rfl
  omega

theorem State.Inv.execEmit {s t : State} (h : s.Inv) {e a} (ht : execEmit e a s = .next t) : t.Inv := by
  unfold Machine.execEmit at ht
  split at ht
  · cases ht; exact h.complete _ _ _
  · next hr =>
    split at ht
    · cases ht; exact h.complete _ _ _
    · next hf => cases ht; exact (h.emitWrite (rxOwns_of_writeRace (by simpa using hr)) hf).complete _ _ _

theorem State.Inv.maskRegion {s : State} (h : s.Inv) {A : Region} {o n k pos} (hr : s.rxOwns A = false)
    (hb : s.outside A o n = false) : (s.maskRegion A o n k pos).Inv :=
  h.memWrite hr (.inr (by simpa using outside_eq_false.1 hb))

theorem State.Inv.execMask {s t : State} (h : s.Inv) {a n k pos} (ht : execMask a n k pos s = .next t) : t.Inv := by
  unfold Machine.execMask at ht
  repeat' split at ht
  all_goals cases ht
  · exact h.complete _ _ _
  · exact h.complete _ _ _
  · exact h.complete _ _ _
  · next hr hb => exact (h.maskRegion (rxOwns_of_writeRace (by simpa using hr)) (by simpa using hb)).complete _ _ _

theorem HdrInv.sub {c : Cfg} {h : Hdr} (hi : HdrInv c h) (n : Nat) :
    HdrInv c { h with rem := BitVec.ofNat 64 (h.rem.toNat - n) } := by
  intro hv
  have := hi hv
  refine ⟨?_, this.2.1, this.2.2.1, this.2.2.2.1, this.2.2.2.2⟩
  have h1 := this.1; have h2 := h.rem.isLt
  simp only [BitVec.toNat_ofNat]; omega

theorem State.Inv.retired {s : State} (h : s.Inv) (hb : s.rxs.busy = false) : s.retired.Inv := by
  have hj := h.busy_false hb
  have hJ := h.job
  unfold JobInv at hJ
  simp only [hj] at hJ
  unfold State.retired
  simp only [dropHeader_rxs]
  by_cases hp : s.rxs.phase = .data
  · rw [if_pos hp]
    have hf := h.fault
    exact
      { hdr := HdrInv.invalid rfl
        fault := by simp [FaultInv, hp] at hf ⊢; exact hf
        data := by simp
        dropped := fun _ => rfl
        job := by unfold JobInv; simp [hj, hJ]
        pending := h.pending, sizes := h.sizes, memWf := h.memWf, inside := h.inside }
  · rw [if_neg hp]
    exact
      { hdr := HdrInv.invalid rfl
        fault := h.fault
        data := fun h' => absurd h' hp
        dropped := fun _ => rfl
        job := by unfold JobInv; simp only [dropHeader_rxJob, hj]; exact hJ
        pending := h.pending, sizes := h.sizes, memWf := h.memWf, inside := h.inside }

theorem State.Inv.execRetire {s t : State} (h : s.Inv) (ht : execRetire s = .next t) : t.Inv := by
  unfold Machine.execRetire at ht
  split at ht
  · cases ht; exact h.complete _ _ _
  · next hb =>
    split at ht
    · cases ht; exact (h.retired (by simpa using hb)).complete _ _ _
    · cases ht; exact h.complete _ _ _

theorem rxmaskFault_none {s : State} {A o n} (hf : s.rxmaskFault A o n = none) :
    s.hdr.valid = true ∧ n ≤ s.hdr.rem.toNat ∧ o + n ≤ s.sizes.of A := by
  unfold State.rxmaskFault at hf
  split at hf; · cases hf
  split at hf; · cases hf
  split at hf; · cases hf
  next h1 h2 h3 => exact ⟨by simpa using h1, by omega, outside_eq_false.1 (by simpa using h3)⟩

theorem rxmaskApply_inside {s : State} {A o n} (hi : s.mem.inside s.sizes) (hb : o + n ≤ s.sizes.of A) :
    (s.rxmaskApply A o n).mem.inside s.sizes := by
  rw [rxmaskApply_mem]
  split
  · exact memWrite_inside _ _ _ _ _ hi (.inr (by simpa using hb))
  · exact hi

/-- RXMASK with no receive command in progress. -/
theorem State.Inv.rxmaskApply {s : State} (h : s.Inv) {A o n} (hb : s.rxs.busy = false)
    (hf : s.rxmaskFault A o n = none) : (s.rxmaskApply A o n).Inv := by
  have hj := h.busy_false hb
  have hJ := h.job
  unfold JobInv at hJ
  simp only [hj] at hJ
  have hb := (rxmaskFault_none hf).2.2
  exact
    { hdr := by simpa using h.hdr.sub n
      fault := by simpa using h.fault
      data := by simpa using h.data
      dropped := by simpa using h.dropped
      job := by unfold JobInv; simp only [rxmaskApply_rxJob, hj, rxmaskApply_rxs]; exact hJ
      pending := by simpa using h.pending
      sizes := by simpa using h.sizes
      memWf := rxmaskApply_wf _ _ _ _ h.memWf
      inside := by simpa using rxmaskApply_inside h.inside hb }

theorem State.Inv.execRxmask {s t : State} (h : s.Inv) {a n} (ht : execRxmask a n s = .next t) : t.Inv := by
  unfold Machine.execRxmask at ht
  split at ht
  · cases ht; exact h.complete _ _ _
  · next hb =>
    split at ht
    · cases ht; exact h.complete _ _ _
    · split at ht
      · cases ht; exact h.complete _ _ _
      · next hf => cases ht; exact (h.rxmaskApply (by simpa using hb) hf).complete _ _ _

theorem State.Inv.awaitStart {s : State} (h : s.Inv) (h1 : s.rxs.phase ≠ .faulted) : s.awaitStart.Inv :=
  have hf := h.fault
  { hdr := HdrInv.invalid rfl
    fault := by unfold FaultInv at hf ⊢; refine ⟨?_, hf.2⟩; simp only [State.awaitStart]; simp [h1] at hf; simp [hf]
    data := by simp [State.awaitStart]
    dropped := fun _ => rfl
    job := by simp [JobInv, State.awaitStart]
    pending := h.pending, sizes := h.sizes, memWf := h.memWf, inside := h.inside }

theorem State.Inv.execAwait {s t : State} (h : s.Inv) (ht : execAwait s = .next t) : t.Inv := by
  unfold Machine.execAwait at ht
  repeat' split at ht
  all_goals cases ht
  · exact h.complete _ _ _
  · exact h.complete _ _ _
  · exact h.complete _ _ _
  · exact h.complete _ _ _
  · next h1 _ _ => exact h.awaitStart h1

theorem State.Inv.execRecv {s t : State} (h : s.Inv) {a len} (ht : execRecv a len s = .next t) : t.Inv := by
  unfold Machine.execRecv at ht
  repeat' split at ht
  all_goals cases ht
  iterate 7 exact h.complete _ _ _
  next hb _ _ hd hr ho hl =>
  have hj := h.busy_false (by simpa using hb)
  have hJ := h.job
  unfold JobInv at hJ
  simp only [hj] at hJ
  simp only [not_or, ne_eq, Decidable.not_not, Bool.not_eq_false] at hd
  exact
    { hdr := h.hdr
      fault := h.fault
      data := h.data
      dropped := h.dropped
      job := by
        unfold JobInv
        exact ⟨rfl, hd.2, hJ.2.1, hJ.2.2.1, hd.1, by show 0 < len; omega, by show len ≤ s.hdr.rem.toNat; omega,
          by simpa using outside_eq_false.1 (Bool.eq_false_iff.2 ho)⟩
      pending := h.pending, sizes := h.sizes, memWf := h.memWf, inside := h.inside }

theorem State.Inv.execCloseenc {s t : State} (h : s.Inv) {c a} (ht : execCloseenc c a s = .next t) : t.Inv := by
  unfold Machine.execCloseenc at ht
  repeat' split at ht
  all_goals cases ht
  · exact h.complete _ _ _
  · exact h.complete _ _ _
  · next hr hb =>
    refine (h.memWrite (rxOwns_of_writeRace (by simpa using hr)) (.inr ?_)).complete _ _ _
    have := (accessFaults_eq_false (s := s) (A := a.region) (o := a.off) (n := 2)).1 (by simpa using hb)
    simp [beBytes]; omega

theorem State.Inv.execClosedec {s t : State} (h : s.Inv) {a k} (ht : execClosedec a k s = .next t) : t.Inv := by
  unfold Machine.execClosedec at ht
  repeat' split at ht
  all_goals cases ht
  all_goals exact h.complete _ _ _

theorem prepareFault_none {s : State} {a len fin sent op ext} (hf : s.prepareFault a len fin sent op ext = none) :
    s.outside a.region a.off len = false ∧ s.emitFault (s.prepareHeader len fin sent op ext) a = none := by
  unfold State.prepareFault at hf
  split at hf; · cases hf
  split at hf; · cases hf
  next h => exact ⟨by simpa using h, hf⟩

theorem State.Inv.afterDraw {s : State} (h : s.Inv) : s.afterDraw.Inv :=
  h.of_eq (by simp) (by simp) (by simp) (by simp) (by simp) (by simp) fun _ hm => .inl (by simpa using hm)

theorem emitFault_congr {s t : State} (hc : t.cfg = s.cfg) (hz : t.sizes = s.sizes) (e a) :
    t.emitFault e a = s.emitFault e a := by simp only [State.emitFault, State.size, hc, hz]
theorem outside_congr {s t : State} (hz : t.sizes = s.sizes) (A o n) :
    t.outside A o n = s.outside A o n := by simp only [State.outside, State.size, hz]
theorem rxOwns_congr {s t : State} (h : t.rxJob = s.rxJob) (A : Region) : t.rxOwns A = s.rxOwns A := by
  simp [State.rxOwns, h]

theorem State.Inv.prepareApply {s : State} (h : s.Inv) {a len fin sent op ext} (hr : s.rxOwns a.region = false)
    (hf : s.prepareFault a len fin sent op ext = none) : (s.prepareApply a len fin sent op ext).Inv := by
  have ⟨ho, he⟩ := prepareFault_none hf
  unfold State.prepareApply
  have h1 : (if s.cfg.maskOut then s.afterDraw else s).Inv := by split; exacts [h.afterDraw, h]
  have hj1 : (if s.cfg.maskOut then s.afterDraw else s).rxJob = s.rxJob := by split <;> simp
  have hc1 : (if s.cfg.maskOut then s.afterDraw else s).cfg = s.cfg := by split <;> simp
  have hz1 : (if s.cfg.maskOut then s.afterDraw else s).sizes = s.sizes := by split <;> simp
  have h2 := h1.emitWrite (e := s.prepareHeader len fin sent op ext) (a := a)
    (by rw [rxOwns_congr hj1]; exact hr) (by rw [emitFault_congr hc1 hz1]; exact he)
  simp only
  split
  · refine h2.maskRegion (by rw [rxOwns_congr ((emitWrite_rxJob _ _ _).trans hj1)]; exact hr) ?_
    rw [outside_congr ((emitWrite_sizes _ _ _).trans hz1)]; exact ho
  · exact h2

theorem State.Inv.markPrepared {s : State} (h : s.Inv) (A) : (s.markPrepared A).Inv :=
  h.of_eq rfl rfl rfl rfl rfl rfl fun _ hm => .inl hm

theorem State.Inv.unmarkPrepared {s : State} (h : s.Inv) (A) : (s.unmarkPrepared A).Inv :=
  h.of_eq rfl rfl rfl rfl rfl rfl fun _ hm => .inl hm

theorem State.Inv.execPrepare {s t : State} (h : s.Inv) {a len fin sent op ext}
    (ht : execPrepare a len fin sent op ext s = .next t) : t.Inv := by
  unfold Machine.execPrepare at ht
  repeat' split at ht
  all_goals cases ht
  · exact h.complete _ _ _
  · exact h.complete _ _ _
  · next hr _ hf =>
    exact ((h.prepareApply (rxOwns_of_writeRace (by simpa using hr)) hf).markPrepared _).complete _ _ _

theorem State.Inv.execSendframe {s t : State} (h : s.Inv) {a n tm opts}
    (ht : execSendframe a n tm opts s = .next t) : t.Inv := by
  unfold Machine.execSendframe at ht
  simp only at ht
  have key : s.outside a.region a.off n = false → ∀ (u : State) (st : SendStage), u.cfg = s.cfg → u.hdr = s.hdr →
      u.rxs = s.rxs → u.rxJob = s.rxJob → u.sizes = s.sizes → u.mem = s.mem →
      u.pending = s.pending ++ [.send ⟨s.issuer, a, n, tm, opts, st⟩] → u.Inv := by
    intro ho u st h1 h2 h3 h4 h5 h6 h7
    refine h.of_eq h1 h2 h3 h4 h5 h6 fun j hm => ?_
    rw [h7] at hm
    simp only [List.mem_append, List.mem_singleton, Pending.send.injEq] at hm
    refine hm.imp id fun e => ?_
    subst e; exact .inr (outside_eq_false.1 ho)
  repeat' split at ht
  all_goals cases ht
  · exact h.complete _ _ _
  · exact h.complete _ _ _
  · next ho _ _ _ => exact key (by simpa using ho) _ _ rfl rfl rfl rfl rfl rfl rfl
  · exact h.complete _ _ _
  · next ho _ _ _ => exact key (by simpa using ho) _ _ rfl rfl rfl rfl rfl rfl rfl
  · exact (h.unmarkPrepared _).complete _ _ _
  · next ho _ _ _ _ => exact key (by simpa using ho) _ _ rfl rfl rfl rfl rfl rfl rfl

theorem State.Inv.execAcquire {s t : State} (h : s.Inv) {tm} (ht : execAcquire tm s = .next t) : t.Inv := by
  unfold Machine.execAcquire at ht
  repeat' split at ht
  all_goals cases ht
  · exact h.complete _ _ _
  · exact h.of_eq rfl rfl rfl rfl rfl rfl fun _ hm => .inl hm
  · exact h.complete _ _ _
  · exact h.of_eq rfl rfl rfl rfl rfl rfl fun _ hm => .inl (by simpa using hm)

theorem State.Inv.execRelease {s t : State} (h : s.Inv) (ht : execRelease s = .next t) : t.Inv := by
  unfold Machine.execRelease at ht
  repeat' split at ht
  all_goals cases ht
  · exact h.of_eq rfl rfl rfl rfl rfl rfl fun _ hm => .inl hm
  · exact h.complete _ _ _

/-! ### Commands in progress -/

/-- What a step of a SENDFRAME leaves alone, and where it stays. -/
theorem sendStep_more {s s' : State} {j j' : SendJob} (h : s.sendStep j = .more j' s') :
    s'.cfg = s.cfg ∧ s'.hdr = s.hdr ∧ s'.rxs = s.rxs ∧ s'.rxJob = s.rxJob ∧ s'.sizes = s.sizes ∧ s'.mem = s.mem ∧
    s'.pending = s.pending ∧ j'.issuer = j.issuer ∧ j'.addr = j.addr ∧ j'.n = j.n ∧ j'.timeout = j.timeout ∧
    j'.opts = j.opts := by
  unfold State.sendStep at h
  split at h
  · unfold State.sendAcquire at h; split at h <;> cases h <;> simp
  · unfold State.sendCheck at h; split at h
    · cases h; simp
    · split at h <;> cases h
  · unfold State.sendWrite at h; split at h <;> cases h <;> simp
  · unfold State.sendFinish at h; simp only at h; split at h
    · cases h
    · split at h <;> cases h
    · split at h <;> cases h

theorem sendEnds_eq (s : State) (j : SendJob) :
    s.sendEnds j = { s with permit := (s.sendEnds j).permit, sendPrepared := (s.sendEnds j).sendPrepared } := by
  unfold State.sendEnds State.sendRelease State.releasePermit State.unmarkPrepared; split <;> rfl

theorem sendStep_done {s s' : State} {j : SendJob} {r : Result} (h : s.sendStep j = .done r s') :
    s'.cfg = s.cfg ∧ s'.hdr = s.hdr ∧ s'.rxs = s.rxs ∧ s'.rxJob = s.rxJob ∧ s'.sizes = s.sizes ∧ s'.mem = s.mem ∧
    s'.pending = s.pending := by
  unfold State.sendStep at h
  split at h
  · unfold State.sendAcquire at h; split at h <;> cases h
  · unfold State.sendCheck at h; split at h
    · cases h
    · (split at h <;> cases h) <;> simp
  · unfold State.sendWrite at h; split at h <;> cases h
  · unfold State.sendFinish at h; simp only at h; split at h
    · cases h; simp
    · split at h <;> cases h <;> simp
    · split at h <;> cases h <;> simp

theorem State.Inv.pendingStep {s : State} (h : s.Inv) (k : Nat) : (s.pendingStep k).Inv := by
  unfold State.pendingStep
  split
  · exact h
  · next j hk =>
    have hj : SendInv s.sizes j := h.pending j (List.mem_of_getElem? hk)
    split
    · exact h
    · next j' s' hs =>
      obtain ⟨h1, h2, h3, h4, h5, h6, h7, h8, h9, h10, -, -⟩ := sendStep_more hs
      refine h.of_eq h1 h2 h3 h4 h5 h6 fun i hm => ?_
      simp only [h7] at hm
      rcases List.mem_or_eq_of_mem_set hm with hm | hm
      · exact .inl hm
      · injection hm with hm; subst hm; right; unfold SendInv at hj ⊢; rw [h9, h10]; exact hj
    · next r s' hs =>
      obtain ⟨h1, h2, h3, h4, h5, h6, h7⟩ := sendStep_done hs
      exact State.Inv.complete (s := { s' with pending := s'.pending.eraseIdx k }) (h.of_eq h1 h2 h3 h4 h5 h6
        fun i hm => .inl (List.mem_of_mem_eraseIdx (by rw [← h7]; exact hm))) _ _ _
  · split
    · exact State.Inv.complete (s := { s.takePermit .host with pending := s.pending.eraseIdx k })
        (h.of_eq rfl rfl rfl rfl rfl rfl fun i hm => .inl (List.mem_of_mem_eraseIdx hm)) _ _ _
    · exact h

theorem State.Inv.giveUpStep {s : State} (h : s.Inv) (k : Nat) : (s.giveUpStep k).Inv := by
  unfold State.giveUpStep
  split
  · exact h
  · split
    · split
      · next j _ _ =>
        exact State.Inv.complete (s := { s.unmarkPrepared j.addr.region with pending := s.pending.eraseIdx k })
          (h.of_eq rfl rfl rfl rfl rfl rfl fun i hm => .inl (List.mem_of_mem_eraseIdx hm)) _ _ _
      · exact State.Inv.complete (s := { s with pending := s.pending.eraseIdx k })
          (h.of_eq rfl rfl rfl rfl rfl rfl fun i hm => .inl (List.mem_of_mem_eraseIdx hm)) _ _ _
    · exact h

/-! ### Receive steps -/

/-- The invariant without its job clause, inside a step of the receive command in progress. -/
structure Mid (s : State) : Prop where
  hdr     : HdrInv s.cfg s.hdr
  nofault : s.rxs.fault = false ∧ s.rxs.cause = .noFault
  busy : s.rxs.busy = true
  pending : ∀ j, Pending.send j ∈ s.pending → SendInv s.sizes j
  sizes   : 125 ≤ s.sizes.nCtrlIn ∧ 125 ≤ s.sizes.nCtrlOut
  memWf   : s.mem.wf = true
  inside  : s.mem.inside s.sizes

theorem State.Inv.mid {s : State} (h : s.Inv) (hb : s.rxs.busy = true) (hp : s.rxs.phase ≠ .faulted) : Mid s where
  hdr := h.hdr
  nofault := by
    have := h.fault; unfold FaultInv at this
    have h1 : s.rxs.fault = false := by simpa [hp] using this.1
    exact ⟨h1, this.2.2 h1⟩
  busy := hb
  pending := h.pending
  sizes := h.sizes
  memWf := h.memWf
  inside := h.inside

theorem Mid.rxFault {s : State} (h : Mid s) (cmd) {c : Cause} (hc : c ≠ .noFault) : (s.rxFault cmd c).Inv where
  hdr := HdrInv.invalid (by simp)
  fault := by simp [FaultInv, hc]
  data := by simp
  dropped := by simp
  job := by simp [JobInv]
  pending := by simpa using h.pending
  sizes := by simpa using h.sizes
  memWf := by simpa using h.memWf
  inside := by simpa using h.inside

theorem Mid.of_eq {s t : State} (h : Mid s) (_ : t.cfg = s.cfg) (hh : HdrInv t.cfg t.hdr)
    (hr : t.rxs.fault = s.rxs.fault ∧ t.rxs.cause = s.rxs.cause ∧ t.rxs.busy = true)
    (hz : t.sizes = s.sizes) (hp : t.pending = s.pending) (hw : t.mem.wf = true) (hi : t.mem.inside s.sizes) : Mid t where
  hdr := hh
  nofault := by rw [hr.1, hr.2.1]; exact h.nofault
  busy := hr.2.2
  pending := by rw [hz, hp]; exact h.pending
  sizes := by rw [hz]; exact h.sizes
  memWf := hw
  inside := by rw [hz]; exact hi

theorem Mid.nextHeader {s : State} (h : Mid s) (hv : s.hdr.valid = false) : s.nextHeader.Inv where
  hdr := h.hdr
  fault := by simp [FaultInv, State.nextHeader, h.nofault]
  data := by simp [State.nextHeader]
  dropped := by simp [State.nextHeader]
  job := by simp [JobInv, State.nextHeader, h.busy, hv]
  pending := h.pending
  sizes := h.sizes
  memWf := h.memWf
  inside := h.inside

theorem Mid.emitEvent {s : State} (h : Mid s) (e) : Mid (s.emitEvent e) :=
  h.of_eq rfl h.hdr ⟨rfl, rfl, h.busy⟩ rfl rfl h.memWf h.inside
theorem Mid.dropHeader {s : State} (h : Mid s) : Mid (s.dropHeader) :=
  h.of_eq rfl (HdrInv.invalid (by simp)) ⟨rfl, rfl, h.busy⟩ rfl rfl h.memWf h.inside

theorem Mid.pingHandled {s : State} (h : Mid s) : s.pingHandled.Inv :=
  ((h.emitEvent _).dropHeader.emitEvent _).nextHeader (by simp)
theorem Mid.pongHandled {s : State} (h : Mid s) (k) : (s.pongHandled k).Inv :=
  ((h.emitEvent _).dropHeader.emitEvent _).nextHeader (by simp)

theorem Mid.closeReceived {s : State} (h : Mid s) (hh : s.rxs.hcnt = 0 ∧ s.rxs.hneed = 0) (c) : (s.closeReceived c).Inv where
  hdr := HdrInv.invalid (by simp [State.closeReceived])
  fault := by simp [FaultInv, State.closeReceived, h.nofault]
  data := by simp [State.closeReceived]
  dropped := by simp [State.closeReceived]
  job := by simp [JobInv, State.closeReceived, hh]
  pending := h.pending
  sizes := h.sizes
  memWf := h.memWf
  inside := h.inside

theorem Mid.memWrite {s : State} (h : Mid s) {A o bs} (hb : bs = [] ∨ o + bs.length ≤ s.sizes.of A) :
    Mid (s.memWrite A o bs) :=
  h.of_eq (by simp) (by simpa using h.hdr) ⟨by simp, by simp, by simpa using h.busy⟩ (by simp) (by simp)
    (memWrite_wf _ _ _ _ h.memWf) (memWrite_inside _ _ _ _ _ h.inside hb)

theorem Mid.rxmaskApply {s : State} (h : Mid s) {A o n} (hb : o + n ≤ s.sizes.of A) :
    Mid (s.rxmaskApply A o n) :=
  h.of_eq (by simp) (by simpa using h.hdr.sub n) ⟨by simp, by simp, by simpa using h.busy⟩ (by simp) (by simp)
    (rxmaskApply_wf _ _ _ _ h.memWf) (rxmaskApply_inside h.inside hb)

theorem prepareApply_wf {s : State} {a len fin sent op ext} (h : s.mem.wf = true) :
    (s.prepareApply a len fin sent op ext).mem.wf = true := by
  unfold State.prepareApply
  have h1 : (if s.cfg.maskOut then s.afterDraw else s).mem.wf = true := by split <;> simpa
  simp only
  split
  · exact maskRegion_wf _ _ _ _ _ _ (emitWrite_wf _ _ _ h1)
  · exact emitWrite_wf _ _ _ h1

theorem prepareApply_inside {s : State} {a len fin sent op ext} (h : s.mem.inside s.sizes)
    (hf : s.prepareFault a len fin sent op ext = none) :
    (s.prepareApply a len fin sent op ext).mem.inside s.sizes := by
  have ⟨ho, he⟩ := prepareFault_none hf
  have ho := outside_eq_false.1 ho
  unfold State.prepareApply
  have h1 : (if s.cfg.maskOut then s.afterDraw else s).mem.inside s.sizes := by split <;> simpa
  unfold State.emitFault at he
  split at he; · cases he
  split at he; · cases he
  next hb =>
  have : s.size a.region = s.sizes.of a.region := rfl
  have h2 : ((if s.cfg.maskOut then s.afterDraw else s).emitWrite (s.prepareHeader len fin sent op ext) a).mem.inside
      s.sizes := memWrite_inside _ _ _ _ _ h1 (.inr (by omega))
  simp only
  split
  · exact memWrite_inside _ _ _ _ _ h2 (.inr (by simpa using ho))
  · exact h2

theorem emitFault_none {s : State} {e a} (he : s.emitFault e a = none) :
    (emitBytes e).length ≤ a.off ∧ a.off ≤ s.sizes.of a.region := by
  unfold State.emitFault at he
  split at he; · cases he
  split at he; · cases he
  next hb => have : s.size a.region = s.sizes.of a.region := rfl; exact ⟨by omega, by omega⟩

theorem Mid.pongEcho {s : State} (h : Mid s) {k : Nat} (hp : s.rxs.phase = .ctrl) (hh : s.rxs.hcnt = 0 ∧ s.rxs.hneed = 0)
    (hv : s.hdr.valid = true) (ho : s.hdr.opcode = 0x9#4) (hr : s.hdr.rem = 0) : (s.pongEcho k).Inv := by
  unfold State.pongEcho
  split
  · exact h.pingHandled
  split
  · exact h.pingHandled
  · next hb =>
    simp only [Bool.or_eq_true, not_or, Bool.not_eq_true] at hb
    have hb := accessFaults_eq_false.1 hb.2
    have hm : Mid (s.memWrite .outPong Config.prefixSize (s.memRead .inPing 0 k)) := h.memWrite (by
      rcases hb with hb | hb
      · left; subst hb; rfl
      · right; simpa using hb)
    simp only
    split
    · exact hm.pingHandled
    · next hf =>
      have ⟨h1, h2⟩ := prepareFault_none hf
      have h1 := outside_eq_false.1 h1
      have h2 := emitFault_none h2
      simp only [memWrite_sizes, pongAddr] at h1 h2
      exact
        { hdr := by simpa using h.hdr
          fault := by simp [FaultInv, hp, h.nofault]
          data := by simp [hp]
          dropped := by simp [hp]
          job := by
            simp only [JobInv, prepareApply_rxs, memWrite_rxs, h.busy, hp, hh, prepareApply_hdr, memWrite_hdr, hv, ho, hr, pongJob, SendInv,
              prepareApply_sizes, memWrite_sizes, State.prepareHl]
            simp only [true_and, and_true]
            have h2 := h2.1
            generalize (emitBytes _).length = l at *
            omega
          pending := by simpa using h.pending
          sizes := by simpa using h.sizes
          memWf := prepareApply_wf hm.memWf
          inside := by simpa using prepareApply_inside hm.inside hf }

theorem Mid.controlHandled {s : State} (h : Mid s) {D k} (hp : s.rxs.phase = .ctrl)
    (hh : s.rxs.hcnt = 0 ∧ s.rxs.hneed = 0) (hv : s.hdr.valid = true) (hk : s.hdr.opcode = 0x9#4 → k = s.hdr.rem.toNat) :
    (s.controlHandled D k).Inv := by
  unfold State.controlHandled
  split
  · next hf => exact h.rxFault _ (rxmaskFault_ne hf)
  · next hf =>
    have hb := rxmaskFault_none hf
    have hm := h.rxmaskApply (A := D) (o := 0) (n := k) hb.2.2
    simp only
    split
    · exact hm.closeReceived (by simpa using hh) _
    · split
      · next ho =>
        simp only [rxmaskApply_hdr] at ho
        refine hm.pongEcho (by simpa using hp) (by simpa using hh) (by simpa using hv) (by simpa using ho) ?_
        have := hk ho; subst this; simp
      · exact hm.pongHandled _

theorem controlSlice_some {op : BitVec 4} {D} (h : controlSlice op = some D) :
    opClass op = .control := by
  unfold controlSlice at h
  split at h
  · next ho => subst ho; rfl
  · split at h
    · next ho => subst ho; rfl
    · split at h
      · next ho => subst ho; rfl
      · cases h

theorem controlCount_ping {op : BitVec 4} (h : op = 0x9#4) {len : Nat} (hl : len ≤ 125) : controlCount op len = len := by
  subst h; simp [controlCount, Config.ctrlMax, hl]

theorem Mid.enterControl {s : State} (h : Mid s) (hh : s.rxs.hcnt = 0 ∧ s.rxs.hneed = 0) (hv : s.hdr.valid = true)
    (hr : s.hdr.rem = s.hdr.len) : s.enterControl.Inv := by
  have hm : Mid { s with rxs := { s.rxs with phase := .ctrl } } :=
    h.of_eq rfl h.hdr ⟨rfl, rfl, h.busy⟩ rfl rfl h.memWf h.inside
  unfold State.enterControl
  simp only
  split
  · exact hm.rxFault _ (by decide)
  · next D hD =>
    have hc := controlSlice_some hD
    have h125 := ((h.hdr hv).2.2.1 hc).2
    split
    · next h0 =>
      refine hm.controlHandled rfl hh hv fun ho => ?_
      rw [controlCount_ping ho h125] at h0
      show 0 = s.hdr.rem.toNat
      rw [hr, h0]
    · next h0 =>
      exact
        { hdr := h.hdr
          fault := by simp [FaultInv, h.nofault]
          data := by simp
          dropped := by simp
          job := by
            simp only [JobInv, h.busy, hh, hv, hc, hr, true_and]
            exact Nat.pos_of_ne_zero h0
          pending := h.pending, sizes := h.sizes, memWf := h.memWf, inside := h.inside }

theorem Mid.dispatchFrame {s : State} (h : Mid s) (op f) : (s.dispatchFrame op f).Inv := by
  unfold State.dispatchFrame
  split
  · exact h.rxFault _ (by decide)
  · split
    · next hf => exact h.rxFault _ (headerFault_ne hf)
    · next hf =>
      have hm : Mid (s.headerAccepted op f) :=
        h.of_eq rfl (HdrInv.loadHeader hf) ⟨rfl, rfl, h.busy⟩ rfl rfl h.memWf h.inside
      split
      · exact
          { hdr := hm.hdr
            fault := by simp [FaultInv, State.dataHeader, hm.nofault]
            data := fun _ => rfl
            dropped := by simp [State.dataHeader]
            job := by simp [JobInv, State.dataHeader]; exact ⟨rfl, rfl⟩
            pending := hm.pending, sizes := hm.sizes, memWf := hm.memWf, inside := hm.inside }
      · exact hm.enterControl ⟨rfl, rfl⟩ rfl rfl
      · exact h.rxFault _ (by decide)

/-- Every frame header ends in the dispatch step. -/
theorem exec_frameInstr (op : BitVec 4) (f : FrameHdr) (s : State) :
    exec (frameInstr op f) s = .next (s.dispatchFrame op f) := by
  have : ∀ n : Fin 16, exec (frameInstr (BitVec.ofFin n) f) s = .next (s.dispatchFrame (BitVec.ofFin n) f) := by
    intro n; fin_cases n <;> rfl
  exact this op.toFin

theorem decode_header {bs : List Byte} {i : Instr} (h : decode (.header bs) = .ok i) : ∃ op f, i = frameInstr op f := by
  unfold decode at h
  simp only at h
  split at h
  · cases h
  · next op f _ => cases h; exact ⟨op, f, rfl⟩
  · cases h

theorem rxTake_bytes {n : Nat} {q q' : List RxAnswer} {bs : List Byte} (h : rxTake n q = some (.bytes bs, q')) :
    bs.length ≤ n := by
  fun_induction rxTake n q with
  | case1 => cases h
  | case2 _ ih => exact ih h
  | case3 => cases h; assumption
  | case4 => cases h; simp
  | case5 => cases h
  | case6 => cases h
  | case7 => cases h

theorem Mid.fetchHeader {s t : State} (h : Mid s) (ht : s.fetchHeader = .next t) : t.Inv := by
  unfold State.fetchHeader at ht
  split at ht
  · cases ht; exact h.rxFault _ (by decide)
  · next i hi =>
    obtain ⟨op, f, rfl⟩ := decode_header hi
    rw [exec_frameInstr] at ht
    cases ht; exact h.dispatchFrame _ _

theorem Mid.awaitLeaves {s : State} (h : Mid s) (hc : s.rxs.hcnt = 0) {p} (hp : p = .eof ∨ p = .idle) :
    (s.awaitLeaves p).Inv where
  hdr := h.hdr
  fault := by rcases hp with rfl | rfl <;> simp [FaultInv, State.awaitLeaves, h.nofault]
  data := by rcases hp with rfl | rfl <;> simp [State.awaitLeaves]
  dropped := by rcases hp with rfl | rfl <;> simp [State.awaitLeaves]
  job := by rcases hp with rfl | rfl <;> simp [JobInv, State.awaitLeaves, hc]
  pending := h.pending
  sizes := h.sizes
  memWf := h.memWf
  inside := h.inside

theorem Mid.awaitNoBytes {s : State} (h : Mid s) (hi : s.Inv) (r) : (s.awaitNoBytes r).Inv := by
  unfold State.awaitNoBytes
  split
  · exact hi
  · split
    · next hb =>
      simp only [State.atBoundary, decide_eq_true_eq] at hb
      exact (h.awaitLeaves hb.2 (.inl rfl)).complete _ _ _
    · exact h.rxFault _ (by decide)
  · exact h.rxFault _ (by decide)
  · split
    · next hb =>
      simp only [State.atBoundary, decide_eq_true_eq] at hb
      exact (h.awaitLeaves hb.2 (.inr rfl)).complete _ _ _
    · exact h.rxFault _ (by decide)

theorem State.Inv.withRxIn {s : State} (h : s.Inv) (q) : State.Inv { s with rxIn := q } :=
  h.of_eq rfl rfl rfl rfl rfl rfl fun _ hm => .inl hm

theorem headerLength_bounds (b : Byte) : 2 ≤ headerLength b ∧ headerLength b ≤ 14 := by
  unfold headerLength; split <;> [skip; split] <;> split <;> omega

/-- The header bytes bs are stored and the header is not complete yet. -/
theorem Mid.headerStored {s : State} (h : Mid s) {bs : List Byte} (hj : s.rxJob = .header) (hv : s.hdr.valid = false)
    (hJ : (s.rxs.phase = .hdr2 ∧ s.rxs.hcnt.toNat < 2 ∧ s.rxs.hneed = 2) ∨
      (s.rxs.phase = .hdrrest ∧ 2 ≤ s.rxs.hcnt.toNat ∧ s.rxs.hcnt.toNat < s.rxs.hneed.toNat ∧
        s.rxs.hneed.toNat = headerLength (s.readByte .scratch 1)))
    (hn : s.rxs.hcnt.toNat + bs.length ≤ s.rxs.hneed.toNat) (h14 : s.rxs.hneed.toNat ≤ 14) :
    Mid (s.headerStored bs) ∧
    (¬ ((s.headerStored bs).rxs.phase = .hdrrest ∧ (s.headerStored bs).rxs.hcnt = (s.headerStored bs).rxs.hneed) →
      (s.headerStored bs).Inv) := by
  have hm := h.memWrite (A := .scratch) (o := s.rxs.hcnt.toNat) (bs := bs)
    (.inr (by show _ ≤ Config.hdrScratch; simp [Config.hdrScratch]; omega))
  have hb1 : (s.memWrite .scratch s.rxs.hcnt.toNat bs).readByte .scratch 1 =
      if s.rxs.hcnt.toNat ≤ 1 ∧ 1 < s.rxs.hcnt.toNat + bs.length then bs.getD (1 - s.rxs.hcnt.toNat) 0
      else s.readByte .scratch 1 := by rw [readByte_memWrite]; simp
  unfold State.headerStored
  simp only [memWrite_rxs]
  have hj' : (s.memWrite .scratch s.rxs.hcnt.toNat bs).rxJob = .header := by simpa
  have hv' : (s.memWrite .scratch s.rxs.hcnt.toNat bs).hdr.valid = false := by simpa
  have hf' : (s.memWrite .scratch s.rxs.hcnt.toNat bs).rxs = s.rxs := by simp
  generalize s.memWrite .scratch s.rxs.hcnt.toNat bs = u at *
  have hfl := hm.nofault
  have hbu := hm.busy
  rw [hf'] at hfl hbu
  split
  · next h2 =>
    refine ⟨hm.of_eq rfl hm.hdr ⟨by simp [hf'], by simp [hf'], hbu⟩ rfl rfl hm.memWf hm.inside, fun hne => ?_⟩
    have hb := headerLength_bounds (u.readByte .scratch 1)
    have he : (BitVec.ofNat 4 (headerLength (u.readByte .scratch 1))).toNat = headerLength (u.readByte .scratch 1) := by
      rw [BitVec.toNat_ofNat]; omega
    refine
      { hdr := hm.hdr, fault := by simp [FaultInv, hfl], data := by simp, dropped := by simp, job := ?_
        pending := hm.pending, sizes := hm.sizes, memWf := hm.memWf, inside := hm.inside }
    simp only [JobInv, hj', hv', hbu, true_and]
    right
    refine ⟨by decide, ?_, he⟩
    have : (2#4).toNat ≠ (BitVec.ofNat 4 (headerLength (u.readByte .scratch 1))).toNat :=
      fun e => hne ⟨rfl, BitVec.eq_of_toNat_eq e⟩
    rw [he] at this ⊢
    have h22 : (2#4).toNat = 2 := rfl
    show 2 < _
    omega
  · next h2 =>
    refine ⟨hm.of_eq rfl hm.hdr ⟨by simp [hf'], by simp [hf'], hbu⟩ rfl rfl hm.memWf hm.inside, fun hne => ?_⟩
    have hc : (BitVec.ofNat 4 (s.rxs.hcnt.toNat + bs.length)).toNat = s.rxs.hcnt.toNat + bs.length := by
      rw [BitVec.toNat_ofNat]; omega
    have hp : s.rxs.phase ≠ .faulted ∧ s.rxs.phase ≠ .data := by rcases hJ with hJ | hJ <;> simp [hJ.1]
    refine
      { hdr := hm.hdr, fault := by simp [FaultInv, hfl, hp], data := by simp [hp], dropped := by simp [hp], job := ?_
        pending := hm.pending, sizes := hm.sizes, memWf := hm.memWf, inside := hm.inside }
    simp only [JobInv, hj', hv', hbu, true_and]
    rcases hJ with hJ | hJ
    · left
      refine ⟨hJ.1, ?_, hJ.2.2⟩
      rw [hc]
      have h3 : s.rxs.hneed.toNat = 2 := by rw [hJ.2.2]; rfl
      have : s.rxs.hcnt.toNat + bs.length ≠ 2 := fun e => h2 ⟨hJ.1, e⟩
      omega
    · right
      refine ⟨hJ.1, ?_, ?_, ?_⟩
      · rw [hc]; omega
      · rw [hc]
        have : s.rxs.hcnt.toNat + bs.length ≠ s.rxs.hneed.toNat := fun e =>
          hne ⟨hJ.1, BitVec.eq_of_toNat_eq (by simpa [hc] using e)⟩
        omega
      · rw [hJ.2.2.2, if_neg (by omega)] at *
        rw [hJ.2.2.2]
        exact congrArg headerLength hb1.symm

theorem State.Inv.headerStep {s t : State} (h : s.Inv) (hj : s.rxJob = .header) (ht : s.headerStep = .next t) : t.Inv := by
  have hJ := h.job
  unfold JobInv at hJ
  simp only [hj] at hJ
  have hp : s.rxs.phase ≠ .faulted := by rcases hJ.2.2 with hJ | hJ <;> simp [hJ.1]
  unfold State.headerStep at ht
  split at ht
  · cases ht; exact h
  · next bs q hq =>
    have hl := rxTake_bytes hq
    have hn : s.rxs.hcnt.toNat + bs.length ≤ s.rxs.hneed.toNat := by
      rcases hJ.2.2 with hJ | hJ
      · have := hJ.2.2; rw [this] at hl ⊢; have := hJ.2.1; simp at hl ⊢; omega
      · omega
    have h14 : s.rxs.hneed.toNat ≤ 14 := by
      rcases hJ.2.2 with hJ | hJ
      · rw [hJ.2.2]; decide
      · rw [hJ.2.2.2]; exact (headerLength_bounds _).2
    have hm1 : Mid { s with rxIn := q } := (h.withRxIn q).mid hJ.1 hp
    simp only at ht
    split at ht
    · cases ht; exact hm1.rxFault _ (by decide)
    · have := hm1.headerStored (bs := bs) hj hJ.2.1 hJ.2.2 hn h14
      split at ht
      · exact this.1.fetchHeader ht
      · next hne => cases ht; exact this.2 hne
  · next r q _ _ =>
    cases ht
    have hi := h.withRxIn q
    exact Mid.awaitNoBytes (hi.mid hJ.1 hp) hi r

theorem State.Inv.controlStep {s : State} (h : s.Inv) {got} (hj : s.rxJob = .ctrl got) : (s.controlStep got).Inv := by
  have hJ := h.job
  unfold JobInv at hJ
  simp only [hj] at hJ
  obtain ⟨h1, h2, h3, h4, h5, h6, h7, h8⟩ := hJ
  have hm : Mid s := h.mid h1 (by simp [h2])
  unfold State.controlStep
  split
  · exact hm.rxFault _ (by decide)
  · next D hD =>
    simp only
    split
    · exact h
    · next bs q hq =>
      have hl := rxTake_bytes hq
      have hm1 : Mid { s with rxIn := q } := (h.withRxIn q).mid h1 (by simp [h2])
      split
      · exact hm1.rxFault _ (by decide)
      · next hb =>
        have hb := (accessFaults_eq_false (s := { s with rxIn := q })).1 (by simpa using hb)
        have hm2 := hm1.memWrite (A := D) (o := got) (bs := bs) (by
          rcases hb with hb | hb
          · exact .inl (List.eq_nil_of_length_eq_zero hb)
          · exact .inr hb)
        have h125 := ((h.hdr h5).2.2.1 h6).2
        split
        · refine hm2.controlHandled (by simpa using h2) (by simpa using ⟨h3, h4⟩) (by simpa using h5) fun ho => ?_
          simp only [memWrite_hdr] at ho ⊢
          rw [controlCount_ping ho h125, h7]
        · next hg =>
          exact
            { hdr := by simpa using h.hdr
              fault := by simpa using h.fault
              data := by simp [h2]
              dropped := by simp [h2]
              job := by
                simp only [JobInv, memWrite_rxs, memWrite_hdr]
                exact ⟨h1, h2, h3, h4, h5, h6, h7, by omega⟩
              pending := hm2.pending, sizes := hm2.sizes, memWf := hm2.memWf, inside := hm2.inside }
    · next r q _ _ =>
      have hi := h.withRxIn q
      exact Mid.awaitNoBytes (hi.mid h1 (by simp [h2])) hi r

theorem State.Inv.pongStep {s : State} (h : s.Inv) {j} (hj : s.rxJob = .pong j) : (s.pongStep j).Inv := by
  have hJ := h.job
  unfold JobInv at hJ
  simp only [hj] at hJ
  unfold State.pongStep
  split
  · exact h
  · next j' s' hs =>
    obtain ⟨k1, k2, k3, k4, k5, k6, k7, k8, k9, k10, k11, k12⟩ := sendStep_more hs
    exact
      { hdr := by simpa [k1, k2] using h.hdr
        fault := by simpa [k3] using h.fault
        data := by simpa [k2, k3] using h.data
        dropped := by simpa [k2, k3] using h.dropped
        job := by
          simp only [JobInv, k3, k2, k5, k8, k9, k11, k12, SendInv, k10]
          exact hJ
        pending := by simpa [k5, k7] using h.pending
        sizes := by simpa [k5] using h.sizes
        memWf := by simpa [k6] using h.memWf
        inside := by simpa [k5, k6] using h.inside }
  · next r s' hs =>
    obtain ⟨k1, k2, k3, k4, k5, k6, k7⟩ := sendStep_done hs
    have hi : s'.Inv := h.of_eq k1 k2 k3 k4 k5 k6 (by rw [k7]; exact fun _ hm => .inl hm)
    exact (hi.mid (by rw [k3]; exact hJ.1) (by rw [k3, hJ.2.1]; decide)).pingHandled

theorem State.Inv.recvStep {s : State} (h : s.Inv) {a len} (hj : s.rxJob = .recv a len) : (s.recvStep a len).Inv := by
  have hJ := h.job
  unfold JobInv at hJ
  simp only [hj] at hJ
  obtain ⟨h1, h2, h3, h4, h5, h6, h7, h8⟩ := hJ
  unfold State.recvStep
  split
  · exact h
  · next bs q hq =>
    have hl := rxTake_bytes hq
    have hm1 : Mid { s with rxIn := q } := (h.withRxIn q).mid h1 (by simp [h2])
    unfold State.recvBytes
    split
    · next hf => exact hm1.rxFault _ (rxmaskFault_ne hf)
    · next hf =>
      have hb : a.off + bs.length ≤ s.sizes.of a.region := by omega
      have hm2 := (hm1.memWrite (A := a.region) (o := a.off) (bs := bs) (.inr hb)).rxmaskApply (A := a.region) (o := a.off) (n := bs.length) (by simpa using hb)
      refine State.Inv.complete ?_ _ _ _
      exact
        { hdr := hm2.hdr
          fault := by have := h.fault; unfold FaultInv at this ⊢; simpa using this
          data := by simp [h5]
          dropped := by simp [h2]
          job := by simp [JobInv, h3, h4, h2]
          pending := hm2.pending, sizes := hm2.sizes, memWf := hm2.memWf, inside := hm2.inside }
  · next r q _ _ =>
    have hi := h.withRxIn q
    have hm1 : Mid { s with rxIn := q } := hi.mid h1 (by simp [h2])
    unfold State.recvNoBytes
    split
    · exact hi
    all_goals exact hm1.rxFault _ (by decide)

theorem State.Inv.rxStep {s t : State} (h : s.Inv) (ht : s.rxStep = .next t) : t.Inv := by
  unfold State.rxStep at ht
  split at ht
  · cases ht; exact h
  · next hj => exact h.headerStep hj ht
  · next hj => cases ht; exact h.controlStep hj
  · next hj => cases ht; exact h.pongStep hj
  · next hj => cases ht; exact h.recvStep hj

theorem State.Inv.hostResult {s : State} (h : s.Inv) (r) : (s.hostResult r).Inv :=
  h.of_eq rfl rfl rfl rfl rfl rfl fun _ hm => .inl hm

/-- Where the host's access is allowed. -/
theorem hostWriteFault_none {s : State} {a : Addr} {n : Nat} (h : s.hostWriteFault a n = none) :
    n = 0 ∨ s.writeRace .host a.region = false ∧ a.off + n ≤ s.sizes.of a.region := by
  unfold State.hostWriteFault at h
  split at h; · cases h
  split at h; · cases h
  next h1 h2 =>
  rcases accessFaults_eq_false.1 (by simpa using h2) with h3 | h3
  · exact .inl h3
  · by_cases h0 : n = 0
    · exact .inl h0
    · exact .inr ⟨by simpa [h0] using h1, h3⟩

theorem State.Inv.hostWrites {s : State} (h : s.Inv) (a bs) : (s.hostWrites a bs).Inv := by
  unfold State.hostWrites
  split
  · exact h.hostResult _
  · next hf =>
    refine State.Inv.hostResult ?_ _
    rcases hostWriteFault_none hf with h0 | ⟨hr, hb⟩
    · rw [List.eq_nil_of_length_eq_zero h0]
      exact h.of_eq rfl rfl rfl rfl rfl rfl fun _ hm => .inl hm
    · exact h.memWrite (rxOwns_of_writeRace hr) (.inr hb)

theorem sizes_of_ne {z z' : Sizes} {B : Region} (h : ∀ A, A ≠ B → z'.of A = z.of A) {j : SendJob}
    (hj : SendInv z j) (hr : j.n ≠ 0 → j.addr.region ≠ B) : SendInv z' j := by
  unfold SendInv at *
  by_cases h0 : j.n = 0
  · exact .inl h0
  · rw [h _ (hr h0)]; exact hj

/-- A handed-over buffer, for a region no command in progress uses. -/
theorem State.Inv.newBuffer {s : State} (h : s.Inv) {B : Region} {z : Sizes} {bs : List Byte}
    (hB : B = .dst ∨ B = .hbuf) (hr : s.writeRace .host B = false) (hz : ∀ A, A ≠ B → z.of A = s.sizes.of A)
    (hn : z.of B = bs.length) (h125 : 125 ≤ z.nCtrlIn ∧ 125 ≤ z.nCtrlOut) :
    State.Inv { s with sizes := z, mem := s.mem.set B (cellsFrom 0 bs) } where
  hdr := h.hdr
  fault := h.fault
  data := h.data
  dropped := h.dropped
  job := by
    have hJ := h.job
    have hro := rxOwns_of_writeRace hr
    have hbyte : State.readByte { s with sizes := z, mem := s.mem.set B (cellsFrom 0 bs) } .scratch 1 =
        s.readByte .scratch 1 := by
      rcases hB with rfl | rfl <;> rfl
    unfold JobInv at hJ ⊢
    simp only [hbyte]
    cases hj : s.rxJob <;> simp only [hj] at hJ ⊢
    · exact hJ
    · exact hJ
    · exact hJ
    · have : (SendInv z _) := sizes_of_ne hz hJ.2.2.2.2.2.2.2.2.2.1 (by
        intro _; rw [hJ.2.2.2.2.2.2.2.2.1]; rcases hB with rfl | rfl <;> decide)
      tauto
    · rw [State.rxOwns, hj] at hro
      simp only [Bool.or_eq_false_iff, decide_eq_false_iff_not] at hro
      rw [hz _ (Ne.symm hro.2)]
      exact hJ
  pending := fun j hm => sizes_of_ne hz (h.pending j hm) (by
    intro h0 e
    have hs := (writeRace_eq_false.1 hr).2.2.1
    simp only [State.sendOwns, List.any_eq_false] at hs
    simpa [Pending.sendsFrom, e, h0] using hs _ hm)
  sizes := h125
  memWf := hostGives_wf _ _ _ h.memWf
  inside := by
    intro A c hc
    simp only [Memory.get_set] at hc
    split at hc
    · next e => subst e; have := cellsFrom_mem hc; show _ < z.of A; omega
    · next e => show _ < z.of A; rw [hz A e]; exact h.inside A c hc

theorem withBuffer_of_ne (z : Sizes) (b n) {A : Region} (h : A ≠ b.region) : (z.withBuffer b n).of A = z.of A := by
  cases b <;> cases A <;> first | rfl | exact absurd rfl h

theorem State.Inv.hostGives {s : State} (h : s.Inv) (b bs) : (s.hostGives b bs).Inv := by
  unfold State.hostGives
  split
  · exact h.hostResult _
  · next hr =>
    refine State.Inv.hostResult (h.newBuffer (B := b.region) ?_ (by simpa using hr)
      (fun A hA => withBuffer_of_ne _ _ _ hA) ?_ ?_) _
    · cases b <;> simp [HostBuf.region]
    · cases b <;> rfl
    · cases b <;> exact h.sizes

/-- PINGFRAME's copy, and the turn it leaves. -/
theorem State.Inv.pingFrame {s : State} (h : s.Inv) (p t) : (s.pingFrame p t).Inv := by
  unfold State.pingFrame
  simp only
  split
  · exact h.hostResult _
  · split
    · exact h.hostResult _
    · exact (h.hostWrites _ _).of_eq rfl rfl rfl rfl rfl rfl fun _ hm => .inl hm

/-- A command record never decodes to a frame header. -/
theorem decode_command {c : CmdRecord} {i : Instr} (h : decode (.command c) = .ok i) (op : BitVec 4) (f : FrameHdr) :
    i ≠ frameInstr op f := by
  rintro rfl
  unfold decode at h
  simp only at h
  split at h
  · cases h
  · next hr =>
    cases h
    obtain ⟨-, args, -, he⟩ := readCommand_ok hr
    rw [encode_frameInstr] at he; cases he
  · cases h

end Sys2Proof.Machine
end

