-- ==== Sys2Proof/Laws/Wire.lean ====
section
/-! SUPPORT. The bytes the codec writes are the bytes of Safety.lean's wire format, written out (spec/40_header_codec.md R95;
spec/20_memory.md R50). -/
namespace Sys2Proof.Machine

open Sys2Proof

theorem headerByte0_eq (fin : Bool) (rsv : BitVec 3) (op : BitVec 4) :
    headerByte0 fin rsv op = BitVec.ofNat 8 (fin.toNat * 128 + rsv.toNat * 16 + op.toNat) := by
  revert fin rsv op; decide

theorem headerByte1_eq (m : Bool) (l : BitVec 7) : headerByte1 m l = BitVec.ofNat 8 (m.toNat * 128 + l.toNat) := by
  revert m l; decide

theorem shortestLen_len7 (len : Nat) : (shortestLen len).len7.toNat = wireLen7 len := by
  unfold shortestLen wireLen7
  split
  · simp only [LenField.len7, BitVec.toNat_ofNat]; omega
  · split <;> rfl

theorem shortestLen_ext (len : Nat) : (shortestLen len).extBytes = wireExt len := by
  unfold shortestLen wireExt
  split
  · rfl
  · split
    · simp only [LenField.extBytes, beBytes, BitVec.toNat_ofNat]
      rw [Nat.mod_eq_of_lt (by omega)]
      simp
    · simp only [LenField.extBytes, beBytes, BitVec.toNat_ofNat]
      simp only [List.cons.injEq, and_true]
      refine ⟨?_, ?_, ?_, ?_, ?_, ?_, ?_, ?_⟩ <;> apply BitVec.eq_of_toNat_eq <;> simp <;> omega

/-- R95: EMIT's bytes, written out. -/
theorem emitBytes_eq (h : HeaderOp) : emitBytes h = wireHeader h.fin h.rsv h.opcode h.len h.key := by
  unfold emitBytes encodeHeader wireHeader
  rw [headerByte0_eq, headerByte1_eq, shortestLen_len7, shortestLen_ext]
  cases h.key <;> rfl

theorem shortestLen_wellFormed (len : Nat) : (shortestLen len).wellFormed = true := by
  unfold shortestLen
  split
  · simp only [LenField.wellFormed, BitVec.toNat_ofNat, decide_eq_true_eq]; omega
  · split <;> rfl

theorem shortestLen_value {len : Nat} (h : len < 0x10000000000000000) : (shortestLen len).value = len := by
  unfold shortestLen
  split
  · simp only [LenField.value, BitVec.toNat_ofNat]; omega
  · split
    · simp only [LenField.value, BitVec.toNat_ofNat]; omega
    · simp only [LenField.value, BitVec.toNat_ofNat]; omega

theorem wireHeader_length (fin : Bool) (rsv : BitVec 3) (op : BitVec 4) (len : Nat) (key : Option Key) :
    (wireHeader fin rsv op len key).length
      = 2 + (if len ≤ 125 then 0 else if len ≤ 65535 then 2 else 8) + (if key.isSome then 4 else 0) := by
  unfold wireHeader wireExt
  cases key <;> (split <;> [rfl; (split <;> rfl)])

theorem wireHeader_length_le (fin : Bool) (rsv : BitVec 3) (op : BitVec 4) (len : Nat) (key : Option Key) :
    2 ≤ (wireHeader fin rsv op len key).length ∧ (wireHeader fin rsv op len key).length ≤ 14 := by
  rw [wireHeader_length]
  split <;> split <;> (try split) <;> omega

@[simp] theorem maskedBytes_length (k : Key) (p : List Byte) : (maskedBytes k p).length = p.length := by
  simp [maskedBytes]

/-- R96: the key stream from position 0. -/
theorem xorStream_eq_maskedBytes (k : Key) (p : List Byte) : xorStream k 0 p = maskedBytes k p := by
  apply List.ext_getElem
  · simp
  · intro i h1 h2
    rw [xorStream_getElem]
    simp [maskedBytes]

@[simp] theorem unmasked_length (h : Hdr) (p : List Byte) : (unmasked h p).length = p.length := by
  unfold unmasked; split <;> simp

end Sys2Proof.Machine
end

