-- ==== Sys2Proof/Laws/Codec.lean ====
section
/-! SUPPORT. The header codec: what PARSE and EMIT answer (spec/40_header_codec.md), and header bytes in memory. -/
namespace Sys2Proof.Machine

open Sys2Proof

theorem ite_intro {p : Prop} [Decidable p] {a b : Prop} (h1 : p → a) (h2 : ¬p → b) : if p then a else b := by
  by_cases h : p
  · rw [if_pos h]; exact h1 h
  · rw [if_neg h]; exact h2 h

theorem readByte_complete (s : State) (a c r B x) : (s.complete a c r).readByte B x = s.readByte B x := rfl

/-! ### Opcode classes -/

theorem opClass_reserved (op : BitVec 4) : opClass op = .reserved ↔ op.toNat ∉ [0x0, 0x1, 0x2, 0x8, 0x9, 0xA] := by
  revert op; decide

theorem opClass_control (op : BitVec 4) : opClass op = .control ↔ op.toNat ∈ [0x8, 0x9, 0xA] := by
  revert op; decide

theorem opClass_control' (op : BitVec 4) : opClass op = .control ↔ isControl op := by
  unfold isControl; revert op; decide

/-! ### Bytes in memory -/

theorem bytesAre_read {s : State} {A o bs} (h : bytesAre s A o bs) : s.memRead A o bs.length = bs := by
  apply List.ext_getElem
  · simp
  · intro i h1 h2; rw [memRead_getElem]; exact h i h2

theorem bytesAre_of_memRead {t : State} {A : Region} {o n : Nat} {bs : List Byte} (h : t.memRead A o n = bs) : bytesAre t A o bs := by
  subst h
  intro i hi
  rw [memRead_getElem]

theorem bytesAre_append {t : State} {A : Region} {o : Nat} {xs ys : List Byte} :
    bytesAre t A o (xs ++ ys) ↔ bytesAre t A o xs ∧ bytesAre t A (o + xs.length) ys := by
  constructor
  · intro h
    refine ⟨fun i hi => ?_, fun i hi => ?_⟩
    · rw [h i (by simp; omega), List.getElem_append_left hi]
    · rw [Nat.add_assoc, h (xs.length + i) (by simp; omega), List.getElem_append_right (by omega)]
      simp
  · rintro ⟨h1, h2⟩ i hi
    by_cases hx : i < xs.length
    · rw [List.getElem_append_left hx, h1 i hx]
    · rw [List.getElem_append_right (by omega), ← h2 (i - xs.length) (by simp at hi; omega)]
      congr 1; omega

/-! ### PARSE -/

theorem headerFault_none_of {c : Cfg} {op : BitVec 4} {f : FrameHdr} (h : frameAccepted c op f)
    (ho : opClass op ≠ .reserved) : headerFault c op f = none := by
  obtain ⟨h1, h2, h3⟩ := h
  unfold headerFault
  rw [if_neg (by simpa using h1), if_neg ho, if_neg, if_neg, if_neg]
  · omega
  · rintro ⟨hc, hf⟩; have := (h2 ((opClass_control' _).1 hc)).2; simp [this] at hf
  · rintro ⟨hc, hf⟩; have := (h2 ((opClass_control' _).1 hc)).1; omega

theorem loadHeader_holds {op f} (h : f.len.value < 2 ^ 63) : hdrHolds (loadHeader op f) op f := by
  refine ⟨rfl, rfl, rfl, rfl, rfl, ?_, ?_, ?_⟩
  · simp [loadHeader]; omega
  · simp [loadHeader]; omega
  · intro k hk; simp [loadHeader, hk]

theorem headerPending_false {s : State} : s.headerPending = false ↔ nothingOwed s := by
  unfold State.headerPending nothingOwed
  cases s.hdr.valid <;> simp

/-- The payload length the bytes of a header spell (R73). -/
def bytesLen (b : Nat → Byte) : Nat :=
  if (b 1).toNat % 128 = 126 then (b 2).toNat * 256 + (b 3).toNat
  else if (b 1).toNat % 128 = 127 then
    (b 2).toNat * 256 ^ 7 + (b 3).toNat * 256 ^ 6 + (b 4).toNat * 256 ^ 5 + (b 5).toNat * 256 ^ 4
    + (b 6).toNat * 256 ^ 3 + (b 7).toNat * 256 ^ 2 + (b 8).toNat * 256 + (b 9).toNat
  else (b 1).toNat % 128

theorem extract7_toNat (b : Byte) : (b.extractLsb' 0 7).toNat = b.toNat % 128 := by simp

theorem readHeader_full (bs : List Byte) (h : bs.length = headerLength (bs.getD 1 0)) :
    ∃ len key, readHeader bs = some ((bs.getD 0 0).extractLsb' 0 4,
        { fin := (bs.getD 0 0).getLsbD 7, rsv := (bs.getD 0 0).extractLsb' 4 3, len := len, key := key }, []) ∧
      len.len7 = (bs.getD 1 0).extractLsb' 0 7 ∧ len.value = bytesLen (fun i => bs.getD i 0) ∧
      key = if (bs.getD 1 0).getLsbD 7 then some ⟨bs.getD (bs.length - 4) 0, bs.getD (bs.length - 3) 0,
        bs.getD (bs.length - 2) 0, bs.getD (bs.length - 1) 0⟩ else none := by
  rcases bs with _ | ⟨b0, _ | ⟨b1, rest⟩⟩
  · simp [headerLength] at h
  · simp [headerLength] at h
  simp only [List.getD_cons_succ, List.getD_cons_zero] at h ⊢
  have e7 := extract7_toNat b1
  unfold bytesLen
  simp only [List.getD_cons_succ, List.getD_cons_zero]
  rw [← e7]
  unfold headerLength at h
  by_cases c1 : b1.extractLsb' 0 7 = 126#7
  · simp only [c1, if_true] at h ⊢
    cases hm : b1.getLsbD 7 <;> simp only [hm, if_true, Bool.false_eq_true, if_false] at h ⊢
    · rcases rest with _ | ⟨b2, _ | ⟨b3, _ | ⟨b4, rest⟩⟩⟩ <;> simp only [List.length_cons, List.length_nil] at h <;> try omega
      refine ⟨.ext16 (BitVec.ofNat 16 (beNat [b2, b3])), _, by simp only [readHeader, readLen, readKey, c1, hm]; rfl, rfl, ?_, by rfl⟩
      simp [LenField.value, beNat]; omega
    · rcases rest with _ | ⟨b2, _ | ⟨b3, _ | ⟨b4, _ | ⟨b5, _ | ⟨b6, _ | ⟨b7, _ | ⟨b8, rest⟩⟩⟩⟩⟩⟩⟩ <;> simp only [List.length_cons, List.length_nil] at h <;> try omega
      refine ⟨.ext16 (BitVec.ofNat 16 (beNat [b2, b3])), _, by simp only [readHeader, readLen, readKey, c1, hm]; rfl, rfl, ?_, by rfl⟩
      simp [LenField.value, beNat]; omega
  · by_cases c2 : b1.extractLsb' 0 7 = 127#7
    · simp only [c2] at h ⊢
      cases hm : b1.getLsbD 7 <;> simp only [hm, if_true, Bool.false_eq_true, if_false] at h ⊢
      · rcases rest with _ | ⟨b2, _ | ⟨b3, _ | ⟨b4, _ | ⟨b5, _ | ⟨b6, _ | ⟨b7, _ | ⟨b8, _ | ⟨b9, _ | ⟨b10, rest⟩⟩⟩⟩⟩⟩⟩⟩⟩ <;> simp [List.length_cons, List.length_nil] at h <;> try omega
        refine ⟨.ext64 (BitVec.ofNat 64 (beNat [b2, b3, b4, b5, b6, b7, b8, b9])), _, by simp only [readHeader, readLen, readKey, c2, hm]; rfl, rfl, ?_, by rfl⟩
        simp [LenField.value, beNat]; omega
      · rcases rest with _ | ⟨b2, _ | ⟨b3, _ | ⟨b4, _ | ⟨b5, _ | ⟨b6, _ | ⟨b7, _ | ⟨b8, _ | ⟨b9, _ | ⟨b10, _ | ⟨b11, _ | ⟨b12, _ | ⟨b13, _ | ⟨b14, rest⟩⟩⟩⟩⟩⟩⟩⟩⟩⟩⟩⟩⟩ <;> simp [List.length_cons, List.length_nil] at h <;> try omega
        refine ⟨.ext64 (BitVec.ofNat 64 (beNat [b2, b3, b4, b5, b6, b7, b8, b9])), _, by simp only [readHeader, readLen, readKey, c2, hm]; rfl, rfl, ?_, by rfl⟩
        simp [LenField.value, beNat]; omega
    · have n1 : (b1.extractLsb' 0 7).toNat ≠ 126 := fun e => c1 (BitVec.eq_of_toNat_eq e)
      have n2 : (b1.extractLsb' 0 7).toNat ≠ 127 := fun e => c2 (BitVec.eq_of_toNat_eq e)
      rw [if_neg n1, if_neg n2]
      simp only [c1, c2] at h ⊢
      cases hm : b1.getLsbD 7 <;> simp only [hm, if_true, Bool.false_eq_true, if_false] at h ⊢
      · rcases rest with _ | ⟨b2, rest⟩ <;> simp [List.length_cons, List.length_nil] at h <;> try omega
        exact ⟨.short (b1.extractLsb' 0 7), _, by simp only [readHeader, readLen, readKey, c1, c2, hm]; rfl, rfl, rfl, by rfl⟩
      · rcases rest with _ | ⟨b2, _ | ⟨b3, _ | ⟨b4, _ | ⟨b5, _ | ⟨b6, rest⟩⟩⟩⟩⟩ <;> simp [List.length_cons, List.length_nil] at h <;> try omega
        exact ⟨.short (b1.extractLsb' 0 7), _, by simp only [readHeader, readLen, readKey, c1, c2, hm]; rfl, rfl, rfl, by rfl⟩

theorem bytesLen_lt (b : Nat → Byte) : bytesLen b < 2 ^ 64 := by
  unfold bytesLen
  have := fun i => (b i).isLt
  have h1 := this 2; have h2 := this 3; have h3 := this 4; have h4 := this 5; have h5 := this 6; have h6 := this 7
  have h7 := this 8; have h8 := this 9
  split
  · omega
  · split <;> omega

theorem bytesLen_msb (b : Nat → Byte) (h : (b 1).toNat % 128 = 127) :
    0x8000000000000000 ≤ bytesLen b ↔ (b 2).getLsbD 7 = true := by
  unfold bytesLen
  have := fun i => (b i).isLt
  have h1 := this 2; have h2 := this 3; have h3 := this 4; have h4 := this 5; have h5 := this 6; have h6 := this 7
  have h7 := this 8; have h8 := this 9
  rw [if_neg (by omega), if_pos h]
  have e : (b 2).getLsbD 7 = true ↔ 128 ≤ (b 2).toNat := by
    generalize b 2 = x; revert x; decide
  rw [e]; omega

theorem bytesLen_congr {b c : Nat → Byte} (h1 : b 1 = c 1)
    (h : ∀ i, i < 2 + (if (c 1).toNat % 128 = 126 then 2 else if (c 1).toNat % 128 = 127 then 8 else 0) → b i = c i) :
    bytesLen b = bytesLen c := by
  unfold bytesLen
  rw [h1]
  split
  · next e => rw [h 2 (by simp [e]), h 3 (by simp [e])]
  · split
    · next e1 e => rw [h 2 (by simp [e]), h 3 (by simp [e]), h 4 (by simp [e]), h 5 (by simp [e]), h 6 (by simp [e]), h 7 (by simp [e]), h 8 (by simp [e]), h 9 (by simp [e])]
    · rfl

theorem headerLength_nat (b : Byte) : headerLength b = 2 + (if b.toNat % 128 = 126 then 2 else if b.toNat % 128 = 127 then 8 else 0)
    + (if b.getLsbD 7 then 4 else 0) := by
  revert b; decide

theorem results_inj {l : List Completion} {a a' : Agent} {c c' : BitVec 8} {r r' : Result} (h : l ++ [⟨a, c, r⟩] = l ++ [⟨a', c', r'⟩]) :
    a = a' ∧ c = c' ∧ r = r' := by simpa using h

theorem exec_parse_ok {a : Addr} {n : Nat} {s t : State} {hl : Nat} (ht : exec (.parse a n) s = .next t)
    (hr : t.results = s.results ++ [⟨.rx, 0x02, .ok (.nat hl)⟩]) :
    hl = headerLength (s.readByte a.region (a.off + 1)) ∧
    ∃ op f, readHeader (s.memRead a.region a.off hl) = some (op, f, []) ∧ headerFault s.cfg op f = none ∧
      t = { s with hdr := loadHeader op f, results := s.results ++ [⟨.rx, 0x02, .ok (.nat hl)⟩] } := by
  change execParse a n s = _ at ht
  unfold execParse at ht
  split at ht
  · cases ht; simp at hr
  split at ht
  · cases ht; simp at hr
  split at ht
  · cases ht; simp at hr
  split at ht
  · cases ht; simp at hr
  next s' hs =>
  cases ht
  unfold State.parseBytes at hs
  split at hs; · cases hs
  split at hs; · cases hs
  simp only at hs
  split at hs; · cases hs
  split at hs; · cases hs
  split at hs
  · cases hs
  next op f rest hrh =>
  split at hs
  · cases hs
  next hf =>
  cases hs
  have := results_inj hr
  simp at this
  subst this
  refine ⟨rfl, op, f, ?_, hf, rfl⟩
  obtain ⟨len, key, h1, -⟩ := readHeader_full (s.memRead a.region a.off (headerLength (s.readByte a.region (a.off + 1))))
    (by
      have := headerLength_bounds (s.readByte a.region (a.off + 1))
      rw [List.getD_eq_getElem _ _ (by simp; omega), memRead_getElem]; simp)
  rw [h1] at hrh ⊢
  have hh := Option.some.inj hrh
  have e3 : [] = rest := congrArg (fun x => x.2.2) hh
  rw [hh, e3]

/-! ### EMIT -/

theorem emitFault_of {s : State} {h : HeaderOp} {a : Addr} (c1 : h.opcode.toNat ∈ [0x0, 0x1, 0x2, 0x8, 0x9, 0xA])
    (c2 : h.rsv &&& ~~~s.cfg.rsvAllowed = 0#3) (c3 : ¬ (h.opcode.toNat ∈ [0x8, 0x9, 0xA] ∧ (125 < h.len ∨ h.fin = false)))
    (c4 : h.len < 2 ^ 63) (c5 : (emitBytes h).length ≤ a.off ∧ a.off ≤ s.size a.region) : s.emitFault h a = none := by
  have hr := (not_congr (opClass_reserved h.opcode)).2 (fun x => x c1)
  have e : emitInvalid s.cfg h = false := by
    simp only [emitInvalid, Bool.or_eq_false_iff, decide_eq_false_iff_not]
    refine ⟨⟨⟨hr, fun x => x c2⟩, ?_⟩, by omega⟩
    rw [← opClass_control] at c3
    by_cases hc : opClass h.opcode = .control
    · have := not_or.1 (fun x => c3 ⟨hc, x⟩); simp [hc]; exact ⟨by omega, by simpa using this.2⟩
    · simp [hc]
  simp only [State.emitFault, e, Bool.false_eq_true, if_false]
  rw [if_neg (by omega)]

theorem emitInvalid_of {c : Cfg} {h : HeaderOp} (x : h.opcode.toNat ∉ [0x0, 0x1, 0x2, 0x8, 0x9, 0xA] ∨ h.rsv &&& ~~~c.rsvAllowed ≠ 0#3 ∨
   (h.opcode.toNat ∈ [0x8, 0x9, 0xA] ∧ (125 < h.len ∨ h.fin = false)) ∨ 2 ^ 63 ≤ h.len) : emitInvalid c h = true := by
  rw [← opClass_control, ← opClass_reserved] at x
  simp only [emitInvalid, Bool.or_eq_true, decide_eq_true_eq, Bool.and_eq_true]
  rcases x with x | x | ⟨x, y⟩ | x
  · exact .inl (.inl (.inl x))
  · exact .inl (.inl (.inr x))
  · refine .inl (.inr ⟨x, ?_⟩); simpa using y
  · exact .inr (by omega)

theorem emitFault_frame {s : State} {h : HeaderOp} {a : Addr} (hf : s.emitFault h a = none) :
    emitInvalid s.cfg h = false ∧ (emitBytes h).length ≤ a.off ∧ a.off ≤ s.size a.region := by
  unfold State.emitFault at hf
  split at hf; · cases hf
  next h1 =>
  split at hf; · cases hf
  next h2 =>
  exact ⟨by simpa using h1, by omega, by omega⟩

theorem emitInvalid_frame {c : Cfg} {h : HeaderOp} (e : emitInvalid c h = false) :
    h.opcode.toNat ∈ [0x0, 0x1, 0x2, 0x8, 0x9, 0xA] ∧ h.rsv &&& ~~~c.rsvAllowed = 0#3 ∧
    (isControl h.opcode → h.len ≤ 125 ∧ h.fin = true) ∧ h.len < 2 ^ 63 := by
  have := fun x => Bool.eq_false_iff.1 e (emitInvalid_of x)
  refine ⟨?_, ?_, ?_, ?_⟩
  · exact Classical.byContradiction fun x => this (.inl x)
  · exact Classical.byContradiction fun x => this (.inr (.inl x))
  · intro hc
    have h1 : ¬ (125 < h.len ∨ h.fin = false) := fun x => this (.inr (.inr (.inl ⟨(opClass_control _).1 ((opClass_control' _).2 hc), x⟩)))
    exact ⟨by omega, by have := fun x => h1 (.inr x); simpa using this⟩
  · exact Nat.not_le.1 fun x => this (.inr (.inr (.inr x)))

theorem exec_emit_ok {h : HeaderOp} {a : Addr} {s t : State} {p hl : Nat} (ht : exec (.emit h a) s = .next t)
    (hr : t.results = s.results ++ [⟨s.issuer, 0x04, .ok (.frame p hl)⟩]) :
    s.emitFault h a = none ∧ p = a.off - (emitBytes h).length ∧ hl = (emitBytes h).length ∧
    t = { s with mem := (s.emitWrite h a).mem, results := s.results ++ [⟨s.issuer, 0x04, .ok (.frame p hl)⟩] } := by
  change execEmit h a s = _ at ht
  unfold execEmit at ht
  split at ht
  · cases ht; simp at hr
  · split at ht
    · cases ht; simp at hr
    · next hf =>
      cases ht
      have := results_inj hr
      simp at this
      obtain ⟨h1, h2⟩ := this
      refine ⟨hf, h1.symm, h2.symm, ?_⟩
      rw [← h1, ← h2]; rfl

theorem shortest_of {l : LenField} (hw : l.wellFormed = true) (h : l.len7.toNat = wireLen7 l.value) : l = shortestLen l.value := by
  cases l with
  | short v =>
    simp [LenField.wellFormed] at hw
    simp [LenField.value, shortestLen, hw]
  | ext16 v =>
    have : 126 = wireLen7 v.toNat := h
    unfold wireLen7 at this
    have h1 : ¬ v.toNat ≤ 125 := by intro x; rw [if_pos x] at this; omega
    have h2 : v.toNat ≤ 65535 := by omega
    simp [LenField.value, shortestLen, h1, h2]
  | ext64 v =>
    have : 127 = wireLen7 v.toNat := h
    unfold wireLen7 at this
    have h1 : ¬ v.toNat ≤ 125 := by intro x; rw [if_pos x] at this; omega
    have h2 : ¬ v.toNat ≤ 65535 := by intro x; rw [if_neg h1, if_pos x] at this; omega
    simp [LenField.value, shortestLen, h1, h2]

theorem key_opt (k : Option Key) (d : Key) : (if k.isSome then some (k.getD d) else none) = k := by cases k <;> rfl

theorem wireFrame_length (fin rsv op) (key : Option Key) (p : List Byte) :
    (wireFrame fin rsv op key p).length = (wireHeader fin rsv op p.length key).length + p.length := by
  unfold wireFrame; rw [List.length_append]; cases key <;> simp

theorem wireHeader_length_isSome {fin rsv op len} {k k' : Option Key} (h : k.isSome = k'.isSome) :
    (wireHeader fin rsv op len k).length = (wireHeader fin rsv op len k').length := by
  rw [wireHeader_length, wireHeader_length, h]

end Sys2Proof.Machine
end

