-- ==== Sys2Proof/Laws/Mask.lean ====
section
/-! SUPPORT. The mask engine: where MASK and RXMASK complete, and what they leave (spec/41_mask_engine.md). -/
namespace Sys2Proof.Machine

open Sys2Proof

/-- MASK on a region no command in progress owns and inside it, n = 0 as well. -/
theorem exec_mask {A : Region} {o n : Nat} {k : Key} {pos : Nat} {s : State} (hw : s.writeRace s.issuer A = false)
    (hb : o + n ≤ s.size A) :
    exec (.mask ⟨A, o⟩ n k pos) s = .next ((s.maskRegion A o n k pos).complete s.issuer 0x05 (.ok (.nat ((pos + n) % 4)))) := by
  show execMask _ _ _ _ _ = _
  unfold execMask
  by_cases h0 : n = 0
  · subst h0; rw [if_pos rfl]; rfl
  · rw [if_neg h0, hw, if_neg Bool.false_ne_true, outside_eq_false.2 hb, if_neg Bool.false_ne_true]; rfl

/-- RXMASK where it completes: a race needs bytes to write. -/
theorem exec_rxmask {A : Region} {o n : Nat} {s : State}
    (hw : s.hdr.masked = true → n ≠ 0 → s.writeRace .rx A = false) (hb : s.rxs.busy = false)
    (hv : s.hdr.valid = true) (hr : n ≤ s.hdr.rem.toNat) (hz : o + n ≤ s.size A) :
    exec (.rxmask ⟨A, o⟩ n) s = .next ((s.rxmaskApply A o n).complete .rx 0x06 (.ok (.nat (s.hdr.rem.toNat - n)))) := by
  show execRxmask _ _ _ = _
  unfold execRxmask
  rw [hb, if_neg Bool.false_ne_true]
  rw [if_neg (by simp only [Bool.and_eq_true, decide_eq_true_eq]; rintro ⟨⟨⟨-, h1⟩, h2⟩, h3⟩; rw [hw h1 h2] at h3; cases h3)]
  have : s.rxmaskFault A o n = none := by
    unfold State.rxmaskFault
    rw [hv, if_neg (by simp), if_neg (by omega), outside_eq_false.2 hz, if_neg Bool.false_ne_true]
  rw [this]; rfl

theorem rxmaskApply_frame (s : State) (A : Region) (o n : Nat) :
    bytesKeptOutside s (s.rxmaskApply A o n) A o (o + n) := by
  intro B x h; rw [readByte_rxmaskApply, if_neg (fun y => h y.2)]

theorem rxmaskFault_eq_none {s : State} {A o n} (hv : s.hdr.valid = true) (hr : n ≤ s.hdr.rem.toNat) (hz : o + n ≤ s.sizes.of A) :
    s.rxmaskFault A o n = none := by
  unfold State.rxmaskFault
  rw [hv, if_neg (by simp), if_neg (by omega), outside_eq_false.2 hz, if_neg Bool.false_ne_true]

/-- The payload bytes after RXMASK at the start of a payload. -/
theorem memRead_rxmaskApply {s : State} {D : Region} {k : Nat} (hl : s.hdr.rem = s.hdr.len) :
    (s.rxmaskApply D 0 k).memRead D 0 k = unmasked s.hdr (s.memRead D 0 k) := by
  have hp : s.rxPosition = 0 := by unfold State.rxPosition; rw [hl]; omega
  apply List.ext_getElem
  · simp
  · intro i h1 h2
    have h1' : i < k := by simpa using h1
    rw [memRead_getElem, readByte_rxmaskApply, hp]
    by_cases hm : s.hdr.masked = true
    · rw [if_pos ⟨hm, rfl, by omega, by omega⟩]
      simp only [unmasked, hm, if_true, maskedBytes, List.getElem_mapIdx, memRead_getElem, Nat.zero_add, Nat.sub_zero]
    · rw [if_neg (fun y => hm y.1)]
      simp only [unmasked, hm, Bool.false_eq_true, if_false, memRead_getElem]

end Sys2Proof.Machine
end

