-- ==== Sys2Proof/Laws/Step.lean ====
section
/-! SUPPORT. What one step is, turn by turn, and what the transport's answers give a read step. -/
namespace Sys2Proof.Machine

open Sys2Proof

/-! ### The next turn -/

/-- A first turn that does not wait is taken. -/
theorem nextTurn_head {s : State} {t : Turn} {ts : List Turn} (h : s.turnWaits t = false) :
    s.nextTurn [] (t :: ts) = some (t, ts) := by
  cases hi : t.queue <;> simp [State.nextTurn, h, hi]

/-- What the next turn can be: one of the list that does not wait, the others kept in their order. -/
theorem nextTurn_some {s : State} {b : List Agent} {l : List Turn} {t : Turn} {r : List Turn}
    (h : s.nextTurn b l = some (t, r)) :
    s.turnWaits t = false ∧ ∃ us vs, l = us ++ t :: vs ∧ r = us ++ vs := by
  induction l generalizing b r with
  | nil => cases h
  | cons a l ih =>
    simp only [State.nextTurn] at h
    split at h
    · obtain ⟨u, hu, he⟩ := Option.map_eq_some_iff.1 h
      obtain ⟨u1, u2⟩ := u
      cases he
      obtain ⟨h1, us, vs, h2, h3⟩ := ih hu
      exact ⟨h1, a :: us, vs, by rw [h2]; rfl, by rw [h3]; rfl⟩
    · next hw =>
      cases h
      simp only [Bool.or_eq_true, not_or, Bool.not_eq_true] at hw
      exact ⟨hw.1, [], l, rfl, rfl⟩

/-- A step takes a turn that does not wait, or none and nothing happens. -/
theorem step_cases (s : State) :
    (step s = .next s) ∨
    ∃ t us vs, s.turns = us ++ t :: vs ∧ s.turnWaits t = false ∧ step s = State.runTurn { s with turns := us ++ vs } t := by
  unfold step
  cases h : s.nextTurn [] s.turns with
  | none => exact .inl rfl
  | some u =>
    obtain ⟨t, r⟩ := u
    obtain ⟨h1, us, vs, h2, rfl⟩ := nextTurn_some h
    exact .inr ⟨t, us, vs, h2, h1, rfl⟩

theorem step_turn {s : State} {t : Turn} {ts : List Turn} (h : s.turns = t :: ts) (hw : s.turnWaits t = false) :
    step s = State.runTurn { s with turns := ts } t := by
  unfold step; rw [h, nextTurn_head hw]

theorem step_idle {s : State} (h : s.turns = []) : step s = .next s := by unfold step; rw [h]; rfl

/-- The first turn waits and the next one, of another agent or of none, is taken. -/
theorem step_behind {s : State} {t u : Turn} {ts : List Turn} (h : s.turns = t :: u :: ts) (ht : s.turnWaits t = true)
    (hu : s.turnWaits u = false) (hne : ∀ a, u.queue = some a → t.queue ≠ some a) :
    step s = State.runTurn { s with turns := t :: ts } u := by
  have : s.nextTurn [] (t :: u :: ts) = some (u, t :: ts) := by
    simp only [State.nextTurn, ht, hu, Bool.true_or, if_true, Bool.false_or]
    cases hi : u.queue with
    | none => simp
    | some a =>
      have := hne a hi
      cases ht' : t.queue with
      | none => simp
      | some b => rw [ht'] at this; simp; intro e; exact absurd (e ▸ rfl) this
  unfold step; rw [h, this]

/-- The only turn waits. -/
theorem step_waits {s : State} {t : Turn} (h : s.turns = [t]) (ht : s.turnWaits t = true) : step s = .next s := by
  unfold step; rw [h]; simp [State.nextTurn, ht]

theorem turnWaits_command {s : State} {a : Agent} {c : CmdRecord} {i : Instr} (hd : decode (.command c) = .ok i) :
    s.turnWaits (.command a c) = s.commandWaits a i := by simp only [State.turnWaits, hd]

theorem step_command {s : State} {ts : List Turn} {a : Agent} {c : CmdRecord} {i : Instr}
    (h : s.turns = .command a c :: ts) (hd : decode (.command c) = .ok i) (hw : s.commandWaits a i = false) :
    step s = exec i { s with turns := ts, issuer := a } := by
  rw [step_turn h ((turnWaits_command hd).trans hw)]; simp only [State.runTurn, State.issue, hd]

theorem step_rx {s : State} {ts : List Turn} (h : s.turns = .rx :: ts) :
    step s = State.rxStep { s with turns := ts } := step_turn h rfl

theorem step_pending {s : State} {ts : List Turn} {k : Nat} (h : s.turns = .pending k :: ts) :
    step s = .next (State.pendingStep { s with turns := ts } k) := step_turn h rfl

theorem step_giveUp {s : State} {ts : List Turn} {k : Nat} (h : s.turns = .giveUp k :: ts) :
    step s = .next (State.giveUpStep { s with turns := ts } k) := step_turn h rfl

/-- With no command in progress no turn waits. -/
theorem commandWaits_of_idle {s : State} {a : Agent} {i : Instr} (h : s.atWork = []) : s.commandWaits a i = false := by
  simp [State.commandWaits, h]

/-- Without a command in progress outside RX only RX is held. -/
theorem atWork_of_pending {s : State} (h : s.pending = []) {g : Agent} (hg : g ≠ .rx) : g ∉ s.atWork := by
  unfold State.atWork; rw [h]; cases s.rxJob <;> simp [hg]

/-- A command whose agents are free is issued. -/
theorem commandWaits_of_free {s : State} {a : Agent} {i : Instr} (h : ∀ g ∈ needs a i, g ∉ s.atWork) :
    s.commandWaits a i = false := by
  have : (needs a i).any (fun g => decide (g ∈ s.atWork)) = false := by
    simp only [List.any_eq_false, decide_eq_true_eq]; exact h
  simp [State.commandWaits, this]

/-- A command that is issued has its agents free or faults at once. -/
theorem free_of_commandWaits {s : State} {a : Agent} {i : Instr} (h : s.commandWaits a i = false) :
    (∀ g ∈ needs a i, g ∉ s.atWork) ∨ s.faultsAtOnce a i = true := by
  simpa only [State.commandWaits, Bool.and_eq_false_iff, List.any_eq_false, decide_eq_true_eq, Bool.not_eq_false'] using h

/-! ### The host's own turns -/

/-- What a `MemWrite` of the host can change. -/
theorem hostWrites_eq (s : State) (a : Addr) (bs : List Byte) :
    ∃ m r, s.hostWrites a bs = { s with mem := m, hostResults := s.hostResults ++ [r] } := by
  unfold State.hostWrites; split <;> exact ⟨_, _, rfl⟩

/-- What handing over a buffer can change. -/
theorem hostGives_eq (s : State) (b : HostBuf) (bs : List Byte) :
    ∃ z m r, s.hostGives b bs = { s with sizes := z, mem := m, hostResults := s.hostResults ++ [r] } ∧
      z.nSend = s.sizes.nSend ∧ z.nCtrlIn = s.sizes.nCtrlIn ∧ z.nCtrlOut = s.sizes.nCtrlOut := by
  unfold State.hostGives
  split
  · exact ⟨s.sizes, s.mem, _, rfl, rfl, rfl, rfl⟩
  · refine ⟨_, _, _, rfl, ?_⟩; cases b <;> exact ⟨rfl, rfl, rfl⟩

/-- What the first part of PINGFRAME can change. -/
theorem pingFrame_eq (s : State) (p : List Byte) (t : Timeout) :
    ∃ m r ts, s.pingFrame p t = { s with mem := m, hostResults := s.hostResults ++ [r], turns := ts } := by
  unfold State.pingFrame
  simp only
  split
  · exact ⟨_, _, _, rfl⟩
  · split
    · exact ⟨_, _, _, rfl⟩
    · obtain ⟨m, r, h⟩ := hostWrites_eq s ⟨.outPing, Config.prefixSize⟩ p
      exact ⟨m, r, _, by rw [h]⟩

/-- PREPARE with its SENDFRAME is PREPARE with a turn more, or none. -/
theorem prepareAndSend_eq {s u : State} {p : Addr} {len : Nat} {fin sent : Bool} {op : BitVec 4} {ext : BitVec 3}
    {t : Timeout} {opts : Opts} (h : s.prepareAndSend p len fin sent op ext t opts = .next u) :
    ∃ v ts, exec (.prepare p len fin sent op ext) { s with issuer := .host } = .next v ∧ u = { v with turns := ts } := by
  unfold State.prepareAndSend at h
  split at h
  · next v hv =>
    split at h <;> cases h <;> exact ⟨_, _, hv, rfl⟩
  · next hn => exact absurd h (hn u)

/-! ### The steps of the receive command in progress -/

theorem rxStep_header {s : State} (h : s.rxJob = .header) : s.rxStep = s.headerStep := by
  simp only [State.rxStep, h]

theorem rxStep_ctrl {s : State} {got : Nat} (h : s.rxJob = .ctrl got) : s.rxStep = .next (s.controlStep got) := by
  simp only [State.rxStep, h]

theorem rxStep_pong {s : State} {j : SendJob} (h : s.rxJob = .pong j) : s.rxStep = .next (s.pongStep j) := by
  simp only [State.rxStep, h]

theorem rxStep_recv {s : State} {a : Addr} {len : Nat} (h : s.rxJob = .recv a len) :
    s.rxStep = .next (s.recvStep a len) := by
  simp only [State.rxStep, h]

/-! ### RxRead -/

theorem rxTake_nil (n : Nat) : rxTake n [] = none := rfl

/-- A read takes at most the n bytes it asks for and leaves the rest. -/
theorem rxTake_bytes_cons {bs : List Byte} {n : Nat} {q : List RxAnswer} (h0 : bs ≠ []) :
    rxTake n (.bytes bs :: q) =
      some (.bytes (bs.take n), if bs.length ≤ n then q else .bytes (bs.drop n) :: q) := by
  cases bs with
  | nil => exact absurd rfl h0
  | cons b bs =>
    by_cases h : (b :: bs).length ≤ n
    · rw [if_pos h, List.take_of_length_le h]; simp only [rxTake, h, if_true]
    · simp only [rxTake, h, if_false]

/-- A read of everything the answer holds. -/
theorem rxTake_all {bs : List Byte} {n : Nat} {q : List RxAnswer} (h0 : bs ≠ []) (h : bs.length ≤ n) :
    rxTake n (.bytes bs :: q) = some (.bytes bs, q) := by
  rw [rxTake_bytes_cons h0, if_pos h, List.take_of_length_le h]

/-- A read step of AWAIT that gets bytes in `HDR2` or `HDRREST`, all inside `SCRATCH`. -/
theorem headerStep_bytes {s : State} {bs : List Byte} {q : List RxAnswer}
    (hq : rxTake (s.rxs.hneed.toNat - s.rxs.hcnt.toNat) s.rxIn = some (.bytes bs, q))
    (hb : s.rxs.hcnt.toNat + bs.length ≤ 16) :
    s.headerStep =
      if (State.headerStored { s with rxIn := q } bs).rxs.phase = .hdrrest ∧
          (State.headerStored { s with rxIn := q } bs).rxs.hcnt = (State.headerStored { s with rxIn := q } bs).rxs.hneed
      then (State.headerStored { s with rxIn := q } bs).fetchHeader
      else .next (State.headerStored { s with rxIn := q } bs) := by
  simp only [State.headerStep, hq]
  rw [if_neg]
  rw [Bool.not_eq_true]
  exact accessFaults_eq_false.2 (.inr hb)

/-- A complete header runs the instruction it decodes to. -/
theorem fetchHeader_ok {s : State} {i : Instr}
    (h : decode (.header (s.memRead .scratch 0 s.rxs.hcnt.toNat)) = .ok i) : s.fetchHeader = exec i s := by
  simp only [State.fetchHeader, h]

end Sys2Proof.Machine
end

