-- ==== Sys2Proof/Laws/Transmit.lean ====
section
/-! SUPPORT. The transmit path: PREPARE, the steps of a SENDFRAME, the permit (spec/42_dispatch.md section 5). -/
namespace Sys2Proof.Machine

open Sys2Proof

/-! ### PREPARE -/

theorem Key.nonzero_ne (k : Key) : Key.nonzero k ≠ ⟨0, 0, 0, 0⟩ := by
  unfold Key.nonzero; split
  · decide
  · assumption

theorem prepareApply_mem (s : State) (a : Addr) (len : Nat) (fin sent : Bool) (op : BitVec 4) (ext : BitVec 3) :
    (s.prepareApply a len fin sent op ext).mem =
      (match (s.prepareHeader len fin sent op ext).key with
       | some k => ((s.emitWrite (s.prepareHeader len fin sent op ext) a).maskRegion a.region a.off len k 0).mem
       | none   => (s.emitWrite (s.prepareHeader len fin sent op ext) a).mem) := by
  unfold State.prepareApply
  simp only [State.prepareHeader]
  cases s.cfg.maskOut <;> rfl

theorem prepareApply_draw (s : State) (a : Addr) (len : Nat) (fin sent : Bool) (op : BitVec 4) (ext : BitVec 3) :
    (s.prepareApply a len fin sent op ext).keyDraws = (if s.cfg.maskOut then s.afterDraw else s).keyDraws ∧
    (s.prepareApply a len fin sent op ext).keyCtr = (if s.cfg.maskOut then s.afterDraw else s).keyCtr := by
  unfold State.prepareApply; simp only [State.prepareHeader]
  cases s.cfg.maskOut <;> exact ⟨rfl, rfl⟩

theorem readByte_prepareApply (s : State) (a : Addr) (len : Nat) (fin sent : Bool) (op : BitVec 4) (ext : BitVec 3) (B : Region) (x : Nat) :
    (s.prepareApply a len fin sent op ext).readByte B x =
      if (s.prepareHeader len fin sent op ext).key.isSome = true ∧ B = a.region ∧ a.off ≤ x ∧ x < a.off + len
      then (s.emitWrite (s.prepareHeader len fin sent op ext) a).readByte a.region x ^^^ keyAt ((s.prepareHeader len fin sent op ext).key.getD ⟨0, 0, 0, 0⟩) (x - a.off)
      else (s.emitWrite (s.prepareHeader len fin sent op ext) a).readByte B x := by
  show Memory.byte _ B x = _
  rw [prepareApply_mem]
  rcases hk : (s.prepareHeader len fin sent op ext).key with _ | k
  · simp; rfl
  · simp only [Option.isSome_some, true_and, Option.getD_some]
    show (State.maskRegion _ _ _ _ _ _).readByte B x = _
    rw [readByte_maskRegion]; simp only [Nat.zero_add]

theorem prepareApply_spec {s : State} {a : Addr} {len : Nat} {fin sent : Bool} {op : BitVec 4} {ext : BitVec 3}
    (hoff : s.prepareHl len fin sent op ext ≤ a.off) :
    let key := (s.prepareHeader len fin sent op ext).key
    let hl := s.prepareHl len fin sent op ext
    let t := s.prepareApply a len fin sent op ext
    bytesAre t a.region (a.off - hl) (wireFrame fin ext (if sent then 0x0 else op) key (s.memRead a.region a.off len)) ∧
    bytesKeptOutside s t a.region (a.off - hl) (a.off + len) ∧
    key.isSome = s.cfg.maskOut ∧ (∀ k, key = some k → k ≠ ⟨0, 0, 0, 0⟩) ∧
    hl = (wireHeader fin ext (if sent then 0x0 else op) len key).length ∧
    (∀ k r, s.cfg.maskOut = true → s.keyDraws = k :: r →
        (k ≠ ⟨0, 0, 0, 0⟩ → key = some k) ∧ t.keyDraws = r ∧ t.keyCtr = s.keyCtr) ∧
    (s.cfg.maskOut = false → t.keyDraws = s.keyDraws ∧ t.keyCtr = s.keyCtr) ∧
    { t with mem := s.mem, keyDraws := s.keyDraws, keyCtr := s.keyCtr } = s := by
  intro key hl t
  have hE : emitBytes (s.prepareHeader len fin sent op ext) = wireHeader fin ext (if sent then 0x0 else op) len key := emitBytes_eq _
  have hhl : hl = (wireHeader fin ext (if sent then 0x0 else op) len key).length := congrArg List.length hE
  have hew : ∀ B x, (s.emitWrite (s.prepareHeader len fin sent op ext) a).readByte B x =
      if B = a.region ∧ a.off - hl ≤ x ∧ x < a.off then (wireHeader fin ext (if sent then 0x0 else op) len key).getD (x - (a.off - hl)) 0 else s.readByte B x := by
    intro B x
    unfold State.emitWrite
    rw [readByte_memWrite, hE, ← hhl, Nat.sub_add_cancel hoff]
  have hpay : ∀ B x, t.readByte B x = if key.isSome = true ∧ B = a.region ∧ a.off ≤ x ∧ x < a.off + len
      then s.readByte a.region x ^^^ keyAt (key.getD ⟨0, 0, 0, 0⟩) (x - a.off)
      else (s.emitWrite (s.prepareHeader len fin sent op ext) a).readByte B x := by
    intro B x
    rw [readByte_prepareApply]
    split
    · next h => rw [hew, if_neg (by omega)]
    · rfl
  have hkey : key.isSome = s.cfg.maskOut := by
    show (if s.cfg.maskOut then some s.drawnKey else none).isSome = _
    cases s.cfg.maskOut <;> rfl
  refine ⟨?_, ?_, hkey, ?_, hhl, ?_, ?_, ?_⟩
  · show bytesAre t a.region _ (wireHeader fin ext (if sent then 0x0 else op) (s.memRead a.region a.off len).length key ++ _)
    rw [memRead_length, bytesAre_append, ← hhl, Nat.sub_add_cancel hoff]
    constructor
    · intro i hi
      have hlow : t.readByte a.region (a.off - hl + i) = (s.emitWrite (s.prepareHeader len fin sent op ext) a).readByte a.region (a.off - hl + i) := by
        rw [hpay, if_neg (by omega)]
      rw [hlow, hew, if_pos ⟨rfl, by omega, by omega⟩, Nat.add_sub_cancel_left]
      exact List.getD_eq_getElem _ _ hi
    · intro i hi
      rw [hpay]
      clear hpay
      clear_value key
      rcases key with _ | k
      · simp only [memRead_length] at hi
        simp only [Option.isSome_none, Bool.false_eq_true, false_and, if_false]
        rw [hew, if_neg (by omega), memRead_getElem]
      · simp only [maskedBytes_length, memRead_length] at hi
        rw [if_pos ⟨rfl, rfl, by omega, by omega⟩, Nat.add_sub_cancel_left]
        simp only [maskedBytes, List.getElem_mapIdx, memRead_getElem]; rfl
  · intro B x hx
    rw [hpay, if_neg (by intro y; exact hx ⟨y.2.1, by omega, y.2.2.2⟩), hew, if_neg (by intro y; exact hx ⟨y.1, y.2.1, by omega⟩)]
  · intro k hk
    have : (if s.cfg.maskOut then some s.drawnKey else none) = some k := hk
    split at this
    · cases this
      unfold State.drawnKey; split <;> apply Key.nonzero_ne
    · cases this
  · intro k r hm hd
    have e1 := prepareApply_draw s a len fin sent op ext
    rw [hm, if_pos rfl] at e1
    refine ⟨?_, ?_, ?_⟩
    · intro hk
      show (if s.cfg.maskOut then some s.drawnKey else none) = _
      simp only [hm, if_true, State.drawnKey, hd, Key.nonzero, hk, if_false]
    · show (s.prepareApply a len fin sent op ext).keyDraws = _; rw [e1.1]; simp [State.afterDraw, hd]
    · show (s.prepareApply a len fin sent op ext).keyCtr = _; rw [e1.2]; simp [State.afterDraw, hd]
  · intro hm
    have e1 := prepareApply_draw s a len fin sent op ext
    rw [hm, if_neg Bool.false_ne_true] at e1
    exact e1
  · show (let t := State.prepareApply _ _ _ _ _ _ _; ({ t with mem := s.mem, keyDraws := s.keyDraws, keyCtr := s.keyCtr } : State)) = _
    unfold State.prepareApply; simp only [State.prepareHeader]
    cases s.cfg.maskOut <;> rfl

/-! ### SENDFRAME -/

theorem permitOf_eq (a : Agent) : permitOf a = if a = .rx then .rx else .host := by cases a <;> rfl

theorem sentOf_take (r : TxAnswer) (frame : List Byte) : ∃ m, m ≤ frame.length ∧ (r = .ok → m = frame.length) ∧ r.sentOf frame = frame.take m := by
  cases r with
  | ok => exact ⟨frame.length, Nat.le_refl _, fun _ => rfl, by simp [TxAnswer.sentOf]⟩
  | ioerror k => refine ⟨min k frame.length, Nat.min_le_right _ _, (by simp), ?_⟩; simp [TxAnswer.sentOf]
  | cancelled k => refine ⟨min k frame.length, Nat.min_le_right _ _, (by simp), ?_⟩; simp [TxAnswer.sentOf]

theorem sendEnds_or (s : State) (j : SendJob) : (s.sendEnds j).permit = s.permit ∨ (s.sendEnds j).permit = .free := by
  rw [sendEnds_permit]; split
  · exact .inl rfl
  · split
    · exact .inr rfl
    · exact .inl rfl

/-- The whole step of a SENDFRAME. -/
theorem sendStep_more' {s s' : State} {j j' : SendJob} (h : s.sendStep j = .more j' s') :
    s'.events = s.events ∧ s'.results = s.results ∧ (s'.permit = s.permit ∨ s.permit = .free) ∧
    (s'.txOut = s.txOut ∨ ∃ m, j.stage = .write ∧ s'.txOut = s.txOut ++ (s.memRead j.addr.region j.addr.off j.n).take m) := by
  unfold State.sendStep at h
  split at h
  · unfold State.sendAcquire at h; split at h
    · next hp => cases h; exact ⟨rfl, rfl, .inr hp, .inl rfl⟩
    · cases h
  · unfold State.sendCheck at h; split at h
    · cases h; exact ⟨rfl, rfl, .inl rfl, .inl rfl⟩
    · split at h <;> cases h
  · next hst =>
    unfold State.sendWrite at h; split at h
    · cases h
    · next r _ _ =>
      cases h
      obtain ⟨m, -, -, e⟩ := sentOf_take r (s.memRead j.addr.region j.addr.off j.n)
      exact ⟨rfl, rfl, .inl rfl, .inr ⟨m, hst, by rw [e]⟩⟩
  · unfold State.sendFinish at h; simp only at h; split at h
    · cases h
    · split at h <;> cases h
    · split at h <;> cases h

theorem sendStep_done' {s s' : State} {j : SendJob} {r : Result} (h : s.sendStep j = .done r s') :
    s.events <+: s'.events ∧ s'.results = s.results ∧ (s'.permit = s.permit ∨ s'.permit = .free) ∧ s'.txOut = s.txOut := by
  have hr := sendEnds_or s j
  unfold State.sendStep at h
  split at h
  · unfold State.sendAcquire at h; split at h <;> cases h
  · unfold State.sendCheck at h; split at h
    · cases h
    · split at h <;> cases h <;> exact ⟨by simp, by simp, hr, by simp⟩
  · unfold State.sendWrite at h; split at h <;> cases h
  · unfold State.sendFinish at h; simp only at h; split at h
    · cases h; exact ⟨by simp, by simp, hr, by simp⟩
    · split at h <;> cases h <;> exact ⟨by simp, by simp, hr, by simp⟩
    · split at h <;> cases h <;> exact ⟨by simp, by simp, hr, by simp⟩

/-- A SENDFRAME adds no result of the host's own accesses. -/
theorem sendStep_hostResults {s s' : State} {j : SendJob}
    (h : (∃ j', s.sendStep j = .more j' s') ∨ ∃ r, s.sendStep j = .done r s') : s'.hostResults = s.hostResults := by
  unfold State.sendStep at h
  rcases h with ⟨_, h⟩ | ⟨_, h⟩ <;> split at h
  all_goals
    simp only [State.sendAcquire, State.sendCheck, State.sendWrite, State.sendFinish] at h
    repeat' split at h
    all_goals cases h <;> simp

/-- A step of a SENDFRAME and what it does to the holding. -/
theorem send_more_permit {s s' : State} {j j' : SendJob} (h : s.sendStep j = .more j' s') (hn : j.stage = .acquire → j.opts.nolock = false) :
    s'.pending = s.pending ∧ s'.rxJob = s.rxJob ∧ (j'.stage = .acquire → j'.opts.nolock = false) ∧
    ((s'.permit = s.permit ∧ j'.holdsForRx = j.holdsForRx) ∨
     (s.permit = .free ∧ j.holdsForRx = false ∧ (s'.permit = .rx ∧ j'.holdsForRx = true ∨ s'.permit = .host ∧ j'.holdsForRx = false))) := by
  unfold State.sendStep at h
  split at h
  · next hst =>
    unfold State.sendAcquire at h; split at h
    · next hp =>
      cases h
      refine ⟨rfl, rfl, (by simp), .inr ⟨hp, by simp [SendJob.holdsForRx, hst], ?_⟩⟩
      cases hi : j.issuer <;> simp [State.takePermit, permitOf, SendJob.holdsForRx, hn hst]
    · cases h
  · next hst =>
    unfold State.sendCheck at h; split at h
    · cases h; exact ⟨rfl, rfl, by simp, .inl ⟨rfl, by simp [SendJob.holdsForRx, hst]⟩⟩
    · split at h <;> cases h
  · next hst =>
    unfold State.sendWrite at h; split at h
    · cases h
    · cases h; exact ⟨rfl, rfl, by simp, .inl ⟨rfl, by simp [SendJob.holdsForRx, hst]⟩⟩
  · unfold State.sendFinish at h; simp only at h; split at h
    · cases h
    · split at h <;> cases h
    · split at h <;> cases h

theorem send_done_permit {s s' : State} {j : SendJob} {r : Result} (h : s.sendStep j = .done r s') :
    s'.pending = s.pending ∧ s'.rxJob = s.rxJob ∧ j.stage ≠ .acquire ∧
    s'.permit = if j.opts.nolock then s.permit else if s.permit = permitOf j.issuer then .free else s.permit := by
  have h0 := sendStep_done h
  refine ⟨h0.2.2.2.2.2.2, h0.2.2.2.1, ?_, ?_⟩
  · intro hst; unfold State.sendStep at h; rw [hst] at h; simp only [State.sendAcquire] at h; split at h <;> cases h
  · rw [← sendEnds_permit]
    unfold State.sendStep at h
    split at h
    · unfold State.sendAcquire at h; split at h <;> cases h
    · unfold State.sendCheck at h; split at h
      · cases h
      · split at h <;> cases h <;> rfl
    · unfold State.sendWrite at h; split at h <;> cases h
    · unfold State.sendFinish at h; simp only at h; split at h
      · cases h; rfl
      · split at h <;> cases h <;> rfl
      · split at h <;> cases h <;> rfl

theorem steps_succ (n : Nat) (s t : State) (h : step s = .next t) : steps (n + 1) s = steps n t := by
  rw [steps, h]

theorem steps_add (m n : Nat) (s t : State) (h : steps m s = .next t) : steps (m + n) s = steps n t := by
  induction m generalizing s with
  | zero => cases h; simp
  | succ m ih =>
    rw [Nat.add_right_comm, steps]
    rw [steps] at h
    split at h <;> first | exact ih _ h | cases h

/-! ### Holders of the permit -/

theorem countP_eraseIdx {α} (p : α → Bool) (l : List α) (k : Nat) (x : α) (h : l[k]? = some x) :
    (l.eraseIdx k).countP p + (p x).toNat = l.countP p := by
  induction l generalizing k with
  | nil => simp at h
  | cons a l ih =>
    cases k with
    | zero => simp at h; subst h; simp [List.countP_cons]; cases p a <;> rfl
    | succ k =>
      simp at h
      simp only [List.eraseIdx_cons_succ, List.countP_cons]
      have := ih k h
      omega

theorem countP_set {α} (p : α → Bool) (l : List α) (k : Nat) (x y : α) (h : l[k]? = some x) :
    (l.set k y).countP p + (p x).toNat = l.countP p + (p y).toNat := by
  induction l generalizing k with
  | nil => simp at h
  | cons a l ih =>
    cases k with
    | zero => simp at h; subst h; simp [List.countP_cons]; cases p a <;> cases p y <;> simp
    | succ k =>
      simp at h
      simp only [List.set_cons_succ, List.countP_cons]
      have := ih k h
      omega

def jobHolds (j : RxJob) : Nat := match j with
  | .pong j => j.holdsForRx.toNat
  | _ => 0

theorem rxHolders_eq (s : State) : s.rxHolders = s.pending.countP Pending.holdsForRx + jobHolds s.rxJob := by
  unfold State.rxHolders jobHolds; congr 1; cases s.rxJob <;> first | rfl | (rename_i j; simp only; cases j.holdsForRx <;> rfl)

theorem PermitInv.congr {s t : State} (h : PermitInv s) (h1 : t.permit = s.permit) (h2 : t.pending = s.pending) (h3 : jobHolds t.rxJob = jobHolds s.rxJob) :
    PermitInv t := by
  unfold PermitInv at h ⊢
  rw [rxHolders_eq] at h ⊢
  rw [h1, h2, h3]; exact h

end Sys2Proof.Machine
end

