-- ==== Sys2Proof/Laws/Receive.lean ====
section
/-! SUPPORT. The receive path: control frames and the pong echo (spec/42_dispatch.md sections 1 to 3). -/
namespace Sys2Proof.Machine

open Sys2Proof

theorem rxTake_other {r : RxAnswer} {q n} (h : r = .eof ∨ r = .ioerror ∨ r = .cancelled) : rxTake n (r :: q) = some (r, q) := by
  rcases h with h | h | h <;> subst h <;> rfl

theorem controlSlice_ne {op : BitVec 4} (h : isControl op) : ∃ D, controlSlice op = some D := by
  unfold isControl at h; rcases h with h | h | h <;> subst h <;> exact ⟨_, rfl⟩

theorem enterControl_eq {s : State} {D} (hD : controlSlice s.hdr.opcode = some D) :
    s.enterControl = if controlCount s.hdr.opcode s.hdr.len.toNat = 0
      then State.controlHandled { s with rxs := { s.rxs with phase := .ctrl } } D 0
      else { s with rxs := { s.rxs with phase := .ctrl }, rxJob := .ctrl 0 } := by
  unfold State.enterControl; simp only [hD]

theorem controlHandled_eq {s : State} {D k} (hv : s.hdr.valid = true) (hr : k ≤ s.hdr.rem.toNat) (hz : k ≤ s.sizes.of D) :
    s.controlHandled D k =
      if s.hdr.opcode = 0x8#4 then
        (s.rxmaskApply D 0 k).closeReceived (if k < 2 then normalClose else closeCode ((s.rxmaskApply D 0 k).memRead D 0 2))
      else if s.hdr.opcode = 0x9#4 then (s.rxmaskApply D 0 k).pongEcho k
      else (s.rxmaskApply D 0 k).pongHandled k := by
  unfold State.controlHandled
  rw [rxmaskFault_eq_none hv hr (by omega)]
  rfl

/-- The read step of AWAIT in `CTRL` that gets bytes. -/
theorem controlStep_bytes {s : State} {got : Nat} {D : Region} {bs : List Byte} {q : List RxAnswer} (hD : controlSlice s.hdr.opcode = some D)
    (hne : bs ≠ []) (hq : s.rxIn = .bytes bs :: q) (hk : got + bs.length ≤ controlCount s.hdr.opcode s.hdr.len.toNat)
    (hz : got + bs.length ≤ s.sizes.of D) :
    s.controlStep got =
      if controlCount s.hdr.opcode s.hdr.len.toNat ≤ got + bs.length
      then (State.memWrite { s with rxIn := q } D got bs).controlHandled D (controlCount s.hdr.opcode s.hdr.len.toNat)
      else { State.memWrite { s with rxIn := q } D got bs with rxJob := .ctrl (got + bs.length) } := by
  unfold State.controlStep
  simp only [hD]
  rw [hq, rxTake_all hne (by omega)]
  simp only
  rw [if_neg]
  rw [Bool.not_eq_true]
  exact accessFaults_eq_false.2 (.inr hz)

theorem size_in {s : State} (h : 125 ≤ s.sizes.nCtrlIn) {op D} (hD : controlSlice op = some D) : 125 ≤ s.sizes.of D := by
  unfold controlSlice at hD
  split at hD
  · cases hD; exact h
  · split at hD
    · cases hD; exact h
    · split at hD
      · cases hD; exact h
      · cases hD

theorem count_le {op : BitVec 4} {len : Nat} (h : len ≤ 125) : controlCount op len ≤ len ∧ controlCount op len ≤ 125 := by
  unfold controlCount; simp only [Config.ctrlMax]; split <;> omega

theorem closeCode_eq (p : List Byte) (h : 2 ≤ p.length) : closeCode p = BitVec.ofNat 16 ((p.getD 0 0).toNat * 256 + (p.getD 1 0).toNat) := by
  rcases p with _ | ⟨a, _ | ⟨b, r⟩⟩
  · simp at h
  · simp at h
  · simp [closeCode, beNat]

/-- The pong echo, when it fits. -/
theorem pongEcho_spec {s : State} {k : Nat} (h1 : k ≤ 125) (h2 : 125 ≤ s.sizes.nCtrlOut) (h3 : k ≤ s.sizes.nCtrlIn)
    (h4 : s.sendOwns .outPong = false) :
    let p := s.memRead .inPing 0 k
    let t := s.pongEcho k
    pongReady s t p ∧ (∀ B x, B ≠ .outPong → t.readByte B x = s.readByte B x) ∧
    { t with rxJob := s.rxJob, mem := s.mem, keyDraws := s.keyDraws, keyCtr := s.keyCtr } = s := by
  intro p
  have hl := wireHeader_length_le true 0#3 0xA#4 k ((s.prepareHeader k true false 0xA 0).key)
  have hhl : (s.memWrite .outPong 16 p).prepareHl k true false 0xA 0 = (wireHeader true 0#3 0xA#4 k ((s.prepareHeader k true false 0xA 0).key)).length := by
    show (emitBytes _).length = _; rw [emitBytes_eq]; rfl
  have hpf : (s.memWrite .outPong 16 p).prepareFault pongAddr k true false 0xA 0 = none := by
    unfold State.prepareFault
    rw [if_neg (by simp), outside_eq_false.2 (by show 16 + k ≤ 16 + s.sizes.nCtrlOut; omega), if_neg Bool.false_ne_true]
    refine emitFault_of (by show (0xA#4).toNat ∈ _; decide) ?_ ?_ ?_ ⟨?_, ?_⟩
    · show (0#3 &&& _) = 0#3; simp
    · rintro ⟨-, h | h⟩
      · change 125 < k at h; omega
      · cases h
    · show k < _; omega
    · show (emitBytes _).length ≤ 16; exact Nat.le_trans (Nat.le_of_eq hhl) (by omega)
    · show 16 ≤ 16 + s.sizes.nCtrlOut; omega
  have hpe : s.pongEcho k = { (s.memWrite .outPong 16 p).prepareApply pongAddr k true false 0xA 0 with
      rxJob := .pong (pongJob (16 - (s.memWrite .outPong 16 p).prepareHl k true false 0xA 0) ((s.memWrite .outPong 16 p).prepareHl k true false 0xA 0 + k)) } := by
    unfold State.pongEcho
    rw [h4, if_neg Bool.false_ne_true, accessFaults_eq_false.2 (.inr (by show 0 + k ≤ s.sizes.nCtrlIn; omega)), accessFaults_eq_false.2 (.inr (by show 16 + k ≤ 16 + s.sizes.nCtrlOut; omega))]
    simp only [Bool.or_self, Bool.false_eq_true, if_false]
    have : State.prepareFault (s.memWrite Region.outPong Config.prefixSize (s.memRead Region.inPing 0 k)) pongAddr k true false 0xA 0 = none := hpf
    rw [this]; rfl
  obtain ⟨a1, a2, a3, a4, a5, a6, a7, a8⟩ := prepareApply_spec (s := s.memWrite .outPong 16 p) (a := pongAddr) (len := k) (fin := true) (sent := false) (op := 0xA) (ext := 0) (by rw [hhl]; show _ ≤ 16; omega)
  intro t
  have hmem : ∀ B x, t.readByte B x = ((s.memWrite .outPong 16 p).prepareApply pongAddr k true false 0xA 0).readByte B x := by
    intro B x; show (s.pongEcho k).readByte B x = _; rw [hpe]; rfl
  have hp : p.length = k := by simp [p]
  have hrd : (s.memWrite .outPong 16 p).memRead .outPong 16 k = p := by
    have := memRead_memWrite s .outPong 16 p; rwa [hp] at this
  have hout : ∀ B x, ¬ (B = .outPong ∧ 16 - (s.memWrite .outPong 16 p).prepareHl k true false 0xA 0 ≤ x ∧ x < 16 + k) → t.readByte B x = s.readByte B x := by
    intro B x hx
    rw [hmem, a2 B x hx, readByte_memWrite, if_neg]
    rintro ⟨rfl, y1, y2⟩
    exact hx ⟨rfl, by omega, by omega⟩
  refine ⟨⟨(s.prepareHeader k true false 0xA 0).key, a3, a4, ?_⟩, ?_, ?_⟩
  · simp only [hp]
    rw [← hhl]
    refine ⟨?_, ?_, ?_⟩
    · intro i hi
      rw [hmem]
      change bytesAre _ .outPong (16 - _) (wireFrame true 0 0xA (s.prepareHeader k true false 0xA 0).key ((s.memWrite .outPong 16 p).memRead .outPong 16 k)) at a1
      rw [hrd] at a1
      exact a1 i hi
    · intro x hx; exact hout _ _ (fun y => hx y.2)
    · show (s.pongEcho k).rxJob = _; rw [hpe]; rfl
  · intro B x hB; exact hout _ _ (fun y => hB y.1)
  · show (let t := s.pongEcho k; ({ t with rxJob := s.rxJob, mem := s.mem, keyDraws := s.keyDraws, keyCtr := s.keyCtr } : State)) = s
    rw [hpe]
    have := congrArg (fun u : State => { u with rxJob := s.rxJob, mem := s.mem }) a8
    exact this

/-- The steps of a SENDFRAME that goes well. -/
theorem pongStep_acquire {s : State} {j : SendJob} (hs : j.stage = .acquire) (hp : s.permit = .free) :
    s.pongStep j = { s with permit := permitOf j.issuer, rxJob := .pong { j with stage := .check } } := by
  unfold State.pongStep State.sendStep
  rw [hs]; simp only [State.sendAcquire]; rw [if_pos hp]; rfl

theorem pongStep_check {s : State} {j : SendJob} (hs : j.stage = .check) (hc : s.canSend = true) :
    s.pongStep j = { s with rxJob := .pong { j with stage := .write } } := by
  unfold State.pongStep State.sendStep
  rw [hs]; simp only [State.sendCheck]; rw [if_pos (by rw [hc, Bool.or_true])]

theorem pongStep_write {s : State} {j : SendJob} {r q} (hs : j.stage = .write) (ht : s.txIn = r :: q) :
    s.pongStep j = { s with txIn := q, txOut := s.txOut ++ r.sentOf (s.memRead j.addr.region j.addr.off j.n), rxJob := .pong { j with stage := .finish r } } := by
  unfold State.pongStep State.sendStep
  rw [hs]; simp only [State.sendWrite]; rw [ht]

end Sys2Proof.Machine
end

