-- ==== Sys2Proof/Laws/Frame.lean ====
section
/-! SUPPORT. What the receive path leaves alone: configuration, permit, outbound stream, and the growing outputs. -/
namespace Sys2Proof.Machine

open Sys2Proof

/-- What no internal operation touches, and the outputs it may add to. -/
structure Fr (s t : State) : Prop where
  cfg : t.cfg = s.cfg
  sizes : t.sizes = s.sizes
  permit : t.permit = s.permit
  txOut : t.txOut = s.txOut
  events : s.events <+: t.events
  results : s.results <+: t.results
  hostResults : t.hostResults = s.hostResults

theorem Fr.refl (s : State) : Fr s s := ⟨rfl, rfl, rfl, rfl, List.prefix_rfl, List.prefix_rfl, rfl⟩

theorem Fr.trans {s t u : State} (h : Fr s t) (g : Fr t u) : Fr s u :=
  ⟨g.1.trans h.1, g.2.trans h.2, g.3.trans h.3, g.4.trans h.4, h.5.trans g.5, h.6.trans g.6,
   g.7.trans h.7⟩

theorem Fr.of_eq {s t : State} (h1 : t.cfg = s.cfg) (h2 : t.sizes = s.sizes) (h3 : t.permit = s.permit) (h4 : t.txOut = s.txOut)
    (h5 : t.events = s.events) (h6 : t.results = s.results) (h7 : t.hostResults = s.hostResults) : Fr s t :=
  ⟨h1, h2, h3, h4, by rw [h5], by rw [h6], h7⟩

theorem Fr.complete {s t : State} (h : Fr s t) (a c r) : Fr s (t.complete a c r) :=
  h.trans ⟨rfl, rfl, rfl, rfl, List.prefix_rfl, by simp, rfl⟩

theorem Fr.emitEvent {s t : State} (h : Fr s t) (e) : Fr s (t.emitEvent e) :=
  h.trans ⟨rfl, rfl, rfl, rfl, by simp, List.prefix_rfl, rfl⟩

theorem Fr.dropHeader {s t : State} (h : Fr s t) : Fr s t.dropHeader := h.trans (.of_eq rfl rfl rfl rfl rfl rfl rfl)

theorem Fr.memWrite {s t : State} (h : Fr s t) (A o bs) : Fr s (t.memWrite A o bs) := h.trans (.of_eq rfl rfl rfl rfl rfl rfl rfl)

theorem Fr.rxmaskApply {s t : State} (h : Fr s t) (A o n) : Fr s (t.rxmaskApply A o n) := h.trans (.of_eq rfl rfl rfl rfl rfl rfl rfl)

theorem Fr.rxFault {s t : State} (h : Fr s t) (cmd c) : Fr s (t.rxFault cmd c) := by
  unfold State.rxFault
  refine Fr.complete (Fr.emitEvent (Fr.dropHeader ?_) _) _ _ _
  exact h.trans (.of_eq rfl rfl rfl rfl rfl rfl rfl)

theorem Fr.nextHeader {s t : State} (h : Fr s t) : Fr s t.nextHeader := h.trans (.of_eq rfl rfl rfl rfl rfl rfl rfl)

theorem Fr.pingHandled {s t : State} (h : Fr s t) : Fr s t.pingHandled := (((h.emitEvent _).dropHeader).emitEvent _).nextHeader

theorem Fr.pongHandled {s t : State} (h : Fr s t) (k) : Fr s (t.pongHandled k) := (((h.emitEvent _).dropHeader).emitEvent _).nextHeader

theorem Fr.closeReceived {s t : State} (h : Fr s t) (c) : Fr s (t.closeReceived c) := by
  unfold State.closeReceived
  refine Fr.complete (Fr.emitEvent (Fr.emitEvent ?_ _) _) _ _ _
  exact h.trans (.of_eq rfl rfl rfl rfl rfl rfl rfl)

theorem Fr.prepareApply {s t : State} (h : Fr s t) (a len fin sent op ext) : Fr s (t.prepareApply a len fin sent op ext) := by
  refine h.trans ?_
  unfold State.prepareApply
  simp only [State.prepareHeader]
  cases t.cfg.maskOut <;> exact .of_eq rfl rfl rfl rfl rfl rfl rfl

theorem Fr.pongEcho {s t : State} (h : Fr s t) (k) : Fr s (t.pongEcho k) := by
  unfold State.pongEcho
  split
  · exact h.pingHandled
  split
  · exact h.pingHandled
  · simp only
    split
    · exact (h.memWrite _ _ _).pingHandled
    · exact ((h.memWrite _ _ _).prepareApply _ _ _ _ _ _).trans (.of_eq rfl rfl rfl rfl rfl rfl rfl)

theorem Fr.controlHandled {s t : State} (h : Fr s t) (D k) : Fr s (t.controlHandled D k) := by
  unfold State.controlHandled
  split
  · exact h.rxFault _ _
  · simp only
    split
    · exact (h.rxmaskApply _ _ _).closeReceived _
    · split
      · exact (h.rxmaskApply _ _ _).pongEcho _
      · exact (h.rxmaskApply _ _ _).pongHandled _

theorem Fr.enterControl {s t : State} (h : Fr s t) : Fr s t.enterControl := by
  have h' : Fr s { t with rxs := { t.rxs with phase := .ctrl } } := h.trans (.of_eq rfl rfl rfl rfl rfl rfl rfl)
  unfold State.enterControl
  simp only
  split
  · exact h'.rxFault _ _
  · split
    · exact h'.controlHandled _ _
    · exact h'.trans (.of_eq rfl rfl rfl rfl rfl rfl rfl)

theorem Fr.headerAccepted {s t : State} (h : Fr s t) (op f) : Fr s (t.headerAccepted op f) :=
  (Fr.emitEvent (h.trans (.of_eq rfl rfl rfl rfl rfl rfl rfl)) _).trans (.of_eq rfl rfl rfl rfl rfl rfl rfl)

theorem Fr.dispatchFrame {s t : State} (h : Fr s t) (op f) : Fr s (t.dispatchFrame op f) := by
  unfold State.dispatchFrame
  split
  · exact h.rxFault _ _
  · split
    · exact h.rxFault _ _
    · split
      · refine Fr.complete ?_ _ _ _
        exact (h.headerAccepted _ _).trans (.of_eq rfl rfl rfl rfl rfl rfl rfl)
      · exact (h.headerAccepted _ _).enterControl
      · exact h.rxFault _ _

theorem Fr.awaitNoBytes {s t : State} (h : Fr s t) (r) : Fr s (t.awaitNoBytes r) := by
  unfold State.awaitNoBytes
  split
  · exact h
  · split
    · refine Fr.complete ?_ _ _ _
      exact h.trans (.of_eq rfl rfl rfl rfl rfl rfl rfl)
    · exact h.rxFault _ _
  · exact h.rxFault _ _
  · split
    · refine Fr.complete ?_ _ _ _
      exact h.trans (.of_eq rfl rfl rfl rfl rfl rfl rfl)
    · exact h.rxFault _ _

theorem Fr.recvNoBytes {s t : State} (h : Fr s t) (r) : Fr s (t.recvNoBytes r) := by
  unfold State.recvNoBytes
  split
  · exact h
  all_goals exact h.rxFault _ _

theorem Fr.recvBytes {s t : State} (h : Fr s t) (a bs) : Fr s (t.recvBytes a bs) := by
  unfold State.recvBytes
  split
  · exact h.rxFault _ _
  · simp only
    refine Fr.complete ?_ _ _ _
    exact ((h.memWrite a.region a.off bs).rxmaskApply a.region a.off bs.length).trans
      (.of_eq rfl rfl rfl rfl rfl rfl rfl)

theorem Fr.recvStep (s : State) (a len) : Fr s (s.recvStep a len) := by
  unfold State.recvStep
  split
  · exact .refl _
  · refine Fr.recvBytes ?_ _ _; exact .of_eq rfl rfl rfl rfl rfl rfl rfl
  · refine Fr.recvNoBytes ?_ _; exact .of_eq rfl rfl rfl rfl rfl rfl rfl

theorem Fr.controlStep (s : State) (got) : Fr s (s.controlStep got) := by
  unfold State.controlStep
  split
  · exact (Fr.refl _).rxFault _ _
  · simp only
    split
    · exact .refl _
    · have h : ∀ q, Fr s { s with rxIn := q } := fun q => .of_eq rfl rfl rfl rfl rfl rfl rfl
      split
      · exact (h _).rxFault _ _
      · split
        · exact ((h _).memWrite _ _ _).controlHandled _ _
        · exact .of_eq rfl rfl rfl rfl rfl rfl rfl
    · refine Fr.awaitNoBytes ?_ _; exact .of_eq rfl rfl rfl rfl rfl rfl rfl

theorem Fr.headerStep {s t : State} (ht : s.headerStep = .next t) : Fr s t := by
  unfold State.headerStep at ht
  split at ht
  · cases ht; exact .refl _
  · simp only at ht
    have h : ∀ q, Fr s { s with rxIn := q } := fun q => .of_eq rfl rfl rfl rfl rfl rfl rfl
    split at ht
    · cases ht; exact (h _).rxFault _ _
    · have h2 : ∀ q bs, Fr s (State.headerStored { s with rxIn := q } bs) := by
        intro q bs
        unfold State.headerStored
        simp only
        split <;> exact .of_eq rfl rfl rfl rfl rfl rfl rfl
      split at ht
      · unfold State.fetchHeader at ht
        split at ht
        · cases ht; exact (h2 _ _).rxFault _ _
        · next hd =>
          obtain ⟨op, f, rfl⟩ := decode_header hd
          rw [exec_frameInstr] at ht
          cases ht; exact (h2 _ _).dispatchFrame _ _
      · cases ht; exact h2 _ _
  · cases ht; refine Fr.awaitNoBytes ?_ _; exact .of_eq rfl rfl rfl rfl rfl rfl rfl

/-! ### Turns that leave the receive path alone -/

theorem pendingStep_rx (s : State) (k) : (s.pendingStep k).hdr = s.hdr ∧ (s.pendingStep k).rxs = s.rxs := by
  unfold State.pendingStep
  split
  · exact ⟨rfl, rfl⟩
  · split
    · exact ⟨rfl, rfl⟩
    · next h => have := sendStep_more h; exact ⟨this.2.1, this.2.2.1⟩
    · next h => have := sendStep_done h; exact ⟨this.2.1, this.2.2.1⟩
  · split <;> exact ⟨rfl, rfl⟩

theorem giveUpStep_rx (s : State) (k) : (s.giveUpStep k).hdr = s.hdr ∧ (s.giveUpStep k).rxs = s.rxs := by
  unfold State.giveUpStep
  split
  · exact ⟨rfl, rfl⟩
  · split
    · split <;> exact ⟨rfl, rfl⟩
    · exact ⟨rfl, rfl⟩

/-- PREPARE and the receive path. -/
theorem execPrepare_rx {s v : State} {p len fin sent op ext} (h : exec (.prepare p len fin sent op ext) s = .next v) :
    v.hdr = s.hdr ∧ v.rxs = s.rxs := by
  change execPrepare _ _ _ _ _ _ _ = _ at h
  unfold execPrepare at h
  split at h; · cases h; exact ⟨rfl, rfl⟩
  split at h; · cases h; exact ⟨rfl, rfl⟩
  cases h
  constructor
  · show (State.prepareApply _ _ _ _ _ _ _).hdr = _
    unfold State.prepareApply; simp only [State.prepareHeader]
    cases s.cfg.maskOut <;> rfl
  · show (State.prepareApply _ _ _ _ _ _ _).rxs = _
    rw [prepareApply_rxs]

/-- A turn that is no step of the receive command in progress and no command keeps header and receive status. -/
theorem runTurn_other {s t : State} {tn : Turn} (ht : s.runTurn tn = .next t) (h1 : tn ≠ .rx) (h2 : ∀ a c, tn ≠ .command a c) :
    t.hdr = s.hdr ∧ t.rxs = s.rxs := by
  unfold State.runTurn at ht
  split at ht
  · exact absurd rfl (h2 _ _)
  · exact absurd rfl h1
  · cases ht; exact pendingStep_rx s _
  · cases ht; exact giveUpStep_rx s _
  · cases ht
    obtain ⟨m, r, e⟩ := hostWrites_eq s ‹_› ‹_›
    rw [e]; exact ⟨rfl, rfl⟩
  · cases ht
    obtain ⟨z, m, r, e, h3⟩ := hostGives_eq s ‹_› ‹_›
    rw [e]; exact ⟨rfl, rfl⟩
  · obtain ⟨v, ts', hv, rfl⟩ := prepareAndSend_eq ht
    have := execPrepare_rx hv; exact this
  · cases ht
    obtain ⟨m, r, ts', e⟩ := pingFrame_eq s ‹_› ‹_›
    rw [e]; exact ⟨rfl, rfl⟩
  all_goals cases ht; exact ⟨rfl, rfl⟩

end Sys2Proof.Machine
end

