-- ==== Sys2Proof/Laws/Agents.lean ====
section
/-! SUPPORT. What the operations do to the permit, to the commands in progress and to ownership. -/
namespace Sys2Proof.Machine

open Sys2Proof

/-! ### The permit -/

/-- What an internal operation of the receive pipeline does: the permit and the commands in progress outside it stay, a new
pong waits for its permit, and a region RX comes to own is one RX always owns or one no SENDFRAME sends from. -/
structure AgentFr (s t : State) : Prop where
  permit : t.permit = s.permit
  pending : t.pending = s.pending
  job : t.rxJob = s.rxJob ∨ jobHolds t.rxJob = 0 ∧ ∀ A, t.rxOwns A = true → rxRegion A = true ∨ s.sendOwns A = false

theorem AgentFr.refl (s : State) : AgentFr s s := ⟨rfl, rfl, .inl rfl⟩
theorem sendOwns_congr {s t : State} (h : t.pending = s.pending) (A) : t.sendOwns A = s.sendOwns A := by
  unfold State.sendOwns; rw [h]
theorem AgentFr.trans {s t u : State} (h : AgentFr s t) (g : AgentFr t u) : AgentFr s u := by
  refine ⟨g.1.trans h.1, g.2.trans h.2, ?_⟩
  rcases g.3 with g3 | ⟨g3, g4⟩
  · rcases h.3 with h3 | ⟨h3, h4⟩
    · exact .inl (g3.trans h3)
    · refine .inr ⟨by rw [g3]; exact h3, fun A hA => h4 A ?_⟩
      rw [rxOwns_congr g3] at hA; exact hA
  · refine .inr ⟨g3, fun A hA => ?_⟩
    rcases g4 A hA with h | h'
    · exact .inl h
    · right; rw [← h']; exact (sendOwns_congr h.2 A).symm
theorem AgentFr.of_eq {s t : State} (h1 : t.permit = s.permit) (h2 : t.pending = s.pending) (h3 : t.rxJob = s.rxJob) : AgentFr s t := ⟨h1, h2, .inl h3⟩
theorem AgentFr.of_job {s t : State} (h1 : t.permit = s.permit) (h2 : t.pending = s.pending) (h3 : jobHolds t.rxJob = 0)
    (h4 : ∀ A, t.rxOwns A = true → rxRegion A = true ∨ s.sendOwns A = false := by
      intro A h; first | exact .inl h | cases h) : AgentFr s t := ⟨h1, h2, .inr ⟨h3, h4⟩⟩

theorem pongEcho_j (s : State) (k) : AgentFr s (s.pongEcho k) := by
  unfold State.pongEcho
  split
  · exact .of_job rfl rfl rfl
  next hso =>
  split
  · exact .of_job rfl rfl rfl
  · simp only; split
    · exact .of_job rfl rfl rfl
    · refine .of_job ?_ ?_ rfl ?_
      · have := (Fr.prepareApply (Fr.refl (s.memWrite .outPong Config.prefixSize (s.memRead .inPing 0 k))) pongAddr k true false 0xA 0).3
        exact this
      · show (State.prepareApply _ _ _ _ _ _ _).pending = _
        unfold State.prepareApply; simp only [State.prepareHeader]
        generalize hu : State.memWrite s Region.outPong Config.prefixSize (s.memRead Region.inPing 0 k) = u
        have : u.pending = s.pending := by rw [← hu]; rfl
        rw [← this]
        cases u.cfg.maskOut <;> rfl
      · intro A hA
        simp only [State.rxOwns, Bool.or_eq_true, decide_eq_true_eq] at hA
        rcases hA with hA | hA
        · exact .inl hA
        · subst hA; exact .inr (by simpa using hso)

theorem controlHandled_j (s : State) (D k) : AgentFr s (s.controlHandled D k) := by
  unfold State.controlHandled
  split
  · exact .of_job rfl rfl rfl
  · simp only; split
    · exact .of_job rfl rfl rfl
    · split
      · exact (AgentFr.of_eq (s := s) (t := s.rxmaskApply D 0 k) rfl rfl rfl).trans (pongEcho_j _ _)
      · exact .of_job rfl rfl rfl

theorem dispatch_j (s : State) (op f) : AgentFr s (s.dispatchFrame op f) := by
  unfold State.dispatchFrame
  split
  · exact .of_job rfl rfl rfl
  · split
    · exact .of_job rfl rfl rfl
    · split
      · exact .of_job rfl rfl rfl
      · unfold State.enterControl
        simp only
        split
        · exact .of_job rfl rfl rfl
        · split
          · refine AgentFr.trans ?_ (controlHandled_j _ _ _)
            exact .of_eq rfl rfl rfl
          · exact .of_job rfl rfl rfl
      · exact .of_job rfl rfl rfl

theorem awaitNoBytes_j (s : State) (r) : AgentFr s (s.awaitNoBytes r) := by
  unfold State.awaitNoBytes
  split
  · exact .refl _
  · split <;> exact .of_job rfl rfl rfl
  · exact .of_job rfl rfl rfl
  · split <;> exact .of_job rfl rfl rfl

theorem headerStep_j {s t : State} (ht : s.headerStep = .next t) : AgentFr s t := by
  unfold State.headerStep at ht
  split at ht
  · cases ht; exact .refl _
  · rename_i bs q _
    simp only at ht
    split at ht
    · cases ht; exact .of_job rfl rfl rfl
    · have h2 : ∀ q bs, AgentFr s (State.headerStored { s with rxIn := q } bs) := by
        intro q bs
        unfold State.headerStored
        simp only
        split <;> exact .of_eq rfl rfl rfl
      split at ht
      · unfold State.fetchHeader at ht
        split at ht
        · cases ht; refine AgentFr.trans (h2 q bs) ?_; exact .of_job rfl rfl rfl
        · next hd =>
          obtain ⟨op, f, rfl⟩ := decode_header hd
          rw [exec_frameInstr] at ht
          cases ht; exact (h2 _ _).trans (dispatch_j _ _ _)
      · cases ht; exact h2 _ _
  · cases ht; refine AgentFr.trans ?_ (awaitNoBytes_j _ _); exact .of_eq rfl rfl rfl

theorem controlStep_j (s : State) (got) : AgentFr s (s.controlStep got) := by
  unfold State.controlStep
  split
  · exact .of_job rfl rfl rfl
  · simp only
    split
    · exact .refl _
    · split
      · exact .of_job rfl rfl rfl
      · split
        · refine AgentFr.trans ?_ (controlHandled_j _ _ _); exact .of_eq rfl rfl rfl
        · exact .of_job rfl rfl rfl
    · refine AgentFr.trans ?_ (awaitNoBytes_j _ _); exact .of_eq rfl rfl rfl

theorem recvStep_j (s : State) (a len) : AgentFr s (s.recvStep a len) := by
  unfold State.recvStep
  split
  · exact .refl _
  · unfold State.recvBytes; split
    · exact .of_job rfl rfl rfl
    · exact .of_job rfl rfl rfl
  · unfold State.recvNoBytes; split
    · exact .of_eq rfl rfl rfl
    all_goals exact .of_job rfl rfl rfl

theorem AgentFr.inv {s t : State} (h : AgentFr s t) (hP : PermitInv s) (hj : jobHolds s.rxJob = 0) : PermitInv t :=
  PermitInv.congr hP h.1 h.2 (by rcases h.3 with e | ⟨e, -⟩ <;> rw [e]; exact hj.symm)

theorem permit_pendingStep {s : State} (hP : PermitInv s) (k) : PermitInv (s.pendingStep k) := by
  have hP0 := hP
  obtain ⟨h1, h2⟩ := hP
  rw [rxHolders_eq] at h1
  unfold State.pendingStep
  split
  · exact hP0
  · next j hk =>
    have hm := List.mem_of_getElem? hk
    split
    · exact hP0
    · next j' s' h =>
      obtain ⟨a1, a2, a3, a4⟩ := send_more_permit h (h2 j hm)
      have hc := countP_set Pending.holdsForRx s.pending k _ (.send j') hk
      simp only [Pending.holdsForRx] at hc
      constructor
      · rw [rxHolders_eq]
        show List.countP _ (s'.pending.set k (.send j')) + jobHolds s'.rxJob = if s'.permit = _ then 1 else 0
        rw [a1, a2]
        rcases a4 with ⟨e1, e2⟩ | ⟨e1, e2, e3⟩
        · rw [e1, ← h1]; rw [e2] at hc; omega
        · rw [e1] at h1
          rw [e2] at hc
          rcases e3 with ⟨f1, f2⟩ | ⟨f1, f2⟩ <;> rw [f1] <;> rw [f2] at hc <;> simp [-List.countP_eq_zero] at hc h1 ⊢ <;> omega
      · intro j2 hj2
        change Pending.send j2 ∈ s'.pending.set k (.send j') at hj2
        rw [a1] at hj2
        rcases List.mem_or_eq_of_mem_set hj2 with hj2 | hj2
        · exact h2 j2 hj2
        · cases hj2; exact a3
    · next r s' h =>
      obtain ⟨a1, a2, a3, a4⟩ := send_done_permit h
      have hc := countP_eraseIdx Pending.holdsForRx s.pending k _ hk
      simp only [Pending.holdsForRx] at hc
      constructor
      · rw [rxHolders_eq]
        show List.countP _ (s'.pending.eraseIdx k) + jobHolds s'.rxJob = if s'.permit = _ then 1 else 0
        rw [a1, a2, a4]
        have hh : j.holdsForRx = (decide (j.issuer = .rx) && !j.opts.nolock) := by simp [SendJob.holdsForRx, a3]
        rw [hh] at hc
        cases hn : j.opts.nolock <;> cases hi : j.issuer <;> cases hp : s.permit <;> rw [hn, hi] at hc <;> rw [hp] at h1 <;> simp [permitOf, -List.countP_eq_zero] at hc h1 ⊢ <;> omega
      · intro j2 hj2
        change Pending.send j2 ∈ s'.pending.eraseIdx k at hj2
        rw [a1] at hj2
        exact h2 j2 (List.mem_of_mem_eraseIdx hj2)
  · next t hk =>
    have hc := countP_eraseIdx Pending.holdsForRx s.pending k _ hk
    simp only [Pending.holdsForRx] at hc
    split
    · next hp =>
      rw [hp] at h1
      constructor
      · rw [rxHolders_eq]
        show List.countP _ (s.pending.eraseIdx k) + jobHolds s.rxJob = 0
        simp [-List.countP_eq_zero] at h1 hc ⊢; omega
      · intro j2 hj2; exact h2 j2 (List.mem_of_mem_eraseIdx hj2)
    · exact hP0

theorem permit_giveUp {s : State} (hP : PermitInv s) (k) : PermitInv (s.giveUpStep k) := by
  have hP0 := hP
  obtain ⟨h1, h2⟩ := hP
  rw [rxHolders_eq] at h1
  unfold State.giveUpStep
  split
  · exact hP0
  · next p hk =>
    have hc := countP_eraseIdx Pending.holdsForRx s.pending k _ hk
    split
    · next hp =>
      have hh : p.holdsForRx = false := by
        cases p with
        | acquire t => rfl
        | send j =>
          have := hp.2
          simp only [Pending.mayGiveUp] at this
          simp only [Pending.holdsForRx, SendJob.holdsForRx]
          split at this
          · next hst _ => simp [hst]
          · cases this
      rw [hh] at hc
      split <;> refine ⟨?_, fun j2 hj2 => h2 j2 (List.mem_of_mem_eraseIdx hj2)⟩
      all_goals
        rw [rxHolders_eq]
        show List.countP _ (s.pending.eraseIdx k) + jobHolds s.rxJob = _
        simp only [Bool.toNat_false] at hc
        rw [show List.countP _ (s.pending.eraseIdx k) = _ from by omega]; exact h1
    · exact hP0

theorem permit_pong {s : State} (hP : PermitInv s) {j} (hj : s.rxJob = .pong j) (hi : j.issuer = .rx) (ho : j.opts.nolock = false) : PermitInv (s.pongStep j) := by
  have hP0 := hP
  obtain ⟨h1, h2⟩ := hP
  rw [rxHolders_eq, hj] at h1
  unfold State.pongStep
  split
  · exact hP0
  · next j' s' h =>
    obtain ⟨a1, a2, a3, a4⟩ := send_more_permit h (fun _ => ho)
    refine ⟨?_, by intro j2 hj2; change _ ∈ s'.pending at hj2; rw [a1] at hj2; exact h2 j2 hj2⟩
    rw [rxHolders_eq]
    show List.countP _ s'.pending + j'.holdsForRx.toNat = if s'.permit = _ then 1 else 0
    change _ + j.holdsForRx.toNat = _ at h1
    rw [a1]
    rcases a4 with ⟨e1, e2⟩ | ⟨e1, e2, e3⟩
    · rw [e1, e2]; exact h1
    · rw [e1, e2] at h1
      rcases e3 with ⟨f1, f2⟩ | ⟨f1, f2⟩ <;> rw [f1, f2] <;> simp [-List.countP_eq_zero] at h1 ⊢ <;> omega
  · next r s' h =>
    obtain ⟨a1, a2, a3, a4⟩ := send_done_permit h
    refine ⟨?_, by intro j2 hj2; change _ ∈ s'.pending at hj2; rw [a1] at hj2; exact h2 j2 hj2⟩
    rw [rxHolders_eq]
    show List.countP _ s'.pending + 0 = if s'.permit = _ then 1 else 0
    rw [a1, a4, ho, hi]
    have hh : j.holdsForRx = true := by simp [SendJob.holdsForRx, a3, hi, ho]
    change _ + j.holdsForRx.toNat = _ at h1
    rw [hh] at h1
    cases hp : s.permit <;> rw [hp] at h1 <;> simp [permitOf, -List.countP_eq_zero] at h1 ⊢ <;>
      omega

/-! ### One command an agent, and ownership -/

/-- What need not wait although an agent is not free only faults: the race checks of `races` are those of the meanings. -/
theorem faultsAtOnce_faults {s : State} {i : Instr} (hb : s.rxJob ≠ .none → s.rxs.busy = true)
    (h : s.faultsAtOnce s.issuer i = true) : ∃ a cmd c, exec i s = .next (ended s a cmd (.fault c)) := by
  have ite_l : ∀ {p : Prop} [Decidable p] {x y : Host.Outcome State Fault Refusal}, p →
      (∃ a cmd c, x = .next (ended s a cmd (.fault c))) → ∃ a cmd c, (if p then x else y) = .next (ended s a cmd (.fault c)) :=
    fun hp hx => by rw [if_pos hp]; exact hx
  have ite_r : ∀ {p : Prop} [Decidable p] {x y : Host.Outcome State Fault Refusal},
      (∃ a cmd c, x = .next (ended s a cmd (.fault c))) → (¬ p → ∃ a cmd c, y = .next (ended s a cmd (.fault c))) →
      ∃ a cmd c, (if p then x else y) = .next (ended s a cmd (.fault c)) := by
    intro p _ x y hx hy; split
    · exact hx
    · exact hy ‹_›
  have R : ∀ {a : Agent} {cmd : BitVec 8} {c : Cause}, ∃ a' cmd' c', s.raise a cmd c = .next (ended s a' cmd' (.fault c')) :=
    fun {a cmd c} => ⟨a, cmd, c, rfl⟩
  cases i <;> simp only [State.faultsAtOnce, State.races, readerCommand, runner, reduceCtorEq, decide_false, decide_true,
    Bool.and_false, Bool.and_true, Bool.or_false, Bool.false_or, Bool.or_eq_true, Bool.and_eq_true, decide_eq_true_eq,
    Bool.false_eq_true] at h
  case parse a n =>
    refine ite_l ?_ R
    rcases h with h | h
    · simp [h]
    · simp [hb h]
  case emit e p => exact ite_l (by simpa [txAgent] using h) R
  case mask p n k pos =>
    show ∃ _ _ _, execMask p n k pos s = _
    unfold execMask
    rw [if_neg h.1]; exact ite_l h.2 R
  case rxmask p n =>
    rcases h with h | h
    · exact ite_r R fun _ => ite_l (by simp [h]) R
    · exact ite_l (hb h) R
  case retire => exact ite_l (hb h) R
  case await => exact ite_l (hb h) R
  case recv p n =>
    rcases h with h | h
    · exact ite_r R fun _ => ite_r R fun _ => ite_l (by simp [h]) R
    · exact ite_l (hb h) R
  case prepare p l f st op ext => exact ite_l (by simpa [txAgent] using h) R
  case sendframe p n t o => exact ite_r R fun _ => ite_l (by simpa [txAgent] using h) R
  case closeenc c p => exact ite_l h R
  case closedec p k =>
    show ∃ _ _ _, execClosedec p k s = _
    unfold execClosedec
    rw [if_neg (by omega)]; exact ite_l h.2 R
  case reservedCmd c l => exact R
/-- The clauses of `AgentInv` but the permit's. -/
structure Apart (s : State) : Prop where
  oneEach : s.atWork.Nodup
  owned   : ∀ j, Pending.send j ∈ s.pending → j.n ≠ 0 → rxRegion j.addr.region = true → j.issuer = .rx
  apart   : ∀ A, s.rxOwns A = true → s.sendOwns A = false

/-- RX, where it has a command in progress. -/
def rxPart (j : RxJob) : List Agent := match j with
  | .none => []
  | _ => [.rx]
theorem atWork_eq (s : State) : s.atWork = s.pending.flatMap Pending.agents ++ rxPart s.rxJob := rfl
theorem rxPart_ne {j : RxJob} (h : j ≠ .none) : rxPart j = [.rx] := by cases j <;> first | rfl | exact absurd rfl h
theorem rxOwns_region {s : State} {A} (h : s.rxJob ≠ .none) (hA : rxRegion A = true) : s.rxOwns A = true := by
  unfold State.rxOwns; cases hj : s.rxJob <;> first | exact absurd hj h | simp [hA]

theorem sublist_flatMap {α β} {f : α → List β} {l m : List α} (h : l.Sublist m) : (l.flatMap f).Sublist (m.flatMap f) := by
  induction h with
  | slnil => exact .slnil
  | cons a h ih => rw [List.flatMap_cons]; exact ih.trans (List.sublist_append_right _ _)
  | cons_cons a h ih => rw [List.flatMap_cons, List.flatMap_cons]; exact List.Sublist.append (List.Sublist.refl _) ih

theorem apart_sub {s t : State} (h : Apart s) (hj : t.rxJob = s.rxJob) (hp : t.pending.Sublist s.pending) : Apart t where
  oneEach := by
    rw [atWork_eq, hj]
    have := h.oneEach; rw [atWork_eq] at this
    exact this.sublist (List.Sublist.append (sublist_flatMap hp) (List.Sublist.refl _))
  owned := fun j hm => h.owned j (hp.subset hm)
  apart := by
    intro A hA
    rw [rxOwns_congr hj] at hA
    have := h.apart A hA
    simp only [State.sendOwns, List.any_eq_false] at this ⊢
    exact fun x hx => this x (hp.subset hx)

theorem set_map {α β} (f : α → β) {l : List α} {k : Nat} {x y : α} (h : l[k]? = some x) (e : f y = f x) : (l.set k y).map f = l.map f := by
  induction l generalizing k with
  | nil => simp at h
  | cons a l ih =>
    cases k with
    | zero => simp at h; subst h; simp [e]
    | succ k => simp at h; simp [ih h]

theorem apart_set {s t : State} (h : Apart s) (hj : t.rxJob = s.rxJob) {k : Nat} {j j' : SendJob} (hk : s.pending[k]? = some (.send j))
    (hp : t.pending = s.pending.set k (.send j')) (h1 : j'.issuer = j.issuer) (h2 : j'.addr = j.addr) (h3 : j'.n = j.n) : Apart t where
  oneEach := by
    rw [atWork_eq, hj, hp, List.flatMap, set_map _ hk (by simp [Pending.agents, h1])]
    have := h.oneEach; rw [atWork_eq, List.flatMap] at this; exact this
  owned := by
    intro i hi; rw [hp] at hi
    rcases List.mem_or_eq_of_mem_set hi with hi | hi
    · exact h.owned i hi
    · cases hi; rw [h1, h2, h3]; exact h.owned j (List.mem_of_getElem? hk)
  apart := by
    intro A hA
    rw [rxOwns_congr hj] at hA
    have := h.apart A hA
    have e : ∀ l : List Pending, l.any (Pending.sendsFrom A) = (l.map (Pending.sendsFrom A)).any id := by simp
    rw [State.sendOwns, e] at this ⊢
    rw [hp, set_map _ hk (by simp [Pending.sendsFrom, h2, h3])]; exact this

theorem apart_congr {s t : State} (h : Apart s) (h1 : t.pending = s.pending) (h2 : t.rxJob = s.rxJob) : Apart t :=
  apart_sub h h2 (by rw [h1])

theorem apart_AgentFr {s t : State} (h : AgentFr s t) (hR : Apart s) (hb : s.rxJob ≠ .none) : Apart t where
  oneEach := by
    have := hR.oneEach
    rw [atWork_eq, rxPart_ne hb] at this
    rw [atWork_eq, h.2]
    by_cases ht : t.rxJob = .none
    · rw [ht]; exact this.sublist (List.Sublist.append (List.Sublist.refl _) (List.nil_sublist _))
    · rw [rxPart_ne ht]; exact this
  owned := by rw [h.2]; exact hR.owned
  apart := by
    intro A hA
    rw [sendOwns_congr h.2]
    rcases h.3 with e | ⟨-, e⟩
    · rw [rxOwns_congr e] at hA; exact hR.apart A hA
    · rcases e A hA with e | e
      · exact hR.apart A (rxOwns_region hb e)
      · exact e

theorem apart_pendingStep {s : State} (h : Apart s) (k) : Apart (s.pendingStep k) := by
  unfold State.pendingStep
  split
  · exact h
  · next j hk =>
    split
    · exact h
    · next j' s' hs =>
      obtain ⟨-, -, -, a1, -, -, a2, a3, a4, a5, -⟩ := sendStep_more hs
      refine apart_set (t := { s' with pending := _ }) h a1 hk (by show List.set _ _ _ = _; rw [a2]) a3 a4 a5
    · next r s' hs =>
      obtain ⟨-, -, -, a1, -, -, a2⟩ := sendStep_done hs
      exact apart_sub h a1 (by show (s'.pending.eraseIdx k).Sublist _; rw [a2]; exact List.eraseIdx_sublist _ _)
  · split
    · exact apart_sub h rfl (List.eraseIdx_sublist _ _)
    · exact h

theorem apart_giveUp {s : State} (h : Apart s) (k) : Apart (s.giveUpStep k) := by
  unfold State.giveUpStep
  split
  · exact h
  · split
    · split <;> exact apart_sub h rfl (List.eraseIdx_sublist _ _)
    · exact h

theorem apart_pong {s : State} (h : Apart s) {j} (hj : s.rxJob = .pong j) : Apart (s.pongStep j) := by
  unfold State.pongStep
  split
  · exact h
  · next j' s' hs =>
    obtain ⟨-, -, -, a1, -, -, a2, a3, a4, a5, -⟩ := sendStep_more hs
    refine ⟨?_, ?_, ?_⟩
    · have := h.oneEach; rw [atWork_eq, hj] at this
      rw [atWork_eq]; show (s'.pending.flatMap _ ++ [Agent.rx]).Nodup; rw [a2]; exact this
    · show ∀ i, _ ∈ s'.pending → _; rw [a2]; exact h.owned
    · intro A hA
      rw [sendOwns_congr (s := s) (t := { s' with rxJob := .pong j' }) a2]
      refine h.apart A ?_
      unfold State.rxOwns; rw [hj]; exact hA
  · next r s' hs =>
    obtain ⟨-, -, -, a1, -, -, a2⟩ := sendStep_done hs
    refine apart_AgentFr (s := s') (.of_job rfl rfl rfl) (apart_congr h a2 a1) (by rw [a1, hj]; simp)

end Sys2Proof.Machine
end

