-- ==== Sys2Proof/Laws/PerInstr.lean ====
section
/-! SUPPORT. One lemma per constructor of `Instr` for each family of LAWS.json. -/
namespace Sys2Proof.Laws

open Sys2Proof

/-- Family RoundTrip: a well-formed instruction decodes from its own encoding. -/
def RoundTrip.Statement (i : Instr) : Prop := i.wellFormed = true → decode (encode i) = .ok i

theorem RoundTrip.of_frame (op : BitVec 4) (h : FrameHdr) (wf : h.wellFormed = true) :
    decode (.header (encodeHeader op h)) = .ok (frameInstr op h) := by
  have := readHeader_encodeHeader op h wf []
  rw [List.append_nil] at this
  simp [decode, this]

theorem RoundTrip.cont (h : FrameHdr) : RoundTrip.Statement (.cont h) := RoundTrip.of_frame 0x0 h
theorem RoundTrip.text (h : FrameHdr) : RoundTrip.Statement (.text h) := RoundTrip.of_frame 0x1 h
theorem RoundTrip.binary (h : FrameHdr) : RoundTrip.Statement (.binary h) := RoundTrip.of_frame 0x2 h
theorem RoundTrip.close (h : FrameHdr) : RoundTrip.Statement (.close h) := RoundTrip.of_frame 0x8 h
theorem RoundTrip.ping (h : FrameHdr) : RoundTrip.Statement (.ping h) := RoundTrip.of_frame 0x9 h
theorem RoundTrip.pong (h : FrameHdr) : RoundTrip.Statement (.pong h) := RoundTrip.of_frame 0xA h
theorem RoundTrip.reservedOp3 (h : FrameHdr) : RoundTrip.Statement (.reservedOp3 h) := RoundTrip.of_frame 0x3 h
theorem RoundTrip.reservedOp4 (h : FrameHdr) : RoundTrip.Statement (.reservedOp4 h) := RoundTrip.of_frame 0x4 h
theorem RoundTrip.reservedOp5 (h : FrameHdr) : RoundTrip.Statement (.reservedOp5 h) := RoundTrip.of_frame 0x5 h
theorem RoundTrip.reservedOp6 (h : FrameHdr) : RoundTrip.Statement (.reservedOp6 h) := RoundTrip.of_frame 0x6 h
theorem RoundTrip.reservedOp7 (h : FrameHdr) : RoundTrip.Statement (.reservedOp7 h) := RoundTrip.of_frame 0x7 h
theorem RoundTrip.reservedOpB (h : FrameHdr) : RoundTrip.Statement (.reservedOpB h) := RoundTrip.of_frame 0xB h
theorem RoundTrip.reservedOpC (h : FrameHdr) : RoundTrip.Statement (.reservedOpC h) := RoundTrip.of_frame 0xC h
theorem RoundTrip.reservedOpD (h : FrameHdr) : RoundTrip.Statement (.reservedOpD h) := RoundTrip.of_frame 0xD h
theorem RoundTrip.reservedOpE (h : FrameHdr) : RoundTrip.Statement (.reservedOpE h) := RoundTrip.of_frame 0xE h
theorem RoundTrip.reservedOpF (h : FrameHdr) : RoundTrip.Statement (.reservedOpF h) := RoundTrip.of_frame 0xF h

theorem RoundTrip.hdrlen (b0 b1 : Byte) : RoundTrip.Statement (.hdrlen b0 b1) := fun _ => by
  simp [decode, encode, readCommand, ok_bind]

theorem RoundTrip.parse (a : Addr) (n : Nat) : RoundTrip.Statement (.parse a n) := fun wf => by
  simp [decode, encode, readCommand, ok_bind, takeLength_of_lt wf]

theorem RoundTrip.opclass (op : BitVec 4) : RoundTrip.Statement (.opclass op) := fun _ => by
  simp [decode, encode, readCommand, ok_bind]

theorem RoundTrip.emit (h : HeaderOp) (a : Addr) : RoundTrip.Statement (.emit h a) := fun wf => by
  simp [decode, encode, readCommand, ok_bind, takeHeaderOp_args h wf]

theorem RoundTrip.mask_operands (a : Addr) (n : Nat) (k : Key) (pos : Nat) (hn : lengthOk n = true)
    (hp : pos < 0x10000000000000000) :
    readCommand 0x05 (a.args ++ [n, k.toNat, pos]) = .ok (.mask a n k pos, []) := by
  show (takeAddr (a.args ++ _) >>= _) = _
  rw [takeAddr_args, ok_bind]
  show (takeLength (n :: _) >>= _) = _
  rw [takeLength_of_lt hn, ok_bind]
  show (takeKey (k.toNat :: _) >>= _) = _
  rw [takeKey_toNat, ok_bind]
  show (takePosition (pos :: _) >>= _) = _
  rw [takePosition_of_lt hp, ok_bind]

theorem RoundTrip.mask (a : Addr) (n : Nat) (k : Key) (pos : Nat) : RoundTrip.Statement (.mask a n k pos) := fun wf => by
  simp only [Instr.wellFormed, Bool.and_eq_true, decide_eq_true_eq] at wf
  simp only [decode, encode, RoundTrip.mask_operands a n k pos wf.1 wf.2]

theorem RoundTrip.rxmask (a : Addr) (n : Nat) : RoundTrip.Statement (.rxmask a n) := fun wf => by
  simp [decode, encode, readCommand, ok_bind, takeLength_of_lt wf]

theorem RoundTrip.retire : RoundTrip.Statement .retire := fun _ => rfl

theorem RoundTrip.await : RoundTrip.Statement .await := fun _ => rfl

theorem RoundTrip.recv (a : Addr) (len : Nat) : RoundTrip.Statement (.recv a len) := fun wf => by
  simp [decode, encode, readCommand, ok_bind, takeLength_of_lt wf]

theorem RoundTrip.prepare (a : Addr) (len : Nat) (fin sent : Bool) (op : BitVec 4) (ext : BitVec 3) :
    RoundTrip.Statement (.prepare a len fin sent op ext) := fun wf => by
  simp [decode, encode, readCommand, ok_bind, takeLength_of_lt wf]

theorem RoundTrip.sendframe (a : Addr) (n : Nat) (t : Timeout) (opts : Opts) :
    RoundTrip.Statement (.sendframe a n t opts) := fun wf => by
  simp only [Instr.wellFormed, Bool.and_eq_true] at wf
  have ho := takeOpts_args opts []
  rw [List.append_nil] at ho
  simp [decode, encode, readCommand, ok_bind, takeLength_of_lt wf.1, takeTimeout_args t wf.2, ho]

theorem RoundTrip.closeenc (c : BitVec 16) (a : Addr) : RoundTrip.Statement (.closeenc c a) := fun _ => by
  simp [decode, encode, readCommand, ok_bind]

theorem RoundTrip.closedec (a : Addr) (k : Nat) : RoundTrip.Statement (.closedec a k) := fun wf => by
  simp [decode, encode, readCommand, ok_bind, takeLength_of_lt wf]

theorem RoundTrip.rdreg (r : BitVec 4) : RoundTrip.Statement (.rdreg r) := fun _ => by
  simp [decode, encode, readCommand, ok_bind]

theorem RoundTrip.acquire (t : Timeout) : RoundTrip.Statement (.acquire t) := fun wf => by
  have ht := takeTimeout_args t wf []
  rw [List.append_nil] at ht
  simp [decode, encode, readCommand, ok_bind, ht]

theorem RoundTrip.release : RoundTrip.Statement .release := fun _ => rfl

theorem RoundTrip.reservedCmd (code : BitVec 8) (args : List Nat) : RoundTrip.Statement (.reservedCmd code args) :=
  fun wf => by simp [decode, encode, readCommand_reserved code wf]

end Sys2Proof.Laws
end

