-- ==== Sys2Proof/Tests/Slice0.lean ====
section
/-! SUPPORT. Tests: the expected results are those of spec/95_test_vectors.md, of the encodings of spec/30_encoding.md, or
worked out by hand from the rule named. After them, a witness for the hypotheses of every statement of
Certificates/Slice0/Obligations.lean. -/
namespace Sys2Proof.Tests

open Sys2Proof Sys2Proof.Machine

/-! ### Small states -/

/-- 95_test_vectors.md: "`K` = 37 FA 21 3D unless stated". -/
def K : Key := ⟨0x37, 0xFA, 0x21, 0x3D⟩

/-- A server after reset, with a DST of 8 bytes. -/
def srv : State := { State.reset with sizes := { State.reset.sizes with dst := 8 } }

/-- A client after reset whose next key draw is K. -/
def cli : State := { srv with cfg := ⟨true, 0⟩, keyDraws := [K] }

/-- A header with LEN = 5, masked with K. -/
def h5 (rem : BitVec 64) : Hdr :=
  { valid := true, fin := true, rsv := 0, opcode := 1, masked := true, len := 5, key := K, rem := rem }

/-- In `DATA` with that header. -/
def inData (rem : BitVec 64) : State := { srv with hdr := h5 rem, rxs := { srv.rxs with phase := .data } }

/-- AWAIT has just started. -/
def waiting : State := { srv with rxs := { srv.rxs with busy := true, phase := .hdr2, hneed := 2 }, rxJob := .header }

/-- AWAIT has the first two bytes 81 85 of a six-byte header. -/
def waitingRest : State :=
  { srv.memWrite .scratch 0 [0x81, 0x85] with
    rxs := { srv.rxs with busy := true, phase := .hdrrest, hcnt := 2, hneed := 6 }, rxJob := .header }

/-- AWAIT reads the payload of a control frame masked with 01 02 03 04. -/
def inCtrl (op : BitVec 4) (len : BitVec 64) : State :=
  { srv with
    hdr := { valid := true, fin := true, rsv := 0, opcode := op, masked := true, len := len, key := ⟨1, 2, 3, 4⟩, rem := len }
    rxs := { srv.rxs with busy := true, phase := .ctrl }, rxJob := .ctrl 0 }

/-- The last result a step leaves. -/
def res (o : Host.Outcome State Fault Refusal) : Option Result :=
  match o with
  | .next t => t.results.getLast?.map (·.result)
  | _ => none

/-- What f sees of the next state. -/
def see {α : Type} (f : State → α) (o : Host.Outcome State Fault Refusal) : Option α :=
  match o with
  | .next t => some (f t)
  | _ => none

def put (A : Region) (o : Nat) (bs : List Byte) (s : State) : State := s.memWrite A o bs

/-! ### WellFormed: an ill-formed term for each check -/

theorem test_wf_short_above_125 : (Instr.text ⟨true, 0, .short 126, none⟩).wellFormed = false := by decide
theorem test_wf_length : (Instr.parse ⟨.scratch, 0⟩ 0x8000000000000000).wellFormed = false ∧
    (Instr.mask ⟨.dst, 0⟩ 0x8000000000000000 K 0).wellFormed = false ∧
    (Instr.rxmask ⟨.dst, 0⟩ 0x8000000000000000).wellFormed = false ∧
    (Instr.recv ⟨.dst, 0⟩ 0x8000000000000000).wellFormed = false ∧
    (Instr.prepare ⟨.send, 16⟩ 0x8000000000000000 true false 1 0).wellFormed = false ∧
    (Instr.sendframe ⟨.send, 16⟩ 0x8000000000000000 .inf ⟨false, false, false⟩).wellFormed = false ∧
    (Instr.closedec ⟨.inClose, 0⟩ 0x8000000000000000).wellFormed = false ∧
    (Instr.parse ⟨.scratch, 0⟩ 0x7FFFFFFFFFFFFFFF).wellFormed = true := by decide
theorem test_wf_header_len : (Instr.emit ⟨true, 0, 2, 0x10000000000000000, none⟩ ⟨.send, 16⟩).wellFormed = false := by
  decide
theorem test_wf_position : (Instr.mask ⟨.dst, 0⟩ 1 K 0x10000000000000000).wellFormed = false := by decide
theorem test_wf_timeout : (Instr.acquire (.finite 0)).wellFormed = false ∧
    (Instr.sendframe ⟨.send, 16⟩ 1 (.finite 0) ⟨false, false, false⟩).wellFormed = false := by decide
theorem test_wf_reserved_code : (Instr.reservedCmd 0x10 []).wellFormed = false := by decide

/-! ### Decoding (30_encoding.md R70 to R76, R77, R79, R85) -/

theorem test_decode_cont : decode (.header [0x80, 0x82, 0x11, 0x22, 0x33, 0x44])
    = .ok (.cont ⟨true, 0, .short 2, some ⟨0x11, 0x22, 0x33, 0x44⟩⟩) := by decide
theorem test_decode_text : decode (.header [0x81, 0x85, 0x37, 0xFA, 0x21, 0x3D])
    = .ok (.text ⟨true, 0, .short 5, some K⟩) := by decide
theorem test_decode_binary : decode (.header [0x82, 0xFF, 0, 0, 0, 0, 0, 1, 0, 0, 1, 2, 3, 4])
    = .ok (.binary ⟨true, 0, .ext64 65536, some ⟨1, 2, 3, 4⟩⟩) := by decide
theorem test_decode_close : decode (.header [0x88, 0x02]) = .ok (.close ⟨true, 0, .short 2, none⟩) := by decide
theorem test_decode_ping : decode (.header [0x89, 0x7E, 0x00, 0x7D]) = .ok (.ping ⟨true, 0, .ext16 125, none⟩) := by
  decide
theorem test_decode_pong : decode (.header [0x0A, 0x7D]) = .ok (.pong ⟨false, 0, .short 125, none⟩) := by decide
theorem test_decode_reserved3 : decode (.header [0xC3, 0x00]) = .ok (.reservedOp3 ⟨true, 0b100, .short 0, none⟩) := by
  decide
theorem test_decode_reserved4 : decode (.header [0xA4, 0x00]) = .ok (.reservedOp4 ⟨true, 0b010, .short 0, none⟩) := by
  decide
theorem test_decode_reserved5 : decode (.header [0x95, 0x00]) = .ok (.reservedOp5 ⟨true, 0b001, .short 0, none⟩) := by
  decide
theorem test_decode_reserved6 : decode (.header [0x06, 0x01]) = .ok (.reservedOp6 ⟨false, 0, .short 1, none⟩) := by
  decide
theorem test_decode_reserved7 : decode (.header [0x87, 0x00]) = .ok (.reservedOp7 ⟨true, 0, .short 0, none⟩) := by decide
theorem test_decode_reservedB : decode (.header [0x8B, 0x00]) = .ok (.reservedOpB ⟨true, 0, .short 0, none⟩) := by decide
theorem test_decode_reservedC : decode (.header [0x8C, 0x00]) = .ok (.reservedOpC ⟨true, 0, .short 0, none⟩) := by decide
theorem test_decode_reservedD : decode (.header [0x8D, 0x00]) = .ok (.reservedOpD ⟨true, 0, .short 0, none⟩) := by decide
theorem test_decode_reservedE : decode (.header [0x8E, 0x00]) = .ok (.reservedOpE ⟨true, 0, .short 0, none⟩) := by decide
theorem test_decode_reservedF : decode (.header [0xFF, 0x7E, 0x12, 0x34])
    = .ok (.reservedOpF ⟨true, 0b111, .ext16 0x1234, none⟩) := by decide
theorem test_decode_hdrlen : decode (.command ⟨0x01, [0x81, 0xFE]⟩) = .ok (.hdrlen 0x81 0xFE) := by decide
theorem test_decode_parse : decode (.command ⟨0x02, [0, 3, 6]⟩) = .ok (.parse ⟨.scratch, 3⟩ 6) := by decide
theorem test_decode_opclass : decode (.command ⟨0x03, [0x9]⟩) = .ok (.opclass 0x9) := by decide
theorem test_decode_emit : decode (.command ⟨0x04, [1, 0, 1, 1, 2, 0x37FA213D, 1, 16]⟩)
    = .ok (.emit ⟨true, 0, 1, 2, some K⟩ ⟨.send, 16⟩) := by decide
theorem test_decode_mask : decode (.command ⟨0x05, [8, 0, 2, 0x37FA213D, 5]⟩) = .ok (.mask ⟨.dst, 0⟩ 2 K 5) := by decide
theorem test_decode_rxmask : decode (.command ⟨0x06, [8, 3, 2]⟩) = .ok (.rxmask ⟨.dst, 3⟩ 2) := by decide
theorem test_decode_retire : decode (.command ⟨0x07, []⟩) = .ok .retire := by decide
theorem test_decode_await : decode (.command ⟨0x08, []⟩) = .ok .await := by decide
theorem test_decode_recv : decode (.command ⟨0x09, [8, 0, 5]⟩) = .ok (.recv ⟨.dst, 0⟩ 5) := by decide
theorem test_decode_prepare : decode (.command ⟨0x0A, [1, 16, 3, 1, 0, 2, 4]⟩)
    = .ok (.prepare ⟨.send, 16⟩ 3 true false 0x2 0b100) := by decide
theorem test_decode_sendframe : decode (.command ⟨0x0B, [7, 14, 4, 2, 9, 6]⟩)
    = .ok (.sendframe ⟨.outClose, 14⟩ 4 (.finite 9) ⟨false, true, true⟩) := by decide
theorem test_decode_closeenc : decode (.command ⟨0x0C, [1002, 7, 16]⟩) = .ok (.closeenc 1002 ⟨.outClose, 16⟩) := by decide
theorem test_decode_closedec : decode (.command ⟨0x0D, [4, 0, 2]⟩) = .ok (.closedec ⟨.inClose, 0⟩ 2) := by decide
theorem test_decode_rdreg : decode (.command ⟨0x0E, [5]⟩) = .ok (.rdreg 5) := by decide
theorem test_decode_acquire : decode (.command ⟨0x0F, [1]⟩) = .ok (.acquire .inf) := by decide
theorem test_decode_release : decode (.command ⟨0x10, []⟩) = .ok .release := by decide
theorem test_decode_reservedCmd : decode (.command ⟨0x00, [1, 2]⟩) = .ok (.reservedCmd 0x00 [1, 2]) ∧
    decode (.command ⟨0x11, []⟩) = .ok (.reservedCmd 0x11 []) := by decide
theorem test_decode_rejects : decode (.header [0x81]) = .error .truncatedHeader ∧
    decode (.header [0x81, 0x80, 1, 2, 3]) = .error .truncatedHeader ∧
    decode (.header [0x81, 0x00, 0x00]) = .error .bytesAfterHeader ∧
    decode (.command ⟨0x02, [0, 3]⟩) = .error .missingOperand ∧
    decode (.command ⟨0x03, [16]⟩) = .error .operandOutOfRange ∧
    decode (.command ⟨0x07, [0]⟩) = .error .operandsAfterLast := by decide

/-! ### Reset (70_reset_and_hazards.md R142) -/

theorem test_reset_registers : State.reset.readReg 0x1 = .ok (.reg32 0) ∧ State.reset.readReg 0x2 = .fault .noHeader ∧
    State.reset.readReg 0x5 = .ok (.reg32 0) ∧ State.reset.readReg 0x6 = .ok (.reg32 0) := by decide
theorem test_reset_memory : State.reset.mem.wf = true ∧ State.reset.mem = Memory.empty := by decide

/-! ### Header codec (95_test_vectors.md 2.1 to 2.4) -/

theorem test_hdrlen : res (exec (.hdrlen 0x81 0x7E) srv) = some (.ok (.nat 4)) ∧
    res (exec (.hdrlen 0x0F 0x7F) srv) = some (.ok (.nat 10)) ∧
    res (exec (.hdrlen 0x81 0xFE) srv) = some (.ok (.nat 8)) ∧
    res (exec (.hdrlen 0x81 0xFF) srv) = some (.ok (.nat 14)) := by decide

/-- PARSE of bytes at SCRATCH:0. -/
def parsed (bs : List Byte) (n : Nat) : Host.Outcome State Fault Refusal :=
  exec (.parse ⟨.scratch, 0⟩ n) (put .scratch 0 bs srv)

theorem test_parse_loads :
    see (fun t => (t.hdr.masked, t.hdr.len, t.hdr.key, t.hdr.rem)) (parsed [0x81, 0x85, 0x37, 0xFA, 0x21, 0x3D] 6)
      = some (true, 5, K, 5) ∧
    see (fun t => t.hdr.len) (parsed [0x82, 0x7F, 0x7F, 0xFF, 0xFF, 0xFF, 0xFF, 0xFF, 0xFF, 0xFF] 10)
      = some 0x7FFFFFFFFFFFFFFF ∧
    see (fun t => t.hdr.len) (parsed [0x82, 0x7E, 0xFF, 0xFE] 4) = some 65534 := by decide
theorem test_parse_faults :
    res (parsed [0x82, 0x7F, 0x80, 0, 0, 0, 0, 0, 0, 0] 10) = some (.fault .len64Msb) ∧
    res (parsed [0x89, 0x7E, 0x00, 0x7E] 4) = some (.fault .ctrlTooLong) ∧
    res (parsed [0x09, 0x00] 2) = some (.fault .ctrlFragmented) ∧
    res (parsed [0xF3, 0x7F, 0x80, 0, 0, 0, 0, 0, 0, 0] 10) = some (.fault .rsvNotPermitted) ∧
    res (parsed [0x83, 0x7F, 0x80, 0, 0, 0, 0, 0, 0, 0] 10) = some (.fault .badOpcode) ∧
    res (parsed [0x81, 0x85, 0x37, 0xFA, 0x21] 5) = some (.fault .truncated) := by decide

theorem test_opclass : (List.range 16).map (fun n => opClass (BitVec.ofNat 4 n))
    = [.data, .data, .data, .reserved, .reserved, .reserved, .reserved, .reserved, .control, .control, .control, .reserved,
       .reserved, .reserved, .reserved, .reserved] ∧
    res (exec (.opclass 0x9) srv) = some (.ok (.cls .control)) := by decide

theorem test_emit_writes :
    see (fun t => t.mem.send) (exec (.emit ⟨true, 0, 1, 2, some K⟩ ⟨.send, 16⟩) srv)
      = some [(10, 0x81), (11, 0x82), (12, 0x37), (13, 0xFA), (14, 0x21), (15, 0x3D)] ∧
    see (fun t => t.mem.send) (exec (.emit ⟨true, 0, 2, 65536, none⟩ ⟨.send, 16⟩) srv)
      = some [(6, 0x82), (7, 0x7F), (8, 0), (9, 0), (10, 0), (11, 0), (12, 0), (13, 1), (14, 0), (15, 0)] ∧
    res (exec (.emit ⟨true, 0, 2, 126, none⟩ ⟨.send, 16⟩) srv) = some (.ok (.frame 12 4)) := by decide
theorem test_emit_faults :
    res (exec (.emit ⟨false, 0, 8, 2, none⟩ ⟨.send, 16⟩) srv) = some (.fault .emitInvalid) ∧
    res (exec (.emit ⟨true, 0, 9, 126, none⟩ ⟨.send, 16⟩) srv) = some (.fault .emitInvalid) ∧
    res (exec (.emit ⟨true, 0b100, 2, 0, none⟩ ⟨.send, 16⟩) srv) = some (.fault .emitInvalid) ∧
    res (exec (.emit ⟨true, 0, 2, 0x8000000000000000, none⟩ ⟨.send, 16⟩) srv) = some (.fault .emitInvalid) ∧
    res (exec (.emit ⟨true, 0, 2, 126, none⟩ ⟨.send, 3⟩) srv) = some (.fault .bounds) := by decide

/-! ### Mask engine (2.5, 2.6) -/

theorem test_mask_xors :
    see (fun t => t.mem.dst) (exec (.mask ⟨.dst, 0⟩ 6 K 0) (put .dst 0 [0, 1, 2, 3, 4, 5] srv))
      = some [(0, 0x37), (1, 0xFB), (2, 0x23), (3, 0x3E), (4, 0x33), (5, 0xFF)] ∧
    see (fun t => t.mem.dst) (exec (.mask ⟨.dst, 0⟩ 2 K 5) (put .dst 0 [0x48, 0x69] srv))
      = some [(0, 0xB2), (1, 0x48)] ∧
    res (exec (.mask ⟨.dst, 0⟩ 5 K 0) srv) = some (.ok (.nat 1)) := by decide
theorem test_mask_corners :
    res (exec (.mask ⟨.dst, 99⟩ 0 K 6) srv) = some (.ok (.nat 2)) ∧
    res (exec (.mask ⟨.dst, 7⟩ 2 K 0) srv) = some (.fault .bounds) := by decide

theorem test_rxmask_carries_position :
    see (fun t => (t.mem.dst, t.hdr.rem)) (exec (.rxmask ⟨.dst, 0⟩ 3) (put .dst 0 [0x7F, 0x9F, 0x4D] (inData 5)))
      = some ([(0, 0x48), (1, 0x65), (2, 0x6C)], 2) ∧
    see (fun t => (t.mem.dst, t.hdr.rem)) (exec (.rxmask ⟨.dst, 3⟩ 2) (put .dst 3 [0x51, 0x58] (inData 2)))
      = some ([(3, 0x6C), (4, 0x6F)], 0) := by decide
theorem test_rxmask_faults :
    res (exec (.rxmask ⟨.dst, 0⟩ 3) (inData 2)) = some (.fault .rxOverrun) ∧
    res (exec (.rxmask ⟨.dst, 0⟩ 0) (inData 2)) = some (.ok (.nat 2)) ∧
    res (exec (.rxmask ⟨.dst, 0⟩ 1) srv) = some (.fault .noHeader) ∧
    res (exec (.rxmask ⟨.dst, 0⟩ 1) waiting) = some (.fault .stateBusy) ∧
    res (exec (.rxmask ⟨.dst, 7⟩ 2) (inData 2)) = some (.fault .bounds) := by decide

theorem test_retire_drops :
    see (fun t => (t.hdr.valid, t.rxs.phase, t.results.map (·.result))) (exec .retire (inData 0))
      = some (false, .idle, [.ok (.nat 1)]) := by decide
theorem test_retire_keeps :
    see (fun t => (t.hdr.valid, t.rxs.phase, t.results.map (·.result))) (exec .retire (inData 2))
      = some (true, .data, [.ok (.nat 0)]) ∧
    res (exec .retire srv) = some (.ok (.nat 0)) ∧ res (exec .retire waiting) = some (.fault .stateBusy) := by decide

/-! ### AWAIT and the frame opcodes (2.7) -/

theorem test_await_starts :
    see (fun t => (t.rxs.phase, t.rxs.busy, t.rxs.hneed, t.hdr.valid)) (exec .await (inData 0))
      = some (.hdr2, true, 2, false) := by decide
theorem test_await_faults :
    res (exec .await (inData 3)) = some (.fault .statePending) ∧ res (exec .await waiting) = some (.fault .stateBusy) ∧
    res (exec .await { srv with rxs := { srv.rxs with phase := .closed } }) = some (.fault .notReceiving) ∧
    res (exec .await { srv with rxs := { srv.rxs with phase := .faulted, fault := true, cause := .len64Msb } })
      = some (.fault .len64Msb) := by decide

/-- RX's next read step, with an answer. -/
def rxTurn (a : RxAnswer) (s : State) : Host.Outcome State Fault Refusal := step { s with turns := [.rx], rxIn := [a] }

theorem test_header_reads :
    see (fun t => (t.rxs.phase, t.rxs.hcnt, t.rxs.hneed, t.rxIn)) (rxTurn (.bytes [0x81, 0xFE, 0x00]) waiting)
      = some (.hdrrest, 2, 8, [.bytes [0x00]]) ∧
    see (fun t => (t.rxs.phase, t.rxs.hcnt, t.rxs.hneed)) (rxTurn (.bytes [0x37]) waitingRest)
      = some (.hdrrest, 3, 6) := by decide
theorem test_header_outcomes :
    see (fun t => (t.rxs.phase, t.results.map (·.result))) (rxTurn .eof waiting) = some (.eof, [.ok .ended]) ∧
    see (fun t => (t.rxs.word, t.events)) (rxTurn .eof waitingRest)
      = some (0x00000887#32, [.faultRx .unexpectedEof]) ∧
    see (fun t => (t.rxs.phase, t.results.map (·.result))) (rxTurn .cancelled waiting)
      = some (.idle, [.fault .cancelled]) ∧
    see (fun t => t.rxs.cause.code) (rxTurn .ioerror waiting) = some 9 := by decide

theorem test_text_step :
    see (fun t => (t.rxs.phase, t.rxs.busy, t.hdr.len, t.hdr.key)) (rxTurn (.bytes [0x37, 0xFA, 0x21, 0x3D]) waitingRest)
      = some (.data, false, 5, K) := by decide
theorem test_cont : see (fun t => (t.hdr.opcode, t.events)) (exec (.cont ⟨true, 0, .short 2, none⟩) waiting)
    = some (0x0, [.activity]) := by decide
theorem test_binary : see (fun t => (t.hdr.opcode, t.hdr.len, t.rxs.phase))
    (exec (.binary ⟨false, 0, .ext16 5, none⟩) waiting) = some (0x2, 5, .data) := by decide
theorem test_close_empty :
    see (fun t => (t.rxs.phase, t.events)) (exec (.close ⟨true, 0, .short 0, none⟩) waiting)
      = some (.closed, [.activity, .closeRx 1000, .activity]) := by decide
theorem test_close_code : see (fun t => (t.rxs.phase, t.events))
    (rxTurn (.bytes [0x02, 0xF1]) (inCtrl 0x8 5)) = some (.closed, [.closeRx 1011, .activity]) := by decide
theorem test_ping_empty : see (fun t => (t.mem.outPong, t.rxJob)) (exec (.ping ⟨true, 0, .short 0, none⟩) waiting)
    = some ([(14, 0x8A), (15, 0x00)], .pong ⟨.rx, ⟨.outPong, 14⟩, 2, .inf, ⟨false, true, false⟩, .acquire⟩) := by decide
theorem test_ping_masked_by_client :
    see (fun t => t.mem.outPong) (rxTurn (.bytes [0x40, 0x40, 0x40, 0x40])
      { inCtrl 0x9 4 with cfg := ⟨true, 0⟩, keyDraws := [⟨0xA1, 0xB2, 0xC3, 0xD4⟩] })
      = some [(10, 0x8A), (11, 0x84), (12, 0xA1), (13, 0xB2), (14, 0xC3), (15, 0xD4), (16, 0xE0), (17, 0xF0), (18, 0x80),
              (19, 0x90)] := by decide
theorem test_pong_reports : see (fun t => (t.events, t.rxs.phase, t.rxs.hneed))
    (rxTurn (.bytes [0x00, 0x00]) (inCtrl 0xA 2)) = some ([.pongRx [0x01, 0x02], .activity], .hdr2, 2) := by decide
theorem test_pong_fragmented : see (fun t => t.rxs.cause.code) (exec (.pong ⟨false, 0, .short 0, none⟩) waiting)
    = some 4 := by decide
theorem test_reserved_opcodes :
    [Instr.reservedOp3, .reservedOp4, .reservedOp5, .reservedOp6, .reservedOp7, .reservedOpB, .reservedOpC, .reservedOpD,
     .reservedOpE, .reservedOpF].map (fun c => see (fun t => (t.rxs.phase, t.rxs.cause))
       (exec (c ⟨true, 0, .short 0, none⟩) waiting))
      = List.replicate 10 (some (.faulted, .badOpcode)) := by decide

/-! ### RECV (2.8) -/

/-- RECV of len bytes into `DST:0` is in progress. -/
def recving (rem : BitVec 64) (len : Nat) : State :=
  { srv with hdr := h5 rem, rxs := { srv.rxs with phase := .data, busy := true }, rxJob := .recv ⟨.dst, 0⟩ len }

theorem test_recv_read :
    see (fun t => (t.mem.dst, t.hdr.rem, t.rxs.busy))
      (rxTurn (.bytes [0x7F, 0x9F, 0x4D]) (recving 5 5))
      = some ([(0, 0x48), (1, 0x65), (2, 0x6C)], 2, false) ∧
    see (fun t => t.rxs.cause)
      (rxTurn .eof (recving 5 5))
      = some .unexpectedEof := by decide
theorem test_recv_issue :
    see (fun t => (t.rxs.busy, t.rxJob)) (exec (.recv ⟨.dst, 3⟩ 2) (inData 2)) = some (true, .recv ⟨.dst, 3⟩ 2) ∧
    res (exec (.recv ⟨.dst, 0⟩ 3) (inData 2)) = some (.fault .rxOverrun) ∧
    res (exec (.recv ⟨.dst, 0⟩ 0) (inData 2)) = some (.ok (.nat 0)) ∧
    res (exec (.recv ⟨.dst, 7⟩ 2) (inData 2)) = some (.fault .bounds) ∧
    res (exec (.recv ⟨.dst, 0⟩ 1) srv) = some (.fault .noHeader) := by decide

/-! ### Close codes (2.9) -/

theorem test_closeenc : see (fun t => t.mem.outClose) (exec (.closeenc 1002 ⟨.outClose, 16⟩) srv)
    = some [(16, 0x03), (17, 0xEA)] ∧
    res (exec (.closeenc 1002 ⟨.outClose, 140⟩) srv) = some (.fault .bounds) := by decide
theorem test_closedec : res (exec (.closedec ⟨.inClose, 0⟩ 3) (put .inClose 0 [0x03, 0xF3, 0x41] srv))
    = some (.ok (.code 1011)) ∧ res (exec (.closedec ⟨.inClose, 0⟩ 1) srv) = some (.ok (.code 1000)) := by decide

/-! ### Transmit (2.10) -/

theorem test_prepare_client :
    see (fun t => (t.mem.send, t.keyDraws)) (exec (.prepare ⟨.send, 16⟩ 2 true false 0x1 0) (put .send 16 [0x48, 0x69] cli))
      = some ([(10, 0x81), (11, 0x82), (12, 0x37), (13, 0xFA), (14, 0x21), (15, 0x3D), (16, 0x7F), (17, 0x93)], []) := by
  decide
theorem test_prepare_server :
    see (fun t => t.mem.send) (exec (.prepare ⟨.send, 16⟩ 3 true true 0x2 0) srv) = some [(14, 0x80), (15, 0x03)] ∧
    res (exec (.prepare ⟨.send, 16⟩ 0 true true 0x8 0) srv) = some (.fault .emitInvalid) ∧
    res (exec (.prepare ⟨.send, 16⟩ 4097 true false 0x1 0) srv) = some (.fault .bounds) := by decide

/-- A SENDFRAME of `SEND[10 .. 18)` by TX. -/
def job (o : Opts) (st : SendStage) : SendJob :=
  { issuer := .tx, addr := ⟨.send, 10⟩, n := 2, timeout := .inf, opts := o, stage := st }

/-- It takes its next step. -/
def sendTurn (j : SendJob) (p : Permit) (tx : List TxAnswer) (can : Bool) : Host.Outcome State Fault Refusal :=
  step { put .send 10 [0x82, 0x00] srv with turns := [.pending 0], pending := [.send j], permit := p, txIn := tx,
                                            canSend := can }

theorem test_sendframe_issue :
    see (fun t => (t.permit, t.pending)) (exec (.sendframe ⟨.send, 10⟩ 2 .inf ⟨false, false, false⟩) { srv with issuer := .tx })
      = some (.host, [.send (job ⟨false, false, false⟩ .check)]) ∧
    res (exec (.sendframe ⟨.send, 10⟩ 2 .zero ⟨false, false, false⟩) { srv with permit := .rx }) = some (.ok (.bool false)) ∧
    res (exec (.sendframe ⟨.send, 10⟩ 2 .zero ⟨true, false, false⟩) srv) = some (.fault .notHeld) := by decide
theorem test_sendframe_steps :
    see (fun t => t.txOut) (sendTurn (job ⟨false, false, false⟩ .write) .host [.ok] true) = some [0x82, 0x00] ∧
    see (fun t => (t.permit, t.events, t.results.map (·.result)))
      (sendTurn (job ⟨false, false, false⟩ (.finish (.ioerror 1))) .host [] true)
      = some (.free, [.txError .txIo], [.fault .txIo]) ∧
    res (sendTurn (job ⟨false, false, false⟩ .check) .host [] false) = some (.fault .closedTx) ∧
    res (sendTurn (job ⟨false, true, false⟩ .check) .host [] false) = some (.ok (.bool false)) ∧
    see (fun t => t.pending) (sendTurn (job ⟨false, false, true⟩ .check) .host [] false)
      = some [.send (job ⟨false, false, true⟩ .write)] := by decide

theorem test_acquire : see (fun t => (t.permit, t.results.map (·.result))) (exec (.acquire .zero) srv)
    = some (.host, [.ok (.bool true)]) ∧
    res (exec (.acquire .zero) { srv with permit := .host }) = some (.fault .stateBusy) ∧
    res (exec (.acquire .zero) { srv with permit := .rx }) = some (.ok (.bool false)) := by decide
theorem test_release : see (fun t => (t.permit, t.results.map (·.result))) (exec .release { srv with permit := .host })
    = some (.free, [.ok .done]) ∧ res (exec .release srv) = some (.fault .notHeld) := by decide

/-! ### RDREG, reserved codes (2.11), table words -/

theorem test_rdreg : [0x1, 0x2, 0x3, 0x4].map (fun r => res (exec (.rdreg r)
      { srv with hdr := { h5 5 with key := K } }))
    = [some (.ok (.reg32 0x00008181)), some (.ok (.reg64 5)), some (.ok (.reg32 0x37FA213D)), some (.ok (.reg64 5))] ∧
    res (exec (.rdreg 0x0) cli) = some (.ok (.reg32 1)) := by decide
theorem test_rdreg_faults : res (exec (.rdreg 0x3) { srv with hdr := { h5 5 with masked := false } })
    = some (.fault .noHeader) ∧ res (exec (.rdreg 0x7) srv) = some (.fault .badReg) ∧
    res (exec (.rdreg 0x2) srv) = some (.fault .noHeader) := by decide
theorem test_reserved_command : res (exec (.reservedCmd 0x11 []) srv) = some (.fault .badCmd) ∧
    res (exec (.reservedCmd 0x00 [1]) srv) = some (.fault .badCmd) := by decide
theorem test_table_words : decodeTableWord 8 0x08 = some .await ∧
    decodeTableWord 16 0x0089 = some (.ping ⟨true, 0, .short 0, none⟩) ∧
    see (fun t => t.rxJob) (step (State.reset.withFetchWord 8 0x08)) = some .header ∧
    see (fun t => t.rxs.phase) (step (State.reset.withFetchWord 48 0x3D21FA378581)) = some .data := by decide

/-! ### The host's pseudo-operations (42_dispatch.md R125 to R127) -/

/-- A SENDFRAME of TX from the region that waits for the transport. -/
def sending (A : Region) : Pending := .send ⟨.tx, ⟨A, 0⟩, 8, .inf, ⟨false, false, false⟩, .write⟩

theorem test_closeframe : closeFrame 1002 =
    [.command .host ⟨0x0F, [1]⟩, .command .host ⟨0x0C, [1002, 7, 16]⟩,
     .prepareAndSend ⟨.outClose, 16⟩ 2 true false 0x8 0 .zero ⟨true, true, true⟩, .command .host ⟨0x10, []⟩] := by decide
theorem test_pingframe :
    see (fun t => (t.mem.outPing, t.hostResults, t.turns)) (step { srv with turns := pingFrame [1, 2] .inf })
      = some ([(16, 1), (17, 2)], [.ok .done],
        [.prepareAndSend ⟨.outPing, 16⟩ 2 true false 0x9 0 .inf ⟨false, false, false⟩]) := by decide
theorem test_pingframe_stops :
    see (fun t => (t.hostResults, t.turns)) (step { srv with turns := pingFrame [1] .inf, pending := [sending .outPing] })
      = some ([.fault .stateBusy], []) := by decide
theorem test_pingframe_long (p : List Byte) (h : p.length = 126) :
    srv.pingFrame p .inf = { srv with hostResults := [.fault .emitInvalid] } := if_pos (by rw [h]; decide)
theorem test_dataframe :
    see (fun t => (t.turns, t.sendPrepared)) (step { srv with turns := dataFrame 3 false true 2 0 .zero ⟨false, false, false⟩ })
      = some ([.command .host ⟨0x0B, [1, 14, 5, 0, 0]⟩], true) := by decide
/-- R127 takes (s, n) from PREPARE's result; a fault gives none. -/
theorem test_dataframe_fault :
    see (fun t => (t.turns, t.results, t.txOut))
      (step { srv with turns := dataFrame 3 true false 2 0b100 .inf ⟨false, false, false⟩ })
      = some ([], [⟨.host, 0x0A, .fault .emitInvalid⟩], []) := by decide

/-! ### Ownership and waiting (20_memory.md R47, R60, R62; 70_reset_and_hazards.md R151) -/

/-- TX owns no region of RX, and RX none of TX; `OUT_PONG` is written by no command. -/
theorem test_foreign_region :
    res (exec (.emit ⟨true, 0, 1, 2, none⟩ ⟨.scratch, 2⟩) { srv with issuer := .tx }) = some (.fault .stateBusy) ∧
    res (exec (.mask ⟨.inPing, 0⟩ 1 K 0) { srv with issuer := .tx }) = some (.fault .stateBusy) ∧
    res (exec (.emit ⟨true, 0, 1, 2, none⟩ ⟨.send, 16⟩) { srv with issuer := .rx }) = some (.fault .stateBusy) ∧
    res (exec (.closeenc 1000 ⟨.outPong, 16⟩) srv) = some (.fault .stateBusy) := by decide
/-- From PREPARE until its SENDFRAME ends nothing else writes `SEND`. -/
theorem test_send_is_kept :
    res (exec (.emit ⟨true, 0, 1, 2, none⟩ ⟨.send, 16⟩) { srv with sendPrepared := true }) = some (.fault .stateBusy) ∧
    see (fun t => t.sendPrepared) (exec (.prepare ⟨.send, 16⟩ 3 true false 2 0) srv) = some true ∧
    see (fun t => t.sendPrepared) (step { srv with turns := [.pending 0], permit := .host, sendPrepared := true
                                                   pending := [.send (job ⟨false, false, false⟩ (.finish .ok))] })
      = some false := by decide
theorem test_host_write_race :
    see (fun t => (t.hostResults, t.mem.scratch)) (step { waiting with turns := [.hostWrite ⟨.scratch, 0⟩ [7]] })
      = some ([.fault .stateBusy], []) := by decide
/-- TX's second command waits for its first; the host's goes on. -/
theorem test_command_waits :
    see (fun t => (t.results.map (·.cmd), t.turns))
      (step { srv with pending := [sending .send]
                       turns := [.command .tx ⟨0x0E, [5]⟩, .command .tx ⟨0x0E, [6]⟩, .command .host ⟨0x0E, [5]⟩] })
      = some ([0x0E], [.command .tx ⟨0x0E, [5]⟩, .command .tx ⟨0x0E, [6]⟩]) := by decide
theorem test_parse_faulted :
    res (exec (.parse ⟨.hbuf, 0⟩ 2) { srv with rxs := { srv.rxs with phase := .faulted, fault := true, cause := .len64Msb } })
      = some (.fault .len64Msb) := by decide
/-- A header that is not valid has no `MASKED` to read (10_state.md R26). -/
theorem test_rxmask_without_header :
    res (exec (.rxmask ⟨.dst, 0⟩ 1) { inData 5 with
      hdr := { h5 5 with valid := false }, pending := [sending .dst] })
      = some (.fault .noHeader) := by decide

/-! ### Witnesses: inputs that meet the hypotheses of a statement together, clause by clause where it has clauses -/

/-- The invariant of a small state, by its parts. -/
theorem inv_small {s : State} (h : HdrInv s.cfg s.hdr) (f : FaultInv s.rxs)
    (d : s.rxs.phase = .data → s.hdr.valid = true) (g : s.rxs.phase = .faulted → s.hdr.valid = false) (j : JobInv s)
    (p : s.pending = [])
    (z : 125 ≤ s.sizes.nCtrlIn ∧ 125 ≤ s.sizes.nCtrlOut) (w : s.mem.wf = true)
    (i : (Region.all.all fun A => (s.mem.get A).all fun c => decide (c.1 < s.sizes.of A)) = true) : s.Inv where
  hdr := h
  fault := f
  data := d
  dropped := g
  job := j
  pending := by rw [p]; intro j hj; cases hj
  sizes := z
  memWf := w
  inside := by
    intro A c hc
    have := List.all_eq_true.1 i A (by cases A <;> decide)
    simpa using List.all_eq_true.1 this c hc

/-- AWAIT is issued after reset. -/
def atReset : State := { srv with turns := [.command .rx ⟨0x08, []⟩] }
/-- AWAIT reads the first two bytes. -/
def atHdr2 : State := { waiting with turns := [.rx], rxIn := [.bytes [0x81, 0x85]] }
/-- AWAIT reads the rest. -/
def atRest : State := { waitingRest with turns := [.rx], rxIn := [.bytes [0x37, 0xFA, 0x21, 0x3D]] }
/-- AWAIT reads the last payload byte of a control frame. -/
def atCtrl (op : BitVec 4) : State := { inCtrl op 1 with turns := [.rx], rxIn := [.bytes [0x68]], txIn := [.ok] }
/-- RETIRE is issued for a finished header. -/
def atData : State := { inData 0 with turns := [.command .rx ⟨0x07, []⟩] }
/-- A sticky fault; AWAIT is issued. -/
def atFaulted : State :=
  { srv with rxs := { srv.rxs with phase := .faulted, fault := true, cause := .len64Msb }
             turns := [.command .rx ⟨0x08, []⟩] }

theorem inv_atReset : atReset.Inv :=
  inv_small (.invalid rfl) (by unfold FaultInv; decide) (by decide) (by decide) ⟨rfl, rfl, rfl, .inl rfl⟩ rfl (by decide) (by decide)
    (by decide)
theorem inv_atHdr2 : atHdr2.Inv :=
  inv_small (.invalid rfl) (by unfold FaultInv; decide) (by decide) (by decide) ⟨rfl, rfl, .inl ⟨rfl, by decide, rfl⟩⟩ rfl (by decide)
    (by decide) (by decide)
theorem inv_atRest : atRest.Inv :=
  inv_small (.invalid rfl) (by unfold FaultInv; decide) (by decide) (by decide)
    ⟨rfl, rfl, .inr ⟨rfl, by decide, by decide, by decide⟩⟩ rfl (by decide) (by decide) (by decide)
theorem inv_atCtrl : (atCtrl 0x9).Inv :=
  inv_small (by unfold HdrInv; decide) (by unfold FaultInv; decide) (by decide) (by decide)
    ⟨rfl, rfl, rfl, rfl, rfl, by decide, rfl, by decide⟩ rfl (by decide) (by decide) (by decide)
theorem inv_atData : atData.Inv :=
  inv_small (by unfold HdrInv; decide) (by unfold FaultInv; decide) (by decide) (by decide)
    ⟨rfl, rfl, rfl, .inr (.inl rfl)⟩ rfl (by decide) (by decide) (by decide)
theorem inv_atFaulted : atFaulted.Inv :=
  inv_small (.invalid rfl) (by unfold FaultInv; decide) (by decide) (by decide)
    ⟨rfl, rfl, rfl, .inr (.inr (.inr (.inr rfl)))⟩ rfl (by decide) (by decide) (by decide)

theorem witness_ResetLeavesTheTable : Config.Params.valid ⟨true, 0b111, 1, 125, 125⟩ = true ∧
    Config.defaultParams.valid = true := by decide
theorem witness_ResetMeetsInvariant : Config.Params.valid ⟨false, 0, 1, 125, 125⟩ = true := by decide
theorem witness_StepKeepsInvariant : ∃ t, atRest.Inv ∧ step atRest = .next t := ⟨_, inv_atRest, rfl⟩
theorem witness_StepKeepsRxPermitHolder : ∃ s t : State, s.permit = .rx ∧ AgentInv s ∧ s.Inv ∧ step s = .next t :=
  ⟨{ inCtrl 0x9 0 with
       hdr := { (inCtrl 0x9 0).hdr with rem := 0 }, permit := .rx, turns := [.rx], txIn := [.ok]
       rxJob := .pong ⟨.rx, ⟨.outPong, 14⟩, 2, .inf, ⟨false, true, false⟩, .check⟩ }, _, rfl,
   ⟨⟨by decide, by intro j hj; cases hj⟩, by decide, (by intro j hj; cases hj), fun _ _ => rfl⟩,
   inv_small (by unfold HdrInv; decide) (by unfold FaultInv; decide) (by decide) (by decide)
     ⟨rfl, rfl, rfl, rfl, rfl, rfl, rfl, rfl, rfl, by unfold SendInv; decide, rfl, rfl⟩ rfl (by decide) (by decide)
     (by decide),
   rfl⟩
theorem witness_DecodeOfEncode : (Instr.mask ⟨.hbuf, 0⟩ 0x7FFFFFFFFFFFFFFF K 0xFFFFFFFFFFFFFFFF).wellFormed = true ∧
    (Instr.binary ⟨true, 7, .ext64 0xFFFFFFFFFFFFFFFF, some K⟩).wellFormed = true ∧
    (Instr.ping ⟨true, 0, .short 125, none⟩).wellFormed = true := by decide
theorem witness_EncodeOfDecode : decode (.command ⟨0xFF, [1, 2, 3]⟩) = .ok (.reservedCmd 0xFF [1, 2, 3]) ∧
    decode (.header [0x82, 0x7E, 0x00, 0x05]) = .ok (.binary ⟨true, 0, .ext16 5, none⟩) := by decide
/-- TX's SENDFRAME waits for the transport. -/
def atSend : State := { srv with pending := [sending .send], turns := [.command .tx ⟨0x0E, [5]⟩, .command .host ⟨0x0E, [5]⟩] }

theorem witness_StepRunsTheIssuedCommand :
    (atReset.turns = .command .rx ⟨0x08, []⟩ :: [] ∧ decode (.command ⟨0x08, []⟩) = .ok .await ∧
      (∀ g ∈ needs .rx .await, g ∉ atReset.atWork) ∧ .rx ∈ waiting.atWork ∧ waiting.faultsAtOnce .rx .await = true) ∧
    (decode (.command ⟨0x0E, [5]⟩) = .ok (.rdreg 5) ∧ (∃ g ∈ needs .tx (.rdreg 5), g ∈ atSend.atWork) ∧
      atSend.faultsAtOnce .tx (.rdreg 5) = false ∧ atSend.turnWaits (.command .host ⟨0x0E, [5]⟩) = false ∧
      (Turn.command .host ⟨0x0E, [5]⟩).queue = some .host ∧ (Turn.command .tx ⟨0x0E, [5]⟩).queue = some .tx) := by decide
theorem witness_StepRunsTheArrivedHeader :
    (atRest.rxJob = .header ∧ atRest.rxs.hcnt.toNat + 4 = atRest.rxs.hneed.toNat ∧ atRest.rxs.phase = .hdrrest ∧
      decode (.header (atRest.memRead .scratch 0 2 ++ [0x37, 0xFA, 0x21, 0x3D])) = .ok (.text ⟨true, 0, .short 5, some K⟩)) ∧
    (waiting.rxJob = .header ∧ waiting.rxs.hcnt.toNat + 2 = waiting.rxs.hneed.toNat ∧ waiting.rxs.phase = .hdr2 ∧
      waiting.rxs.hneed = 2 ∧
      decode (.header (waiting.memRead .scratch 0 0 ++ [0x89, 0x00])) = .ok (.ping ⟨true, 0, .short 0, none⟩)) := by decide
theorem witness_WaitingChangesNothing :
    srv.turns = [] ∧ srv.rxJob = .none ∧ (waiting.rxJob = .header ∧ waiting.rxIn = []) ∧
    ((recving 5 5).rxJob = .recv ⟨.dst, 0⟩ 5 ∧ (recving 5 5).rxIn = []) ∧
    ((inCtrl 0x9 1).rxJob = .ctrl 0 ∧ (inCtrl 0x9 1).hdr.opcode = 0x9#4 ∧ (inCtrl 0x9 1).rxIn = []) ∧
    ((job ⟨false, false, false⟩ .acquire).stage = .acquire ∧ ({ srv with permit := .rx }).permit ≠ .free) ∧
    ((job ⟨false, false, false⟩ .write).stage = .write ∧ srv.txIn = []) ∧
    ([Pending.acquire .inf][0]? = some (.acquire .inf)) := by decide
theorem witness_ReservedCommandFaults : ((0x00#8).toNat = 0 ∨ 0x11 ≤ (0x00#8).toNat) ∧
    ((0x11#8).toNat = 0 ∨ 0x11 ≤ (0x11#8).toNat) ∧ ((0xFF#8).toNat = 0 ∨ 0x11 ≤ (0xFF#8).toNat) ∧
    ¬ ((0x10#8).toNat = 0 ∨ 0x11 ≤ (0x10#8).toNat) := by decide
theorem witness_HdrlenResult : [0x00, 0x7D, 0x7E, 0x7F, 0x80, 0xFD, 0xFE, 0xFF].map (fun b1 => res (exec (.hdrlen 0 b1) srv))
    = [2, 2, 4, 10, 6, 6, 8, 14].map fun n => some (.ok (.nat n)) := by decide
theorem witness_RdregReadsEveryRegister :
    res (exec (.rdreg 0x6) { srv with permit := .rx }) = some (.ok (.reg32 2)) ∧
    res (exec (.rdreg 0x7) srv) = some (.fault .badReg) ∧ res (exec (.rdreg 0xF) srv) = some (.fault .badReg) ∧
    res (exec (.rdreg 0x1) srv) = some (.ok (.reg32 0)) ∧ res (exec (.rdreg 0x4) srv) = some (.fault .noHeader) := by decide

/-- `HBUF` of n bytes holds bs. -/
def hbuf (n : Nat) (bs : List Byte) (s : State) : State :=
  { put .hbuf 0 bs s with sizes := { s.sizes with hbuf := n } }

theorem witness_ParseLoadsOrReportsFirstFailure :
    res (exec (.parse ⟨.hbuf, 0⟩ 6) (hbuf 6 [0x81, 0x85, 0x37, 0xFA, 0x21, 0x3D] waiting)) = some (.fault .stateBusy) ∧
    res (exec (.parse ⟨.send, 0⟩ 2) srv) = some (.fault .stateBusy) ∧
    res (exec (.parse ⟨.send, 0⟩ 1) srv) = some (.fault .truncated) ∧
    res (exec (.parse ⟨.hbuf, 0⟩ 17) (hbuf 6 [0x81, 0x85, 0x37, 0xFA, 0x21, 0x3D] srv)) = some (.ok (.nat 6)) ∧
    res (exec (.parse ⟨.hbuf, 0⟩ 6) (hbuf 6 [0x81, 0x85, 0x37, 0xFA, 0x21, 0x3D] (inData 1))) = some (.fault .statePending) ∧
    res (exec (.parse ⟨.hbuf, 0⟩ 1) (hbuf 6 [0x81, 0x85, 0x37, 0xFA, 0x21, 0x3D] srv)) = some (.fault .truncated) ∧
    res (exec (.parse ⟨.hbuf, 0⟩ 2) (hbuf 1 [0x81] srv)) = some (.fault .bounds) ∧
    res (exec (.parse ⟨.hbuf, 0⟩ 5) (hbuf 6 [0x81, 0x85, 0x37, 0xFA, 0x21, 0x3D] srv)) = some (.fault .truncated) ∧
    res (exec (.parse ⟨.hbuf, 0⟩ 6) (hbuf 5 [0x81, 0x85, 0x37, 0xFA, 0x21] srv)) = some (.fault .bounds) ∧
    res (exec (.parse ⟨.hbuf, 0⟩ 6) (hbuf 6 [0x81, 0x85, 0x37, 0xFA, 0x21, 0x3D] (inData 0))) = some (.ok (.nat 6)) ∧
    res (parsed [0x88, 0xFD, 0, 0, 0, 0] 6) = some (.ok (.nat 6)) ∧
    res (parsed [0x83, 0x00] 2) = some (.fault .badOpcode) ∧ res (parsed [0x8B, 0x00] 2) = some (.fault .badOpcode) := by
  decide
theorem witness_ParseCompletes :
    srv.rxs.busy = false ∧ srv.rxs.phase ≠ .faulted ∧ srv.readRace .rx .scratch = false ∧ nothingOwed srv ∧
    (FrameHdr.wellFormed ⟨true, 0, .short 5, some K⟩) = true ∧
    frameAccepted srv.cfg 0x1 ⟨true, 0, .short 5, some K⟩ ∧
    bytesAre (put .scratch 10 (encodeHeader 0x1 ⟨true, 0, .short 5, some K⟩) srv) .scratch 10
      (encodeHeader 0x1 ⟨true, 0, .short 5, some K⟩) ∧
    10 + (encodeHeader 0x1 ⟨true, 0, .short 5, some K⟩).length ≤ srv.size .scratch := by
  unfold nothingOwed frameAccepted isControl bytesAre; decide
theorem witness_EmitWritesTheHeader : srv.writeRace (txAgent srv.issuer) .send = false ∧
    [(125, 2), (126, 4), (65535, 4), (65536, 10), (0x7FFFFFFFFFFFFFFF, 10)].map (fun (len, hl) =>
      res (exec (.emit ⟨true, 0, 2, len, none⟩ ⟨.send, hl⟩) srv))
      = [2, 4, 4, 10, 10].map (fun hl => some (.ok (.frame 0 hl))) ∧
    res (exec (.emit ⟨true, 0, 2, 126, none⟩ ⟨.send, 4112⟩) srv) = some (.ok (.frame 4108 4)) ∧
    res (exec (.emit ⟨true, 0, 2, 126, none⟩ ⟨.send, 4113⟩) srv) = some (.fault .bounds) ∧
    res (exec (.emit ⟨true, 0, 8, 125, none⟩ ⟨.send, 16⟩) srv) = some (.ok (.frame 14 2)) ∧
    res (exec (.emit ⟨true, 0, 11, 0, none⟩ ⟨.send, 16⟩) srv) = some (.fault .emitInvalid) := by decide
theorem witness_EmitThenParseRoundTrip :
    (∃ t, exec (.emit ⟨true, 0, 1, 2, some K⟩ ⟨.send, 16⟩) srv = .next t ∧
      t.results = srv.results ++ [⟨srv.issuer, 0x04, .ok (.frame 10 6)⟩] ∧
      (let u := hbuf 6 [0x81, 0x82, 0x37, 0xFA, 0x21, 0x3D] srv
       u.cfg = srv.cfg ∧ u.rxs.busy = false ∧ u.rxs.phase ≠ .faulted ∧ nothingOwed u ∧ u.readRace .rx .hbuf = false ∧
       0 + 6 ≤ u.size .hbuf ∧ u.memRead .hbuf 0 6 = t.memRead .send 10 6)) ∧
    (∃ t, exec (.parse ⟨.scratch, 0⟩ 4) (put .scratch 0 [0x82, 0x7E, 0x00, 0x05] srv) = .next t ∧
      t.results = srv.results ++ [⟨.rx, 0x02, .ok (.nat 4)⟩] ∧ t.writeRace (txAgent t.issuer) .send = false ∧
      14 ≤ t.size .send) :=
  ⟨⟨_, rfl, by decide, by unfold nothingOwed; decide⟩, ⟨_, rfl, by decide, by decide, by decide⟩⟩
theorem witness_MaskXorsInPlace : srv.writeRace srv.issuer .dst = false ∧
    res (exec (.mask ⟨.dst, 9⟩ 0 K 7) srv) = some (.ok (.nat 3)) ∧
    res (exec (.mask ⟨.dst, 0⟩ 9 K 0) srv) = some (.fault .bounds) ∧
    res (exec (.mask ⟨.dst, 0⟩ 8 K 0xFFFFFFFFFFFFFFFF) srv) = some (.ok (.nat 3)) := by decide
theorem witness_MaskLaws : srv.writeRace srv.issuer .dst = false ∧ 0 + 8 ≤ srv.size .dst ∧ 0 + (3 + 5) ≤ srv.size .dst ∧
    (0 + 3 ≤ srv.size .dst ∧ 3 + 5 ≤ srv.size .dst ∧ 0 + 3 ≤ 3) := by decide
theorem witness_RxmaskUnmasksAndCounts : (inData 5).writeRace .rx .dst = false ∧
    res (exec (.rxmask ⟨.dst, 0⟩ 0) { inData 5 with pending := [sending .dst] }) = some (.ok (.nat 5)) ∧
    res (exec (.rxmask ⟨.dst, 0⟩ 2) { inData 5 with hdr := { h5 5 with masked := false }, pending := [sending .dst] })
      = some (.ok (.nat 3)) ∧
    res (exec (.rxmask ⟨.dst, 3⟩ 5) (inData 5)) = some (.ok (.nat 0)) ∧
    res (exec (.rxmask ⟨.dst, 4⟩ 5) (inData 5)) = some (.fault .bounds) ∧
    res (exec (.rxmask ⟨.dst, 0⟩ 6) (inData 5)) = some (.fault .rxOverrun) ∧
    see (fun t => (t.mem.dst, t.hdr.rem)) (exec (.rxmask ⟨.dst, 0⟩ 1)
      (put .dst 0 [0x55] { inData 5 with hdr := { h5 5 with masked := false } })) = some ([(0, 0x55)], 4) := by decide
theorem witness_RxmaskChunksAgree : (inData 5).rxs.busy = false ∧ (inData 5).hdr.valid = true ∧
    (inData 5).hdr.rem = (inData 5).hdr.len ∧ [0, 3, 2].sum = (inData 5).hdr.len.toNat ∧
    3 + (inData 5).hdr.len.toNat ≤ (inData 5).size .dst ∧ (inData 5).writeRace .rx .dst = false := by decide
theorem witness_RetireDropsAFinishedHeader :
    res (exec .retire (inData 1)) = some (.ok (.nat 0)) ∧ res (exec .retire (inData 0)) = some (.ok (.nat 1)) ∧
    see (fun t => t.rxs.phase) (exec .retire { inData 0 with rxs := srv.rxs }) = some .idle := by decide
theorem witness_AwaitStarts :
    res (exec .await { srv with rxs := { srv.rxs with phase := .eof } }) = some (.fault .notReceiving) ∧
    see (fun t => t.rxs.phase) (exec .await srv) = some .hdr2 := by decide
theorem witness_HeaderReadStores :
    (waiting.rxs.hcnt.toNat < waiting.rxs.hneed.toNat ∧ waiting.rxs.phase = .hdr2 ∧ waiting.rxs.hneed = 2) ∧
    (0 + ([0x81#8].take 2).length = 1) ∧
    (0 + ([0x81#8, 0xFE#8, 0x00#8].take 2).length = 2 ∧ headerLength 0xFE ≠ 2) ∧
    (waitingRest.rxs.hcnt.toNat < waitingRest.rxs.hneed.toNat ∧ waitingRest.rxs.phase = .hdrrest ∧
      2 + ([0x37#8, 0xFA#8, 0x21#8].take 4).length < waitingRest.rxs.hneed.toNat) := by decide
theorem witness_AwaitTransportOutcomes :
    (waiting.rxJob = .header ∧ waiting.rxs.phase = .hdr2 ∧ waiting.rxs.hcnt = 0) ∧
    (waitingRest.rxJob = .header ∧ ¬ (waitingRest.rxs.phase = .hdr2 ∧ waitingRest.rxs.hcnt = 0)) ∧
    ((inCtrl 0x9 1).rxJob = .ctrl 0 ∧ (inCtrl 0x9 1).hdr.opcode = 0x9#4) := by decide
theorem witness_DataHeaderIsSurfaced : nothingOwed waiting ∧
    frameAccepted waiting.cfg 0x2 ⟨false, 0, .ext64 0x7FFFFFFFFFFFFFFF, none⟩ ∧
    frameAccepted waiting.cfg 0x0 ⟨true, 0, .short 0, some K⟩ := by
  unfold nothingOwed frameAccepted isControl; decide
theorem witness_ReservedOpcodeIsRejected : nothingOwed waiting ∧
    see (fun t => t.rxs.cause) (exec (.reservedOp3 ⟨true, 0b100, .short 0, none⟩) waiting) = some .rsvNotPermitted ∧
    see (fun t => t.rxs.cause) (exec (.reservedOpF ⟨true, 0, .short 0, none⟩) waiting) = some .badOpcode := by
  unfold nothingOwed; decide
theorem witness_MalformedHeaderIsSticky : nothingOwed waiting ∧
    [⟨true, 0b001, .short 0, none⟩, ⟨true, 0, .ext16 126, none⟩, ⟨false, 0, .short 125, none⟩].map (fun h =>
      see (fun t => t.rxs.cause) (exec (.ping h) waiting))
      = [some .rsvNotPermitted, some .ctrlTooLong, some .ctrlFragmented] ∧
    see (fun t => t.rxs.cause) (exec (.text ⟨true, 0, .ext64 0x8000000000000000, none⟩) waiting) = some .len64Msb := by
  unfold nothingOwed; decide
theorem witness_ControlHeaderEntersCtrl : nothingOwed waiting ∧
    frameAccepted waiting.cfg 0x9 ⟨true, 0, .ext16 125, none⟩ ∧ frameAccepted waiting.cfg 0x8 ⟨true, 0, .short 1, some K⟩ := by
  unfold nothingOwed frameAccepted isControl; decide
theorem witness_EmptyControlFrameIsHandled : nothingOwed waiting ∧ (LenField.ext64 0).value = 0 ∧
    frameAccepted waiting.cfg 0x8 ⟨true, 0, .ext64 0, none⟩ ∧ frameAccepted waiting.cfg 0xA ⟨true, 0, .short 0, some K⟩ ∧
    frameAccepted waiting.cfg 0x9 ⟨true, 0, .short 0, none⟩ ∧ 125 ≤ waiting.sizes.nCtrlOut ∧
    waiting.sendOwns .outPong = false ∧ ({ waiting with pending := [sending .outPong] }).sendOwns .outPong = true := by
  unfold nothingOwed frameAccepted isControl; decide

/-- What the statements on control payloads assume, at LEN = 125 (a ping or pong) with the last bytes to come. -/
theorem witness_ControlPayloadIsStored :
    ctrlReads { inCtrl 0x9 125 with turns := [.rx], rxIn := [.bytes [1, 2]], rxJob := .ctrl 122 } [] 0x9 125 122 [1, 2] [] ∧
    122 + [1, 2].length < 125 := by unfold ctrlReads; decide
theorem witness_ClosePayloadGivesTheCode :
    ctrlReads { inCtrl 0x8 125 with turns := [.rx], rxIn := [.bytes [0xE8]], rxJob := .ctrl 1 } [] 0x8 2 1 [0xE8] [] ∧
    ctrlReads { inCtrl 0x8 1 with turns := [.rx], rxIn := [.bytes [0xE8]] } [] 0x8 1 0 [0xE8] [] := by
  unfold ctrlReads; decide
theorem witness_PongPayloadIsReported :
    ctrlReads { inCtrl 0xA 125 with turns := [.rx], rxIn := [.bytes [7]], rxJob := .ctrl 124 } [] 0xA 125 124 [7] [] := by
  unfold ctrlReads; decide
theorem witness_PingPayloadIsEchoed :
    ctrlReads { inCtrl 0x9 1 with turns := [.rx], rxIn := [.bytes [0x68]] } [] 0x9 1 0 [0x68] [] ∧
    (inCtrl 0x9 1).sendOwns .outPong = false ∧
    ctrlReads { inCtrl 0x9 1 with turns := [.rx], rxIn := [.bytes [0x68]], pending := [sending .outPong] } [] 0x9 1 0 [0x68] [] ∧
    ({ inCtrl 0x9 1 with pending := [sending .outPong] }).sendOwns .outPong = true := by
  unfold ctrlReads; decide
theorem witness_PongSendEndsAndAwaitGoesOn :
    let j : SendStage → SendJob := fun st => ⟨.rx, ⟨.outPong, 14⟩, 2, .inf, ⟨false, true, false⟩, st⟩
    (j (.finish .ok)).issuer = .rx ∧ (j .check).addr.region = .outPong ∧ (j .check).opts = ⟨false, true, false⟩ ∧ (j .check).stage = .check ∧
    ({ srv with permit := .rx, canSend := false, rxJob := .pong (j .check), turns := [.rx] }).canSend = false ∧
    see (fun t => (t.permit, t.rxs.phase, t.events))
      (step { srv with permit := .rx, rxJob := .pong (j (.finish (.ioerror 1))), turns := [.rx] })
      = some (.free, .hdr2, [.pingRx, .activity]) := by decide
theorem witness_PingIsAnsweredOnTheWire :
    ctrlReads { inCtrl 0x9 1 with turns := .rx :: .rx :: .rx :: .rx :: .rx :: [], rxIn := [.bytes [0x68]], txIn := [.ok] }
      (.rx :: .rx :: .rx :: .rx :: []) 0x9 1 0 [0x68] [] ∧
    (inCtrl 0x9 1).sendOwns .outPong = false ∧ (inCtrl 0x9 1).permit = .free ∧ (inCtrl 0x9 1).canSend = true := by unfold ctrlReads; decide
theorem witness_RecvIsIssued : (inData 5).writeRace .rx .dst = false ∧
    (let s := { inData 5 with pending := [sending .dst] }
     res (exec (.recv ⟨.dst, 0⟩ 6) s) = some (.fault .stateBusy) ∧ res (exec (.recv ⟨.dst, 0⟩ 0) s) = some (.ok (.nat 0)) ∧
     s.writeRace .rx .dst = true ∧ res (exec (.recv ⟨.send, 0⟩ 1) srv) = some (.fault .stateBusy) ∧
     res (exec (.recv ⟨.send, 0⟩ 1) { srv with rxs := { srv.rxs with phase := .faulted, fault := true, cause := .rsvNotPermitted } })
       = some (.fault .rsvNotPermitted)) ∧
    see (fun t => t.rxJob) (exec (.recv ⟨.dst, 3⟩ 5) (inData 5)) = some (.recv ⟨.dst, 3⟩ 5) ∧
    res (exec (.recv ⟨.dst, 4⟩ 5) (inData 5)) = some (.fault .bounds) ∧
    res (exec (.recv ⟨.dst, 0⟩ 6) (inData 5)) = some (.fault .rxOverrun) ∧
    res (exec (.recv ⟨.dst, 0⟩ 1) { inData 5 with rxs := srv.rxs }) = some (.fault .noHeader) ∧
    res (exec (.recv ⟨.dst, 0⟩ 1) waiting) = some (.fault .stateBusy) := by decide
theorem witness_RecvDeliversUnmasked : (recving 5 5).rxJob = .recv ⟨.dst, 0⟩ 5 ∧ (recving 5 5).hdr.valid = true ∧
    5 ≤ (recving 5 5).hdr.rem.toNat ∧ 0 + 5 ≤ (recving 5 5).size .dst ∧
    see (fun t => (t.rxIn, t.hdr.rem)) (rxTurn (.bytes [1, 2, 3, 4, 5, 6]) (recving 5 5)) = some ([.bytes [6]], 0) ∧
    see (fun t => (t.rxIn, t.hdr.rem)) (rxTurn (.bytes [1]) (recving 5 5)) = some ([], 4) := by decide
theorem witness_RecvTransportOutcomes : (recving 2 2).rxJob = .recv ⟨.dst, 0⟩ 2 ∧
    [RxAnswer.eof, .ioerror, .cancelled].map (fun a => see (fun t => t.rxs.cause) (rxTurn a (recving 2 2)))
      = [some .unexpectedEof, some .transportIo, some .cancelled] := by decide
theorem witness_CloseencWritesBigEndian : srv.writeRace srv.issuer .outClose = false ∧
    res (exec (.closeenc 0xFFFF ⟨.outClose, 139⟩) srv) = some (.ok (.nat 2)) ∧
    res (exec (.closeenc 0 ⟨.outClose, 140⟩) srv) = some (.fault .bounds) := by decide
theorem witness_ClosedecReadsBigEndian : srv.readRace srv.issuer .inClose = false ∧
    res (exec (.closedec ⟨.inClose, 0⟩ 1) waiting) = some (.ok (.code 1000)) ∧
    res (exec (.closedec ⟨.inClose, 999⟩ 1) srv) = some (.ok (.code 1000)) ∧
    res (exec (.closedec ⟨.inClose, 123⟩ 2) (put .inClose 123 [0xFF, 0xFE] srv)) = some (.ok (.code 0xFFFE)) ∧
    res (exec (.closedec ⟨.inClose, 124⟩ 2) srv) = some (.fault .bounds) := by decide
theorem witness_PrepareBuildsTheFrame : srv.writeRace (txAgent srv.issuer) .send = false ∧
    res (exec (.prepare ⟨.send, 16⟩ 4096 true false 2 0) srv) = some (.ok (.frame 12 4100)) ∧
    res (exec (.prepare ⟨.send, 1⟩ 0 true false 2 0) srv) = some (.fault .bounds) ∧
    res (exec (.prepare ⟨.send, 16⟩ 0 true true 0x9 0) srv) = some (.fault .emitInvalid) ∧
    res (exec (.prepare ⟨.send, 16⟩ 126 true false 0x9 0) srv) = some (.fault .emitInvalid) ∧
    res (exec (.prepare ⟨.send, 16⟩ 0 true false 0x3 0) srv) = some (.fault .emitInvalid) ∧
    res (exec (.prepare ⟨.send, 16⟩ 0 true false 0x1 1) srv) = some (.fault .emitInvalid) := by decide
theorem witness_SendframeIsIssued : srv.readRace (txAgent srv.issuer) .send = false ∧
    res (exec (.sendframe ⟨.send, 4112⟩ 1 .inf ⟨false, false, false⟩) srv) = some (.fault .bounds) ∧
    see (fun t => t.pending.length) (exec (.sendframe ⟨.send, 4112⟩ 0 .inf ⟨false, false, false⟩) srv) = some 1 ∧
    see (fun t => t.permit) (exec (.sendframe ⟨.send, 0⟩ 1 .inf ⟨true, false, false⟩) { srv with permit := .host })
      = some .host ∧
    see (fun t => t.pending.length) (exec (.sendframe ⟨.send, 0⟩ 1 (.finite 1) ⟨false, false, false⟩)
      { srv with permit := .rx }) = some 1 := by decide
theorem witness_SendframeStepsFollow :
    see (fun t => t.permit) (sendTurn (job ⟨false, false, false⟩ .acquire) .free [] true) = some .host ∧
    see (fun t => t.pending) (sendTurn (job ⟨false, false, false⟩ .check) .host [] true)
      = some [.send (job ⟨false, false, false⟩ .write)] ∧
    see (fun t => (t.txOut, t.pending)) (sendTurn (job ⟨false, false, false⟩ .write) .host [.cancelled 1] true)
      = some ([0x82], [.send (job ⟨false, false, false⟩ (.finish (.cancelled 1)))]) ∧
    see (fun t => (t.permit, t.pending)) (sendTurn (job ⟨false, false, false⟩ (.finish .ok)) .host [] true)
      = some (.free, []) ∧
    res (sendTurn (job ⟨false, false, false⟩ (.finish (.cancelled 0))) .host [] true) = some (.fault .txCancelled) ∧
    res (sendTurn (job ⟨true, true, false⟩ (.finish (.ioerror 0))) .host [] true) = some (.ok (.bool false)) := by decide
theorem witness_SendframeReachesTheWire :
    (Instr.sendframe ⟨.send, 10⟩ 8 (.finite 1) ⟨false, false, false⟩).wellFormed = true ∧ 10 + 8 ≤ srv.size .send ∧
    .host ∉ srv.atWork ∧ .tx ∉ srv.atWork ∧ srv.readRace .tx .send = false ∧ srv.permit = .free ∧
    srv.canSend = true ∧
    ({ srv with txIn := [.ok], turns := [hostCommand (.sendframe ⟨.send, 10⟩ 8 (.finite 1) ⟨false, false, false⟩),
       .pending 0, .pending 0, .pending 0] }).txIn = .ok :: [] := by decide
theorem witness_AcquireTakesThePermit :
    see (fun t => t.pending) (exec (.acquire .inf) { srv with permit := .rx }) = some [.acquire .inf] ∧
    see (fun t => t.pending) (exec (.acquire (.finite 1)) { srv with permit := .rx }) = some [.acquire (.finite 1)] ∧
    res (exec (.acquire .inf) { srv with permit := .host }) = some (.fault .stateBusy) := by decide
theorem witness_WaitForThePermit :
    see (fun t => (t.permit, t.pending)) (step { srv with turns := [.pending 0], pending := [.acquire .inf] })
      = some (.host, []) ∧
    see (fun t => (t.permit, t.pending)) (step { srv with turns := [.giveUp 0], pending := [.acquire (.finite 1)], permit := .rx })
      = some (.rx, []) ∧
    see (fun t => t.pending) (step { srv with turns := [.giveUp 0], pending := [.acquire .inf], permit := .rx })
      = some [.acquire .inf] ∧
    res (step { srv with turns := [.giveUp 0], permit := .rx
                         pending := [.send { job ⟨false, false, false⟩ .acquire with timeout := .finite 1 }] })
      = some (.ok (.bool false)) := by decide
theorem witness_ReleaseFreesThePermit : res (exec .release { srv with permit := .rx }) = some (.fault .notHeld) ∧
    see (fun t => t.permit) (exec .release { srv with permit := .host }) = some .free := by decide
theorem witness_CloseframeReachesTheWire : ({ cli with txIn := [.ok] }).pending = [] ∧
    cli.rxOwns .outClose = false ∧ waiting.rxOwns .outClose = false ∧ cli.permit = .free ∧ 125 ≤ cli.sizes.nCtrlOut := by
  decide
theorem witness_DataframeReachesTheWire : (0x2#4).toNat ∈ [0x0, 0x1, 0x2] ∧ 0#3 &&& ~~~srv.cfg.rsvAllowed = 0#3 ∧
    0b100#3 &&& ~~~srv.cfg.rsvAllowed ≠ 0#3 ∧
    4096 ≤ srv.sizes.nSend ∧ 4096 + 14 < 2 ^ 63 ∧ Timeout.wellFormed .inf = true ∧ srv.pending = [] ∧
    srv.writeRace .tx .send = false ∧ srv.permit = .free ∧ srv.canSend = true ∧
    ({ srv with txIn := [.ok], turns := dataFrame 4096 true false 2 0 .inf ⟨false, false, false⟩
         ++ [Turn.pending 0, .pending 0, .pending 0] }).txIn = .ok :: [] ∧
    ([0x68#8] : List Byte).length ≤ 125 ∧ 125 ≤ srv.sizes.nCtrlOut ∧ srv.rxOwns .outPing = false := by decide
theorem witness_SecondReaderIsRefused : waiting.rxs.busy = true ∧ (recving 5 5).rxs.busy = true := by decide
theorem witness_RaceFaultsAndWritesNothing :
    (Region.scratch ∈ [Region.scratch, .inPing, .inPong, .inClose] ∧ Region.send ∈ [Region.send, .outPing, .outClose] ∧
      waiting.rxJob ≠ .none ∧ (recving 5 5).rxJob = .recv ⟨.dst, 0⟩ 5 ∧
      sending .dst ∈ ({ srv with pending := [sending .dst] }).pending ∧
      ({ srv with sendPrepared := true }).sendPrepared = true) ∧
    (({ srv with issuer := .tx }).writeRace .tx .scratch = true ∧ srv.writeRace (txAgent srv.issuer) .outPong = true ∧
      srv.writeRace srv.issuer .outPong = true ∧ waiting.readRace waiting.issuer .inClose = true ∧
      srv.readRace (txAgent srv.issuer) .scratch = true ∧ 0 + 16 ≤ srv.size .scratch ∧ srv.readRace .rx .send = true) ∧
    (let s := { inData 5 with pending := [sending .dst] }
     s.writeRace .rx .dst = true ∧ s.hdr.valid = true ∧ s.hdr.masked = true ∧ s.rxs.phase ≠ .faulted ∧ s.writeRace .host .dst = true ∧ .host ∉ s.atWork) := by decide
theorem witness_ConfigurationNeverChanges : ∃ t, step atHdr2 = .next t := ⟨_, rfl⟩
theorem witness_OnlyReceiveCommandsWriteHdr : see (fun t => decide (t.hdr = atData.hdr)) (step atData) = some false ∧
    see (fun t => decide (t.hdr = atRest.hdr)) (step atRest) = some false := by decide
theorem witness_PhaseTransitions :
    (atReset.Inv ∧ see (fun t => t.rxs.phase) (step atReset) = some .hdr2) ∧
    (atHdr2.Inv ∧ see (fun t => t.rxs.phase) (step atHdr2) = some .hdrrest) ∧
    (atRest.Inv ∧ see (fun t => t.rxs.phase) (step atRest) = some .data) ∧
    ((atCtrl 0x9).Inv ∧ see (fun t => t.rxs.phase) (step (atCtrl 0x9)) = some .ctrl) ∧
    (atData.Inv ∧ see (fun t => t.rxs.phase) (step atData) = some .idle) ∧
    (atFaulted.Inv ∧ see (fun t => t.rxs.phase) (step atFaulted) = some .faulted) :=
  ⟨⟨inv_atReset, by decide⟩, ⟨inv_atHdr2, by decide⟩, ⟨inv_atRest, by decide⟩, ⟨inv_atCtrl, by decide⟩,
   ⟨inv_atData, by decide⟩, ⟨inv_atFaulted, by decide⟩⟩
theorem witness_StickyFaultStays : atFaulted.Inv ∧ atFaulted.rxs.fault = true ∧ ∃ t, step atFaulted = .next t :=
  ⟨inv_atFaulted, rfl, _, rfl⟩
theorem witness_PermitPassesThroughFree : see (fun t => t.permit)
    (step { srv with turns := [.command .host ⟨0x0F, [0]⟩] }) = some .host := by decide
theorem witness_OutputsOnlyGrow : see (fun t => t.txOut)
    (sendTurn (job ⟨false, false, false⟩ .write) .host [.ok] true) = some [0x82, 0x00] := by decide

end Sys2Proof.Tests
end

section
/-! Proofs of the family 30_encoding.md. -/
namespace Sys2Proof.Machine

open Sys2Proof

/-- 60_exceptions.md R129, R130: a raised fault is the command's result, and nothing else is written. -/
theorem State.raise_eq_ended (s : State) (a : Agent) (cmd : BitVec 8) (c : Cause) :
    s.raise a cmd c = .next (ended s a cmd (.fault c)) := rfl

/-- R87: the meaning of a reserved code looks at neither its operands nor the state. -/
theorem exec_reservedCmd (code : BitVec 8) (args : List Nat) (s : State) :
    exec (.reservedCmd code args) s = s.raise s.issuer code .badCmd := rfl

/-- R87: exactly the reserved codes make a well-formed reserved command. -/
theorem wellFormed_reservedCmd (code : BitVec 8) (args : List Nat) :
    (Instr.reservedCmd code args).wellFormed = true ↔ code.toNat = 0 ∨ 0x11 ≤ code.toNat :=
  decide_eq_true_iff

/-- Settles O13: the record is the encoding of a well-formed reserved command, which raises `BAD_CMD`. -/
theorem reservedCommandFaults : Obligations.ReservedCommandFaults := by
  intro code args hcode
  constructor
  · exact Laws.RoundTrip.reservedCmd code args ((wellFormed_reservedCmd code args).2 hcode)
  · intro s
    unfold faultsWith
    rw [exec_reservedCmd, State.raise_eq_ended]

end Sys2Proof.Machine
end

section
/-! Proofs of the family 40_header_codec.md. -/
namespace Sys2Proof.Machine

open Sys2Proof

/-! ### EMIT (R95) -/

/-- R95: the faults on the header operand come before the bounds check. -/
theorem emitFault_of_emitInvalid {s : State} {h : HeaderOp} (a : Addr) (hinv : emitInvalid s.cfg h = true) :
    s.emitFault h a = some .emitInvalid := if_pos hinv

/-- R95: past the checks on the header operand only the bounds can fault. -/
theorem emitFault_of_valid {s : State} {h : HeaderOp} (a : Addr) (hval : emitInvalid s.cfg h = false) :
    s.emitFault h a = if a.off < (emitBytes h).length ∨ s.size a.region < a.off then some .bounds else none := by
  unfold State.emitFault
  rw [hval, if_neg Bool.false_ne_true]

/-- R95: what the checks on the header operand refuse, by the opcode's number. -/
theorem emitInvalid_iff (c : Cfg) (h : HeaderOp) : emitInvalid c h = true ↔
    h.opcode.toNat ∉ [0x0, 0x1, 0x2, 0x8, 0x9, 0xA] ∨ h.rsv &&& ~~~c.rsvAllowed ≠ 0#3 ∨
    (h.opcode.toNat ∈ [0x8, 0x9, 0xA] ∧ (125 < h.len ∨ h.fin = false)) ∨ 2 ^ 63 ≤ h.len := by
  rw [← opClass_reserved, ← opClass_control]
  simp [emitInvalid, or_assoc]

/-- R95, R130: a fault of EMIT's checks is its result, and nothing is written. -/
theorem emit_faultsWith {s : State} {h : HeaderOp} {a : Addr} {c : Cause}
    (hrace : s.writeRace (txAgent s.issuer) a.region = false) (hf : s.emitFault h a = some c) :
    faultsWith (.emit h a) s s.issuer 0x04 c := by
  show execEmit h a s = _
  unfold execEmit
  rw [hrace, if_neg Bool.false_ne_true, hf, ← State.raise_eq_ended]

/-- R95: EMIT with every check passed writes its bytes and answers where they start and how many they are. -/
theorem exec_emit_of_emitFault_none {s : State} {h : HeaderOp} {a : Addr}
    (hrace : s.writeRace (txAgent s.issuer) a.region = false) (hf : s.emitFault h a = none) :
    exec (.emit h a) s = .next ((s.emitWrite h a).complete s.issuer 0x04
      (.ok (.frame (a.off - (emitBytes h).length) (emitBytes h).length))) := by
  show execEmit h a s = _
  unfold execEmit
  rw [hrace, if_neg Bool.false_ne_true, hf]
  rfl

/-- R95: the header's bytes stand just before P. -/
theorem emitWrite_are (s : State) (h : HeaderOp) (a : Addr) :
    bytesAre (s.emitWrite h a) a.region (a.off - (emitBytes h).length) (emitBytes h) := memWrite_are _ _ _ _

/-- R95: with room before P, every byte outside the header's place is kept, the payload at P among them. -/
theorem emitWrite_kept (s : State) {h : HeaderOp} {a : Addr} (hroom : (emitBytes h).length ≤ a.off) :
    bytesKeptOutside s (s.emitWrite h a) a.region (a.off - (emitBytes h).length) a.off := by
  have hkept := memWrite_kept s a.region (a.off - (emitBytes h).length) (emitBytes h)
  rwa [Nat.sub_add_cancel hroom] at hkept

/-- Settles O18: the checks of R95 one by one, then the write of the header's bytes. -/
theorem emitWritesTheHeader : Obligations.EmitWritesTheHeader := by
  intro h a s hrace E fails
  have hE : emitBytes h = E := emitBytes_eq h
  have invalid (hbad : emitInvalid s.cfg h = true) : fails .emitInvalid :=
    emit_faultsWith hrace (emitFault_of_emitInvalid a hbad)
  refine ite_intro (fun hop => invalid (emitInvalid_of (.inl hop))) fun hop => ?_
  refine ite_intro (fun hrsv => invalid (emitInvalid_of (.inr (.inl hrsv)))) fun hrsv => ?_
  refine ite_intro (fun hctrl => invalid (emitInvalid_of (.inr (.inr (.inl hctrl))))) fun hctrl => ?_
  refine ite_intro (fun hlen => invalid (emitInvalid_of (.inr (.inr (.inr hlen))))) fun hlen => ?_
  have hval : emitInvalid s.cfg h = false := by
    rw [Bool.eq_false_iff, Ne, emitInvalid_iff, not_or, not_or, not_or]
    exact ⟨hop, hrsv, hctrl, hlen⟩
  rw [← hE]
  have hfault := emitFault_of_valid a hval
  refine ite_intro (fun hb => emit_faultsWith hrace (hfault.trans (if_pos hb))) fun hb => ?_
  have hroom : (emitBytes h).length ≤ a.off := Nat.not_lt.1 (not_or.1 hb).1
  exact ⟨_, exec_emit_of_emitFault_none hrace (hfault.trans (if_neg hb)), emitWrite_are s h a, emitWrite_kept s hroom,
    rfl, rfl⟩

/-! ### HDRLEN (R90) -/

/-- Bit 7 of a byte, by its number. -/
theorem getLsbD_seven_iff (b : Byte) : b.getLsbD 7 = true ↔ 128 ≤ b.toNat := by
  rw [← BitVec.msb_eq_getLsbD_last b, BitVec.msb_eq_decide, decide_eq_true_iff]

/-- R90: the header length as a sum over the fields of byte 1; length7 is not both 126 and 127. -/
theorem headerLength_eq_sum (b1 : Byte) :
    headerLength b1 = 2 + (if b1.toNat % 128 = 126 then 2 else 0) + (if b1.toNat % 128 = 127 then 8 else 0)
      + (if 128 ≤ b1.toNat then 4 else 0) := by
  rw [headerLength_nat]
  simp only [getLsbD_seven_iff]
  by_cases h126 : b1.toNat % 128 = 126
  · simp [h126]
  · simp [h126]

/-- R90: the six lengths a frame header can have. -/
theorem headerLength_mem (b1 : Byte) : headerLength b1 ∈ [2, 4, 6, 8, 10, 14] := by
  unfold headerLength
  split_ifs <;> decide

/-- Settles O11: HDRLEN answers `headerLength` of byte 1. -/
theorem hdrlenResult : Obligations.HdrlenResult := by
  intro b0 b1 s h
  have hh : headerLength b1 = h := headerLength_eq_sum b1
  rw [← hh]
  exact ⟨rfl, headerLength_mem b1⟩

/-! ### OPCLASS (R94) -/

/-- R94: the class of every opcode, by its number. -/
theorem opClass_eq (op : BitVec 4) :
    opClass op = if op.toNat ∈ [0x0, 0x1, 0x2] then .data else if op.toNat ∈ [0x8, 0x9, 0xA] then .control
      else .reserved := by
  revert op; decide

/-- Settles O12: OPCLASS answers the opcode's class. -/
theorem opclassResult : Obligations.OpclassResult := by
  intro op s
  rw [← opClass_eq]
  exact ⟨rfl, rfl, rfl, rfl⟩

end Sys2Proof.Machine
end

section
/-! Proofs of the family 41_mask_engine.md. -/
namespace Sys2Proof.Machine

open Sys2Proof

/-! ### MASK (R98) -/

/-- R98: with n = 0 MASK touches no region, so neither a race nor the bounds can fault it. -/
theorem exec_mask_zero (a : Addr) (k : Key) (pos : Nat) (s : State) :
    exec (.mask a 0 k pos) s = .next (ended s s.issuer 0x05 (.ok (.nat (pos % 4)))) := rfl

/-- R98, R130: past the end of a region its agent may write, MASK's fault is its result and nothing is written. -/
theorem mask_faultsWith_bounds {a : Addr} {n : Nat} {k : Key} {pos : Nat} {s : State} (h0 : n ≠ 0)
    (hrace : s.writeRace s.issuer a.region = false) (hb : s.size a.region < a.off + n) :
    faultsWith (.mask a n k pos) s s.issuer 0x05 .bounds := by
  have hout : s.outside a.region a.off n = true := decide_eq_true hb
  show execMask a n k pos s = _
  unfold execMask
  rw [if_neg h0, hrace, if_neg Bool.false_ne_true, if_pos hout, ← State.raise_eq_ended]

/-- The state MASK leaves where it completes (`exec_mask`). -/
def State.afterMask (s : State) (A : Region) (o n : Nat) (k : Key) (pos : Nat) : State :=
  (s.maskRegion A o n k pos).complete s.issuer 0x05 (.ok (.nat ((pos + n) % 4)))

/-- `exec_mask`, with the state it leaves by its name. -/
theorem exec_mask_eq_afterMask {A : Region} {o n : Nat} {k : Key} {pos : Nat} {s : State}
    (hrace : s.writeRace s.issuer A = false) (hb : o + n ≤ s.size A) :
    exec (.mask ⟨A, o⟩ n k pos) s = .next (s.afterMask A o n k pos) := exec_mask hrace hb

/-- MASK moves no buffer to another agent, so what its agent may write it may write again. -/
@[simp] theorem afterMask_writeRace (s : State) (A : Region) (o n : Nat) (k : Key) (pos : Nat) (g : Agent) (B : Region) :
    (s.afterMask A o n k pos).writeRace g B = s.writeRace g B := rfl

@[simp] theorem afterMask_issuer (s : State) (A : Region) (o n : Nat) (k : Key) (pos : Nat) :
    (s.afterMask A o n k pos).issuer = s.issuer := rfl

@[simp] theorem afterMask_size (s : State) (A : Region) (o n : Nat) (k : Key) (pos : Nat) (B : Region) :
    (s.afterMask A o n k pos).size B = s.size B := rfl

theorem afterMask_readByte_eq (s : State) (A : Region) (o n : Nat) (k : Key) (pos : Nat) (B : Region) (x : Nat) :
    (s.afterMask A o n k pos).readByte B x = (s.maskRegion A o n k pos).readByte B x := rfl

/-- R98: every masked byte is XORed with the key byte of its stream position. -/
theorem readByte_afterMask_inside (s : State) (A : Region) (o : Nat) {n i : Nat} (k : Key) (pos : Nat) (hi : i < n) :
    (s.afterMask A o n k pos).readByte A (o + i) = s.readByte A (o + i) ^^^ keyAt k (pos + i) := by
  rw [afterMask_readByte_eq, readByte_maskRegion, if_pos ⟨rfl, by omega, by omega⟩, Nat.add_sub_cancel_left]

/-- Settles O20: the three ways MASK ends, by n and the region's bound. -/
theorem maskXorsInPlace : Obligations.MaskXorsInPlace := by
  intro a n k pos s
  refine ⟨?_, mask_faultsWith_bounds, fun _ hrace hb => ?_⟩
  · rintro rfl
    exact exec_mask_zero a k pos s
  · exact ⟨_, exec_mask_eq_afterMask hrace hb, fun i hi => readByte_afterMask_inside s a.region a.off k pos hi,
      maskRegion_kept s a.region a.off n k pos, rfl, rfl⟩

/-! ### The laws of MASK (R99)

MASK adds a pad to memory: a byte for every offset of every region, zero outside the masked range. The laws are then laws
of XOR and of the pad. -/

/-- What MASK XORs into byte x of region B. -/
def maskPad (A : Region) (o n : Nat) (k : Key) (pos : Nat) (B : Region) (x : Nat) : Byte :=
  if B = A ∧ o ≤ x ∧ x < o + n then keyAt k (pos + (x - o)) else 0#8

theorem readByte_afterMask (s : State) (A : Region) (o n : Nat) (k : Key) (pos : Nat) (B : Region) (x : Nat) :
    (s.afterMask A o n k pos).readByte B x = s.readByte B x ^^^ maskPad A o n k pos B x := by
  rw [afterMask_readByte_eq, readByte_maskRegion]
  unfold maskPad
  split_ifs with h
  · rw [h.1]
  · exact BitVec.xor_zero.symm

/-- The pad of m + n bytes is the pad of the first m and that of the next n at the position after them. -/
theorem maskPad_add (A : Region) (o m n : Nat) (k : Key) (pos : Nat) (B : Region) (x : Nat) :
    maskPad A o (m + n) k pos B x = maskPad A o m k pos B x ^^^ maskPad A (o + m) n k (pos + m) B x := by
  unfold maskPad
  by_cases hB : B = A
  · simp only [hB, true_and]
    by_cases hfst : o ≤ x ∧ x < o + m
    · rw [if_pos hfst, if_pos (by omega), if_neg (by omega), BitVec.xor_zero]
    · by_cases hsnd : o + m ≤ x ∧ x < o + m + n
      · have hpos : pos + m + (x - (o + m)) = pos + (x - o) := by omega
        rw [if_neg hfst, if_pos hsnd, if_pos (by omega), BitVec.zero_xor, hpos]
      · rw [if_neg hfst, if_neg hsnd, if_neg (by omega), BitVec.xor_zero]
  · simp only [hB, false_and, if_false, BitVec.xor_zero]

theorem maskPad_zero_key (A : Region) (o n pos : Nat) (B : Region) (x : Nat) :
    maskPad A o n ⟨0, 0, 0, 0⟩ pos B x = 0#8 := by
  unfold maskPad
  rw [keyAt_zero]
  exact ite_self _

/-- R99 (a). -/
theorem afterMask_involution (s : State) (A : Region) (o n : Nat) (k : Key) (pos : Nat) :
    bytesKept s ((s.afterMask A o n k pos).afterMask A o n k pos) := by
  intro B x
  rw [readByte_afterMask, readByte_afterMask, BitVec.xor_assoc, BitVec.xor_self, BitVec.xor_zero]

/-- R99 (b). -/
theorem afterMask_chunks (s : State) (A : Region) (o m n : Nat) (k : Key) (pos : Nat) :
    bytesKept ((s.afterMask A o m k pos).afterMask A (o + m) n k (pos + m)) (s.afterMask A o (m + n) k pos) := by
  intro B x
  rw [readByte_afterMask, readByte_afterMask, readByte_afterMask, maskPad_add, BitVec.xor_assoc]

/-- R99 (c). XOR commutes, so the ranges may even overlap or lie in two regions. -/
theorem afterMask_comm (s : State) (A C : Region) (o m p n : Nat) (k l : Key) (pos qos : Nat) :
    bytesKept ((s.afterMask A o m k pos).afterMask C p n l qos) ((s.afterMask C p n l qos).afterMask A o m k pos) := by
  intro B x
  simp only [readByte_afterMask, BitVec.xor_assoc]
  rw [BitVec.xor_comm (maskPad A o m k pos B x)]

/-- R99 (d). -/
theorem afterMask_zero_key (s : State) (A : Region) (o n pos : Nat) :
    bytesKept s (s.afterMask A o n ⟨0, 0, 0, 0⟩ pos) := by
  intro B x
  rw [readByte_afterMask, maskPad_zero_key, BitVec.xor_zero]

/-- Settles O21: every call completes, since MASK changes neither the region's size nor who may write it; the bytes then
follow from the laws of the pad. -/
theorem maskLaws : Obligations.MaskLaws := by
  intro A s hrace
  have masks {o n : Nat} (k : Key) (pos : Nat) (hb : o + n ≤ s.size A) :
      exec (.mask ⟨A, o⟩ n k pos) s = .next (s.afterMask A o n k pos) := exec_mask_eq_afterMask hrace hb
  have masksAgain {o m p n : Nat} (k l : Key) (pos qos : Nat) (hb : p + n ≤ s.size A) :
      exec (.mask ⟨A, p⟩ n l qos) (s.afterMask A o m k pos) =
        .next ((s.afterMask A o m k pos).afterMask A p n l qos) := exec_mask_eq_afterMask (by simpa) (by simpa)
  refine ⟨?involution, ?chunks, ?order, ?zeroKey⟩
  case involution =>
    intro o n k pos hb
    exact ⟨_, _, masks k pos hb, masksAgain k k pos pos hb, afterMask_involution s A o n k pos⟩
  case chunks =>
    intro o m n k pos hb
    exact ⟨_, _, _, masks k pos (by omega), masksAgain k k pos (pos + m) (by omega), masks k pos hb,
      afterMask_chunks s A o m n k pos⟩
  case order =>
    intro o m k pos p n l qos hm hn _
    exact ⟨_, _, _, _, masks k pos hm, masksAgain k l pos qos hn, masks l qos hn, masksAgain l k qos pos hm,
      afterMask_comm s A A o m p n k l pos qos⟩
  case zeroKey =>
    intro o n pos hb
    exact ⟨_, masks _ pos hb, afterMask_zero_key s A o n pos⟩

/-! ### RETIRE (R104) -/

/-- R104: a finished header is dropped, and `DATA` left for `IDLE`. -/
theorem retired_eq (s : State) : s.retired =
    { s with hdr := { s.hdr with valid := false }
             rxs := { s.rxs with phase := if s.rxs.phase = .data then .idle else s.rxs.phase } } := by
  unfold State.retired
  by_cases hdata : s.rxs.phase = .data
  · rw [if_pos hdata]
    exact if_pos hdata
  · rw [if_neg hdata]
    exact if_neg hdata

/-- R104: without a header or with payload to come RETIRE answers 0. -/
theorem exec_retire_keeps {s : State} (hbusy : s.rxs.busy = false) (h : ¬ (s.hdr.valid = true ∧ s.hdr.rem = 0)) :
    exec .retire s = .next (ended s .rx 0x07 (.ok (.nat 0))) := by
  show execRetire s = _
  unfold execRetire
  rw [hbusy, if_neg Bool.false_ne_true, if_neg (by simpa using h)]
  rfl

/-- R104: with all payload delivered RETIRE drops the header and answers 1. -/
theorem exec_retire_drops {s : State} (hbusy : s.rxs.busy = false) (hvalid : s.hdr.valid = true) (hrem : s.hdr.rem = 0) :
    exec .retire s = .next (s.retired.complete .rx 0x07 (.ok (.nat 1))) := by
  show execRetire s = _
  unfold execRetire
  rw [hbusy, if_neg Bool.false_ne_true, if_pos (by simp [hvalid, hrem])]
  rfl

/-- R104: RETIRE is an RX command, refused while RX is busy. -/
theorem retire_faultsWith_busy {s : State} (hbusy : s.rxs.busy = true) : faultsWith .retire s .rx 0x07 .stateBusy :=
  if_pos hbusy

/-- Settles O24: the three checks of R104 one by one. -/
theorem retireDropsAFinishedHeader : Obligations.RetireDropsAFinishedHeader := by
  intro s
  refine ite_intro retire_faultsWith_busy fun hbusy => ?_
  rw [Bool.not_eq_true] at hbusy
  refine ite_intro (fun hvalid => exec_retire_keeps hbusy (by simp [hvalid])) fun hvalid => ?_
  refine ite_intro (fun hrem => exec_retire_keeps hbusy fun h => hrem h.2) fun hrem => ?_
  rw [Bool.not_eq_false] at hvalid
  rw [exec_retire_drops hbusy hvalid (not_not.1 hrem), retired_eq]
  rfl

end Sys2Proof.Machine
end

section
/-! Proofs of the family 42_dispatch.md. -/
namespace Sys2Proof.Machine

open Sys2Proof

/-! ### RDREG (R124) -/

/-- A word put together from two parts, as a number: the upper part counts in units of 2^m. -/
theorem toNat_append_eq_add {n m : Nat} (x : BitVec n) (y : BitVec m) :
    (x ++ y).toNat = x.toNat * 2 ^ m + y.toNat := by
  rw [BitVec.toNat_append, ← Nat.shiftLeft_add_eq_or_of_lt y.isLt, Nat.shiftLeft_eq]

/-- R19. -/
theorem Cfg.word_toNat (c : Cfg) : c.word.toNat = c.maskOut.toNat + 16 * c.rsvAllowed.toNat := by
  simp only [Cfg.word, toNat_append_eq_add, BitVec.toNat_ofBool, BitVec.toNat_ofNat]
  omega

/-- R21. -/
theorem Hdr.ctlWord_toNat (h : Hdr) : h.ctlWord.toNat = h.opcode.toNat + 16 * h.rsv.toNat + 128 * h.fin.toNat
    + 256 * h.masked.toNat + 32768 * h.valid.toNat := by
  simp only [Hdr.ctlWord, toNat_append_eq_add, BitVec.toNat_ofBool, BitVec.toNat_ofNat]
  omega

/-- R23. -/
theorem key_word_toNat (k : Key) : k.word.toNat = k.k0.toNat * 2 ^ 24 + k.k1.toNat * 2 ^ 16 + k.k2.toNat * 2 ^ 8
    + k.k3.toNat := by
  simp only [Key.word, toNat_append_eq_add]
  omega

/-- R28. -/
theorem RxStatus.word_toNat (r : RxStatus) : r.word.toNat = r.phase.code.toNat + 16 * r.busy.toNat + 128 * r.fault.toNat
    + 2 ^ 8 * r.cause.code.toNat + 2 ^ 16 * r.hcnt.toNat + 2 ^ 20 * r.hneed.toNat := by
  simp only [RxStatus.word, toNat_append_eq_add, BitVec.toNat_ofBool, BitVec.toNat_ofNat]
  omega

/-- R32. -/
theorem Permit.word_toNat (p : Permit) : p.word.toNat = p.code.toNat := by
  simp only [Permit.word, toNat_append_eq_add, BitVec.toNat_ofNat]
  omega

/-- R124: RDREG only answers. -/
theorem exec_rdreg (r : BitVec 4) (s : State) : exec (.rdreg r) s = .next (ended s s.issuer 0x0E (s.readReg r)) := rfl

/-- R33: registers 0x7 to 0xF are reserved. -/
theorem readReg_reserved (s : State) {r : BitVec 4} (h : 7 ≤ r.toNat) : s.readReg r = .fault .badReg := by
  obtain ⟨k, hk⟩ := Nat.exists_eq_add_of_le' h
  unfold State.readReg
  rw [hk]
  rfl

/-- Settles O14: the registers one by one; the words by the place of each field. -/
theorem rdregReadsEveryRegister : Obligations.RdregReadsEveryRegister := by
  intro s reads fails
  have answers {r : BitVec 4} {v : Value} (hv : s.readReg r = .ok v) : reads r v :=
    (exec_rdreg r s).trans (by rw [hv])
  have faults {r : BitVec 4} {c : Cause} (hc : s.readReg r = .fault c) : fails r c :=
    (exec_rdreg r s).trans (by rw [hc])
  refine ⟨?cfg, ?ctl, ?len, ?key, ?rem, ?rxStatus, ?txStatus, ?reserved⟩
  case cfg => exact ⟨_, answers rfl, s.cfg.word_toNat⟩
  case ctl =>
    refine ⟨_, answers rfl, ?_⟩
    by_cases hvalid : s.hdr.valid
    · rw [if_pos hvalid, if_pos hvalid, s.hdr.ctlWord_toNat, hvalid, Bool.toNat_true, Nat.mul_one]
    · rw [if_neg hvalid, if_neg hvalid]
      rfl
  case len => exact ite_intro (fun hvalid => answers (if_pos hvalid)) fun hvalid => faults (if_neg hvalid)
  case key =>
    refine ite_intro (fun hkey => ⟨_, answers (if_pos ?_), key_word_toNat _⟩) fun hkey => faults (if_neg ?_)
    · rwa [Bool.and_eq_true]
    · rwa [Bool.and_eq_true]
  case rem => exact ite_intro (fun hvalid => answers (if_pos hvalid)) fun hvalid => faults (if_neg hvalid)
  case rxStatus => exact ⟨_, answers rfl, s.rxs.word_toNat⟩
  case txStatus => exact ⟨_, answers rfl, s.permit.word_toNat⟩
  case reserved => exact fun r hr => faults (readReg_reserved s hr)

/-! ### Transport outcomes without bytes (R107, R115) -/

/-- R107: an end of the stream, at a frame boundary and elsewhere. -/
theorem awaitNoBytes_eof (s : State) : s.awaitNoBytes .eof =
    if s.atBoundary then (s.awaitLeaves .eof).complete .rx 0x08 (.ok .ended)
    else stickyFaulted s 0x08 .unexpectedEof := rfl

/-- R107: an error of the transport. -/
theorem awaitNoBytes_ioerror (s : State) : s.awaitNoBytes .ioerror = stickyFaulted s 0x08 .transportIo := rfl

/-- R107: a cancelled read, at a frame boundary and elsewhere. -/
theorem awaitNoBytes_cancelled (s : State) : s.awaitNoBytes .cancelled =
    if s.atBoundary then (s.awaitLeaves .idle).complete .rx 0x08 (.fault .cancelled)
    else stickyFaulted s 0x08 .cancelled := rfl

theorem recvNoBytes_eof (s : State) : s.recvNoBytes .eof = stickyFaulted s 0x09 .unexpectedEof := rfl
theorem recvNoBytes_ioerror (s : State) : s.recvNoBytes .ioerror = stickyFaulted s 0x09 .transportIo := rfl
theorem recvNoBytes_cancelled (s : State) : s.recvNoBytes .cancelled = stickyFaulted s 0x09 .cancelled := rfl

/-- R107: the boundary, in the words of the rule. -/
theorem atBoundary_iff (s : State) : s.atBoundary = true ↔ s.rxs.phase = .hdr2 ∧ s.rxs.hcnt = 0 := decide_eq_true_iff

section NoBytes

variable {s : State} {r : RxAnswer} {q : List RxAnswer} (hq : s.rxIn = r :: q)
  (hr : r = .eof ∨ r = .ioerror ∨ r = .cancelled)

include hq hr

theorem headerStep_noBytes : s.headerStep = .next (State.awaitNoBytes { s with rxIn := q } r) := by
  unfold State.headerStep
  rw [hq, rxTake_other hr]
  rcases hr with rfl | rfl | rfl <;> rfl

theorem controlStep_noBytes (hop : isControl s.hdr.opcode) (got : Nat) :
    s.controlStep got = State.awaitNoBytes { s with rxIn := q } r := by
  obtain ⟨D, hD⟩ := controlSlice_ne hop
  unfold State.controlStep
  simp only [hD, hq, rxTake_other hr]
  rcases hr with rfl | rfl | rfl <;> rfl

theorem recvStep_noBytes (a : Addr) (len : Nat) :
    s.recvStep a len = State.recvNoBytes { s with rxIn := q } r := by
  unfold State.recvStep
  rw [hq, rxTake_other hr]
  rcases hr with rfl | rfl | rfl <;> rfl

/-- R107, R110: every read step of AWAIT takes an answer without bytes to `awaitNoBytes`. -/
theorem rxStep_await_noBytes (hjob : s.rxJob = .header ∨ ∃ got, s.rxJob = .ctrl got ∧ isControl s.hdr.opcode) :
    s.rxStep = .next (State.awaitNoBytes { s with rxIn := q } r) := by
  rcases hjob with hheader | ⟨got, hctrl, hop⟩
  · rw [rxStep_header hheader, headerStep_noBytes hq hr]
  · rw [rxStep_ctrl hctrl, controlStep_noBytes hq hr hop]

/-- R115: the read step of RECV takes it to `recvNoBytes`. -/
theorem rxStep_recv_noBytes {a : Addr} {len : Nat} (hjob : s.rxJob = .recv a len) :
    s.rxStep = .next (State.recvNoBytes { s with rxIn := q } r) := by
  rw [rxStep_recv hjob, recvStep_noBytes hq hr]

end NoBytes

/-- Settles O27: every read step of AWAIT comes to `awaitNoBytes`, whose cases are those of R107. -/
theorem awaitTransportOutcomes : Obligations.AwaitTransportOutcomes := by
  intro s ts r q hts hq hjob s1 boundary leaves
  have goes (hr : r = .eof ∨ r = .ioerror ∨ r = .cancelled) : step s = .next (s1.awaitNoBytes r) :=
    (step_rx hts).trans (rxStep_await_noBytes (s := { s with turns := ts }) hq hr hjob)
  have hat : s1.atBoundary = true ↔ boundary := atBoundary_iff s1
  refine ⟨?eofBoundary, ?eofInside, ?ioerror, ?cancelledBoundary, ?cancelledInside⟩
  case eofBoundary =>
    rintro rfl hb
    show step s = _
    rw [goes (.inl rfl), awaitNoBytes_eof, if_pos (hat.2 hb)]
    rfl
  case eofInside =>
    rintro rfl hb
    rw [goes (.inl rfl), awaitNoBytes_eof, if_neg (mt hat.1 hb)]
  case ioerror =>
    rintro rfl
    rw [goes (.inr (.inl rfl)), awaitNoBytes_ioerror]
  case cancelledBoundary =>
    rintro rfl hb
    show step s = _
    rw [goes (.inr (.inr rfl)), awaitNoBytes_cancelled, if_pos (hat.2 hb)]
    rfl
  case cancelledInside =>
    rintro rfl hb
    rw [goes (.inr (.inr rfl)), awaitNoBytes_cancelled, if_neg (mt hat.1 hb)]

/-- Settles O41: the read step of RECV comes to `recvNoBytes`, which raises the sticky fault of the answer. -/
theorem recvTransportOutcomes : Obligations.RecvTransportOutcomes := by
  intro s ts a len q r c hts hjob hq hrc
  have goes (hr : r = .eof ∨ r = .ioerror ∨ r = .cancelled) :
      step s = .next (State.recvNoBytes { s with turns := ts, rxIn := q } r) :=
    (step_rx hts).trans (rxStep_recv_noBytes (s := { s with turns := ts }) hq hr hjob)
  simp only [List.mem_cons, Prod.mk.injEq, List.not_mem_nil, or_false] at hrc
  obtain ⟨rfl, rfl⟩ | ⟨rfl, rfl⟩ | ⟨rfl, rfl⟩ := hrc
  · rw [goes (.inl rfl), recvNoBytes_eof]
  · rw [goes (.inr (.inl rfl)), recvNoBytes_ioerror]
  · rw [goes (.inr (.inr rfl)), recvNoBytes_cancelled]

/-! ### CLOSEENC and CLOSEDEC (R116, R117) -/

/-- R46: an access of at least one byte past the end of its region faults. -/
theorem accessFaults_of_lt {s : State} {A : Region} {o n : Nat} (h0 : n ≠ 0) (hb : s.size A < o + n) :
    s.accessFaults A o n = true := by
  unfold State.accessFaults State.outside
  rw [decide_eq_true h0, decide_eq_true hb]
  rfl

/-- R52: the two bytes of a 16-bit number, the upper one first. -/
theorem beBytes_two (c : BitVec 16) : beBytes 2 c.toNat = [c.extractLsb' 8 8, c.extractLsb' 0 8] := by
  have hhigh : BitVec.ofNat 8 (c.toNat / 256) = c.extractLsb' 8 8 := by
    rw [BitVec.extractLsb', Nat.shiftRight_eq_div_pow]
  have hlow : BitVec.ofNat 8 c.toNat = c.extractLsb' 0 8 := rfl
  rw [← hhigh, ← hlow]
  simp [beBytes]

/-- R116: past the end of the region CLOSEENC writes nothing. -/
theorem closeenc_faultsWith_bounds {c : BitVec 16} {a : Addr} {s : State} (hrace : s.writeRace s.issuer a.region = false)
    (hb : s.size a.region < a.off + 2) : faultsWith (.closeenc c a) s s.issuer 0x0C .bounds := by
  show execCloseenc c a s = _
  unfold execCloseenc
  rw [hrace, if_neg Bool.false_ne_true, if_pos (accessFaults_of_lt two_ne_zero hb), ← State.raise_eq_ended]

/-- R116: inside the region CLOSEENC stores the code's two bytes. -/
theorem exec_closeenc {c : BitVec 16} {a : Addr} {s : State} (hrace : s.writeRace s.issuer a.region = false)
    (hb : a.off + 2 ≤ s.size a.region) :
    exec (.closeenc c a) s = .next ((s.memWrite a.region a.off [c.extractLsb' 8 8, c.extractLsb' 0 8]).complete
      s.issuer 0x0C (.ok (.nat 2))) := by
  show execCloseenc c a s = _
  unfold execCloseenc
  rw [hrace, if_neg Bool.false_ne_true, accessFaults_eq_false.2 (.inr hb), if_neg Bool.false_ne_true, beBytes_two]
  rfl

/-- Settles O42: the bounds decide between the fault and the write of the two bytes. -/
theorem closeencWritesBigEndian : Obligations.CloseencWritesBigEndian := by
  intro c a s hrace
  refine ⟨closeenc_faultsWith_bounds hrace, fun hb => ?_⟩
  have hare := memWrite_are s a.region a.off [c.extractLsb' 8 8, c.extractLsb' 0 8]
  exact ⟨_, exec_closeenc hrace hb, hare 0 Nat.zero_lt_two, hare 1 Nat.one_lt_two,
    memWrite_kept s a.region a.off [c.extractLsb' 8 8, c.extractLsb' 0 8], rfl, rfl⟩

/-- R117: with fewer than two bytes the code is 1000, and no region is read. -/
theorem exec_closedec_short (a : Addr) {k : Nat} (s : State) (hk : k < 2) :
    exec (.closedec a k) s = .next (ended s s.issuer 0x0D (.ok (.code 1000))) := if_pos hk

/-- R117: past the end of the region CLOSEDEC reads nothing. -/
theorem closedec_faultsWith_bounds {a : Addr} {k : Nat} {s : State} (hk : 2 ≤ k)
    (hrace : s.readRace s.issuer a.region = false) (hb : s.size a.region < a.off + 2) :
    faultsWith (.closedec a k) s s.issuer 0x0D .bounds := by
  show execClosedec a k s = _
  unfold execClosedec
  rw [if_neg (Nat.not_lt.2 hk), hrace, if_neg Bool.false_ne_true, if_pos (accessFaults_of_lt two_ne_zero hb),
    ← State.raise_eq_ended]

/-- R117: inside the region CLOSEDEC answers the code of the two bytes at the address. -/
theorem exec_closedec {a : Addr} {k : Nat} {s : State} (hk : 2 ≤ k) (hrace : s.readRace s.issuer a.region = false)
    (hb : a.off + 2 ≤ s.size a.region) :
    exec (.closedec a k) s = .next (ended s s.issuer 0x0D (.ok (.code (closeCode (s.memRead a.region a.off 2))))) := by
  show execClosedec a k s = _
  unfold execClosedec
  rw [if_neg (Nat.not_lt.2 hk), hrace, if_neg Bool.false_ne_true, accessFaults_eq_false.2 (.inr hb),
    if_neg Bool.false_ne_true]
  rfl

/-- R52: the close code two bytes of a region spell. -/
theorem closeCode_memRead (s : State) (A : Region) (o : Nat) :
    (closeCode (s.memRead A o 2)).toNat = (s.readByte A o).toNat * 256 + (s.readByte A (o + 1)).toNat := by
  have hhigh := (s.readByte A o).isLt
  have hlow := (s.readByte A (o + 1)).isLt
  rw [closeCode_eq _ (memRead_length s A o 2).ge, BitVec.toNat_ofNat]
  show ((s.readByte A o).toNat * 256 + (s.readByte A (o + 1)).toNat) % 2 ^ 16 = _
  exact Nat.mod_eq_of_lt (by omega)

/-- Settles O43: by k and the bounds. -/
theorem closedecReadsBigEndian : Obligations.ClosedecReadsBigEndian := by
  intro a k s
  exact ⟨exec_closedec_short a s, closedec_faultsWith_bounds, fun hk hrace hb =>
    ⟨_, exec_closedec hk hrace hb, closeCode_memRead s a.region a.off⟩⟩

/-! ### RELEASE (R121) -/

/-- R121: RELEASE is refused while the host does not hold the permit. -/
theorem release_faultsWith_notHeld {s : State} (h : s.permit ≠ .host) : faultsWith .release s .host 0x10 .notHeld :=
  if_neg h

/-- R121: RELEASE frees the permit of the host. -/
theorem exec_release {s : State} (h : s.permit = .host) :
    exec .release s = .next ((s.takePermit .free).complete .host 0x10 (.ok .done)) := if_pos h

/-- Settles O50: by who holds the permit. -/
theorem releaseFreesThePermit : Obligations.ReleaseFreesThePermit := by
  intro s
  exact ite_intro release_faultsWith_notHeld fun h => exec_release (not_not.1 h)

end Sys2Proof.Machine
end

section
/-! Proofs of the family 70_reset_and_hazards.md. -/
namespace Sys2Proof.Machine

open Sys2Proof

/-! ### The receive commands while RX is busy (R145)

RX_BUSY is the first check of every receive command, so neither PHASE nor an operand is reached. RETIRE's share is
`retire_faultsWith_busy`. -/

section RxBusy
variable {s : State} (hbusy : s.rxs.busy = true)
include hbusy

theorem await_faultsWith_busy : faultsWith .await s .rx 0x08 .stateBusy := if_pos hbusy

theorem recv_faultsWith_busy (a : Addr) (len : Nat) : faultsWith (.recv a len) s .rx 0x09 .stateBusy := if_pos hbusy

theorem rxmask_faultsWith_busy (a : Addr) (n : Nat) : faultsWith (.rxmask a n) s .rx 0x06 .stateBusy := if_pos hbusy

/-- PARSE tests RX_BUSY together with the race on its region; either one gives the fault. -/
theorem parse_faultsWith_busy (a : Addr) (n : Nat) : faultsWith (.parse a n) s .rx 0x02 .stateBusy :=
  if_pos (Bool.or_eq_true_iff.2 (.inl hbusy))

end RxBusy

/-- Settles O53: command by command, from RX_BUSY as the first check. -/
theorem secondReaderIsRefused : Obligations.SecondReaderIsRefused := by
  intro s hbusy
  exact ⟨await_faultsWith_busy hbusy, retire_faultsWith_busy hbusy, fun a n =>
    ⟨recv_faultsWith_busy hbusy a n, rxmask_faultsWith_busy hbusy a n, parse_faultsWith_busy hbusy a n⟩⟩

end Sys2Proof.Machine
end

section
/-! Proofs of the family 'other': the encoder and the decoder undo each other. -/
namespace Sys2Proof

/-- Settles O5, instruction by instruction. -/
theorem decodeOfEncode : Obligations.DecodeOfEncode := by
  intro i
  cases i with
  | cont h => exact Laws.RoundTrip.cont h
  | text h => exact Laws.RoundTrip.text h
  | binary h => exact Laws.RoundTrip.binary h
  | close h => exact Laws.RoundTrip.close h
  | ping h => exact Laws.RoundTrip.ping h
  | pong h => exact Laws.RoundTrip.pong h
  | reservedOp3 h => exact Laws.RoundTrip.reservedOp3 h
  | reservedOp4 h => exact Laws.RoundTrip.reservedOp4 h
  | reservedOp5 h => exact Laws.RoundTrip.reservedOp5 h
  | reservedOp6 h => exact Laws.RoundTrip.reservedOp6 h
  | reservedOp7 h => exact Laws.RoundTrip.reservedOp7 h
  | reservedOpB h => exact Laws.RoundTrip.reservedOpB h
  | reservedOpC h => exact Laws.RoundTrip.reservedOpC h
  | reservedOpD h => exact Laws.RoundTrip.reservedOpD h
  | reservedOpE h => exact Laws.RoundTrip.reservedOpE h
  | reservedOpF h => exact Laws.RoundTrip.reservedOpF h
  | hdrlen b0 b1 => exact Laws.RoundTrip.hdrlen b0 b1
  | parse a n => exact Laws.RoundTrip.parse a n
  | opclass op => exact Laws.RoundTrip.opclass op
  | emit h a => exact Laws.RoundTrip.emit h a
  | mask a n k pos => exact Laws.RoundTrip.mask a n k pos
  | rxmask a n => exact Laws.RoundTrip.rxmask a n
  | retire => exact Laws.RoundTrip.retire
  | await => exact Laws.RoundTrip.await
  | recv a len => exact Laws.RoundTrip.recv a len
  | prepare a len fin sent op ext => exact Laws.RoundTrip.prepare a len fin sent op ext
  | sendframe a n t opts => exact Laws.RoundTrip.sendframe a n t opts
  | closeenc c a => exact Laws.RoundTrip.closeenc c a
  | closedec a k => exact Laws.RoundTrip.closedec a k
  | rdreg r => exact Laws.RoundTrip.rdreg r
  | acquire t => exact Laws.RoundTrip.acquire t
  | release => exact Laws.RoundTrip.release
  | reservedCmd code args => exact Laws.RoundTrip.reservedCmd code args

/-- Header bytes that decode are those of a well-formed frame header, with none left over. -/
theorem decode_header_ok {bs : List Byte} {i : Instr} (h : decode (.header bs) = .ok i) :
    ∃ op f, i = frameInstr op f ∧ f.wellFormed = true ∧ bs = encodeHeader op f := by
  unfold decode at h
  simp only at h
  split at h
  · cases h
  · next op f hread =>
    cases h
    obtain ⟨hwf, hbs⟩ := readHeader_ok hread
    exact ⟨op, f, rfl, hwf, by rwa [List.append_nil] at hbs⟩
  · cases h

/-- A command record that decodes is read to its last operand. -/
theorem decode_command_ok {c : CmdRecord} {i : Instr} (h : decode (.command c) = .ok i) :
    readCommand c.code c.args = .ok (i, []) := by
  unfold decode at h
  simp only at h
  split at h
  · cases h
  · next hread =>
    cases h
    exact hread
  · cases h

/-- Settles O6: what the readers accept is what the encoder writes. -/
theorem encodeOfDecode : Obligations.EncodeOfDecode := by
  intro w i h
  cases w with
  | header bs =>
    obtain ⟨op, f, rfl, hwf, rfl⟩ := decode_header_ok h
    exact ⟨(wellFormed_frameInstr op f).trans hwf, encode_frameInstr op f⟩
  | command c =>
    obtain ⟨hwf, args, hargs, henc⟩ := readCommand_ok (decode_command_ok h)
    rw [List.append_nil] at hargs
    exact ⟨hwf, by rw [henc, ← hargs]⟩

end Sys2Proof
end

section
/-! Proofs of the family 'other': every step keeps the invariant. -/
namespace Sys2Proof.Machine

open Sys2Proof

/-- Is the instruction a command: is its encoding a record (30_encoding.md R84)? -/
def isCommand (i : Instr) : Prop := ∃ c, encode i = .command c

/-- What a record decodes to is a command. -/
theorem isCommand_of_decode {c : CmdRecord} {i : Instr} (h : decode (.command c) = .ok i) : isCommand i :=
  ⟨c, (encodeOfDecode (.command c) i h).2⟩

theorem State.Inv.exec {s t : State} {i : Instr} (h : s.Inv) (hi : isCommand i) (ht : exec i s = .next t) : t.Inv := by
  obtain ⟨c, hc⟩ := hi
  cases i with
  | hdrlen b0 b1 => exact h.execHdrlen (b0 := b0) ht
  | parse a n => exact h.execParse ht
  | opclass op => exact h.execOpclass ht
  | emit e a => exact h.execEmit ht
  | mask a n k pos => exact h.execMask ht
  | rxmask a n => exact h.execRxmask ht
  | retire => exact h.execRetire ht
  | await => exact h.execAwait ht
  | recv a len => exact h.execRecv ht
  | prepare a len fin sent op ext => exact h.execPrepare ht
  | sendframe a n tm opts => exact h.execSendframe ht
  | closeenc c a => exact h.execCloseenc ht
  | closedec a k => exact h.execClosedec ht
  | rdreg r => exact h.execRdreg ht
  | acquire tm => exact h.execAcquire ht
  | release => exact h.execRelease ht
  | reservedCmd code args => exact h.execReservedCmd (b1 := args) ht
  | _ => cases hc

/-- Who issues a command and which turns are left is nothing the invariant reads. -/
theorem State.Inv.withIssuer {s : State} (h : s.Inv) (a : Agent) : State.Inv { s with issuer := a } :=
  h.of_eq rfl rfl rfl rfl rfl rfl fun _ hm => .inl hm

theorem State.Inv.withTurns {s : State} (h : s.Inv) (ts : List Turn) : State.Inv { s with turns := ts } :=
  h.of_eq rfl rfl rfl rfl rfl rfl fun _ hm => .inl hm

/-- A record that is issued is a command's, run with its agent as the issuer. -/
theorem issue_next {s t : State} {a : Agent} {c : CmdRecord} (h : s.issue a c = .next t) :
    ∃ i, decode (.command c) = .ok i ∧ Machine.exec i { s with issuer := a } = .next t := by
  unfold State.issue at h
  split at h
  · cases h
  · next i hi => exact ⟨i, hi, h⟩

theorem State.Inv.runTurn {s t : State} {u : Turn} (h : s.Inv) (ht : s.runTurn u = .next t) : t.Inv := by
  cases u with
  | command a c =>
    obtain ⟨i, hi, hx⟩ := issue_next ht
    exact (h.withIssuer a).exec (isCommand_of_decode hi) hx
  | rx => exact h.rxStep ht
  | pending k => cases ht; exact h.pendingStep k
  | giveUp k => cases ht; exact h.giveUpStep k
  | hostWrite a bs => cases ht; exact h.hostWrites a bs
  | giveBuffer b bs => cases ht; exact h.hostGives b bs
  | prepareAndSend p len fin sent op ext tm opts =>
    obtain ⟨v, ts, hv, rfl⟩ := prepareAndSend_eq ht
    exact ((h.withIssuer .host).exec ⟨_, rfl⟩ hv).withTurns ts
  | pingFrame p tm => cases ht; exact h.pingFrame p tm
  | setCanSend b => cases ht; exact h.of_eq rfl rfl rfl rfl rfl rfl fun _ hm => .inl hm
  | rxArrive a => cases ht; exact h.of_eq rfl rfl rfl rfl rfl rfl fun _ hm => .inl hm
  | txReply a => cases ht; exact h.of_eq rfl rfl rfl rfl rfl rfl fun _ hm => .inl hm
  | drawKey k => cases ht; exact h.of_eq rfl rfl rfl rfl rfl rfl fun _ hm => .inl hm

/-- Settles O3: a step takes one turn, and every turn keeps the invariant. -/
theorem stepKeepsInvariant : Obligations.StepKeepsInvariant := by
  intro s t h ht
  obtain hidle | ⟨u, us, vs, -, -, hturn⟩ := step_cases s
  · rw [hidle] at ht
    cases ht
    exact h
  · rw [hturn] at ht
    exact (h.withTurns _).runTurn ht

end Sys2Proof.Machine
end

section
/-! Proofs of the family 'other': what a command can do, said once, and what every turn leaves of the outputs and of the
permit. -/
namespace Sys2Proof.Machine

open Sys2Proof

/-! ### What a command can do -/

/-- All that a command can do to the state, with the checks it passed; `plain` is every command that only answers, a fault
among them, or that also writes bytes of regions (and for PREPARE draws a key and marks its frame). -/
inductive CommandEffect (s : State) : Instr → State → Prop
  | plain (i : Instr) (m : Memory) (r : Completion) (kd : List Key) (kc : Nat) (sp : Bool) :
    CommandEffect s i { s with mem := m, results := s.results ++ [r], keyDraws := kd, keyCtr := kc, sendPrepared := sp }
  | parse (a : Addr) (n : Nat) (op : BitVec 4) (f : FrameHdr) (r : Result) :
    s.rxs.busy = false → s.rxs.phase ≠ .faulted →
    CommandEffect s (.parse a n) (State.complete { s with hdr := loadHeader op f } .rx 0x02 r)
  | rxmask (a : Addr) (n : Nat) (r : Result) : s.hdr.valid = true →
    CommandEffect s (.rxmask a n) ((s.rxmaskApply a.region a.off n).complete .rx 0x06 r)
  | retire (r : Result) : s.hdr.valid = true → CommandEffect s .retire (s.retired.complete .rx 0x07 r)
  | await : s.rxs.phase ≠ .faulted → s.rxs.phase ≠ .eof → s.rxs.phase ≠ .closed → s.rxs.busy = false →
    CommandEffect s .await s.awaitStart
  | recv (a : Addr) (len : Nat) : s.rxs.phase ≠ .faulted → s.writeRace .rx a.region = false →
    CommandEffect s (.recv a len) { s with rxs := { s.rxs with busy := true }, rxJob := .recv a len }
  | sendNolock (a : Addr) (n : Nat) (t : Timeout) (o : Opts) :
    (n ≠ 0 → s.readRace (txAgent s.issuer) a.region = false) → o.nolock = true →
    CommandEffect s (.sendframe a n t o) { s with pending := s.pending ++ [.send ⟨s.issuer, a, n, t, o, .check⟩] }
  | sendAcquires (a : Addr) (n : Nat) (t : Timeout) (o : Opts) :
    (n ≠ 0 → s.readRace (txAgent s.issuer) a.region = false) → o.nolock = false → s.permit = .free →
    CommandEffect s (.sendframe a n t o)
      { s with permit := permitOf s.issuer, pending := s.pending ++ [.send ⟨s.issuer, a, n, t, o, .check⟩] }
  | sendWaits (a : Addr) (n : Nat) (t : Timeout) (o : Opts) :
    (n ≠ 0 → s.readRace (txAgent s.issuer) a.region = false) → o.nolock = false →
    CommandEffect s (.sendframe a n t o) { s with pending := s.pending ++ [.send ⟨s.issuer, a, n, t, o, .acquire⟩] }
  | acquires (t : Timeout) (r : Result) : s.permit = .free →
    CommandEffect s (.acquire t) ((s.takePermit .host).complete .host 0x0F r)
  | acquireWaits (t : Timeout) : CommandEffect s (.acquire t) { s with pending := s.pending ++ [.acquire t] }
  | release (r : Result) : s.permit = .host → CommandEffect s .release ((s.takePermit .free).complete .host 0x10 r)

/-- A command that only answers. -/
theorem CommandEffect.answers (s : State) (i : Instr) (a : Agent) (cmd : BitVec 8) (r : Result) :
    CommandEffect s i (s.complete a cmd r) := .plain i s.mem ⟨a, cmd, r⟩ s.keyDraws s.keyCtr s.sendPrepared

/-- A command that stores bytes and answers. -/
theorem CommandEffect.stores (s : State) (i : Instr) (A : Region) (o : Nat) (bs : List Byte) (a : Agent) (cmd : BitVec 8)
    (r : Result) : CommandEffect s i ((s.memWrite A o bs).complete a cmd r) :=
  .plain i _ ⟨a, cmd, r⟩ s.keyDraws s.keyCtr s.sendPrepared

/-- PREPARE writes bytes and draws a key. -/
theorem prepareApply_eq (s : State) (a : Addr) (len : Nat) (fin sent : Bool) (op : BitVec 4) (ext : BitVec 3) :
    ∃ m kd kc, s.prepareApply a len fin sent op ext = { s with mem := m, keyDraws := kd, keyCtr := kc } := by
  unfold State.prepareApply
  simp only [State.prepareHeader]
  cases s.cfg.maskOut <;> exact ⟨_, _, _, rfl⟩

theorem execParse_effect {a : Addr} {n : Nat} {s t : State} (ht : execParse a n s = .next t) :
    CommandEffect s (.parse a n) t := by
  unfold execParse at ht
  split at ht
  · cases ht; exact .answers ..
  next hbusy =>
  split at ht
  · cases ht; exact .answers ..
  next hphase =>
  split at ht
  · cases ht; exact .answers ..
  split at ht
  · cases ht; exact .answers ..
  next s' hs =>
  cases ht
  obtain ⟨op, f, -, rfl⟩ := parseBytes_ok hs
  rw [Bool.or_eq_true, not_or, Bool.not_eq_true] at hbusy
  exact .parse a n op f _ hbusy.1 hphase

theorem execEmit_effect {h : HeaderOp} {a : Addr} {s t : State} (ht : execEmit h a s = .next t) :
    CommandEffect s (.emit h a) t := by
  unfold execEmit at ht
  split at ht
  · cases ht; exact .answers ..
  split at ht
  · cases ht; exact .answers ..
  · cases ht; exact .stores ..

theorem execMask_effect {a : Addr} {n : Nat} {k : Key} {pos : Nat} {s t : State} (ht : execMask a n k pos s = .next t) :
    CommandEffect s (.mask a n k pos) t := by
  unfold execMask at ht
  split at ht
  · cases ht; exact .answers ..
  split at ht
  · cases ht; exact .answers ..
  split at ht
  · cases ht; exact .answers ..
  · cases ht; exact .stores ..

theorem execRxmask_effect {a : Addr} {n : Nat} {s t : State} (ht : execRxmask a n s = .next t) :
    CommandEffect s (.rxmask a n) t := by
  unfold execRxmask at ht
  split at ht
  · cases ht; exact .answers ..
  split at ht
  · cases ht; exact .answers ..
  split at ht
  · cases ht; exact .answers ..
  next hf =>
  cases ht
  exact .rxmask a n _ (rxmaskFault_none hf).1

theorem execRetire_effect {s t : State} (ht : execRetire s = .next t) : CommandEffect s .retire t := by
  unfold execRetire at ht
  split at ht
  · cases ht; exact .answers ..
  split at ht
  · next hvalid =>
    cases ht
    rw [Bool.and_eq_true] at hvalid
    exact .retire _ hvalid.1
  · cases ht; exact .answers ..

theorem execAwait_effect {s t : State} (ht : execAwait s = .next t) : CommandEffect s .await t := by
  unfold execAwait at ht
  split at ht
  · cases ht; exact .answers ..
  next hbusy =>
  split at ht
  · cases ht; exact .answers ..
  next hfaulted =>
  split at ht
  · cases ht; exact .answers ..
  next hended =>
  split at ht
  · cases ht; exact .answers ..
  cases ht
  rw [not_or] at hended
  exact .await hfaulted hended.1 hended.2 (Bool.eq_false_iff.2 hbusy)

theorem execRecv_effect {a : Addr} {len : Nat} {s t : State} (ht : execRecv a len s = .next t) :
    CommandEffect s (.recv a len) t := by
  unfold execRecv at ht
  split at ht
  · cases ht; exact .answers ..
  split at ht
  · cases ht; exact .answers ..
  next hfaulted =>
  split at ht
  · cases ht; exact .answers ..
  next hrace =>
  split at ht
  · cases ht; exact .answers ..
  split at ht
  · cases ht; exact .answers ..
  split at ht
  · cases ht; exact .answers ..
  split at ht
  · cases ht; exact .answers ..
  next h0 =>
  cases ht
  exact .recv a len hfaulted (by simpa [h0] using hrace)

theorem execPrepare_effect {a : Addr} {len : Nat} {fin sent : Bool} {op : BitVec 4} {ext : BitVec 3} {s t : State}
    (ht : execPrepare a len fin sent op ext s = .next t) : CommandEffect s (.prepare a len fin sent op ext) t := by
  unfold execPrepare at ht
  split at ht
  · cases ht; exact .answers ..
  split at ht
  · cases ht; exact .answers ..
  · cases ht
    obtain ⟨m, kd, kc, hprep⟩ := prepareApply_eq s a len fin sent op ext
    rw [hprep]
    exact .plain _ m _ kd kc _

theorem execSendframe_effect {a : Addr} {n : Nat} {tm : Timeout} {o : Opts} {s t : State}
    (ht : execSendframe a n tm o s = .next t) : CommandEffect s (.sendframe a n tm o) t := by
  unfold execSendframe at ht
  simp only at ht
  split at ht
  · cases ht; exact .answers ..
  split at ht
  · cases ht; exact .answers ..
  next hrace =>
  have hfree : n ≠ 0 → s.readRace (txAgent s.issuer) a.region = false := fun h0 =>
    Bool.eq_false_iff.2 fun hr => hrace ⟨h0, hr⟩
  split at ht
  · next hnolock =>
    split at ht
    · cases ht; exact .sendNolock a n tm o hfree hnolock
    · cases ht; exact .answers ..
  next hlock =>
  rw [Bool.not_eq_true] at hlock
  split at ht
  · next hpermit => cases ht; exact .sendAcquires a n tm o hfree hlock hpermit
  split at ht
  · cases ht
    exact .plain _ s.mem ⟨s.issuer, 0x0B, .ok (.bool false)⟩ s.keyDraws s.keyCtr _
  · cases ht; exact .sendWaits a n tm o hfree hlock

theorem execCloseenc_effect {c : BitVec 16} {a : Addr} {s t : State} (ht : execCloseenc c a s = .next t) :
    CommandEffect s (.closeenc c a) t := by
  unfold execCloseenc at ht
  split at ht
  · cases ht; exact .answers ..
  split at ht
  · cases ht; exact .answers ..
  · cases ht; exact .stores ..

theorem execClosedec_effect {a : Addr} {k : Nat} {s t : State} (ht : execClosedec a k s = .next t) :
    CommandEffect s (.closedec a k) t := by
  unfold execClosedec at ht
  split at ht
  · cases ht; exact .answers ..
  split at ht
  · cases ht; exact .answers ..
  split at ht
  · cases ht; exact .answers ..
  · cases ht; exact .answers ..

theorem execAcquire_effect {tm : Timeout} {s t : State} (ht : execAcquire tm s = .next t) :
    CommandEffect s (.acquire tm) t := by
  unfold execAcquire at ht
  split at ht
  · cases ht; exact .answers ..
  split at ht
  · next hfree => cases ht; exact .acquires tm _ hfree
  split at ht
  · cases ht; exact .answers ..
  · cases ht; exact .acquireWaits tm

theorem execRelease_effect {s t : State} (ht : execRelease s = .next t) : CommandEffect s .release t := by
  unfold execRelease at ht
  split at ht
  · next hheld => cases ht; exact .release _ hheld
  · cases ht; exact .answers ..

/-- What a command that runs has done. -/
theorem exec_effect {s t : State} {i : Instr} (hi : isCommand i) (ht : exec i s = .next t) : CommandEffect s i t := by
  obtain ⟨c, hc⟩ := hi
  cases i with
  | hdrlen b0 b1 => cases ht; exact .answers ..
  | parse a n => exact execParse_effect ht
  | opclass op => cases ht; exact .answers ..
  | emit e a => exact execEmit_effect ht
  | mask a n k pos => exact execMask_effect ht
  | rxmask a n => exact execRxmask_effect ht
  | retire => exact execRetire_effect ht
  | await => exact execAwait_effect ht
  | recv a len => exact execRecv_effect ht
  | prepare a len fin sent op ext => exact execPrepare_effect ht
  | sendframe a n tm opts => exact execSendframe_effect ht
  | closeenc c a => exact execCloseenc_effect ht
  | closedec a k => exact execClosedec_effect ht
  | rdreg r => cases ht; exact .answers ..
  | acquire tm => exact execAcquire_effect ht
  | release => exact execRelease_effect ht
  | reservedCmd code args => cases ht; exact .answers ..
  | _ => cases hc

end Sys2Proof.Machine
end

section
/-! Proofs of the family 'other': the permit of RX, one command an agent, ownership (10_state.md section 5, 20_memory.md
section 4). -/
namespace Sys2Proof.Machine

open Sys2Proof

theorem AgentInv.isApart {s : State} (h : AgentInv s) : Apart s := ⟨h.oneEach, h.owned, h.apart⟩

theorem Apart.agentInv {s : State} (h : Apart s) (hp : PermitInv s) : AgentInv s := ⟨hp, h.oneEach, h.owned, h.apart⟩

/-- The clauses read the permit, the commands in progress and nothing else. -/
theorem AgentInv.congr {s t : State} (h : AgentInv s) (hpermit : t.permit = s.permit) (hpending : t.pending = s.pending)
    (hjob : t.rxJob = s.rxJob) : AgentInv t :=
  (apart_congr h.isApart hpending hjob).agentInv (h.permit.congr hpermit hpending (by rw [hjob]))

/-- A step of the receive pipeline that leaves the agents' frame. -/
theorem AgentInv.of_frame {s t : State} (h : AgentInv s) (hf : AgentFr s t) (hjob : s.rxJob ≠ .none)
    (hholds : jobHolds s.rxJob = 0) : AgentInv t :=
  (apart_AgentFr hf h.isApart hjob).agentInv (hf.inv h.permit hholds)

/-! ### The permit -/

/-- A command in progress more, with the permit it took. -/
theorem PermitInv.append {s t : State} {p : Pending} (h : PermitInv s) (hpending : t.pending = s.pending ++ [p])
    (hjob : t.rxJob = s.rxJob)
    (hwaits : ∀ j, p = .send j → j.stage = .acquire → j.opts.nolock = false)
    (hholds : t.permit = s.permit ∧ p.holdsForRx = false ∨
      s.permit = .free ∧ (t.permit = .rx ∧ p.holdsForRx = true ∨ t.permit = .host ∧ p.holdsForRx = false)) :
    PermitInv t := by
  obtain ⟨hcount, hnolock⟩ := h
  rw [rxHolders_eq] at hcount
  constructor
  · rw [rxHolders_eq, hjob, hpending, List.countP_append, List.countP_singleton]
    rcases hholds with ⟨hp, hh⟩ | ⟨hfree, ⟨hp, hh⟩ | ⟨hp, hh⟩⟩
    · rw [hp, hh, ← hcount]; simp
    · rw [hfree] at hcount
      rw [hp, hh, if_pos rfl, if_pos rfl]
      rw [if_neg (by decide)] at hcount
      omega
    · rw [hfree] at hcount
      rw [hp, hh, if_neg Bool.false_ne_true, if_neg (by decide)]
      rw [if_neg (by decide)] at hcount
      omega
  · intro j hj
    rw [hpending, List.mem_append, List.mem_singleton] at hj
    exact hj.elim (hnolock j) fun e => hwaits j e.symm

/-- The permit moves between free and the host. -/
theorem PermitInv.ofHost {s t : State} (h : PermitInv s) (hpending : t.pending = s.pending) (hjob : t.rxJob = s.rxJob)
    (hs : s.permit ≠ .rx) (ht : t.permit ≠ .rx) : PermitInv t := by
  obtain ⟨hcount, hnolock⟩ := h
  rw [if_neg hs, rxHolders_eq] at hcount
  exact ⟨by rw [if_neg ht, rxHolders_eq, hpending, hjob, hcount], by rw [hpending]; exact hnolock⟩

/-- AWAIT and RECV start without a pong. -/
theorem PermitInv.startsRx {s t : State} (h : PermitInv s) (hpermit : t.permit = s.permit)
    (hpending : t.pending = s.pending) (hs : s.rxJob = .none) (ht : jobHolds t.rxJob = 0) : PermitInv t :=
  h.congr hpermit hpending (by rw [ht, hs]; rfl)

/-! ### Who is at work -/

/-- With RX free there is no receive command in progress. -/
theorem rxJob_none_of_free {s : State} (h : Agent.rx ∉ s.atWork) : s.rxJob = .none := by
  by_contra hne
  rw [atWork_eq, rxPart_ne hne] at h
  simp at h

/-- With RX free it sends nothing. -/
theorem issuer_ne_rx_of_free {s : State} (h : Agent.rx ∉ s.atWork) {j : SendJob} (hj : Pending.send j ∈ s.pending) :
    j.issuer ≠ .rx := by
  intro hi
  refine h (List.mem_append_left _ (List.mem_flatMap.2 ⟨_, hj, ?_⟩))
  simp [Pending.agents, hi]

/-- A SENDFRAME that sends from a region is one of those in progress. -/
theorem sendOwns_eq_true {s : State} {A : Region} :
    s.sendOwns A = true ↔ ∃ j, Pending.send j ∈ s.pending ∧ j.addr.region = A ∧ j.n ≠ 0 := by
  unfold State.sendOwns
  rw [List.any_eq_true]
  constructor
  · rintro ⟨p, hp, hsends⟩
    cases p with
    | send j => exact ⟨j, hp, of_decide_eq_true hsends⟩
    | acquire t => cases hsends
  · rintro ⟨j, hj, hr⟩
    exact ⟨.send j, hj, decide_eq_true hr⟩

/-- R39: with RX free no SENDFRAME sends from a region RX always owns. -/
theorem Apart.sendOwns_rxRegion {s : State} (h : Apart s) (hrx : Agent.rx ∉ s.atWork) {A : Region}
    (hA : rxRegion A = true) : s.sendOwns A = false := by
  rw [Bool.eq_false_iff]
  intro hs
  obtain ⟨j, hj, rfl, hn⟩ := sendOwns_eq_true.1 hs
  exact issuer_ne_rx_of_free hrx hj (h.owned j hj hn hA)

/-- RX starts a command: what it comes to own, no SENDFRAME sends from. -/
theorem Apart.startsRx {s t : State} (h : Apart s) (hrx : Agent.rx ∉ s.atWork) (hpending : t.pending = s.pending)
    (hjob : t.rxJob ≠ .none) (howns : ∀ A, t.rxOwns A = true → rxRegion A = true ∨ s.sendOwns A = false) :
    Apart t where
  oneEach := by
    have hnodup := h.oneEach
    rw [atWork_eq, rxJob_none_of_free hrx] at hnodup hrx
    rw [atWork_eq, hpending, rxPart_ne hjob]
    simp only [rxPart, List.append_nil] at hnodup hrx
    exact List.nodup_append.2 ⟨hnodup, List.nodup_singleton _, fun a ha b hb => by
      rintro rfl
      rw [List.mem_singleton.1 hb] at ha
      exact hrx ha⟩
  owned := by rw [hpending]; exact h.owned
  apart := by
    intro A hA
    rw [sendOwns_congr hpending]
    exact (howns A hA).elim (h.sendOwns_rxRegion hrx) id

/-- A command in progress more: its agents were free, and it sends only from a region its agent may read. -/
theorem Apart.append {s t : State} {p : Pending} (h : Apart s) (hpending : t.pending = s.pending ++ [p])
    (hjob : t.rxJob = s.rxJob) (hnodup : p.agents.Nodup) (hfree : ∀ g ∈ p.agents, g ∉ s.atWork)
    (hsend : ∀ j, p = .send j → j.n ≠ 0 → s.readRace (txAgent j.issuer) j.addr.region = false) : Apart t where
  oneEach := by
    have hs := h.oneEach
    rw [atWork_eq] at hs
    have hperm : t.atWork.Perm (p.agents ++ s.atWork) := by
      rw [atWork_eq, atWork_eq, hjob, hpending, List.flatMap_append, List.flatMap_singleton, ← List.append_assoc]
      exact List.Perm.append_right _ List.perm_append_comm
    refine hperm.nodup_iff.2 (List.nodup_append.2 ⟨hnodup, hs, fun a ha b hb => ?_⟩)
    rintro rfl
    exact hfree a ha hb
  owned := by
    intro j hj hn hr
    rw [hpending, List.mem_append, List.mem_singleton] at hj
    rcases hj with hj | hj
    · exact h.owned j hj hn hr
    · have hrace := hsend j hj.symm hn
      have howner : s.owner j.addr.region = some .rx := by
        cases hA : j.addr.region <;> rw [hA] at hr <;> first | rfl | cases hr
      have hagent := (Bool.or_eq_false_iff.1 hrace).2
      rw [State.foreign, howner] at hagent
      cases hi : j.issuer <;> rw [hi] at hagent <;> first | rfl | cases hagent
  apart := by
    intro A hA
    rw [rxOwns_congr hjob] at hA
    rw [State.sendOwns, hpending, List.any_append, Bool.or_eq_false_iff]
    refine ⟨h.apart A hA, ?_⟩
    rw [Bool.eq_false_iff]
    intro hany
    cases p with
    | acquire tm => cases hany
    | send j =>
      have hj : j.addr.region = A ∧ j.n ≠ 0 := by simpa [Pending.sendsFrom] using hany
      have hrace := (Bool.or_eq_false_iff.1 (hsend j rfl hj.2)).1
      rw [hj.1, hA] at hrace
      cases hrace

/-- What a SENDFRAME holds, it needed. -/
theorem mem_needs_of_send {s : State} {a : Addr} {n : Nat} {t : Timeout} {o : Opts} {st : SendStage} {g : Agent}
    (hg : g ∈ (Pending.send ⟨s.issuer, a, n, t, o, st⟩).agents) : g ∈ needs s.issuer (.sendframe a n t o) := by
  cases hi : s.issuer <;> simp only [Pending.agents, hi] at hg <;> simpa [needs, readerCommand, runner, txAgent] using hg

theorem agents_nodup (p : Pending) : p.agents.Nodup := by
  cases p with
  | acquire t => exact List.nodup_singleton _
  | send j => cases hi : j.issuer <;> simp [Pending.agents, hi]

/-! ### Commands -/

/-- A command whose agents are free keeps the agents apart. -/
theorem AgentInv.effect {s t : State} {i : Instr} (h : AgentInv s) (hfree : ∀ g ∈ needs s.issuer i, g ∉ s.atWork)
    (he : CommandEffect s i t) : AgentInv t := by
  have sendApart {a n tm o} (st : SendStage) {u : State}
      (hrace : n ≠ 0 → s.readRace (txAgent s.issuer) a.region = false) (hi : i = .sendframe a n tm o)
      (hu : u.pending = s.pending ++ [.send ⟨s.issuer, a, n, tm, o, st⟩]) (hjob : u.rxJob = s.rxJob) : Apart u :=
    h.isApart.append hu hjob (agents_nodup _) (fun g hg => hfree g (hi ▸ mem_needs_of_send hg))
      fun j hj hn => by cases hj; exact hrace hn
  cases he with
  | plain => exact h.congr rfl rfl rfl
  | parse => exact h.congr rfl rfl rfl
  | rxmask => exact h.congr rfl rfl rfl
  | retire => exact h.congr (by simp [retired_eq]) (by simp [retired_eq]) (by simp [retired_eq])
  | await =>
    have hrx : Agent.rx ∉ s.atWork := hfree .rx (by simp [needs, readerCommand, runner])
    refine Apart.agentInv ?_ ?_
    · exact h.isApart.startsRx hrx rfl (by simp [State.awaitStart]) fun A hA => .inl hA
    · exact h.permit.startsRx rfl rfl (rxJob_none_of_free hrx) rfl
  | recv a len _ hrace =>
    have hrx : Agent.rx ∉ s.atWork := hfree .rx (by simp [needs, readerCommand, runner])
    obtain ⟨-, -, hsends, -⟩ := writeRace_eq_false.1 hrace
    refine Apart.agentInv ?_ ?_
    · refine h.isApart.startsRx hrx rfl (by simp) fun A hA => ?_
      rcases Bool.or_eq_true_iff.1 hA with hA | hA
      · exact .inl hA
      · exact .inr (of_decide_eq_true hA ▸ hsends)
    · exact h.permit.startsRx rfl rfl (rxJob_none_of_free hrx) rfl
  | sendNolock a n tm o hrace hnolock =>
    refine Apart.agentInv (sendApart _ hrace rfl rfl rfl) ?_
    exact h.permit.append rfl rfl (fun j hj hst => by cases hj; cases hst)
      (.inl ⟨rfl, by simp [Pending.holdsForRx, SendJob.holdsForRx, hnolock]⟩)
  | sendAcquires a n tm o hrace hlock hpermit =>
    refine Apart.agentInv (sendApart _ hrace rfl rfl rfl) ?_
    refine h.permit.append rfl rfl (fun j hj hst => by cases hj; cases hst) (.inr ⟨hpermit, ?_⟩)
    cases hi : s.issuer <;> simp [permitOf, Pending.holdsForRx, SendJob.holdsForRx, hlock]
  | sendWaits a n tm o hrace hlock =>
    refine Apart.agentInv (sendApart _ hrace rfl rfl rfl) ?_
    exact h.permit.append rfl rfl (fun j hj _ => by cases hj; exact hlock)
      (.inl ⟨rfl, by simp [Pending.holdsForRx, SendJob.holdsForRx]⟩)
  | acquires tm r hpermit =>
    refine Apart.agentInv (apart_congr h.isApart rfl rfl) ?_
    exact h.permit.ofHost rfl rfl (by simp [hpermit]) (by simp)
  | acquireWaits tm =>
    have hhost : Agent.host ∉ s.atWork := hfree .host (by simp [needs, readerCommand, runner])
    refine Apart.agentInv ?_ ?_
    · exact h.isApart.append rfl rfl (agents_nodup _) (fun g hg => by rwa [List.mem_singleton.1 hg])
        fun j hj => by cases hj
    · exact h.permit.append rfl rfl (fun j hj => by cases hj) (.inl ⟨rfl, rfl⟩)
  | release r hpermit =>
    refine Apart.agentInv (apart_congr h.isApart rfl rfl) ?_
    exact h.permit.ofHost rfl rfl (by simp [hpermit]) (by simp)

/-- A command that is issued: its agents are free, or it only faults. -/
theorem AgentInv.exec {s t : State} {i : Instr} (h : AgentInv s) (hbusy : s.rxJob ≠ .none → s.rxs.busy = true)
    (hi : isCommand i) (hwaits : s.commandWaits s.issuer i = false) (ht : Machine.exec i s = .next t) : AgentInv t := by
  rcases free_of_commandWaits hwaits with hfree | hfaults
  · exact h.effect hfree (exec_effect hi ht)
  · obtain ⟨a, cmd, c, hx⟩ := faultsAtOnce_faults hbusy hfaults
    rw [hx] at ht
    cases ht
    exact h.congr rfl rfl rfl

/-! ### Turns -/

theorem AgentInv.rxStep {s t : State} (hInv : s.Inv) (h : AgentInv s) (ht : s.rxStep = .next t) : AgentInv t := by
  cases hj : s.rxJob with
  | none =>
    simp only [State.rxStep, hj] at ht
    cases ht
    exact h
  | header =>
    rw [rxStep_header hj] at ht
    exact h.of_frame (headerStep_j ht) (by simp [hj]) (by rw [hj]; rfl)
  | ctrl got =>
    rw [rxStep_ctrl hj] at ht
    cases ht
    exact h.of_frame (controlStep_j s got) (by simp [hj]) (by rw [hj]; rfl)
  | pong j =>
    rw [rxStep_pong hj] at ht
    cases ht
    have hjob := hInv.job
    unfold JobInv at hjob
    simp only [hj] at hjob
    obtain ⟨-, -, -, -, -, -, -, hissuer, -, -, -, hopts⟩ := hjob
    exact (apart_pong h.isApart hj).agentInv (permit_pong h.permit hj hissuer (by rw [hopts]))
  | recv a len =>
    rw [rxStep_recv hj] at ht
    cases ht
    exact h.of_frame (recvStep_j s a len) (by simp [hj]) (by rw [hj]; rfl)

/-- While a receive command is in progress RX is busy. -/
theorem State.Inv.busy_of_job {s : State} (h : s.Inv) (hj : s.rxJob ≠ .none) : s.rxs.busy = true := by
  by_contra hb
  exact hj (h.busy_false (Bool.eq_false_iff.2 hb))

theorem AgentInv.runTurn {s t : State} {u : Turn} (hInv : s.Inv) (h : AgentInv s) (hw : s.turnWaits u = false)
    (ht : s.runTurn u = .next t) : AgentInv t := by
  cases u with
  | command a c =>
    obtain ⟨i, hi, hx⟩ := issue_next ht
    rw [turnWaits_command hi] at hw
    exact AgentInv.exec (s := { s with issuer := a }) (h.congr rfl rfl rfl) hInv.busy_of_job (isCommand_of_decode hi) hw hx
  | rx => exact h.rxStep hInv ht
  | pending k =>
    cases ht
    exact (apart_pendingStep h.isApart k).agentInv (permit_pendingStep h.permit k)
  | giveUp k =>
    cases ht
    exact (apart_giveUp h.isApart k).agentInv (permit_giveUp h.permit k)
  | hostWrite a bs =>
    cases ht
    obtain ⟨m, r, e⟩ := hostWrites_eq s a bs
    rw [e]
    exact h.congr rfl rfl rfl
  | giveBuffer b bs =>
    cases ht
    obtain ⟨z, m, r, e, -⟩ := hostGives_eq s b bs
    rw [e]
    exact h.congr rfl rfl rfl
  | prepareAndSend p len fin sent op ext tm opts =>
    obtain ⟨v, ts, hv, rfl⟩ := prepareAndSend_eq ht
    exact (AgentInv.exec (s := { s with issuer := .host }) (h.congr rfl rfl rfl) hInv.busy_of_job ⟨_, rfl⟩ hw hv).congr
      rfl rfl rfl
  | pingFrame p tm =>
    cases ht
    obtain ⟨m, r, ts, e⟩ := pingFrame_eq s p tm
    rw [e]
    exact h.congr rfl rfl rfl
  | setCanSend b => cases ht; exact h.congr rfl rfl rfl
  | rxArrive a => cases ht; exact h.congr rfl rfl rfl
  | txReply a => cases ht; exact h.congr rfl rfl rfl
  | drawKey k => cases ht; exact h.congr rfl rfl rfl

/-- Settles O4: a step takes one turn that need not wait, and every such turn keeps the agents apart. -/
theorem stepKeepsRxPermitHolder : Obligations.StepKeepsRxPermitHolder := by
  intro s t hInv h ht
  obtain hidle | ⟨u, us, vs, -, hw, hturn⟩ := step_cases s
  · rw [hidle] at ht
    cases ht
    exact h
  · rw [hturn] at ht
    exact AgentInv.runTurn (s := { s with turns := us ++ vs }) (hInv.withTurns _) (h.congr rfl rfl rfl) hw ht

end Sys2Proof.Machine
end

section
/-! Proofs of the family 'other': what every step leaves of configuration, permit and outputs (10_state.md R19, R37;
20_memory.md R59, R64; 60_exceptions.md R132). -/
namespace Sys2Proof.Machine

open Sys2Proof

/-- What a step leaves: the configuration and the sizes fixed at construction; a permit that passes through free; outputs
that only grow, the outbound stream by an initial part of one SENDFRAME's frame. -/
structure StepFr (s t : State) : Prop where
  cfg : t.cfg = s.cfg
  nSend : t.sizes.nSend = s.sizes.nSend
  nCtrlIn : t.sizes.nCtrlIn = s.sizes.nCtrlIn
  nCtrlOut : t.sizes.nCtrlOut = s.sizes.nCtrlOut
  permit : t.permit = s.permit ∨ s.permit = .free ∨ t.permit = .free
  events : s.events <+: t.events
  results : s.results <+: t.results
  hostResults : s.hostResults <+: t.hostResults
  txOut : t.txOut = s.txOut ∨ ∃ j m, j.stage = .write ∧ (s.rxJob = .pong j ∨ .send j ∈ s.pending) ∧
    t.txOut = s.txOut ++ (s.memRead j.addr.region j.addr.off j.n).take m

/-- What no internal operation touches, a step does not touch either. -/
theorem Fr.stepFr {s t : State} (h : Fr s t) : StepFr s t where
  cfg := h.cfg
  nSend := by rw [h.sizes]
  nCtrlIn := by rw [h.sizes]
  nCtrlOut := by rw [h.sizes]
  permit := .inl h.permit
  events := h.events
  results := h.results
  hostResults := by rw [h.hostResults]
  txOut := .inl h.txOut

/-- A change of the permit and of what no output shows. -/
theorem StepFr.of_permit {s t : State} (hp : t.permit = s.permit ∨ s.permit = .free ∨ t.permit = .free)
    (h : Fr { s with permit := t.permit } t) : StepFr s t where
  cfg := h.cfg
  nSend := by rw [h.sizes]
  nCtrlIn := by rw [h.sizes]
  nCtrlOut := by rw [h.sizes]
  permit := hp
  events := h.events
  results := h.results
  hostResults := by rw [h.hostResults]
  txOut := .inl h.txOut

/-- The frame in one part and another: nothing is sent in the second. -/
theorem StepFr.trans_fr {s t u : State} (h : StepFr s t) (g : Fr t u) : StepFr s u where
  cfg := g.cfg.trans h.cfg
  nSend := by rw [g.sizes, h.nSend]
  nCtrlIn := by rw [g.sizes, h.nCtrlIn]
  nCtrlOut := by rw [g.sizes, h.nCtrlOut]
  permit := by rw [g.permit]; exact h.permit
  events := h.events.trans g.events
  results := h.results.trans g.results
  hostResults := by rw [g.hostResults]; exact h.hostResults
  txOut := by rw [g.txOut]; exact h.txOut

/-- A command's result is added, and the outputs else stay. -/
theorem Fr.of_answer {s t : State} {r : Completion} (hcfg : t.cfg = s.cfg) (hsizes : t.sizes = s.sizes)
    (hpermit : t.permit = s.permit) (hout : t.txOut = s.txOut) (hevents : t.events = s.events)
    (hresults : t.results = s.results ++ [r]) (hhost : t.hostResults = s.hostResults) : Fr s t :=
  ⟨hcfg, hsizes, hpermit, hout, by rw [hevents], by rw [hresults]; exact List.prefix_append _ _, hhost⟩

theorem retired_fr (s : State) : Fr s s.retired := by
  rw [retired_eq]
  exact .of_eq rfl rfl rfl rfl rfl rfl rfl

/-- A command answers, and may take the free permit or release it. -/
theorem CommandEffect.stepFr {s t : State} {i : Instr} (h : CommandEffect s i t) : StepFr s t := by
  cases h with
  | plain m r kd kc sp => exact Fr.stepFr ⟨rfl, rfl, rfl, rfl, List.prefix_rfl, List.prefix_append _ _, rfl⟩
  | parse a n op f r => exact Fr.stepFr (.of_answer rfl rfl rfl rfl rfl rfl rfl)
  | rxmask a n r => exact Fr.stepFr (.of_answer rfl rfl rfl rfl rfl rfl rfl)
  | retire r => exact Fr.stepFr ((retired_fr s).complete ..)
  | await => exact Fr.stepFr (.of_eq rfl rfl rfl rfl rfl rfl rfl)
  | recv a len => exact Fr.stepFr (.of_eq rfl rfl rfl rfl rfl rfl rfl)
  | sendNolock a n tm o => exact Fr.stepFr (.of_eq rfl rfl rfl rfl rfl rfl rfl)
  | sendAcquires a n tm o _ _ hp => exact .of_permit (.inr (.inl hp)) (.of_eq rfl rfl rfl rfl rfl rfl rfl)
  | sendWaits a n tm o => exact Fr.stepFr (.of_eq rfl rfl rfl rfl rfl rfl rfl)
  | acquires tm r hp => exact .of_permit (.inr (.inl hp)) (.of_answer rfl rfl rfl rfl rfl rfl rfl)
  | acquireWaits tm => exact Fr.stepFr (.of_eq rfl rfl rfl rfl rfl rfl rfl)
  | release r hp => exact .of_permit (.inr (.inr rfl)) (.of_answer rfl rfl rfl rfl rfl rfl rfl)

/-- A numbered step of a SENDFRAME in progress that is not its last. -/
theorem sendStep_more_fr {s s' : State} {j j' : SendJob} (h : s.sendStep j = .more j' s')
    (hj : s.rxJob = .pong j ∨ .send j ∈ s.pending) : StepFr s s' := by
  obtain ⟨hcfg, -, -, -, hsizes, -⟩ := sendStep_more h
  obtain ⟨hevents, hresults, hpermit, hout⟩ := sendStep_more' h
  have hhost := sendStep_hostResults (.inl ⟨j', h⟩)
  exact
    { cfg := hcfg, nSend := by rw [hsizes], nCtrlIn := by rw [hsizes], nCtrlOut := by rw [hsizes]
      permit := hpermit.imp_right .inl
      events := by rw [hevents]
      results := by rw [hresults]
      hostResults := by rw [hhost]
      txOut := hout.imp_right fun ⟨m, hst, e⟩ => ⟨j, m, hst, hj, e⟩ }

/-- The last numbered step of a SENDFRAME. -/
theorem sendStep_done_fr {s s' : State} {j : SendJob} {r : Result} (h : s.sendStep j = .done r s') : StepFr s s' := by
  obtain ⟨hcfg, -, -, -, hsizes, -⟩ := sendStep_done h
  obtain ⟨hevents, hresults, hpermit, hout⟩ := sendStep_done' h
  have hhost := sendStep_hostResults (.inr ⟨r, h⟩)
  exact
    { cfg := hcfg, nSend := by rw [hsizes], nCtrlIn := by rw [hsizes], nCtrlOut := by rw [hsizes]
      permit := hpermit.imp_right .inr
      events := hevents
      results := by rw [hresults]
      hostResults := by rw [hhost]
      txOut := .inl hout }

theorem pendingStep_fr (s : State) (k : Nat) : StepFr s (s.pendingStep k) := by
  unfold State.pendingStep
  split
  · exact (Fr.refl s).stepFr
  · next j hk =>
    split
    · exact (Fr.refl s).stepFr
    · next h =>
      exact (sendStep_more_fr h (.inr (List.mem_of_getElem? hk))).trans_fr (.of_eq rfl rfl rfl rfl rfl rfl rfl)
    · next h =>
      exact (sendStep_done_fr h).trans_fr (.of_answer rfl rfl rfl rfl rfl rfl rfl)
  · split
    · next hp => exact .of_permit (.inr (.inl hp)) (.of_answer rfl rfl rfl rfl rfl rfl rfl)
    · exact (Fr.refl s).stepFr

theorem giveUpStep_fr (s : State) (k : Nat) : Fr s (s.giveUpStep k) := by
  unfold State.giveUpStep
  split
  · exact Fr.refl s
  · split
    · split <;> exact Fr.of_answer rfl rfl rfl rfl rfl rfl rfl
    · exact Fr.refl s

theorem pongStep_fr {s : State} {j : SendJob} (hj : s.rxJob = .pong j) : StepFr s (s.pongStep j) := by
  unfold State.pongStep
  split
  · exact (Fr.refl s).stepFr
  · next h => exact (sendStep_more_fr h (.inl hj)).trans_fr (.of_eq rfl rfl rfl rfl rfl rfl rfl)
  · next h => exact (sendStep_done_fr h).trans_fr (Fr.refl _).pingHandled

theorem rxStep_fr {s t : State} (ht : s.rxStep = .next t) : StepFr s t := by
  cases hj : s.rxJob with
  | none =>
    simp only [State.rxStep, hj] at ht
    cases ht
    exact (Fr.refl s).stepFr
  | header =>
    rw [rxStep_header hj] at ht
    exact (Fr.headerStep ht).stepFr
  | ctrl got =>
    rw [rxStep_ctrl hj] at ht
    cases ht
    exact (Fr.controlStep s got).stepFr
  | pong j =>
    rw [rxStep_pong hj] at ht
    cases ht
    exact pongStep_fr hj
  | recv a len =>
    rw [rxStep_recv hj] at ht
    cases ht
    exact (Fr.recvStep s a len).stepFr

/-- An access of the host adds its result. -/
theorem StepFr.hostAccess (s : State) (z : Sizes) (m : Memory) (r : Result) (ts : List Turn)
    (h : z.nSend = s.sizes.nSend ∧ z.nCtrlIn = s.sizes.nCtrlIn ∧ z.nCtrlOut = s.sizes.nCtrlOut) :
    StepFr s { s with sizes := z, mem := m, hostResults := s.hostResults ++ [r], turns := ts } where
  cfg := rfl
  nSend := h.1
  nCtrlIn := h.2.1
  nCtrlOut := h.2.2
  permit := .inl rfl
  events := List.prefix_rfl
  results := List.prefix_rfl
  hostResults := List.prefix_append _ _
  txOut := .inl rfl

theorem runTurn_fr {s t : State} {u : Turn} (ht : s.runTurn u = .next t) : StepFr s t := by
  have withIssuer {a : Agent} (h : StepFr { s with issuer := a } t) : StepFr s t :=
    ⟨h.cfg, h.nSend, h.nCtrlIn, h.nCtrlOut, h.permit, h.events, h.results, h.hostResults, h.txOut⟩
  cases u with
  | command a c =>
    obtain ⟨i, hi, hx⟩ := issue_next ht
    exact withIssuer (exec_effect (isCommand_of_decode hi) hx).stepFr
  | rx => exact rxStep_fr ht
  | pending k => cases ht; exact pendingStep_fr s k
  | giveUp k => cases ht; exact (giveUpStep_fr s k).stepFr
  | hostWrite a bs =>
    cases ht
    obtain ⟨m, r, e⟩ := hostWrites_eq s a bs
    rw [e]
    exact .hostAccess s s.sizes m r s.turns ⟨rfl, rfl, rfl⟩
  | giveBuffer b bs =>
    cases ht
    obtain ⟨z, m, r, e, hz⟩ := hostGives_eq s b bs
    rw [e]
    exact .hostAccess s z m r s.turns hz
  | prepareAndSend p len fin sent op ext tm opts =>
    obtain ⟨v, ts, hv, rfl⟩ := prepareAndSend_eq ht
    exact withIssuer ((exec_effect ⟨_, rfl⟩ hv).stepFr.trans_fr (.of_eq rfl rfl rfl rfl rfl rfl rfl))
  | pingFrame p tm =>
    cases ht
    obtain ⟨m, r, ts, e⟩ := pingFrame_eq s p tm
    rw [e]
    exact .hostAccess s s.sizes m r ts ⟨rfl, rfl, rfl⟩
  | setCanSend b => cases ht; exact Fr.stepFr (.of_eq rfl rfl rfl rfl rfl rfl rfl)
  | rxArrive a => cases ht; exact Fr.stepFr (.of_eq rfl rfl rfl rfl rfl rfl rfl)
  | txReply a => cases ht; exact Fr.stepFr (.of_eq rfl rfl rfl rfl rfl rfl rfl)
  | drawKey k => cases ht; exact Fr.stepFr (.of_eq rfl rfl rfl rfl rfl rfl rfl)

theorem step_fr {s t : State} (ht : step s = .next t) : StepFr s t := by
  obtain hidle | ⟨u, us, vs, -, -, hturn⟩ := step_cases s
  · rw [hidle] at ht
    cases ht
    exact (Fr.refl s).stepFr
  · rw [hturn] at ht
    have h := runTurn_fr ht
    exact ⟨h.cfg, h.nSend, h.nCtrlIn, h.nCtrlOut, h.permit, h.events, h.results, h.hostResults, h.txOut⟩

/-- Settles O55, by the frame of a step. -/
theorem configurationNeverChanges : Obligations.ConfigurationNeverChanges := by
  intro s t ht
  have h := step_fr ht
  exact ⟨h.cfg, h.nSend, h.nCtrlIn, h.nCtrlOut⟩

/-- Settles O59, by the frame of a step. -/
theorem permitPassesThroughFree : Obligations.PermitPassesThroughFree := fun _ _ ht => (step_fr ht).permit

/-- Settles O60, by the frame of a step. -/
theorem outputsOnlyGrow : Obligations.OutputsOnlyGrow := by
  intro s t ht
  have h := step_fr ht
  exact ⟨h.events, h.results, h.hostResults, h.txOut⟩

end Sys2Proof.Machine
end

section
/-! Proofs of the family 'other': what a step does to HDR and PHASE (10_state.md R27, R31; 42_dispatch.md R109). -/
namespace Sys2Proof.Machine

open Sys2Proof

/-! ### HDR -/

/-- R27: among the commands only four write `HDR`. -/
theorem CommandEffect.hdr_eq {s t : State} {i : Instr} (h : CommandEffect s i t) :
    t.hdr = s.hdr ∨ ∃ c, encode i = .command c ∧ c.code.toNat ∈ [0x02, 0x06, 0x07, 0x08] := by
  cases h with
  | parse => exact .inr ⟨_, rfl, by simp⟩
  | rxmask => exact .inr ⟨_, rfl, by simp⟩
  | retire => exact .inr ⟨_, rfl, by simp⟩
  | await => exact .inr ⟨_, rfl, by simp⟩
  | _ => exact .inl rfl

/-- Settles O56: a turn that is neither a receive step nor a command keeps `HDR`, and of the commands four write it. -/
theorem onlyReceiveCommandsWriteHdr : Obligations.OnlyReceiveCommandsWriteHdr := by
  intro s t ht
  unfold step at ht
  split at ht
  · cases ht
    exact .inl rfl
  next u ts hu =>
  by_cases hrx : u = .rx
  · exact .inr ⟨u, ts, hu, .inl hrx⟩
  by_cases hcommand : ∃ a c, u = .command a c
  · obtain ⟨a, c, rfl⟩ := hcommand
    obtain ⟨i, hi, hx⟩ := issue_next ht
    rcases (exec_effect (isCommand_of_decode hi) hx).hdr_eq with hhdr | ⟨c', hc', hcode⟩
    · exact .inl hhdr
    · have hc := (encodeOfDecode (.command c) i hi).2
      rw [hc'] at hc
      cases hc
      exact .inr ⟨_, ts, hu, .inr ⟨a, c, rfl, hcode⟩⟩
  · exact .inl (runTurn_other ht hrx fun a c e => hcommand ⟨a, c, e⟩).1

/-! ### PHASE -/

/-- R31, with R105's start from `DATA`: where one step may take the sequencer. -/
def Phase.next : Phase → List Phase
  | .idle    => [.hdr2]
  | .hdr2    => [.hdrrest, .ctrl, .data, .closed, .faulted, .eof, .idle]
  | .hdrrest => [.hdr2, .ctrl, .data, .closed, .faulted]
  | .ctrl    => [.hdr2, .closed, .faulted]
  | .data    => [.idle, .hdr2, .faulted]
  | .eof | .closed | .faulted => []

/-- The phase stays or moves as the table allows. -/
def PhaseMoves (p q : Phase) : Prop := q = p ∨ q ∈ p.next

theorem pongEcho_phase (s : State) (k : Nat) :
    (s.pongEcho k).rxs.phase = s.rxs.phase ∨ (s.pongEcho k).rxs.phase = .hdr2 := by
  unfold State.pongEcho
  split
  · exact .inr rfl
  split
  · exact .inr rfl
  simp only
  split
  · exact .inr rfl
  · exact .inl (congrArg RxStatus.phase (prepareApply_rxs ..))

theorem controlHandled_phase (s : State) (D : Region) (k : Nat) :
    (s.controlHandled D k).rxs.phase = s.rxs.phase ∨
      (s.controlHandled D k).rxs.phase ∈ [Phase.hdr2, .closed, .faulted] := by
  unfold State.controlHandled
  split
  · exact .inr (by simp)
  simp only
  split
  · exact .inr (by simp [State.closeReceived])
  split
  · exact (pongEcho_phase _ k).imp id fun h => by simp [h]
  · exact .inr (by simp [State.pongHandled, State.nextHeader])

theorem enterControl_phase (s : State) : s.enterControl.rxs.phase ∈ [Phase.ctrl, .hdr2, .closed, .faulted] := by
  unfold State.enterControl
  simp only
  split
  · simp
  split
  · next D _ _ =>
    exact (controlHandled_phase _ D 0).elim (fun h => by rw [h]; exact List.mem_cons_self) (List.mem_cons_of_mem _)
  · exact List.mem_cons_self

theorem dispatchFrame_phase (s : State) (op : BitVec 4) (f : FrameHdr) :
    (s.dispatchFrame op f).rxs.phase ∈ [Phase.hdr2, .ctrl, .data, .closed, .faulted] := by
  unfold State.dispatchFrame
  split
  · simp
  split
  · simp
  split
  · simp [State.dataHeader]
  · have h := enterControl_phase (s.headerAccepted op f)
    simp only [List.mem_cons, List.not_mem_nil, or_false] at h ⊢
    tauto
  · simp

theorem fetchHeader_phase {s t : State} (ht : s.fetchHeader = .next t) :
    t.rxs.phase ∈ [Phase.hdr2, .ctrl, .data, .closed, .faulted] := by
  unfold State.fetchHeader at ht
  split at ht
  · cases ht
    simp
  · next hd =>
    obtain ⟨op, f, rfl⟩ := decode_header hd
    rw [exec_frameInstr] at ht
    cases ht
    exact dispatchFrame_phase ..

theorem headerStored_phase (s : State) (bs : List Byte) :
    (s.headerStored bs).rxs.phase = s.rxs.phase ∨
      s.rxs.phase = .hdr2 ∧ (s.headerStored bs).rxs.phase = .hdrrest := by
  unfold State.headerStored
  simp only
  split
  · next h => exact .inr ⟨h.1, rfl⟩
  · exact .inl rfl

theorem awaitNoBytes_phase (s : State) (r : RxAnswer) :
    (s.awaitNoBytes r).rxs.phase = s.rxs.phase ∨ (s.awaitNoBytes r).rxs.phase = .faulted ∨
      s.rxs.phase = .hdr2 ∧ (s.awaitNoBytes r).rxs.phase ∈ [Phase.eof, .idle] := by
  unfold State.awaitNoBytes
  split
  · exact .inl rfl
  · split
    · next h => exact .inr (.inr ⟨((atBoundary_iff s).1 h).1, by simp [State.awaitLeaves]⟩)
    · exact .inr (.inl rfl)
  · exact .inr (.inl rfl)
  · split
    · next h => exact .inr (.inr ⟨((atBoundary_iff s).1 h).1, by simp [State.awaitLeaves]⟩)
    · exact .inr (.inl rfl)

/-- AWAIT in a read step that leads to no phase but `FAULTED` from where it stands, or to `EOF` or `IDLE` at a boundary. -/
theorem PhaseMoves.awaitNoBytes {s : State} (hs : s.rxs.phase ∈ [Phase.hdr2, .hdrrest, .ctrl]) (r : RxAnswer) :
    PhaseMoves s.rxs.phase (s.awaitNoBytes r).rxs.phase := by
  rcases awaitNoBytes_phase s r with h | h | ⟨h2, h⟩
  · exact .inl h
  · rw [h]
    right
    revert hs
    cases s.rxs.phase <;> decide
  · rw [h2]
    right
    revert h
    cases (s.awaitNoBytes r).rxs.phase <;> decide

theorem PhaseMoves.headerStep {s t : State} (hs : s.rxs.phase = .hdr2 ∨ s.rxs.phase = .hdrrest)
    (ht : s.headerStep = .next t) : PhaseMoves s.rxs.phase t.rxs.phase := by
  have moves {q : Phase} (hq : q ∈ [Phase.hdr2, .ctrl, .data, .closed, .faulted]) : PhaseMoves s.rxs.phase q := by
    unfold PhaseMoves
    revert hq
    rcases hs with hs | hs <;> rw [hs] <;> cases q <;> decide
  unfold State.headerStep at ht
  split at ht
  · cases ht
    exact .inl rfl
  · next bs q _ =>
    simp only at ht
    split at ht
    · cases ht
      exact moves (by simp)
    split at ht
    · exact moves (fetchHeader_phase ht)
    · cases ht
      rcases headerStored_phase { s with rxIn := q } bs with h | ⟨h2, h⟩
      · exact .inl h
      · rw [h2, h]
        exact .inr (by decide)
  · next r q _ _ =>
    cases ht
    exact PhaseMoves.awaitNoBytes (s := { s with rxIn := q }) (by rcases hs with hs | hs <;> simp [hs]) r

theorem PhaseMoves.controlStep {s : State} (hs : s.rxs.phase = .ctrl) (got : Nat) :
    PhaseMoves s.rxs.phase (s.controlStep got).rxs.phase := by
  have faulted {q : Phase} (hq : q = .faulted) : PhaseMoves s.rxs.phase q := .inr (by rw [hs, hq]; decide)
  unfold State.controlStep
  split
  · exact faulted rfl
  simp only
  split
  · exact .inl rfl
  · split
    · exact faulted rfl
    split
    · exact (controlHandled_phase _ _ _).imp id fun h => by rw [hs]; exact h
    · exact .inl rfl
  · next r q _ _ =>
    exact PhaseMoves.awaitNoBytes (s := { s with rxIn := q }) (by simp [hs]) r

theorem PhaseMoves.pongStep {s : State} (hs : s.rxs.phase = .ctrl) (j : SendJob) :
    PhaseMoves s.rxs.phase (s.pongStep j).rxs.phase := by
  unfold State.pongStep
  split
  · exact .inl rfl
  · next h =>
    obtain ⟨-, -, hrxs, -⟩ := sendStep_more h
    exact .inl (by rw [← hrxs])
  · exact .inr (by rw [hs]; simp [State.pingHandled, State.nextHeader, Phase.next])

theorem PhaseMoves.recvStep {s : State} (hs : s.rxs.phase = .data) (a : Addr) (len : Nat) :
    PhaseMoves s.rxs.phase (s.recvStep a len).rxs.phase := by
  have faulted {q : Phase} (hq : q = .faulted) : PhaseMoves s.rxs.phase q := .inr (by rw [hs, hq]; decide)
  unfold State.recvStep
  split
  · exact .inl rfl
  · unfold State.recvBytes
    split
    · exact faulted rfl
    · exact .inl rfl
  · unfold State.recvNoBytes
    split
    · exact .inl rfl
    all_goals exact faulted rfl

/-- The phase of the receive command in progress is the one its next step moves from. -/
theorem PhaseMoves.rxStep {s t : State} (h : s.Inv) (ht : s.rxStep = .next t) : PhaseMoves s.rxs.phase t.rxs.phase := by
  have hjob := h.job
  unfold JobInv at hjob
  cases hj : s.rxJob with
  | none =>
    simp only [State.rxStep, hj] at ht
    cases ht
    exact .inl rfl
  | header =>
    simp only [hj] at hjob
    rw [rxStep_header hj] at ht
    exact .headerStep (hjob.2.2.imp And.left And.left) ht
  | ctrl got =>
    simp only [hj] at hjob
    rw [rxStep_ctrl hj] at ht
    cases ht
    exact .controlStep hjob.2.1 got
  | pong j =>
    simp only [hj] at hjob
    rw [rxStep_pong hj] at ht
    cases ht
    exact .pongStep hjob.2.1 j
  | recv a len =>
    simp only [hj] at hjob
    rw [rxStep_recv hj] at ht
    cases ht
    exact .recvStep hjob.2.1 a len

/-- With RX not busy no receive command is in progress, so the phase is none of those it works in. -/
theorem State.Inv.phase_of_busy_false {s : State} (h : s.Inv) (hb : s.rxs.busy = false) :
    s.rxs.phase = .idle ∨ s.rxs.phase = .data ∨ s.rxs.phase = .eof ∨ s.rxs.phase = .closed ∨
      s.rxs.phase = .faulted := by
  have hjob := h.job
  unfold JobInv at hjob
  rw [h.busy_false hb] at hjob
  exact hjob.2.2.2

/-- Of the commands AWAIT starts from `IDLE` or `DATA`, and RETIRE leaves `DATA`. -/
theorem PhaseMoves.effect {s t : State} {i : Instr} (h : s.Inv) (he : CommandEffect s i t) :
    PhaseMoves s.rxs.phase t.rxs.phase := by
  cases he with
  | retire r =>
    rw [complete_rxs, retired_eq]
    unfold PhaseMoves
    by_cases hd : s.rxs.phase = .data
    · simp [hd, Phase.next]
    · simp [hd]
  | await hfaulted heof hclosed hbusy =>
    right
    show Phase.hdr2 ∈ s.rxs.phase.next
    rcases h.phase_of_busy_false hbusy with hp | hp | hp | hp | hp
    · rw [hp]; decide
    · rw [hp]; decide
    · exact absurd hp heof
    · exact absurd hp hclosed
    · exact absurd hp hfaulted
  | _ => exact .inl rfl

theorem PhaseMoves.runTurn {s t : State} {u : Turn} (h : s.Inv) (ht : s.runTurn u = .next t) :
    PhaseMoves s.rxs.phase t.rxs.phase := by
  by_cases hrx : u = .rx
  · subst hrx
    exact .rxStep h ht
  by_cases hcommand : ∃ a c, u = .command a c
  · obtain ⟨a, c, rfl⟩ := hcommand
    obtain ⟨i, hi, hx⟩ := issue_next ht
    exact PhaseMoves.effect (s := { s with issuer := a }) (h.withIssuer a) (exec_effect (isCommand_of_decode hi) hx)
  · exact .inl (by rw [(runTurn_other ht hrx fun a c e => hcommand ⟨a, c, e⟩).2])

/-- Settles O57: turn by turn, the phase stays or moves as `Phase.next` lists. -/
theorem phaseTransitions : Obligations.PhaseTransitions := by
  intro s t h ht
  have hmoves : PhaseMoves s.rxs.phase t.rxs.phase := by
    obtain hidle | ⟨u, us, vs, -, -, hturn⟩ := step_cases s
    · rw [hidle] at ht
      cases ht
      exact .inl rfl
    · rw [hturn] at ht
      exact PhaseMoves.runTurn (s := { s with turns := us ++ vs }) (h.withTurns _) ht
  refine hmoves.imp id fun hnext => ?_
  cases hp : s.rxs.phase <;> simp_all [Phase.next]

/-! ### The sticky fault -/

section Faulted
variable {s : State} (h : s.Inv) (hfault : s.rxs.fault = true)
include h hfault

theorem faulted_phase : s.rxs.phase = .faulted := h.fault.1.2 hfault

/-- R109: no receive command is in progress in `FAULTED`. -/
theorem faulted_rxJob : s.rxJob = .none := by
  have hphase := faulted_phase h hfault
  have hjob := h.job
  unfold JobInv at hjob
  cases hj : s.rxJob <;> simp_all

theorem faulted_busy : s.rxs.busy = false := by
  have hjob := h.job
  unfold JobInv at hjob
  rw [faulted_rxJob h hfault] at hjob
  exact hjob.1

/-- R109: no command writes the receive status or `HDR` any more. -/
theorem CommandEffect.faulted_kept {t : State} {i : Instr} (he : CommandEffect s i t) : t.rxs = s.rxs ∧ t.hdr = s.hdr := by
  have hphase := faulted_phase h hfault
  have hdropped := h.dropped hphase
  cases he with
  | parse _ _ _ _ _ _ hne => exact absurd hphase hne
  | rxmask _ _ _ hvalid => rw [hdropped] at hvalid; cases hvalid
  | retire _ hvalid => rw [hdropped] at hvalid; cases hvalid
  | await hne => exact absurd hphase hne
  | recv _ _ hne => exact absurd hphase hne
  | _ => exact ⟨rfl, rfl⟩

theorem faulted_runTurn {t : State} {u : Turn} (ht : s.runTurn u = .next t) : t.rxs = s.rxs ∧ t.hdr = s.hdr := by
  by_cases hrx : u = .rx
  · subst hrx
    simp only [State.runTurn, State.rxStep, faulted_rxJob h hfault] at ht
    cases ht
    exact ⟨rfl, rfl⟩
  by_cases hcommand : ∃ a c, u = .command a c
  · obtain ⟨a, c, rfl⟩ := hcommand
    obtain ⟨i, hi, hx⟩ := issue_next ht
    exact CommandEffect.faulted_kept (h.withIssuer a) hfault (exec_effect (isCommand_of_decode hi) hx)
  · exact (runTurn_other ht hrx fun a c e => hcommand ⟨a, c, e⟩).symm

/-- R109: AWAIT repeats the cause. -/
theorem await_faultsWith_cause : faultsWith .await s .rx 0x08 s.rxs.cause := by
  show execAwait s = _
  unfold execAwait
  rw [faulted_busy h hfault, if_neg Bool.false_ne_true, if_pos (faulted_phase h hfault), State.raise_eq_ended]

/-- R109: RECV repeats the cause, before it looks at its operands. -/
theorem recv_faultsWith_cause (a : Addr) (len : Nat) : faultsWith (.recv a len) s .rx 0x09 s.rxs.cause := by
  show execRecv a len s = _
  unfold execRecv
  rw [faulted_busy h hfault, if_neg Bool.false_ne_true, if_pos (faulted_phase h hfault), State.raise_eq_ended]

/-- PARSE repeats the cause unless it races. -/
theorem parse_faultsWith_cause (a : Addr) (n : Nat) : faultsWith (.parse a n) s .rx 0x02
    (if 2 ≤ n ∧ s.readRace .rx a.region = true then .stateBusy else s.rxs.cause) := by
  show execParse a n s = _
  unfold execParse
  by_cases hrace : 2 ≤ n ∧ s.readRace .rx a.region = true
  · rw [if_pos hrace, if_pos (by simp [hrace]), State.raise_eq_ended]
  · rw [if_neg hrace, if_neg (by simpa [faulted_busy h hfault] using hrace), if_pos (faulted_phase h hfault),
      State.raise_eq_ended]

/-- R154: RXMASK has no header. -/
theorem rxmask_faultsWith_noHeader (a : Addr) (n : Nat) : faultsWith (.rxmask a n) s .rx 0x06 .noHeader := by
  have hvalid := h.dropped (faulted_phase h hfault)
  show execRxmask a n s = _
  unfold execRxmask
  rw [faulted_busy h hfault, if_neg Bool.false_ne_true, if_neg (by simp [hvalid])]
  have hf : s.rxmaskFault a.region a.off n = some .noHeader := if_pos hvalid
  rw [hf, ← State.raise_eq_ended]

end Faulted

/-- Settles O58: in `FAULTED` no header is current and no receive command in progress, so each check that comes first
fails. -/
theorem stickyFaultStays : Obligations.StickyFaultStays := by
  intro s h hfault
  refine ⟨fun t ht => ?_, await_faultsWith_cause h hfault, recv_faultsWith_cause h hfault,
    parse_faultsWith_cause h hfault, rxmask_faultsWith_noHeader h hfault, ?_⟩
  · obtain hidle | ⟨u, us, vs, -, -, hturn⟩ := step_cases s
    · rw [hidle] at ht
      cases ht
      exact ⟨rfl, rfl⟩
    · rw [hturn] at ht
      exact faulted_runTurn (s := { s with turns := us ++ vs }) (h.withTurns _) hfault ht
  · exact exec_retire_keeps (faulted_busy h hfault) (by simp [h.dropped (faulted_phase h hfault)])

end Sys2Proof.Machine
end

section
/-! Proofs of the family 'other': reset, the numbered codes, and which turn a step takes (70_reset_and_hazards.md R142,
20_memory.md R60, 42_dispatch.md R106). -/
namespace Sys2Proof.Machine

open Sys2Proof

/-! ### Reset and codes -/

/-- R19: the reserved bits of `CFG` read as 0. -/
theorem Cfg.word_reserved (c : Cfg) : c.word &&& 0xFFFFFF8E#32 = 0#32 := by
  obtain ⟨m, r⟩ := c
  revert m r
  decide

theorem Permit.word_free : Permit.free.word = 0 := by decide

theorem RxStatus.word_reset : RxStatus.word ⟨.idle, false, false, .noFault, 0, 0⟩ = 0 := by decide

/-- Settles O1: the fields as `State.resetWith` lists them. -/
theorem resetLeavesTheTable : Obligations.ResetLeavesTheTable := by
  intro p _ s
  have hpermit : s.readReg 0x6 = .ok (.reg32 0) := congrArg (fun w => Result.ok (.reg32 w)) Permit.word_free
  have hrxs : s.readReg 0x5 = .ok (.reg32 0) := congrArg (fun w => Result.ok (.reg32 w)) RxStatus.word_reset
  exact ⟨rfl, rfl, rfl, rfl, s.cfg.word_reserved, rfl, hrxs, hpermit, rfl, rfl, rfl, reset_readByte p, rfl, rfl, rfl,
    rfl⟩

/-- No header, no command in progress and no byte listed: every clause of the invariant holds. -/
theorem resetWith_inv {p : Config.Params} (hp : p.valid = true) : (State.resetWith p).Inv where
  hdr := HdrInv.invalid rfl
  fault := by simp [FaultInv, State.resetWith]
  data := by simp [State.resetWith]
  dropped := fun _ => rfl
  job := by simp [JobInv, State.resetWith]
  pending := by simp [State.resetWith]
  sizes := by
    have h := of_decide_eq_true hp
    exact ⟨h.2.1, h.2.2⟩
  memWf := reset_wf p
  inside := by
    intro A c hc
    cases A <;> cases hc

theorem resetWith_agentInv (p : Config.Params) : AgentInv (State.resetWith p) where
  permit := ⟨rfl, by simp [State.resetWith]⟩
  oneEach := List.nodup_nil
  owned := by simp [State.resetWith]
  apart := fun _ _ => rfl

/-- Settles O2: the reset state has nothing an invariant could fail on. -/
theorem resetMeetsInvariant : Obligations.ResetMeetsInvariant :=
  ⟨fun p hp => ⟨resetWith_inv hp, resetWith_agentInv p⟩, by decide, rfl⟩

/-- Settles O7, by the decoder's own evaluation of the eight words. -/
theorem wordsDecodeAsWritten : Obligations.WordsDecodeAsWritten := by
  unfold Obligations.WordsDecodeAsWritten
  decide

/-- Settles O15, by evaluation of the code functions. -/
theorem codesAreNumberedAsWritten : Obligations.CodesAreNumberedAsWritten := by
  unfold Obligations.CodesAreNumberedAsWritten
  decide

/-! ### Commands that are issued and commands that wait -/

/-- A command that faults at once does not wait. -/
theorem commandWaits_of_faultsAtOnce {s : State} {a : Agent} {i : Instr} (h : s.faultsAtOnce a i = true) :
    s.commandWaits a i = false := by
  simp [State.commandWaits, h]

/-- A command waits for an agent that is at work. -/
theorem commandWaits_of_busy {s : State} {a : Agent} {i : Instr} (h : ∃ g ∈ needs a i, g ∈ s.atWork)
    (hf : s.faultsAtOnce a i = false) : s.commandWaits a i = true := by
  obtain ⟨g, hg, hwork⟩ := h
  simp only [State.commandWaits, hf, Bool.not_false, Bool.and_true, List.any_eq_true, decide_eq_true_eq]
  exact ⟨g, hg, hwork⟩

/-- Settles O8: whether the first turn waits decides which turn is taken. -/
theorem stepRunsTheIssuedCommand : Obligations.StepRunsTheIssuedCommand := by
  intro s ts a c i hts hdec
  refine ⟨fun hissued => ?_, fun hbusy hf => ?_⟩
  · exact step_command hts hdec (hissued.elim commandWaits_of_free commandWaits_of_faultsAtOnce)
  · have hwaits : s.turnWaits (.command a c) = true := (turnWaits_command hdec).trans (commandWaits_of_busy hbusy hf)
    constructor
    · rintro rfl
      exact step_waits hts hwaits
    · rintro u us rfl hu hqueue
      exact step_behind hts hwaits hu hqueue

/-! ### Waiting -/

/-- A SENDFRAME waits for the permit in step 1 and for the transport in step 3. -/
theorem sendStep_holds {s : State} {j : SendJob}
    (h : j.stage = .acquire ∧ s.permit ≠ .free ∨ j.stage = .write ∧ s.txIn = []) : s.sendStep j = .hold := by
  unfold State.sendStep
  rcases h with ⟨hst, hpermit⟩ | ⟨hst, hin⟩
  · rw [hst]
    exact if_neg hpermit
  · rw [hst]
    simp only [State.sendWrite, hin]

theorem pongStep_holds {s : State} {j : SendJob} (h : s.sendStep j = .hold) : s.pongStep j = s := by
  unfold State.pongStep
  rw [h]

theorem pendingStep_holds {s : State} {k : Nat} {j : SendJob} (hk : s.pending[k]? = some (.send j))
    (h : s.sendStep j = .hold) : s.pendingStep k = s := by
  unfold State.pendingStep
  rw [hk]
  simp only [h]

theorem pendingStep_acquire_holds {s : State} {k : Nat} {t : Timeout} (hk : s.pending[k]? = some (.acquire t))
    (hpermit : s.permit ≠ .free) : s.pendingStep k = s := by
  unfold State.pendingStep
  rw [hk]
  exact if_neg hpermit

/-- A read waits for an answer of the transport. -/
theorem rxStep_holds {s : State} (hin : s.rxIn = []) (hjob : s.rxJob = .header ∨ (∃ a len, s.rxJob = .recv a len) ∨
    (∃ got, s.rxJob = .ctrl got ∧ isControl s.hdr.opcode)) : s.rxStep = .next s := by
  rcases hjob with hj | ⟨a, len, hj⟩ | ⟨got, hj, hop⟩
  · rw [rxStep_header hj]
    simp only [State.headerStep, hin, rxTake_nil]
  · rw [rxStep_recv hj]
    simp only [State.recvStep, hin, rxTake_nil]
  · rw [rxStep_ctrl hj]
    obtain ⟨D, hD⟩ := controlSlice_ne hop
    simp only [State.controlStep, hD, hin, rxTake_nil]

/-- Settles O10: each kind of turn that waits. -/
theorem waitingChangesNothing : Obligations.WaitingChangesNothing := by
  intro s ts
  refine ⟨step_idle, ?noCommand, ?read, ?pong, ?send, ?acquire⟩
  case noCommand =>
    intro hts hjob
    rw [step_rx hts]
    simp only [State.rxStep, hjob]
  case read =>
    intro hts hjob hin
    rw [step_rx hts]
    exact rxStep_holds (s := { s with turns := ts }) hin hjob
  case pong =>
    intro j hts hjob hholds
    rw [step_rx hts, rxStep_pong (s := { s with turns := ts }) hjob,
      pongStep_holds (sendStep_holds (s := { s with turns := ts }) hholds)]
  case send =>
    intro k j hts hk hholds
    rw [step_pending hts, pendingStep_holds (s := { s with turns := ts }) hk (sendStep_holds hholds)]
  case acquire =>
    intro k t hts hk hpermit
    rw [step_pending hts, pendingStep_acquire_holds (s := { s with turns := ts }) hk hpermit]

/-! ### Header reads (R106) -/

/-- What stands in a region from its start, when bytes are stored behind the first o. -/
theorem memRead_memWrite_zero (s : State) (A : Region) (o : Nat) (bs : List Byte) :
    (s.memWrite A o bs).memRead A 0 (o + bs.length) = s.memRead A 0 o ++ bs := by
  rw [memRead_add, Nat.zero_add, memRead_memWrite]
  congr 1
  exact memRead_congr fun i hi => by rw [readByte_memWrite, if_neg (by omega)]

theorem readByte_eq_memRead_getD (s : State) (A : Region) {x n : Nat} (h : x < n) :
    s.readByte A x = (s.memRead A 0 n).getD x 0 := by
  rw [List.getD_eq_getElem _ _ (by simpa using h), memRead_getElem, Nat.zero_add]

/-- R106: after the second byte `HNEED` is known. -/
theorem headerStored_second {s : State} {bs : List Byte} (hphase : s.rxs.phase = .hdr2)
    (hn : s.rxs.hcnt.toNat + bs.length = 2) :
    s.headerStored bs = { s.memWrite .scratch s.rxs.hcnt.toNat bs with
      rxs := { s.rxs with
        phase := .hdrrest, hcnt := 2
        hneed := BitVec.ofNat 4 (headerLength ((s.memRead .scratch 0 s.rxs.hcnt.toNat ++ bs).getD 1 0)) } } := by
  rw [← memRead_memWrite_zero, hn, ← readByte_eq_memRead_getD _ _ Nat.one_lt_two]
  unfold State.headerStored
  exact if_pos ⟨hphase, hn⟩

/-- R106: every other read only counts. -/
theorem headerStored_counts {s : State} {bs : List Byte}
    (h : ¬ (s.rxs.phase = .hdr2 ∧ s.rxs.hcnt.toNat + bs.length = 2)) :
    s.headerStored bs = { s.memWrite .scratch s.rxs.hcnt.toNat bs with
      rxs := { s.rxs with hcnt := BitVec.ofNat 4 (s.rxs.hcnt.toNat + bs.length) } } := by
  unfold State.headerStored
  exact if_neg h

/-- The length header byte 1 tells is the length of a header that decodes. -/
theorem headerLength_of_decode {bs : List Byte} {i : Instr} (h : decode (.header bs) = .ok i) :
    headerLength (bs.getD 1 0) = bs.length := by
  obtain ⟨op, f, -, hwf, rfl⟩ := decode_header_ok h
  rw [encodeHeader_length op f hwf]
  rfl

/-- R106: the bytes that complete a header are stored, and the phase is `HDRREST`, whichever read they come in. -/
theorem headerStored_completes {s : State} {bs : List Byte} {i : Instr}
    (hn : s.rxs.hcnt.toNat + bs.length = s.rxs.hneed.toNat)
    (hphase : s.rxs.phase = .hdrrest ∨ s.rxs.phase = .hdr2 ∧ s.rxs.hneed = 2)
    (hdec : decode (.header (s.memRead .scratch 0 s.rxs.hcnt.toNat ++ bs)) = .ok i) :
    s.headerStored bs = { s.memWrite .scratch s.rxs.hcnt.toNat bs with
      rxs := { s.rxs with phase := .hdrrest, hcnt := s.rxs.hneed } } := by
  rcases hphase with hphase | ⟨hphase, hneed⟩
  · rw [headerStored_counts (by simp [hphase]), hn, ← hphase]
    simp
  · have h2 : s.rxs.hcnt.toNat + bs.length = 2 := by rw [hn, hneed]; rfl
    have hlen : (s.memRead .scratch 0 s.rxs.hcnt.toNat ++ bs).length = 2 := by simp [h2]
    rw [headerStored_second hphase h2, headerLength_of_decode hdec, hlen]
    simp [hneed]

/-- Settles O9: the read takes the whole answer, the stored bytes are those that decode, and the header is complete. -/
theorem stepRunsTheArrivedHeader : Obligations.StepRunsTheArrivedHeader := by
  intro s ts bs q i hts hjob hne hin hn hphase hdec
  have hcnt := s.rxs.hneed.isLt
  have htake : rxTake (s.rxs.hneed.toNat - s.rxs.hcnt.toNat) s.rxIn = some (.bytes bs, q) := by
    rw [hin]
    exact rxTake_all hne (by omega)
  have hstored := headerStored_completes (s := { s with turns := ts, rxIn := q }) hn hphase hdec
  rw [step_rx hts, rxStep_header (s := { s with turns := ts }) hjob,
    headerStep_bytes (s := { s with turns := ts }) htake (by show s.rxs.hcnt.toNat + bs.length ≤ 16; omega), hstored,
    if_pos ⟨rfl, rfl⟩]
  refine fetchHeader_ok ?_
  show decode (.header ((s.memWrite .scratch s.rxs.hcnt.toNat bs).memRead .scratch 0 s.rxs.hneed.toNat)) = .ok i
  rw [← hn, memRead_memWrite_zero]
  exact hdec

/-- Settles O26: the read takes the bytes asked for, and what it stores does not complete the header. -/
theorem headerReadStores : Obligations.HeaderReadStores := by
  intro s ts bs q hts hjob hne hin hlt asked got n b1 leaves
  have hneed := s.rxs.hneed.isLt
  have hgot : got.length ≤ asked := List.length_take_le _ _
  let s1 : State := { s with turns := ts, rxIn := if bs.length ≤ asked then q else .bytes (bs.drop asked) :: q }
  have htake : rxTake (s.rxs.hneed.toNat - s.rxs.hcnt.toNat) s.rxIn = some (.bytes got, s1.rxIn) := by
    rw [hin]
    exact rxTake_bytes_cons hne
  have hstep := headerStep_bytes (s := { s with turns := ts }) htake (by show s.rxs.hcnt.toNat + got.length ≤ 16; omega)
  have goes {r : RxStatus}
      (hstored : s1.headerStored got = { s1.memWrite .scratch s.rxs.hcnt.toNat got with rxs := r })
      (hopen : ¬ (r.phase = .hdrrest ∧ r.hcnt = r.hneed)) : leaves r := by
    change State.headerStep _ =
      if (s1.headerStored got).rxs.phase = _ ∧ _ then (s1.headerStored got).fetchHeader else _ at hstep
    refine ⟨{ s1.memWrite .scratch s.rxs.hcnt.toNat got with rxs := r }, ?_, rfl, rfl, rfl,
      memWrite_are s _ _ got, memWrite_kept s _ _ got, rfl⟩
    rw [step_rx hts, rxStep_header (s := { s with turns := ts }) hjob, hstep]
    show (if (s1.headerStored got).rxs.phase = _ ∧ (s1.headerStored got).rxs.hcnt = (s1.headerStored got).rxs.hneed
      then _ else Host.Outcome.next (s1.headerStored got)) = _
    rw [hstored, if_neg hopen]
  refine ⟨?firstByte, ?secondByte, ?rest⟩
  case firstByte =>
    intro hphase _ hn
    refine goes (r := { s.rxs with hcnt := 1 }) ?_ (by simp [hphase])
    rw [headerStored_counts (by show ¬ (_ ∧ n = 2); omega)]
    show ({ s1.memWrite .scratch s.rxs.hcnt.toNat got with rxs := { s.rxs with hcnt := BitVec.ofNat 4 n } } : State) = _
    rw [hn]
    rfl
  case secondByte =>
    intro hphase _ hn hlong
    have hbounds := headerLength_bounds b1
    refine goes (headerStored_second (s := s1) hphase hn) fun hdone => hlong ?_
    have hcount := congrArg BitVec.toNat hdone.2
    change (2#4).toNat = (BitVec.ofNat 4 (headerLength b1)).toNat at hcount
    rw [BitVec.toNat_ofNat, BitVec.toNat_ofNat] at hcount
    omega
  case rest =>
    intro hphase hn
    refine goes (headerStored_counts (s := s1) (by simp [s1, hphase])) fun hdone => ?_
    have hcount := congrArg BitVec.toNat hdone.2
    change (BitVec.ofNat 4 n).toNat = s.rxs.hneed.toNat at hcount
    rw [BitVec.toNat_ofNat] at hcount
    omega

end Sys2Proof.Machine
end

section
/-! Proofs of the family 'other': PARSE, and its round trip with EMIT (40_header_codec.md R91 to R95). -/
namespace Sys2Proof.Machine

open Sys2Proof

/-! ### PARSE -/

/-- R73, R75: the header that stands in a region, field by field. -/
theorem readHeader_memRead (s : State) (A : Region) (o : Nat) :
    let b := fun i => s.readByte A (o + i)
    let h := headerLength (b 1)
    ∃ f, readHeader (s.memRead A o h) = some ((b 0).extractLsb' 0 4, f, []) ∧
      f.fin = (b 0).getLsbD 7 ∧ f.rsv = (b 0).extractLsb' 4 3 ∧ f.len.len7 = (b 1).extractLsb' 0 7 ∧
      f.len.value = bytesLen b ∧
      f.key = if (b 1).getLsbD 7 then some ⟨b (h - 4), b (h - 3), b (h - 2), b (h - 1)⟩ else none := by
  intro b h
  have hbounds : 2 ≤ h ∧ h ≤ 14 := headerLength_bounds (b 1)
  have hb {i : Nat} (hi : i < h) : (s.memRead A o h).getD i 0 = b i := by
    rw [List.getD_eq_getElem _ _ (by simpa using hi), memRead_getElem]
  have hb1 : (s.memRead A o h).getD 1 0 = b 1 := hb (by omega)
  obtain ⟨len, key, hread, h7, hvalue, hkey⟩ :=
    readHeader_full (s.memRead A o h) (by rw [memRead_length, hb1])
  rw [hb (by omega : 0 < h)] at hread
  refine ⟨_, hread, rfl, rfl, h7.trans (by rw [hb1]), hvalue.trans (bytesLen_congr hb1 fun i hi => hb ?_), ?_⟩
  · have hlen : h = _ := headerLength_nat (b 1)
    omega
  · rw [hkey, hb1, memRead_length, hb (by omega), hb (by omega), hb (by omega), hb (by omega)]

/-- R91: the five checks, on the bytes' own numbers. -/
theorem headerFault_eq {c : Cfg} {op : BitVec 4} {f : FrameHdr} {b : Nat → Byte}
    (h7 : f.len.len7 = (b 1).extractLsb' 0 7) (hvalue : f.len.value = bytesLen b) :
    headerFault c op f =
      if f.rsv &&& ~~~c.rsvAllowed ≠ 0#3 then some .rsvNotPermitted
      else if op.toNat ∉ [0x0, 0x1, 0x2, 0x8, 0x9, 0xA] then some .badOpcode
      else if op.toNat ∈ [0x8, 0x9, 0xA] ∧ 125 < bytesLen b then some .ctrlTooLong
      else if op.toNat ∈ [0x8, 0x9, 0xA] ∧ f.fin = false then some .ctrlFragmented
      else if (b 1).toNat % 128 = 127 ∧ (b 2).getLsbD 7 = true then some .len64Msb
      else none := by
  have h127 : f.len.len7 = 127#7 ↔ (b 1).toNat % 128 = 127 := by
    rw [h7, ← BitVec.toNat_inj, extract7_toNat]
    rfl
  have hmsb : (f.len.len7 = 127#7 ∧ 0x8000000000000000 ≤ bytesLen b) ↔
      ((b 1).toNat % 128 = 127 ∧ (b 2).getLsbD 7 = true) := by
    rw [h127]
    exact and_congr_right fun h => bytesLen_msb b h
  unfold headerFault
  simp only [opClass_reserved, opClass_control, hmsb, hvalue]

section ParseRuns
variable {a : Addr} {n : Nat} {s : State} (hbusy : s.rxs.busy = false)
  (hrace : ¬ (2 ≤ n ∧ s.readRace .rx a.region = true)) (hphase : s.rxs.phase ≠ .faulted) (howed : nothingOwed s)
include hbusy hrace hphase howed

theorem parse_faultsWith_of_error {c : Cause} (h : s.parseBytes a n = .error c) :
    faultsWith (.parse a n) s .rx 0x02 c := by
  show execParse a n s = _
  unfold execParse
  rw [if_neg (by simpa [hbusy] using hrace), if_neg hphase, headerPending_false.2 howed, if_neg Bool.false_ne_true, h,
    ← State.raise_eq_ended]

/-- R91: PARSE that completes loads the header and answers its length. -/
theorem exec_parse_of_loads {r : Hdr} (h : s.parseBytes a n = .ok { s with hdr := r }) :
    exec (.parse a n) s = .next (State.complete { s with hdr := r } .rx 0x02
      (.ok (.nat (headerLength (s.readByte a.region (a.off + 1)))))) := by
  show execParse a n s = _
  unfold execParse
  rw [if_neg (by simpa [hbusy] using hrace), if_neg hphase, headerPending_false.2 howed, if_neg Bool.false_ne_true, h]
  rfl

end ParseRuns

section ParseBytes
variable {s : State} {a : Addr} {n : Nat}

theorem parseBytes_of_short (h : n < 2) : s.parseBytes a n = .error .truncated := if_pos h

theorem parseBytes_of_outside (h2 : ¬ n < 2) (h : s.size a.region < a.off + 2) : s.parseBytes a n = .error .bounds := by
  unfold State.parseBytes
  rw [if_neg h2, if_pos (accessFaults_of_lt two_ne_zero h)]

variable (h2 : ¬ n < 2) (hin : ¬ s.size a.region < a.off + 2)
include h2 hin

/-- R91: with the two fixed bytes inside, the header length decides. -/
theorem parseBytes_of_truncated (hn : n < headerLength (s.readByte a.region (a.off + 1))) :
    s.parseBytes a n = .error .truncated := by
  unfold State.parseBytes
  rw [if_neg h2, accessFaults_eq_false.2 (.inr (Nat.not_lt.1 hin)), if_neg Bool.false_ne_true]
  exact if_pos hn

variable (hn : ¬ n < headerLength (s.readByte a.region (a.off + 1)))
include hn

theorem parseBytes_of_headerOutside (hh : s.size a.region < a.off + headerLength (s.readByte a.region (a.off + 1))) :
    s.parseBytes a n = .error .bounds := by
  have h0 : headerLength (s.readByte a.region (a.off + 1)) ≠ 0 := by
    have := (headerLength_bounds (s.readByte a.region (a.off + 1))).1
    omega
  unfold State.parseBytes
  rw [if_neg h2, accessFaults_eq_false.2 (.inr (Nat.not_lt.1 hin)), if_neg Bool.false_ne_true]
  simp only [if_neg hn, accessFaults_of_lt h0 hh, if_true]

variable (hh : ¬ s.size a.region < a.off + headerLength (s.readByte a.region (a.off + 1))) {op : BitVec 4} {f : FrameHdr}
  (hread : readHeader (s.memRead a.region a.off (headerLength (s.readByte a.region (a.off + 1)))) = some (op, f, []))
include hh hread

/-- R91: a header that fails a check. -/
theorem parseBytes_of_fault {c : Cause} (hf : headerFault s.cfg op f = some c) : s.parseBytes a n = .error c := by
  unfold State.parseBytes
  rw [if_neg h2, accessFaults_eq_false.2 (.inr (Nat.not_lt.1 hin)), if_neg Bool.false_ne_true]
  simp only [if_neg hn, accessFaults_eq_false.2 (.inr (Nat.not_lt.1 hh)), Bool.false_eq_true, if_false, hread, hf]

/-- R91: a header that passes them. -/
theorem parseBytes_of_loads (hf : headerFault s.cfg op f = none) : 
    s.parseBytes a n = .ok { s with hdr := loadHeader op f } := by
  unfold State.parseBytes
  rw [if_neg h2, accessFaults_eq_false.2 (.inr (Nat.not_lt.1 hin)), if_neg Bool.false_ne_true]
  simp only [if_neg hn, accessFaults_eq_false.2 (.inr (Nat.not_lt.1 hh)), Bool.false_eq_true, if_false, hread, hf]

end ParseBytes

/-- Settles O16: the checks of R91 one by one, on the bytes as `readHeader_memRead` spells them. -/
theorem parseLoadsOrReportsFirstFailure : Obligations.ParseLoadsOrReportsFirstFailure := by
  intro a n s b h op fin rsv l7 len fails
  refine ite_intro (fun hbusy => parse_faultsWith_busy hbusy a n) fun hbusy => ?_
  rw [Bool.not_eq_true] at hbusy
  refine ite_intro (fun hrace => if_pos (by simp [hrace])) fun hrace => ?_
  refine ite_intro (fun hphase => ?_) fun hphase => ?_
  · show execParse a n s = _
    unfold execParse
    rw [if_neg (by simpa [hbusy] using hrace), if_pos hphase, State.raise_eq_ended]
  refine ite_intro (fun howed => ?_) fun howed => ?_
  · show execParse a n s = _
    unfold execParse
    rw [if_neg (by simpa [hbusy] using hrace), if_neg hphase, if_pos (by simpa [State.headerPending] using howed),
      State.raise_eq_ended]
  have faults {c : Cause} : s.parseBytes a n = .error c → fails c := parse_faultsWith_of_error hbusy hrace hphase howed
  refine ite_intro (fun h2 => faults (parseBytes_of_short h2)) fun h2 => ?_
  refine ite_intro (fun hin => faults (parseBytes_of_outside h2 hin)) fun hin => ?_
  refine ite_intro (fun hn => faults (parseBytes_of_truncated h2 hin hn)) fun hn => ?_
  refine ite_intro (fun hh => faults (parseBytes_of_headerOutside h2 hin hn hh)) fun hh => ?_
  obtain ⟨f, hread, hfin, hrsv, h7, hvalue, hkey⟩ := readHeader_memRead s a.region a.off
  have hfault := headerFault_eq (c := s.cfg) (op := op) h7 hvalue
  have rejected {c : Cause} (hc : headerFault s.cfg op f = some c) : fails c :=
    faults (parseBytes_of_fault h2 hin hn hh hread hc)
  rw [hrsv, hfin] at hfault
  refine ite_intro (fun h1 => rejected (by rw [hfault, if_pos h1])) fun h1 => ?_
  rw [if_neg h1] at hfault
  refine ite_intro (fun h1 => rejected (by rw [hfault, if_pos h1])) fun h1 => ?_
  rw [if_neg h1] at hfault
  refine ite_intro (fun h1 => rejected (by rw [hfault]; exact if_pos h1)) fun h1 => ?_
  replace hfault := hfault.trans (if_neg h1)
  refine ite_intro (fun h1 => rejected (by rw [hfault, if_pos h1])) fun h1 => ?_
  rw [if_neg h1] at hfault
  refine ite_intro (fun h1 => rejected (by rw [hfault]; exact if_pos h1)) fun h1 => ?_
  replace hfault := hfault.trans (if_neg h1)
  have hbytes := parseBytes_of_loads h2 hin hn hh hread hfault
  have hlen : (BitVec.ofNat 64 f.len.value).toNat = len := by
    rw [hvalue, BitVec.toNat_ofNat, Nat.mod_eq_of_lt (bytesLen_lt _)]
    rfl
  refine ⟨_, exec_parse_of_loads hbusy hrace hphase howed hbytes, rfl, hfin, hrsv, rfl, ?_, hlen, hlen, ?_, rfl, rfl⟩
  · show f.key.isSome = (b 1).getLsbD 7
    rw [hkey]
    cases (s.readByte a.region (a.off + 1)).getLsbD 7 <;> rfl
  · intro hmasked
    change f.key.isSome = true at hmasked
    show f.key.getD _ = _
    rw [hkey] at hmasked ⊢
    split at hmasked
    · next hm => rw [if_pos hm]; rfl
    · cases hmasked

/-- R76: the length that the second byte of a header in memory tells. -/
theorem headerLength_of_bytesAre {s : State} {A : Region} {o : Nat} {op : BitVec 4} {f : FrameHdr}
    (hwf : f.wellFormed = true) (h : bytesAre s A o (encodeHeader op f)) :
    headerLength (s.readByte A (o + 1)) = (encodeHeader op f).length := by
  rw [encodeHeader_length op f hwf, h 1 (by simp [encodeHeader])]
  rfl

/-- Settles O17: the header in memory is read back, and passes the checks. -/
theorem parseCompletes : Obligations.ParseCompletes := by
  intro a n s op f hbusy hphase hrace howed hwf hacc hop hare hn hin
  have hhl := headerLength_of_bytesAre hwf hare
  have hlen : 2 ≤ (encodeHeader op f).length := by simp [encodeHeader]
  have hread : readHeader (s.memRead a.region a.off (headerLength (s.readByte a.region (a.off + 1)))) = some (op, f, []) := by
    rw [hhl, bytesAre_read hare]
    have := readHeader_encodeHeader op f hwf []
    rwa [List.append_nil] at this
  have hfault := headerFault_none_of hacc fun hres => (opClass_reserved op).1 hres hop
  have hbytes := parseBytes_of_loads (s := s) (a := a) (n := n) (by omega) (by omega) (by omega) (by omega) hread hfault
  refine ⟨_, exec_parse_of_loads hbusy (by simp [hrace]) hphase howed hbytes, loadHeader_holds hacc.2.2, ?_, rfl⟩
  rw [hhl]
  rfl

/-! ### EMIT and PARSE (R93) -/

/-- The header EMIT writes for an operand it accepts is one PARSE accepts. -/
theorem frameAccepted_of_emitInvalid {c : Cfg} {h : HeaderOp} (hval : emitInvalid c h = false) :
    frameAccepted c h.opcode ⟨h.fin, h.rsv, shortestLen h.len, h.key⟩ ∧
    (shortestLen h.len).value = h.len ∧ h.opcode.toNat ∈ [0x0, 0x1, 0x2, 0x8, 0x9, 0xA] := by
  obtain ⟨hop, hrsv, hctrl, hlen⟩ := emitInvalid_frame hval
  have hvalue : (shortestLen h.len).value = h.len := shortestLen_value (by omega)
  refine ⟨⟨hrsv, fun hc => ?_, ?_⟩, hvalue, hop⟩
  · show (shortestLen h.len).value ≤ 125 ∧ h.fin = true
    rw [hvalue]
    exact hctrl hc
  · show (shortestLen h.len).value < _
    rw [hvalue]
    exact hlen

/-- What the checks of R91 say of a header that passes them. -/
theorem headerFault_none {c : Cfg} {op : BitVec 4} {f : FrameHdr} (h : headerFault c op f = none) :
    op.toNat ∈ [0x0, 0x1, 0x2, 0x8, 0x9, 0xA] ∧ f.rsv &&& ~~~c.rsvAllowed = 0#3 ∧
    ¬ (op.toNat ∈ [0x8, 0x9, 0xA] ∧ (125 < f.len.value ∨ f.fin = false)) ∧ f.len.value < 2 ^ 63 ∧
    (loadHeader op f).len.toNat = f.len.value := by
  obtain ⟨-, hlen, hctrl, hop, hrsv⟩ := HdrInv.loadHeader h rfl
  have hvalue : (BitVec.ofNat 64 f.len.value).toNat = f.len.value := by
    have : f.len.value < 2 ^ 64 := by
      cases f.len with
      | short v => show v.toNat < _; omega
      | ext16 v => show v.toNat < _; omega
      | ext64 v => exact v.isLt
    rw [BitVec.toNat_ofNat, Nat.mod_eq_of_lt this]
  change (BitVec.ofNat 64 f.len.value).toNat ≤ _ at hlen
  change opClass op = .control → f.fin = true ∧ (BitVec.ofNat 64 f.len.value).toNat ≤ 125 at hctrl
  rw [hvalue] at hlen hctrl
  refine ⟨?_, hrsv, ?_, by omega, hvalue⟩
  · by_contra hne
    exact hop ((opClass_reserved op).2 hne)
  · rintro ⟨hc, hbad⟩
    obtain ⟨hfin, h125⟩ := hctrl ((opClass_control op).2 hc)
    rcases hbad with hbad | hbad
    · omega
    · rw [hfin] at hbad
      cases hbad

/-- The header operand that `HDR` spells after a PARSE. -/
theorem loadHeader_key (op : BitVec 4) (f : FrameHdr) :
    (if (loadHeader op f).masked then some (loadHeader op f).key else none) = f.key := key_opt f.key _

/-- R74: a header's bytes are those of the shortest form exactly when its length field is. -/
theorem encodeHeader_shortest_iff {op : BitVec 4} {f : FrameHdr} (hwf : f.wellFormed = true) :
    encodeHeader op { f with len := shortestLen f.len.value } = encodeHeader op f ↔
      f.len.len7.toNat = wireLen7 f.len.value := by
  constructor
  · intro h
    have h1 : headerByte1 f.key.isSome (shortestLen f.len.value).len7 = headerByte1 f.key.isSome f.len.len7 := by
      have := congrArg (fun bs => bs.getD 1 0) h
      exact this
    rw [← shortestLen_len7, ← headerByte1_len7 f.key.isSome f.len.len7, ← h1, headerByte1_len7]
  · intro h
    rw [← shortest_of hwf h]

theorem emit_then_parse (h : HeaderOp) (a b : Addr) (n p hl : Nat) (s t u : State)
    (ht : exec (.emit h a) s = .next t) (hr : t.results = s.results ++ [⟨s.issuer, 0x04, .ok (.frame p hl)⟩])
    (hn : hl ≤ n) (hcfg : u.cfg = s.cfg) (hbusy : u.rxs.busy = false) (hphase : u.rxs.phase ≠ .faulted)
    (howed : nothingOwed u) (hrace : u.readRace .rx b.region = false) (hin : b.off + hl ≤ u.size b.region)
    (hcopy : u.memRead b.region b.off hl = t.memRead a.region p hl) :
    ∃ v, exec (.parse b n) u = .next v ∧ v.results = u.results ++ [⟨.rx, 0x02, .ok (.nat hl)⟩] ∧
      v.hdr.valid = true ∧ v.hdr.fin = h.fin ∧ v.hdr.rsv = h.rsv ∧ v.hdr.opcode = h.opcode ∧
      v.hdr.masked = h.key.isSome ∧ (∀ k, h.key = some k → v.hdr.key = k) ∧
      v.hdr.len.toNat = h.len ∧ v.hdr.rem.toNat = h.len := by
  obtain ⟨hf, rfl, rfl, rfl⟩ := exec_emit_ok ht hr
  obtain ⟨hval, hroom, -⟩ := emitFault_frame hf
  obtain ⟨hacc, hvalue, hop⟩ := frameAccepted_of_emitInvalid hval
  have hare : bytesAre u b.region b.off (emitBytes h) :=
    bytesAre_of_memRead (hcopy.trans (bytesAre_read (emitWrite_are s h a)))
  rw [← hcfg] at hacc
  obtain ⟨v, hv, ⟨h1, h2, h3, h4, h5, h6, h7, h8⟩, hres, -⟩ := parseCompletes b n u h.opcode
    ⟨h.fin, h.rsv, shortestLen h.len, h.key⟩ hbusy hphase hrace howed
    (shortestLen_wellFormed h.len) hacc hop hare hn hin
  exact ⟨v, hv, hres, h1, h2, h3, h4, h5, h8, h6.trans hvalue, h7.trans hvalue⟩

theorem parse_then_emit (a b : Addr) (n hl : Nat) (s t : State) (ht : exec (.parse a n) s = .next t)
    (hr : t.results = s.results ++ [⟨.rx, 0x02, .ok (.nat hl)⟩])
    (hrace : t.writeRace (txAgent t.issuer) b.region = false) (hroom : 14 ≤ b.off) (hin : b.off ≤ t.size b.region) :
    ∃ u p m, exec (.emit { fin := t.hdr.fin, rsv := t.hdr.rsv, opcode := t.hdr.opcode, len := t.hdr.len.toNat,
                           key := if t.hdr.masked then some t.hdr.key else none } b) t = .next u ∧
      u.results = t.results ++ [⟨t.issuer, 0x04, .ok (.frame p m)⟩] ∧
      (u.memRead b.region p m = s.memRead a.region a.off hl ↔
        (s.readByte a.region (a.off + 1)).toNat % 128 = wireLen7 t.hdr.len.toNat) := by
  obtain ⟨rfl, op, f, hread, hfault, rfl⟩ := exec_parse_ok ht hr
  obtain ⟨hop, hrsv, hctrl, hlen, hvalue⟩ := headerFault_none hfault
  obtain ⟨hwf, hbytes⟩ := readHeader_ok hread
  rw [List.append_nil] at hbytes
  simp only [loadHeader_key, hvalue]
  let h : HeaderOp := ⟨f.fin, f.rsv, op, f.len.value, f.key⟩
  have hE : emitBytes h = encodeHeader op { f with len := shortestLen f.len.value } := rfl
  have hle : (emitBytes h).length ≤ 14 := by
    rw [emitBytes_eq]
    exact (wireHeader_length_le ..).2
  have hf := emitFault_of (s := { s with hdr := loadHeader op f, results := _ }) (h := h) (a := b) hop hrsv hctrl hlen
    ⟨by omega, hin⟩
  refine ⟨_, _, _, exec_emit_of_emitFault_none hrace hf, rfl, ?_⟩
  have hwrote : State.memRead _ b.region _ _ = emitBytes h :=
    bytesAre_read (emitWrite_are { s with hdr := loadHeader op f } h b)
  have h7 : f.len.len7.toNat = (s.readByte a.region (a.off + 1)).toNat % 128 := by
    have hare := bytesAre_of_memRead hbytes 1 (by simp [encodeHeader])
    rw [hare, ← extract7_toNat]
    exact congrArg BitVec.toNat (headerByte1_len7 _ _).symm
  rw [hbytes, ← h7, ← encodeHeader_shortest_iff hwf, ← hE, ← hwrote]
  rfl

/-- Settles O19, one direction at a time. -/
theorem emitThenParseRoundTrip : Obligations.EmitThenParseRoundTrip := ⟨emit_then_parse, parse_then_emit⟩

end Sys2Proof.Machine
end

section
/-! Proofs of the family 'other': RXMASK (41_mask_engine.md R100 to R103). -/
namespace Sys2Proof.Machine

open Sys2Proof

/-! ### RXMASK (R101) -/

/-- R101, R130: a check of RXMASK that fails is its result. -/
theorem rxmask_faultsWith_of_fault {a : Addr} {n : Nat} {s : State} {c : Cause} (hbusy : s.rxs.busy = false)
    (hrace : s.hdr.valid = true → s.hdr.masked = true → n ≠ 0 → s.writeRace .rx a.region = false)
    (hf : s.rxmaskFault a.region a.off n = some c) : faultsWith (.rxmask a n) s .rx 0x06 c := by
  have hfree : ¬ (s.hdr.valid && s.hdr.masked && decide (n ≠ 0) && s.writeRace .rx a.region) = true := by
    simp only [Bool.and_eq_true, decide_eq_true_eq]
    rintro ⟨⟨⟨hv, hm⟩, h0⟩, hw⟩
    rw [hrace hv hm h0] at hw
    cases hw
  show execRxmask a n s = _
  unfold execRxmask
  rw [hbusy, if_neg Bool.false_ne_true, if_neg hfree, hf, ← State.raise_eq_ended]

/-- R101: `REM` after RXMASK, as a number. -/
theorem rxmaskApply_rem (s : State) (A : Region) (o n : Nat) :
    (s.rxmaskApply A o n).hdr.rem.toNat = s.hdr.rem.toNat - n := by
  have := s.hdr.rem.isLt
  rw [rxmaskApply_hdr, BitVec.toNat_ofNat]
  omega

/-- R100, R101: each byte that arrived, unmasked at its stream position. -/
theorem readByte_rxmaskApply_inside (s : State) (A : Region) (o : Nat) {n i : Nat} (hi : i < n) :
    (s.rxmaskApply A o n).readByte A (o + i) =
      if s.hdr.masked then s.readByte A (o + i) ^^^ keyAt s.hdr.key (s.hdr.len.toNat - s.hdr.rem.toNat + i)
      else s.readByte A (o + i) := by
  rw [readByte_rxmaskApply]
  by_cases hm : s.hdr.masked = true
  · rw [if_pos ⟨hm, rfl, by omega, by omega⟩, if_pos hm, Nat.add_sub_cancel_left]
    rfl
  · rw [if_neg fun h => hm h.1, if_neg hm]

/-- Settles O22: the checks of R101 one by one, then the unmasking. -/
theorem rxmaskUnmasksAndCounts : Obligations.RxmaskUnmasksAndCounts := by
  intro a n s hrace fails
  refine ite_intro (fun hbusy => rxmask_faultsWith_busy hbusy a n) fun hbusy => ?_
  rw [Bool.not_eq_true] at hbusy
  have faults {c : Cause} : s.rxmaskFault a.region a.off n = some c → fails c := rxmask_faultsWith_of_fault hbusy hrace
  refine ite_intro (fun hv => faults (if_pos hv)) fun hv => ?_
  refine ite_intro (fun hr => faults ((if_neg hv).trans (if_pos hr))) fun hr => ?_
  refine ite_intro (fun hb => faults ?_) fun hb => ?_
  · exact (if_neg hv).trans ((if_neg hr).trans (if_pos (decide_eq_true hb)))
  rw [Bool.not_eq_false] at hv
  exact ⟨_, exec_rxmask (hrace hv) hbusy hv (Nat.not_lt.1 hr) (Nat.not_lt.1 hb),
    fun i hi => readByte_rxmaskApply_inside s a.region a.off hi, rxmaskApply_frame s a.region a.off n,
    rxmaskApply_rem s a.region a.off n, rfl, rfl, rfl⟩

/-! ### Payloads in chunks (R103) -/

/-- R100: RXMASK moves the stream position on by the bytes it counts. -/
theorem rxmaskApply_rxPosition {s : State} {A : Region} {o n : Nat} (hn : n ≤ s.hdr.rem.toNat)
    (hrem : s.hdr.rem.toNat ≤ s.hdr.len.toNat) : (s.rxmaskApply A o n).rxPosition = s.rxPosition + n := by
  show s.hdr.len.toNat - (s.rxmaskApply A o n).hdr.rem.toNat = s.hdr.len.toNat - s.hdr.rem.toNat + n
  rw [rxmaskApply_rem]
  omega

/-- R103: two RXMASKs, one behind the other, write what one over both ranges writes. -/
theorem readByte_rxmaskApply_add {s : State} {A : Region} {o m n : Nat} (hm : m ≤ s.hdr.rem.toNat)
    (hrem : s.hdr.rem.toNat ≤ s.hdr.len.toNat) (B : Region) (x : Nat) :
    ((s.rxmaskApply A o m).rxmaskApply A (o + m) n).readByte B x = (s.rxmaskApply A o (m + n)).readByte B x := by
  simp only [readByte_rxmaskApply, rxmaskApply_hdr, rxmaskApply_rxPosition hm hrem]
  by_cases hmasked : s.hdr.masked = true
  · by_cases hB : B = A
    · simp only [hmasked, hB, true_and]
      by_cases h1 : o ≤ x ∧ x < o + m
      · rw [if_neg (by omega), if_pos h1, if_pos (by omega)]
      · by_cases h2 : o + m ≤ x ∧ x < o + m + n
        · have hpos : s.rxPosition + m + (x - (o + m)) = s.rxPosition + (x - o) := by omega
          rw [if_pos h2, if_neg h1, if_pos (by omega), hpos]
        · rw [if_neg h2, if_neg h1, if_neg (by omega)]
    · simp only [hB, false_and, and_false, if_false]
  · simp only [hmasked, false_and, if_false, Bool.false_eq_true]

theorem rxmaskApply_hdr_add {s : State} {A : Region} {o m n : Nat} :
    ((s.rxmaskApply A o m).rxmaskApply A (o + m) n).hdr = (s.rxmaskApply A o (m + n)).hdr := by
  have hrem : (s.rxmaskApply A o m).hdr.rem.toNat - n = s.hdr.rem.toNat - (m + n) := by
    rw [rxmaskApply_rem, Nat.sub_sub]
  rw [rxmaskApply_hdr, hrem]
  rfl

/-- A state that reads as another reads as it after RXMASK too. -/
theorem readByte_rxmaskApply_congr {s t : State} (hbytes : bytesKept s t) (hhdr : t.hdr = s.hdr) (A : Region) (o n : Nat) :
    bytesKept (s.rxmaskApply A o n) (t.rxmaskApply A o n) := by
  intro B x
  rw [readByte_rxmaskApply, readByte_rxmaskApply, State.rxPosition, State.rxPosition, hhdr, hbytes, hbytes]

/-- R103: chunk by chunk, each RXMASK completes, and together they write what one RXMASK writes. -/
theorem rxmaskChunks_eq {A : Region} (ns : List Nat) {o : Nat} {s : State} (hbusy : s.rxs.busy = false)
    (hv : s.hdr.valid = true) (hrace : s.hdr.masked = true → s.writeRace .rx A = false)
    (hrem : s.hdr.rem.toNat ≤ s.hdr.len.toNat) (hsum : ns.sum ≤ s.hdr.rem.toNat) (hin : o + ns.sum ≤ s.size A) :
    ∃ t, rxmaskChunks A o ns s = .next t ∧ bytesKept (s.rxmaskApply A o ns.sum) t ∧
      t.hdr = (s.rxmaskApply A o ns.sum).hdr := by
  induction ns generalizing o s with
  | nil =>
    refine ⟨s, rfl, fun B x => ?_, ?_⟩
    · rw [readByte_rxmaskApply, if_neg (by simp only [List.sum_nil]; omega)]
    · simp
  | cons n ns ih =>
    rw [List.sum_cons] at hsum hin ⊢
    have hn : n ≤ s.hdr.rem.toNat := by omega
    have hexec := exec_rxmask (A := A) (o := o) (fun hm _ => hrace hm) hbusy hv hn (by omega)
    have hcount := rxmaskApply_rem s A o n
    obtain ⟨t, ht, hbytes, hhdr⟩ := ih (o := o + n)
      (s := (s.rxmaskApply A o n).complete .rx 0x06 (.ok (.nat (s.hdr.rem.toNat - n)))) hbusy hv hrace
      (by show (s.rxmaskApply A o n).hdr.rem.toNat ≤ s.hdr.len.toNat; omega)
      (by show ns.sum ≤ (s.rxmaskApply A o n).hdr.rem.toNat; omega) (by show o + n + ns.sum ≤ s.size A; omega)
    refine ⟨t, ?_, fun B x => ?_, hhdr.trans rxmaskApply_hdr_add⟩
    · rw [rxmaskChunks, hexec]
      exact ht
    · rw [hbytes, ← readByte_rxmaskApply_add hn hrem]
      exact readByte_rxmaskApply_congr (s := s.rxmaskApply A o n) (fun _ _ => rfl) rfl A (o + n) ns.sum B x

/-- R102: at the start of a payload RXMASK leaves the received bytes unmasked. -/
theorem rxmaskApply_are {s : State} {A : Region} {o n : Nat} (hstart : s.hdr.rem = s.hdr.len) :
    bytesAre (s.rxmaskApply A o n) A o (unmasked s.hdr (s.memRead A o n)) := by
  intro i hi
  have hn : i < n := by simpa using hi
  rw [readByte_rxmaskApply_inside s A o hn, hstart, Nat.sub_self, Nat.zero_add]
  by_cases hm : s.hdr.masked = true
  · simp only [unmasked, hm, if_true, maskedBytes, List.getElem_mapIdx, memRead_getElem]
  · simp only [unmasked, hm, Bool.false_eq_true, if_false, memRead_getElem]

/-- Settles O23: the chunks and the one RXMASK write the same, and that is the payload unmasked. -/
theorem rxmaskChunksAgree : Obligations.RxmaskChunksAgree := by
  intro A o ns s hbusy hv hstart hsum hin hrace
  obtain ⟨t, ht, hbytes, hhdr⟩ := rxmaskChunks_eq (o := o) ns hbusy hv hrace (by rw [hstart]) (by rw [hstart, hsum])
    (by rw [hsum]; exact hin)
  rw [hsum] at hbytes hhdr
  have hexec := exec_rxmask (A := A) (o := o) (n := s.hdr.len.toNat) (fun hm _ => hrace hm) hbusy hv (by rw [hstart]) hin
  refine ⟨t, _, ht, hexec, fun B x => (hbytes B x).symm, fun i hi => ?_, ?_, hhdr.symm⟩
  · rw [hbytes]
    exact rxmaskApply_are hstart i hi
  · rw [hhdr, rxmaskApply_hdr, hstart, Nat.sub_self]
    rfl

end Sys2Proof.Machine
end

section
/-! Proofs of the family 'other': AWAIT and the frames it handles (42_dispatch.md sections 1 and 2). -/
namespace Sys2Proof.Machine

open Sys2Proof

/-! ### The start of AWAIT (R105) -/

/-- Settles O25: the checks of R105 one by one. -/
theorem awaitStarts : Obligations.AwaitStarts := by
  intro s fails
  refine ite_intro await_faultsWith_busy fun hbusy => ?_
  have hexec : exec .await s = _ := if_neg hbusy
  refine ite_intro (fun hphase => hexec.trans (if_pos hphase)) fun hphase => ?_
  replace hexec := hexec.trans (if_neg hphase)
  refine ite_intro (fun hended => hexec.trans (if_pos hended)) fun hended => ?_
  replace hexec := hexec.trans (if_neg hended)
  refine ite_intro (fun howed => hexec.trans (if_pos ?_)) fun howed => hexec.trans (if_neg ?_)
  · simpa [State.headerPending] using howed
  · simpa [State.headerPending] using howed

/-! ### The dispatch of a complete header (R108) -/

section Dispatch
variable {s : State} {op : BitVec 4} {h : FrameHdr} (howed : nothingOwed s)
include howed

/-- R109: a header that fails a check is a sticky fault. -/
theorem dispatchFrame_of_fault {c : Cause} (hf : headerFault s.cfg op h = some c) :
    s.dispatchFrame op h = stickyFaulted s 0x08 c := by
  unfold State.dispatchFrame
  rw [headerPending_false.2 howed, if_neg Bool.false_ne_true]
  simp only [hf]
  rfl

theorem dispatchFrame_of_data (hacc : frameAccepted s.cfg op h) (hc : opClass op = .data) :
    s.dispatchFrame op h = (s.headerAccepted op h).dataHeader := by
  unfold State.dispatchFrame
  rw [headerPending_false.2 howed, if_neg Bool.false_ne_true]
  simp only [headerFault_none_of hacc (by rw [hc]; decide), hc]

theorem dispatchFrame_of_control (hacc : frameAccepted s.cfg op h) (hc : opClass op = .control) :
    s.dispatchFrame op h = (s.headerAccepted op h).enterControl := by
  unfold State.dispatchFrame
  rw [headerPending_false.2 howed, if_neg Bool.false_ne_true]
  simp only [headerFault_none_of hacc (by rw [hc]; decide), hc]

end Dispatch

/-- Settles O28: the data branch of the dispatch. -/
theorem dataHeaderIsSurfaced : Obligations.DataHeaderIsSurfaced := by
  intro h s op i hi howed hacc
  have hdata : opClass op = .data ∧ i = frameInstr op h := by
    simp only [List.mem_cons, Prod.mk.injEq, List.not_mem_nil, or_false] at hi
    obtain ⟨rfl, rfl⟩ | ⟨rfl, rfl⟩ | ⟨rfl, rfl⟩ := hi <;> exact ⟨rfl, rfl⟩
  obtain ⟨hclass, rfl⟩ := hdata
  refine ⟨(s.headerAccepted op h).dataHeader, ?_, loadHeader_holds hacc.2.2, rfl, rfl, rfl, rfl, rfl⟩
  rw [exec_frameInstr, dispatchFrame_of_data howed hacc hclass]

/-- Settles O29: a reserved opcode fails the second check of R91, if not the first. -/
theorem reservedOpcodeIsRejected : Obligations.ReservedOpcodeIsRejected := by
  intro h s i hi howed
  have hreserved : ∃ op, opClass op = .reserved ∧ i = frameInstr op h := by
    simp only [List.mem_cons, List.not_mem_nil, or_false] at hi
    obtain rfl | rfl | rfl | rfl | rfl | rfl | rfl | rfl | rfl | rfl := hi
    exacts [⟨0x3, rfl, rfl⟩, ⟨0x4, rfl, rfl⟩, ⟨0x5, rfl, rfl⟩, ⟨0x6, rfl, rfl⟩, ⟨0x7, rfl, rfl⟩,
      ⟨0xB, rfl, rfl⟩, ⟨0xC, rfl, rfl⟩, ⟨0xD, rfl, rfl⟩, ⟨0xE, rfl, rfl⟩, ⟨0xF, rfl, rfl⟩]
  obtain ⟨op, hclass, rfl⟩ := hreserved
  rw [exec_frameInstr]
  refine congrArg _ (dispatchFrame_of_fault howed ?_)
  unfold headerFault
  rw [if_pos hclass]
  split <;> rfl

/-- Settles O30: the checks of R91 in their order. -/
theorem malformedHeaderIsSticky : Obligations.MalformedHeaderIsSticky := by
  intro h s op i hi howed fails
  have hsupported : opClass op ≠ .reserved ∧ i = frameInstr op h := by
    simp only [List.mem_cons, Prod.mk.injEq, List.not_mem_nil, or_false] at hi
    obtain ⟨rfl, rfl⟩ | ⟨rfl, rfl⟩ | ⟨rfl, rfl⟩ | ⟨rfl, rfl⟩ | ⟨rfl, rfl⟩ | ⟨rfl, rfl⟩ := hi <;>
      exact ⟨by decide, rfl⟩
  obtain ⟨hclass, rfl⟩ := hsupported
  have rejected {c : Cause} (hf : headerFault s.cfg op h = some c) : fails c := by
    show exec _ s = _
    rw [exec_frameInstr, dispatchFrame_of_fault howed hf]
  simp only [← opClass_control']
  refine ⟨fun hrsv => ?rsv, fun hrsv hctrl hlong => ?long, fun hrsv hctrl hlen hfin => ?fragmented,
    fun hrsv hctrl h7 hmsb => ?msb⟩
  case rsv => exact rejected (if_pos hrsv)
  all_goals
    refine rejected ?_
    unfold headerFault
    rw [if_neg (not_not.2 hrsv), if_neg hclass]
  case long => exact if_pos ⟨hctrl, hlong⟩
  case fragmented => rw [if_neg (by omega), if_pos ⟨hctrl, hfin⟩]
  case msb => rw [if_neg (by simp [hctrl]), if_neg (by simp [hctrl]), if_pos ⟨h7, by omega⟩]

/-! ### Entering control handling (R110) -/

/-- R110: an accepted control header, `PHASE` already `CTRL`. -/
def State.controlEntered (s : State) (op : BitVec 4) (h : FrameHdr) : State :=
  { s with hdr := loadHeader op h, events := s.events ++ [.activity]
           rxs := { s.rxs with phase := .ctrl, hcnt := 0, hneed := 0 } }

/-- R108, R110: an accepted control header goes on to read its payload, or is handled at once. -/
theorem exec_control {s : State} {op : BitVec 4} {h : FrameHdr} {D : Region} (howed : nothingOwed s)
    (hacc : frameAccepted s.cfg op h) (hD : controlSlice op = some D) :
    exec (frameInstr op h) s = .next (if controlCount op h.len.value = 0 then (s.controlEntered op h).controlHandled D 0
      else { s.controlEntered op h with rxJob := .ctrl 0 }) := by
  have hlen : (loadHeader op h).len.toNat = h.len.value := (loadHeader_holds hacc.2.2).2.2.2.2.2.1
  rw [exec_frameInstr, dispatchFrame_of_control howed hacc (controlSlice_some hD), enterControl_eq hD, ← hlen]
  rfl

/-- R110: with a payload there are bytes to read. -/
theorem controlCount_pos {op : BitVec 4} {len : Nat} (h : 0 < len) : controlCount op len ≠ 0 := by
  unfold controlCount Config.ctrlMax
  split <;> omega

/-- Settles O31: with a payload, control handling waits for it. -/
theorem controlHeaderEntersCtrl : Obligations.ControlHeaderEntersCtrl := by
  intro h s op i hi howed hacc hlen
  have hcontrol : (∃ D, controlSlice op = some D) ∧ i = frameInstr op h := by
    simp only [List.mem_cons, Prod.mk.injEq, List.not_mem_nil, or_false] at hi
    obtain ⟨rfl, rfl⟩ | ⟨rfl, rfl⟩ | ⟨rfl, rfl⟩ := hi <;> exact ⟨⟨_, rfl⟩, rfl⟩
  obtain ⟨⟨D, hD⟩, rfl⟩ := hcontrol
  refine ⟨{ s.controlEntered op h with rxJob := .ctrl 0 }, ?_, loadHeader_holds hacc.2.2, rfl, rfl, rfl, rfl⟩
  rw [exec_control howed hacc hD, if_neg (controlCount_pos hlen)]

/-! ### Control frames whose payload is there (R110 to R113) -/

section Handled
variable {s : State} {k : Nat} (hv : s.hdr.valid = true) (hr : k ≤ s.hdr.rem.toNat)
include hv hr

theorem controlHandled_close (hop : s.hdr.opcode = 0x8#4) (hz : k ≤ s.sizes.of .inClose) :
    s.controlHandled .inClose k = (s.rxmaskApply .inClose 0 k).closeReceived
      (if k < 2 then normalClose else closeCode ((s.rxmaskApply .inClose 0 k).memRead .inClose 0 2)) := by
  rw [controlHandled_eq hv hr hz, if_pos hop]

theorem controlHandled_ping (hop : s.hdr.opcode = 0x9#4) (hz : k ≤ s.sizes.of .inPing) :
    s.controlHandled .inPing k = (s.rxmaskApply .inPing 0 k).pongEcho k := by
  rw [controlHandled_eq hv hr hz, hop, if_neg (by decide), if_pos rfl]

theorem controlHandled_pong (hop : s.hdr.opcode = 0xA#4) (hz : k ≤ s.sizes.of .inPong) :
    s.controlHandled .inPong k = (s.rxmaskApply .inPong 0 k).pongHandled k := by
  rw [controlHandled_eq hv hr hz, hop, if_neg (by decide), if_neg (by decide)]

end Handled

/-- R62: the echo has no pong while a SENDFRAME still sends from `OUT_PONG`. -/
theorem pongEcho_of_sendOwns {s : State} (h : s.sendOwns .outPong = true) (k : Nat) : s.pongEcho k = s.pingHandled :=
  if_pos h

/-- The pong that is ready, seen from a state with the same role and the same bytes in `OUT_PONG`. -/
theorem pongReady_congr {s s' t : State} {p : List Byte} (hcfg : s'.cfg = s.cfg)
    (hbytes : ∀ x, s'.readByte .outPong x = s.readByte .outPong x) (h : pongReady s' t p) : pongReady s t p := by
  obtain ⟨key, hkey, hne, hare, hkept, hjob⟩ := h
  exact ⟨key, by rw [hkey, hcfg], hne, hare, fun x hx => (hkept x hx).trans (hbytes x), hjob⟩

/-- RXMASK of no byte. -/
theorem rxmaskApply_zero_kept (s : State) (D : Region) : bytesKept s (s.rxmaskApply D 0 0) := by
  intro B x
  rw [readByte_rxmaskApply, if_neg (by omega)]

/-- `HDR` after the payload of an empty frame. -/
theorem hdrHolds_of_empty {op : BitVec 4} {h : FrameHdr} (h0 : h.len.value = 0) (n : Nat) :
    hdrHolds { loadHeader op h with rem := BitVec.ofNat 64 ((loadHeader op h).rem.toNat - n) } op h := by
  obtain ⟨h1, h2, h3, h4, h5, h6, h7, h8⟩ := loadHeader_holds (op := op) (f := h) (by omega)
  refine ⟨h1, h2, h3, h4, h5, h6, ?_, h8⟩
  show (BitVec.ofNat 64 ((loadHeader op h).rem.toNat - n)).toNat = h.len.value
  rw [h7, h0, Nat.zero_sub]
  rfl

/-- Settles O32: control handling goes on at once, with no byte to unmask. -/
theorem emptyControlFrameIsHandled : Obligations.EmptyControlFrameIsHandled := by
  intro h s howed h0
  have enters {op : BitVec 4} {D : Region} (hacc : frameAccepted s.cfg op h) (hD : controlSlice op = some D) :
      exec (frameInstr op h) s = .next ((s.controlEntered op h).controlHandled D 0) := by
    rw [exec_control howed hacc hD, h0, if_pos]
    simp [controlCount]
  refine ⟨fun hacc => ?close, fun hacc => ?pong, fun hacc hsends => ?pingNoPong, fun hacc hsends hsize => ?ping⟩
  case close =>
    have hx := enters hacc rfl
    rw [controlHandled_close rfl (Nat.zero_le _) rfl (Nat.zero_le _)] at hx
    exact ⟨_, hx, rfl, rfl, rfl, by simp [State.closeReceived, State.controlEntered, normalClose], rfl,
      rxmaskApply_zero_kept _ _, rfl⟩
  case pong =>
    have hx := enters hacc rfl
    rw [controlHandled_pong rfl (Nat.zero_le _) rfl (Nat.zero_le _)] at hx
    exact ⟨_, hx, rfl, rfl, rfl, by simp [State.pongHandled, State.nextHeader, State.controlEntered, State.memRead],
      rxmaskApply_zero_kept _ _, rfl⟩
  case pingNoPong =>
    have hx := enters hacc rfl
    rw [controlHandled_ping rfl (Nat.zero_le _) rfl (Nat.zero_le _),
      pongEcho_of_sendOwns (s := (s.controlEntered 0x9 h).rxmaskApply .inPing 0 0) hsends] at hx
    exact ⟨_, hx, rfl, rfl, rfl, by simp [State.pingHandled, State.nextHeader, State.controlEntered],
      rxmaskApply_zero_kept _ _, rfl⟩
  case ping =>
    have hx := enters hacc rfl
    rw [controlHandled_ping rfl (Nat.zero_le _) rfl (Nat.zero_le _)] at hx
    have hkept := rxmaskApply_zero_kept (s.controlEntered 0x9 h) .inPing
    have hhdr := hdrHolds_of_empty (op := 0x9) h0 0
    obtain ⟨hready, hbytes, hframe⟩ := pongEcho_spec (s := (s.controlEntered 0x9 h).rxmaskApply .inPing 0 0) (k := 0)
      (Nat.zero_le _) hsize (Nat.zero_le _) hsends
    refine ⟨_, hx, (congrArg State.hdr hframe) ▸ hhdr, congrArg State.rxs hframe,
      pongReady_congr (s' := (s.controlEntered 0x9 h).rxmaskApply .inPing 0 0) rfl (fun x => hkept _ x) hready,
      congrArg State.events hframe, fun B x hB => (hbytes B x hB).trans (hkept B x), ?_⟩
    exact congrArg (fun u : State => { u with hdr := s.hdr, rxs := s.rxs, rxJob := s.rxJob, events := s.events,
                                              mem := s.mem, keyDraws := s.keyDraws, keyCtr := s.keyCtr }) hframe

end Sys2Proof.Machine
end

section
/-! Proofs of the family 'other': the payload of control frames (42_dispatch.md section 2). -/
namespace Sys2Proof.Machine

open Sys2Proof

/-! ### Reading the payload (R110) -/

/-- R110: bs stored in the slice D behind the bytes already there, its answer and the turn taken. -/
def State.payloadStored (s : State) (ts : List Turn) (q : List RxAnswer) (D : Region) (got : Nat) (bs : List Byte) :
    State :=
  State.memWrite { s with turns := ts, rxIn := q } D got bs

/-- R110: the payload complete and unmasked in its slice. -/
def State.payloadUnmasked (s : State) (ts : List Turn) (q : List RxAnswer) (D : Region) (got : Nat) (bs : List Byte) :
    State :=
  (s.payloadStored ts q D got bs).rxmaskApply D 0 (got + bs.length)

section Payload
variable {s : State} {ts : List Turn} {op : BitVec 4} {D : Region} {k got : Nat} {bs : List Byte} {q : List RxAnswer}

theorem payloadStored_kept :
    bytesKeptOutside s (s.payloadStored ts q D got bs) D got (got + bs.length) :=
  memWrite_kept { s with turns := ts, rxIn := q } D got bs

theorem memRead_payloadStored :
    (s.payloadStored ts q D got bs).memRead D 0 (got + bs.length) = s.memRead D 0 got ++ bs :=
  memRead_memWrite_zero { s with turns := ts, rxIn := q } D got bs

/-- The unmasked payload stands in the slice. -/
theorem memRead_payloadUnmasked (hstart : s.hdr.rem = s.hdr.len) :
    (s.payloadUnmasked ts q D got bs).memRead D 0 (got + bs.length) = unmasked s.hdr (s.memRead D 0 got ++ bs) := by
  rw [← memRead_payloadStored (ts := ts) (q := q)]
  exact memRead_rxmaskApply (s := s.payloadStored ts q D got bs) hstart

theorem payloadUnmasked_are (hstart : s.hdr.rem = s.hdr.len) :
    bytesAre (s.payloadUnmasked ts q D got bs) D 0 (unmasked s.hdr (s.memRead D 0 got ++ bs)) :=
  bytesAre_of_memRead (memRead_payloadUnmasked hstart)

theorem payloadUnmasked_kept :
    bytesKeptOutside s (s.payloadUnmasked ts q D got bs) D 0 (got + bs.length) := by
  intro B x hx
  rw [State.payloadUnmasked, rxmaskApply_frame _ D 0 _ B x fun ⟨hB, _, hlt⟩ => hx ⟨hB, Nat.zero_le x, by omega⟩,
    payloadStored_kept B x fun ⟨hB, _, hlt⟩ => hx ⟨hB, Nat.zero_le x, hlt⟩]

/-- R110: a read of control handling stores its bytes and goes on to the handling once the payload is complete. -/
theorem step_ctrlReads (h : ctrlReads s ts op k got bs q) (hD : controlSlice op = some D)
    (hk : controlCount op s.hdr.len.toNat = k) :
    step s = .next (if k ≤ got + bs.length then (s.payloadStored ts q D got bs).controlHandled D k
      else { s.payloadStored ts q D got bs with rxJob := .ctrl (got + bs.length) }) := by
  obtain ⟨hturns, hjob, -, rfl, -, -, h125, -, hne, hq, hgot, hz, -⟩ := h
  have hsize : 125 ≤ s.sizes.of D := size_in hz hD
  have hcount := (count_le (op := s.hdr.opcode) h125).2
  rw [step_rx hturns, rxStep_ctrl (s := { s with turns := ts }) hjob,
    controlStep_bytes (s := { s with turns := ts }) hD hne hq (by simp only [hk]; omega) (by simp only; omega)]
  simp only [hk]
  rfl

end Payload

/-- Settles O33: the payload is not complete. -/
theorem controlPayloadIsStored : Obligations.ControlPayloadIsStored := by
  intro s ts op D got bs q hop k h hlt
  have hD : controlSlice op = some D := by
    simp only [List.mem_cons, Prod.mk.injEq, List.not_mem_nil, or_false] at hop
    obtain ⟨rfl, rfl⟩ | ⟨rfl, rfl⟩ | ⟨rfl, rfl⟩ := hop <;> rfl
  refine ⟨{ s.payloadStored ts q D got bs with rxJob := .ctrl (got + bs.length) }, ?_, rfl, rfl, rfl,
    memWrite_are _ D got bs, payloadStored_kept, rfl⟩
  rw [step_ctrlReads h hD rfl, if_neg (by omega)]

/-! ### The last payload byte (R111 to R113) -/

section Complete
variable {s : State} {ts : List Turn} {op : BitVec 4} {D : Region} {k got : Nat} {bs : List Byte} {q : List RxAnswer}

/-- The read that completes the payload goes on to control handling. -/
theorem step_payloadComplete (h : ctrlReads s ts op k got bs q) (hD : controlSlice op = some D)
    (hk : controlCount op s.hdr.len.toNat = k) (hdone : got + bs.length = k) :
    step s = .next ((s.payloadStored ts q D got bs).controlHandled D (got + bs.length)) := by
  rw [step_ctrlReads h hD hk, if_pos (by omega), hdone]

/-- The payload of a control frame fits its slice. -/
theorem payload_fits (h : ctrlReads s ts op k got bs q) (hD : controlSlice op = some D) (hk : k ≤ 125)
    (hdone : got + bs.length = k) : got + bs.length ≤ s.sizes.of D := by
  obtain ⟨-, -, -, -, -, -, -, -, -, -, -, hz, -⟩ := h
  have := size_in hz hD
  omega

/-- PING and PONG take the whole payload (R110). -/
theorem controlCount_whole {len : Nat} (hop : op ≠ 0x8#4) (h : len ≤ 125) : controlCount op len = len := by
  rw [controlCount, if_neg hop]
  exact Nat.min_eq_left h

end Complete

/-- Settles O34: the close code is read from the unmasked payload. -/
theorem closePayloadGivesTheCode : Obligations.ClosePayloadGivesTheCode := by
  intro s ts got bs q k h hdone p c
  have hlen : p.length = k := by simp [p, hdone]
  have hstep := step_payloadComplete (D := .inClose) h rfl rfl hdone
  have hfits := payload_fits (D := .inClose) h rfl (by omega) hdone
  obtain ⟨-, -, hv, hop, hstart, -⟩ := h
  rw [controlHandled_close (s := s.payloadStored ts q .inClose got bs) hv
    (by show _ ≤ s.hdr.rem.toNat; rw [hstart]; omega) hop hfits] at hstep
  have hcode : (if got + bs.length < 2 then normalClose
      else closeCode ((s.payloadUnmasked ts q .inClose got bs).memRead .inClose 0 2)) = c := by
    rw [hdone]
    refine ite_congr rfl (fun _ => rfl) fun hk => ?_
    have h2 : got + bs.length = 2 := by omega
    rw [← closeCode_eq p (by omega), ← h2, memRead_payloadUnmasked hstart]
  rw [State.payloadUnmasked] at hcode
  rw [hcode] at hstep
  exact ⟨_, hstep, rfl, rfl, rfl, by simp [State.closeReceived, State.payloadStored], rfl, rfl, rfl,
    payloadUnmasked_are hstart, hdone ▸ payloadUnmasked_kept, rfl⟩

/-- Settles O35: the payload reported is the unmasked one. -/
theorem pongPayloadIsReported : Obligations.PongPayloadIsReported := by
  intro s ts got bs q k h hdone p
  obtain ⟨-, -, hv, hop, hstart, -, h125, -⟩ := id h
  have hstep := step_payloadComplete (D := .inPong) h rfl (controlCount_whole (by decide) h125) hdone
  have hfits := payload_fits (D := .inPong) h rfl h125 hdone
  rw [controlHandled_pong (s := s.payloadStored ts q .inPong got bs) hv
    (by show _ ≤ s.hdr.rem.toNat; rw [hstart]; exact hdone.le) hop hfits] at hstep
  refine ⟨_, hstep, rfl, rfl, rfl, ?_, rfl, rfl, payloadUnmasked_are hstart, hdone ▸ payloadUnmasked_kept, rfl⟩
  show (s.events ++ [.pongRx ((s.payloadUnmasked ts q .inPong got bs).memRead .inPong 0 (got + bs.length))]) ++
    [.activity] = _
  rw [memRead_payloadUnmasked hstart, List.append_assoc]
  rfl

/-- R113: the last payload byte of a PING goes on to the echo of the unmasked payload. -/
theorem step_pingComplete {s : State} {ts : List Turn} {got : Nat} {bs : List Byte} {q : List RxAnswer}
    (h : ctrlReads s ts 0x9 s.hdr.len.toNat got bs q) (hdone : got + bs.length = s.hdr.len.toNat) :
    step s = .next ((s.payloadUnmasked ts q .inPing got bs).pongEcho (got + bs.length)) := by
  obtain ⟨-, -, hv, hop, hstart, -, h125, -⟩ := id h
  have hfits := payload_fits (D := .inPing) h rfl h125 hdone
  rw [step_payloadComplete (D := .inPing) h rfl (controlCount_whole (by decide) h125) hdone,
    controlHandled_ping (s := s.payloadStored ts q .inPing got bs) hv
      (by show _ ≤ s.hdr.rem.toNat; rw [hstart]; exact hdone.le) hop hfits]
  rfl

/-- Settles O36: the echo is built from the unmasked payload. -/
theorem pingPayloadIsEchoed : Obligations.PingPayloadIsEchoed := by
  intro s ts got bs q k h hdone p
  have hstep := step_pingComplete h hdone
  have hfits := payload_fits (D := .inPing) h rfl h.2.2.2.2.2.2.1 hdone
  obtain ⟨-, -, -, -, hstart, -, h125, -, -, -, -, -, hout⟩ := h
  refine ⟨fun hsends => ?echo, fun hsends => ?noPong⟩
  case echo =>
    obtain ⟨hready, hbytes, hframe⟩ := pongEcho_spec (s := s.payloadUnmasked ts q .inPing got bs)
      (k := got + bs.length) (hdone.trans_le h125) hout hfits hsends
    rw [memRead_payloadUnmasked hstart] at hready
    have hkept := payloadUnmasked_kept (s := s) (ts := ts) (D := .inPing) (got := got) (bs := bs) (q := q)
    refine ⟨_, hstep, pongReady_congr (s' := s.payloadUnmasked ts q .inPing got bs) rfl
      (fun x => hkept _ x (by simp)) hready, ?are, ?kept, ?hdr, congrArg State.rxIn hframe,
      congrArg State.turns hframe, ?frame⟩
    case are =>
      intro i hi
      rw [hbytes _ _ (by decide)]
      exact payloadUnmasked_are hstart i hi
    case kept =>
      intro B x hB hx
      exact (hbytes B x hB).trans (hkept B x fun ⟨hB', _, hlt⟩ => hx ⟨hB', by omega⟩)
    case hdr =>
      refine (congrArg State.hdr hframe).trans ?_
      show { s.hdr with rem := BitVec.ofNat 64 (s.hdr.rem.toNat - (got + bs.length)) } = _
      rw [hstart, hdone, Nat.sub_self]
      rfl
    case frame =>
      exact congrArg (fun u : State => { u with hdr := s.hdr, rxIn := s.rxIn, turns := s.turns, mem := s.mem,
                                                rxJob := s.rxJob, keyDraws := s.keyDraws, keyCtr := s.keyCtr }) hframe
  case noPong =>
    rw [pongEcho_of_sendOwns (s := s.payloadUnmasked ts q .inPing got bs) hsends] at hstep
    exact ⟨_, hstep, payloadUnmasked_are hstart, hdone ▸ payloadUnmasked_kept, rfl, rfl, rfl,
      by simp [State.pingHandled, State.nextHeader, State.payloadUnmasked, State.payloadStored], rfl, rfl, rfl⟩

/-! ### The SENDFRAME of a pong (R113, R135) -/

/-- R119, R151: the end of a pong's SENDFRAME only frees the permit. -/
theorem sendEnds_pong {s : State} {j : SendJob} (hlock : j.opts.nolock = false) (hrx : j.issuer = .rx)
    (hregion : j.addr.region = .outPong) (hp : s.permit = .rx) : s.sendEnds j = { s with permit := .free } := by
  rw [sendEnds_eq, sendEnds_permit, sendEnds_sendPrepared, hlock, hrx, hregion, if_neg Bool.false_ne_true,
    if_pos (by exact hp)]
  simp

/-- Settles O37: a SENDFRAME with NOERRORS ends without an event, whatever the transport answered. -/
theorem pongSendEndsAndAwaitGoesOn : Obligations.PongSendEndsAndAwaitGoesOn := by
  intro s ts j hturns hjob hrx hregion hopts hp hend
  have hends : ({ s with turns := ts } : State).sendEnds j = { s with turns := ts, permit := .free } :=
    sendEnds_pong (s := { s with turns := ts }) (by rw [hopts]) hrx hregion hp
  have hdone : ∃ r, ({ s with turns := ts } : State).sendStep j = .done r { s with turns := ts, permit := .free } := by
    rw [← hends]
    unfold State.sendStep
    obtain ⟨r, hr⟩ | ⟨hcheck, hclosed⟩ := hend
    · rw [hr]
      cases r <;> exact ⟨_, by simp [State.sendFinish, hopts]; rfl⟩
    · rw [hcheck]
      exact ⟨.ok (.bool false), by simp [State.sendCheck, hopts, hclosed]⟩
  obtain ⟨r, hr⟩ := hdone
  rw [step_rx hturns, rxStep_pong (s := { s with turns := ts }) hjob]
  unfold State.pongStep
  rw [hr]
  simp [State.pingHandled, State.nextHeader]

section PongTurn
variable {s : State} {ts : List Turn} {j : SendJob} (hturns : s.turns = .rx :: ts) (hjob : s.rxJob = .pong j)
include hturns hjob

/-- A step of a pong's SENDFRAME. -/
theorem step_pong : step s = .next (State.pongStep { s with turns := ts } j) := by
  rw [step_rx hturns, rxStep_pong (s := { s with turns := ts }) hjob]

theorem step_pongAcquires (hstage : j.stage = .acquire) (hrx : j.issuer = .rx) (hfree : s.permit = .free) :
    step s = .next { s with turns := ts, permit := .rx, rxJob := .pong { j with stage := .check } } := by
  rw [step_pong hturns hjob, pongStep_acquire (s := { s with turns := ts }) hstage hfree, hrx]
  rfl

theorem step_pongPasses (hstage : j.stage = .check) (hcan : s.canSend = true) :
    step s = .next { s with turns := ts, rxJob := .pong { j with stage := .write } } := by
  rw [step_pong hturns hjob, pongStep_check (s := { s with turns := ts }) hstage hcan]

theorem step_pongWrites {r : TxAnswer} {q : List TxAnswer} (hstage : j.stage = .write) (htx : s.txIn = r :: q) :
    step s = .next { s with turns := ts, txIn := q, rxJob := .pong { j with stage := .finish r }
                            txOut := s.txOut ++ r.sentOf (s.memRead j.addr.region j.addr.off j.n) } := by
  rw [step_pong hturns hjob, pongStep_write (s := { s with turns := ts }) hstage htx]
  rfl

end PongTurn

/-- A run whose first step is known. -/
theorem steps_of_step {n : Nat} {s t : State} {r : Host.Outcome State Fault Refusal} (h : step s = .next t)
    (hrest : steps n t = r) : steps (n + 1) s = r :=
  (steps_succ n s t h).trans hrest

/-- R113, R122: four turns of RX send a pong that waits for the free permit, and AWAIT reads on. -/
theorem steps_pongSent {s : State} {ts : List Turn} {j : SendJob} {r : List TxAnswer}
    (hturns : s.turns = .rx :: .rx :: .rx :: .rx :: ts) (hjob : s.rxJob = .pong j) (hstage : j.stage = .acquire)
    (hrx : j.issuer = .rx) (hregion : j.addr.region = .outPong)
    (hopts : j.opts = { nolock := false, noerrors := true, ignoreclose := false }) (hfree : s.permit = .free)
    (hcan : s.canSend = true) (htx : s.txIn = .ok :: r) :
    steps 4 s = .next { s with turns := ts, permit := .free, events := s.events ++ [.pingRx, .activity]
                               txIn := r, txOut := s.txOut ++ s.memRead j.addr.region j.addr.off j.n
                               hdr := { s.hdr with valid := false }
                               rxs := { s.rxs with phase := .hdr2, hcnt := 0, hneed := 2 }
                               rxJob := .header } := by
  refine steps_of_step (step_pongAcquires hturns hjob hstage hrx hfree) ?_
  refine steps_of_step (step_pongPasses (j := { j with stage := .check }) rfl rfl rfl hcan) ?_
  refine steps_of_step (step_pongWrites (j := { j with stage := .write }) rfl rfl rfl htx) ?_
  exact steps_of_step (pongSendEndsAndAwaitGoesOn _ ts { j with stage := .finish .ok } rfl rfl hrx hregion hopts rfl
    (.inl ⟨.ok, rfl⟩)) rfl

/-- Settles O38: the pong of O36 is sent. -/
theorem pingIsAnsweredOnTheWire : Obligations.PingIsAnsweredOnTheWire := by
  intro s ts got bs q r h hdone hsends hfree hcan htx
  obtain ⟨t, hstep, hready, -, -, hhdr, hrxIn, hturns, hframe⟩ := (pingPayloadIsEchoed s _ got bs q h hdone).1 hsends
  obtain ⟨key, hkey, -, hare, -, hjob⟩ := hready
  have hsent := steps_pongSent hturns hjob rfl rfl rfl rfl ((congrArg State.permit hframe).trans hfree)
    ((congrArg State.canSend hframe).trans hcan) ((congrArg State.txIn hframe).trans htx)
  have hread := bytesAre_read hare
  rw [wireFrame_length] at hread
  rw [hread] at hsent
  have htxOut : t.txOut = s.txOut := (congrArg State.txOut hframe :)
  have hrxs : t.rxs = s.rxs := (congrArg State.rxs hframe :)
  have hevents : t.events = s.events := (congrArg State.events hframe :)
  exact ⟨_, key, (steps_succ 4 s t hstep).trans hsent, hkey, congrArg (· ++ _) htxOut, rfl, rfl, by rw [← hrxs], rfl,
    congrArg (· ++ _) hevents, (congrArg State.results hframe :), rfl, hrxIn, rfl, (congrArg State.pending hframe :),
    (congrArg State.cfg hframe :)⟩

/-! ### The read of RECV (R114) -/

/-- R114: with a current header that has as many bytes left, the bytes of a read are stored and unmasked. -/
theorem recvBytes_ok {s : State} {a : Addr} {bs : List Byte} (hv : s.hdr.valid = true)
    (hrem : bs.length ≤ s.hdr.rem.toNat) (hz : a.off + bs.length ≤ s.size a.region) :
    s.recvBytes a bs = State.complete { (s.memWrite a.region a.off bs).rxmaskApply a.region a.off bs.length with
      rxs := { s.rxs with busy := false }, rxJob := .none } .rx 0x09 (.ok (.nat bs.length)) := by
  unfold State.recvBytes
  rw [rxmaskFault_eq_none hv hrem hz]
  rfl

/-- Settles O40: the bytes taken are stored, then unmasked where they stand. -/
theorem recvDeliversUnmasked : Obligations.RecvDeliversUnmasked := by
  intro s ts a len bs q hturns hjob hv hrem hz hlen hne hq got
  have hgot : got.length ≤ len := List.length_take_le _ _
  set rest := if bs.length ≤ len then q else .bytes (bs.drop len) :: q
  have hstep : step s = .next (State.recvBytes { s with turns := ts, rxIn := rest } a got) := by
    rw [step_rx hturns, rxStep_recv (s := { s with turns := ts }) hjob]
    unfold State.recvStep
    rw [hq, rxTake_bytes_cons hne]
  rw [recvBytes_ok (s := { s with turns := ts, rxIn := rest }) hv (hgot.trans hrem)
    (le_trans (Nat.add_le_add_left hgot _) hz)] at hstep
  refine ⟨_, hstep, fun i hi => ?_, fun B x hx => ?_, ?_, rfl, rfl, rfl, rfl, rfl, rfl, rfl⟩
  · refine (readByte_rxmaskApply_inside (State.memWrite { s with turns := ts, rxIn := rest } a.region a.off got)
      a.region a.off hi).trans ?_
    rw [memWrite_are _ a.region a.off got i hi]
    rfl
  · exact (rxmaskApply_frame (State.memWrite { s with turns := ts, rxIn := rest } a.region a.off got) _ _ _ B x hx).trans
      (memWrite_kept { s with turns := ts, rxIn := rest } _ _ _ B x hx)
  · exact rxmaskApply_rem (State.memWrite { s with turns := ts, rxIn := rest } a.region a.off got) a.region a.off _

end Sys2Proof.Machine
end

section
/-! Proofs of the family 'other': RECV's issue step, the permit, SENDFRAME and the races (42_dispatch.md sections 3 and 5,
20_memory.md section 4). -/
namespace Sys2Proof.Machine

open Sys2Proof

/-! ### The issue step of RECV (R114) -/

/-- Settles O39: the checks of R114 one by one. -/
theorem recvIsIssued : Obligations.RecvIsIssued := by
  intro a len s fails
  refine ite_intro (recv_faultsWith_busy · a len) fun hbusy => ?_
  have hexec : exec (.recv a len) s = _ := if_neg hbusy
  refine ite_intro (fun hphase => hexec.trans (if_pos hphase)) fun hphase => ?_
  replace hexec := hexec.trans (if_neg hphase)
  refine ite_intro (fun hrace => hexec.trans (if_pos (by simpa using hrace))) fun hrace => ?_
  replace hexec := hexec.trans (if_neg (by simpa using hrace))
  refine ite_intro (fun hnone => hexec.trans (if_pos hnone)) fun hnone => ?_
  replace hexec := hexec.trans (if_neg hnone)
  refine ite_intro (fun hover => hexec.trans (if_pos hover)) fun hover => ?_
  replace hexec := hexec.trans (if_neg hover)
  refine ite_intro (fun hout => hexec.trans (if_pos (decide_eq_true hout))) fun hout => ?_
  replace hexec := hexec.trans (if_neg (by simpa [State.outside] using hout))
  exact ite_intro (fun h0 => hexec.trans (if_pos h0)) fun h0 => hexec.trans (if_neg h0)

/-! ### The permit (R119, R120) -/

/-- Settles O48: the checks of R120 one by one. -/
theorem acquireTakesThePermit : Obligations.AcquireTakesThePermit := by
  intro t s
  refine ite_intro (fun hhost => if_pos hhost) fun hhost => ?_
  have hexec : exec (.acquire t) s = _ := if_neg hhost
  refine ite_intro (fun hfree => hexec.trans (if_pos hfree)) fun hfree => ?_
  replace hexec := hexec.trans (if_neg hfree)
  exact ite_intro (fun hzero => hexec.trans (if_pos hzero)) fun hzero => hexec.trans (if_neg hzero)

section GiveUp
variable {s : State} {k : Nat} {p : Pending} (hk : s.pending[k]? = some p)
include hk

/-- R119: a wait without end is not given up. -/
theorem giveUpStep_kept (h : p.mayGiveUp = false) : s.giveUpStep k = s := by
  unfold State.giveUpStep
  rw [hk]
  exact if_neg (by simp [h])

end GiveUp

theorem giveUpStep_acquire {s : State} {k : Nat} {t : Timeout} (hk : s.pending[k]? = some (.acquire t))
    (hheld : s.permit ≠ .free) (h : (Pending.acquire t).mayGiveUp = true) :
    s.giveUpStep k = ended { s with pending := s.pending.eraseIdx k } .host 0x0F (.ok (.bool false)) := by
  unfold State.giveUpStep
  rw [hk]
  exact if_pos ⟨hheld, h⟩

theorem giveUpStep_send {s : State} {k : Nat} {j : SendJob} (hk : s.pending[k]? = some (.send j))
    (hheld : s.permit ≠ .free) (h : (Pending.send j).mayGiveUp = true) :
    s.giveUpStep k =
      ended { s.unmarkPrepared j.addr.region with pending := s.pending.eraseIdx k } j.issuer 0x0B (.ok (.bool false)) := by
  unfold State.giveUpStep
  rw [hk]
  exact if_pos ⟨hheld, h⟩

theorem pendingStep_acquires {s : State} {k : Nat} {t : Timeout} (hk : s.pending[k]? = some (.acquire t))
    (hfree : s.permit = .free) :
    s.pendingStep k = ended { s with permit := .host, pending := s.pending.eraseIdx k } .host 0x0F (.ok (.bool true)) := by
  unfold State.pendingStep
  rw [hk]
  exact if_pos hfree

/-- Settles O49: the turns of a wait for the permit. -/
theorem waitForThePermit : Obligations.WaitForThePermit := by
  intro s ts k
  refine ⟨fun t hts hk hfree => ?takes, fun t hts hk hheld => ⟨?_, ?_⟩, fun j hts hk hstage hheld => ⟨?_, ?_⟩⟩
  case takes => rw [step_pending hts, pendingStep_acquires (s := { s with turns := ts }) hk hfree]; rfl
  · rintro d rfl
    rw [step_giveUp hts, giveUpStep_acquire (s := { s with turns := ts }) hk hheld rfl]
    rfl
  · rintro rfl
    rw [step_giveUp hts, giveUpStep_kept (s := { s with turns := ts }) hk rfl]
  · intro d hd
    rw [step_giveUp hts, giveUpStep_send (s := { s with turns := ts }) hk hheld (by simp [Pending.mayGiveUp, hstage, hd])]
    rfl
  · intro hinf
    rw [step_giveUp hts, giveUpStep_kept (s := { s with turns := ts }) hk (by simp [Pending.mayGiveUp, hinf])]

/-! ### SENDFRAME (R122) -/

/-- Settles O45: the checks of step 1 one by one. -/
theorem sendframeIsIssued : Obligations.SendframeIsIssued := by
  intro a n t o s hrace X job goes
  have hX : X = permitOf s.issuer := (permitOf_eq s.issuer).symm
  refine ite_intro (fun hout => if_pos (decide_eq_true hout)) fun hout => ?_
  have hexec : exec (.sendframe a n t o) s = _ := if_neg (by simpa [State.outside] using hout)
  replace hexec := hexec.trans (if_neg fun ⟨hn, hr⟩ => by simp [hrace hn] at hr)
  refine ite_intro (fun hnolock => ?_) fun hlock => ?_
  · replace hexec := hexec.trans (if_pos hnolock)
    exact ite_intro (fun hp => hexec.trans (if_pos (hp.trans hX)))
      fun hp => hexec.trans (if_neg fun h => hp (h.trans hX.symm))
  · replace hexec := hexec.trans (if_neg hlock)
    refine ite_intro (fun hfree => hX ▸ hexec.trans (if_pos hfree)) fun hfree => ?_
    replace hexec := hexec.trans (if_neg hfree)
    exact ite_intro (fun hzero => hexec.trans (if_pos hzero)) fun hzero => hexec.trans (if_neg hzero)

section SendStep
variable {s : State} {j : SendJob}

theorem sendStep_acquires (hstage : j.stage = .acquire) (hfree : s.permit = .free) :
    s.sendStep j = .more { j with stage := .check } { s with permit := permitOf j.issuer } := by
  unfold State.sendStep
  rw [hstage]
  exact if_pos hfree

theorem sendStep_passes (hstage : j.stage = .check) (h : j.opts.ignoreclose = true ∨ s.canSend = true) :
    s.sendStep j = .more { j with stage := .write } s := by
  unfold State.sendStep
  rw [hstage]
  exact if_pos (Bool.or_eq_true_iff.2 h)

theorem sendStep_closed (hstage : j.stage = .check) (hignore : j.opts.ignoreclose = false) (h : s.canSend = false) :
    s.sendStep j = .done (if j.opts.noerrors then .ok (.bool false) else .fault .closedTx) (s.sendEnds j) := by
  unfold State.sendStep
  rw [hstage]
  refine (if_neg (by simp [hignore, h])).trans ?_
  split <;> rfl

theorem sendStep_writes {r : TxAnswer} {q : List TxAnswer} (hstage : j.stage = .write) (htx : s.txIn = r :: q) :
    s.sendStep j = .more { j with stage := .finish r }
      { s with txIn := q, txOut := s.txOut ++ r.sentOf (s.memRead j.addr.region j.addr.off j.n) } := by
  unfold State.sendStep
  rw [hstage]
  simp only [State.sendWrite, htx]

theorem sendStep_finishes {r : TxAnswer} (hstage : j.stage = .finish r) : s.sendStep j = s.sendFinish j r := by
  unfold State.sendStep
  rw [hstage]

/-- R122: the end of a SENDFRAME that holds the permit it needs. -/
theorem sendEnds_held (hheld : j.opts.nolock = false → s.permit = permitOf j.issuer) :
    s.sendEnds j = { s with permit := if j.opts.nolock then s.permit else .free
                            sendPrepared := s.sendPrepared && decide (j.addr.region ≠ .send) } := by
  rw [sendEnds_eq, sendEnds_permit, sendEnds_sendPrepared]
  cases hlock : j.opts.nolock with
  | true => rfl
  | false => rw [if_pos (hheld hlock)]

end SendStep

section PendingStep
variable {s s' : State} {k : Nat} {j : SendJob} (hk : s.pending[k]? = some (.send j))
include hk

theorem pendingStep_more {j' : SendJob} (h : s.sendStep j = .more j' s') :
    s.pendingStep k = { s' with pending := s'.pending.set k (.send j') } := by
  unfold State.pendingStep
  rw [hk]
  simp only [h]

theorem pendingStep_done {r : Result} (h : s.sendStep j = .done r s') :
    s.pendingStep k = ended { s' with pending := s'.pending.eraseIdx k } j.issuer 0x0B r := by
  unfold State.pendingStep
  rw [hk]
  simp only [h]
  rfl

end PendingStep

/-- Settles O46: each later step of R122. -/
theorem sendframeStepsFollow : Obligations.SendframeStepsFollow := by
  intro s ts k j hts hk X s1 frame goes ends
  have hX : permitOf j.issuer = X := permitOf_eq j.issuer
  have more {j' : SendJob} {u : State} (h : s1.sendStep j = .more j' u) :
      step s = .next { u with pending := u.pending.set k (.send j') } := by
    rw [step_pending hts, pendingStep_more (s := s1) hk h]
  have done {r : Result} {u : State} (h : s1.sendStep j = .done r u) :
      step s = .next (ended { u with pending := u.pending.eraseIdx k } j.issuer 0x0B r) := by
    rw [step_pending hts, pendingStep_done (s := s1) hk h]
  refine ⟨fun hstage hfree => hX ▸ more (sendStep_acquires (s := s1) hstage hfree), fun hheld => ?_⟩
  have hends := sendEnds_held (s := s1) (j := j) fun hlock => (hheld hlock).trans hX.symm
  have endsBy {r : Result} {ev : List Event} {u : State} (h : s1.sendStep j = .done r u)
      (hu : u = { s1.sendEnds j with events := s.events ++ ev }) : ends r ev := by
    rw [hends] at hu
    subst hu
    exact done h
  refine ⟨fun hstage hpass => more (sendStep_passes (s := s1) hstage hpass), fun hstage hignore hclosed => ?closed,
    fun r q hstage htx => ?writes, fun hstage => ?ok, fun m hstage => ?ioerror, fun m hstage => ?cancelled⟩
  case closed => exact endsBy (sendStep_closed (s := s1) hstage hignore hclosed) (by rw [hends]; simp [s1])
  case writes =>
    obtain ⟨m, hm, hok, htake⟩ := sentOf_take r frame
    refine ⟨m, hm, hok, ?_⟩
    rw [← htake]
    exact more (sendStep_writes (s := s1) hstage htx)
  case ok => exact endsBy (sendStep_finishes (s := s1) hstage) (by rw [hends]; simp [s1])
  all_goals
    have hfinish := sendStep_finishes (s := s1) hstage
    refine ite_intro (fun hno => ?_) fun hyes => ?_
  case ioerror.refine_1 | cancelled.refine_1 =>
    exact endsBy (hfinish.trans (if_pos hno)) (by rw [hends]; simp [s1])
  case ioerror.refine_2 | cancelled.refine_2 =>
    exact endsBy (hfinish.trans (if_neg hyes)) (by rw [hends]; rfl)

/-! ### Races (R39, R47, R62, R151) -/

section Race
variable {s : State} {A : Region} {g : Agent}

/-- R47: an agent other than the host races on a region that another agent owns. -/
theorem readRace_of_owner {o : Agent} (howner : s.owner A = some o) (hg : g ≠ .host) (ho : g ≠ o) :
    s.readRace g A = true := by
  simp [State.readRace, State.foreign, howner, hg, ho]

theorem readRace_of_rxOwns (h : s.rxOwns A = true) : s.readRace g A = true := Bool.or_eq_true_iff.2 (.inl h)

theorem writeRace_of_readRace (h : s.readRace g A = true) : s.writeRace g A = true := by simp [State.writeRace, h]

theorem writeRace_of_sendOwns (h : s.sendOwns A = true) : s.writeRace g A = true := by simp [State.writeRace, h]

theorem writeRace_of_reserved (h : s.reserved A = true) : s.writeRace g A = true := by simp [State.writeRace, h]

/-- R47: RX's own regions are in the hands of any receive command in progress. -/
theorem rxOwns_of_rxRegion (hjob : s.rxJob ≠ .none) (h : rxRegion A = true) : s.rxOwns A = true := by
  unfold State.rxOwns
  cases hj : s.rxJob with
  | none => exact absurd hj hjob
  | header | ctrl => exact h
  | recv | pong => simp [h]

end Race

section RacingCommand
variable {a : Addr} {s : State}

theorem mask_faultsWith_race (hrace : s.writeRace s.issuer a.region = true) {n : Nat} (hn : n ≠ 0) (k : Key) (pos : Nat) :
    faultsWith (.mask a n k pos) s s.issuer 0x05 .stateBusy :=
  (if_neg hn).trans (if_pos hrace)

theorem closedec_faultsWith_race (hrace : s.readRace s.issuer a.region = true) {k : Nat} (hk : 2 ≤ k) :
    faultsWith (.closedec a k) s s.issuer 0x0D .stateBusy :=
  (if_neg (by omega)).trans (if_pos hrace)

/-- R62 stands behind the bounds, before the permit (notes/assumptions/25.md). -/
theorem sendframe_faultsWith_race (hrace : s.readRace (txAgent s.issuer) a.region = true) {n : Nat} (hn : n ≠ 0)
    (hfits : a.off + n ≤ s.size a.region) (t : Timeout) (o : Opts) :
    faultsWith (.sendframe a n t o) s s.issuer 0x0B .stateBusy :=
  (if_neg (by simpa [State.outside] using hfits)).trans (if_pos ⟨hn, hrace⟩)

theorem parse_faultsWith_race (hrace : s.readRace .rx a.region = true) {n : Nat} (hn : 2 ≤ n) :
    faultsWith (.parse a n) s .rx 0x02 .stateBusy :=
  if_pos (by simp [hn, hrace])

theorem rxmask_faultsWith_race (hrace : s.writeRace .rx a.region = true) {n : Nat} (hv : s.hdr.valid = true)
    (hm : s.hdr.masked = true) (hn : n ≠ 0) : faultsWith (.rxmask a n) s .rx 0x06 .stateBusy := by
  by_cases hbusy : s.rxs.busy = true
  · exact rxmask_faultsWith_busy hbusy a n
  · exact (if_neg hbusy).trans (if_pos (by simp [hv, hm, hn, hrace]))

/-- R62 stands behind the sticky fault (notes/assumptions/25.md). -/
theorem recv_faultsWith_race (hrace : s.writeRace .rx a.region = true) {len : Nat} (hlen : len ≠ 0)
    (hphase : s.rxs.phase ≠ .faulted) : faultsWith (.recv a len) s .rx 0x09 .stateBusy := by
  by_cases hbusy : s.rxs.busy = true
  · exact recv_faultsWith_busy hbusy a len
  · exact (if_neg hbusy).trans ((if_neg hphase).trans (if_pos (by simp [hlen, hrace])))

theorem hostWrites_race (hrace : s.writeRace .host a.region = true) {bs : List Byte} (hbs : bs ≠ []) :
    s.hostWrites a bs = s.hostResult (.fault .stateBusy) := by
  have hfault : s.hostWriteFault a bs.length = some .stateBusy := if_pos ⟨by simpa using hbs, hrace⟩
  unfold State.hostWrites
  rw [hfault]

end RacingCommand

/-- Settles O54: who races, then each command's check. -/
theorem raceFaultsAndWritesNothing : Obligations.RaceFaultsAndWritesNothing := by
  intro a s
  refine ⟨fun hA => ?tx, fun hA => ?rx, fun g hjob hA => readRace_of_rxOwns (rxOwns_of_rxRegion hjob ?own),
    fun g b len hjob => readRace_of_rxOwns ?dst, fun g j hjob => readRace_of_rxOwns ?echo,
    fun g j hj hn => writeRace_of_sendOwns (sendOwns_eq_true.2 ⟨j, hj, rfl, hn⟩),
    fun g => writeRace_of_reserved rfl, fun g hp => writeRace_of_reserved ?prepared, fun g => writeRace_of_readRace,
    fun hrace => ⟨fun n k pos hn => mask_faultsWith_race hrace hn k pos, fun c => if_pos hrace⟩,
    fun hrace => ⟨fun h => if_pos hrace, fun len fin sent op ext => if_pos hrace⟩,
    fun hrace k hk => closedec_faultsWith_race hrace hk,
    fun hrace n t o hn hfits => sendframe_faultsWith_race hrace hn hfits t o,
    fun hrace n hn => parse_faultsWith_race hrace hn,
    fun hrace => ⟨fun n hv hm hn => rxmask_faultsWith_race hrace hv hm hn,
      fun len hlen hphase => recv_faultsWith_race hrace hlen hphase⟩,
    fun hrace ts bs hbs hts hwork => ?hostWrite⟩
  case tx =>
    simp only [List.mem_cons, List.not_mem_nil, or_false] at hA
    exact readRace_of_owner (o := .rx) (by obtain h | h | h | h := hA <;> rw [h] <;> rfl) (by decide) (by decide)
  case rx =>
    simp only [List.mem_cons, List.not_mem_nil, or_false] at hA
    exact readRace_of_owner (o := .tx) (by obtain h | h | h := hA <;> rw [h] <;> rfl) (by decide) (by decide)
  case own =>
    simp only [List.mem_cons, List.not_mem_nil, or_false] at hA
    obtain h | h | h | h := hA <;> rw [h] <;> rfl
  case dst => simp [State.rxOwns, hjob]
  case echo => simp [State.rxOwns, hjob]
  case prepared => simp [State.reserved, hp]
  case hostWrite =>
    rw [step_turn hts (decide_eq_false hwork)]
    exact congrArg _ (hostWrites_race (s := { s with turns := ts }) hrace hbs)

end Sys2Proof.Machine
end

section
/-! Proofs of the family 'other': PREPARE and the runs that put a frame on the wire (42_dispatch.md sections 5 and 7). -/
namespace Sys2Proof.Machine

open Sys2Proof

/-! ### PREPARE (R118) -/

theorem opClass_data (op : BitVec 4) : opClass op = .data ↔ op.toNat ∈ [0x0, 0x1, 0x2] := by
  revert op; decide

section Prepare
variable {s : State} {a : Addr} {len : Nat} {fin sent : Bool} {op : BitVec 4} {ext : BitVec 3}

/-- R130: a fault of PREPARE's checks is its result, and nothing is written. -/
theorem prepare_faultsWith {c : Cause} (hrace : s.writeRace (txAgent s.issuer) a.region = false)
    (hf : s.prepareFault a len fin sent op ext = some c) :
    faultsWith (.prepare a len fin sent op ext) s s.issuer 0x0A c := by
  show execPrepare a len fin sent op ext s = _
  unfold execPrepare
  rw [hrace, if_neg Bool.false_ne_true, hf, ← State.raise_eq_ended]

theorem exec_prepare (hrace : s.writeRace (txAgent s.issuer) a.region = false)
    (hf : s.prepareFault a len fin sent op ext = none) :
    exec (.prepare a len fin sent op ext) s =
      .next (((s.prepareApply a len fin sent op ext).markPrepared a.region).complete s.issuer 0x0A
        (.ok (.frame (a.off - s.prepareHl len fin sent op ext) (s.prepareHl len fin sent op ext + len)))) := by
  show execPrepare a len fin sent op ext s = _
  unfold execPrepare
  rw [hrace, if_neg Bool.false_ne_true, hf]
  rfl

/-- R118: the header has the length of any with a key exactly for a client. -/
theorem prepareHl_eq {key : Option Key} (hkey : key.isSome = s.cfg.maskOut) :
    s.prepareHl len fin sent op ext = (wireHeader fin ext (if sent then 0x0#4 else op) len key).length := by
  unfold State.prepareHl
  rw [emitBytes_eq]
  refine wireHeader_length_isSome ?_
  rw [hkey]
  simp only [State.prepareHeader]
  cases s.cfg.maskOut <;> rfl

end Prepare

/-- Settles O44: the checks of R118 one by one, then the frame. -/
theorem prepareBuildsTheFrame : Obligations.PrepareBuildsTheFrame := by
  intro a len fin sent op ext s hrace opx hl fails
  have hhl : s.prepareHl len fin sent op ext = hl := prepareHl_eq (by cases s.cfg.maskOut <;> rfl)
  have fault {c : Cause} (hf : s.prepareFault a len fin sent op ext = some c) : fails c := prepare_faultsWith hrace hf
  refine ite_intro (fun hsent => fault (if_pos ?_)) fun hsent => ?_
  · simpa [opClass_data] using hsent
  have hfault : s.prepareFault a len fin sent op ext = _ := if_neg (by simpa [opClass_data] using hsent)
  refine ite_intro (fun hout => fault (hfault.trans (if_pos (decide_eq_true hout)))) fun hout => ?_
  replace hfault := hfault.trans (if_neg (by simpa [State.outside] using hout))
  have invalid (hinv : _) : fails .emitInvalid :=
    fault (hfault.trans (emitFault_of_emitInvalid a
      ((emitInvalid_iff s.cfg (s.prepareHeader len fin sent op ext)).2 hinv)))
  refine ite_intro (fun hop => invalid (.inl hop)) fun hop => ?_
  refine ite_intro (fun hext => invalid (.inr (.inl hext))) fun hext => ?_
  refine ite_intro (fun hctrl => invalid (.inr (.inr (.inl hctrl)))) fun hctrl => ?_
  refine ite_intro (fun hlen => invalid (.inr (.inr (.inr hlen)))) fun hlen => ?_
  have hvalid : emitInvalid s.cfg (s.prepareHeader len fin sent op ext) = false := by
    rw [← Bool.not_eq_true, emitInvalid_iff]
    exact not_or.2 ⟨hop, not_or.2 ⟨hext, not_or.2 ⟨hctrl, hlen⟩⟩⟩
  replace hfault := hfault.trans (emitFault_of_valid a hvalid)
  refine ite_intro (fun hoff => fault (hfault.trans (if_pos (.inl (hoff.trans_eq hhl.symm))))) fun hoff => ?_
  replace hfault := hfault.trans (if_neg (not_or.2 ⟨fun h => hoff (h.trans_eq hhl), by omega⟩))
  obtain ⟨hbytes, hkept, hkey, hne, -, hdraw, hnodraw, hframe⟩ := prepareApply_spec (s := s) (a := a) (len := len)
    (fin := fin) (sent := sent) (op := op) (ext := ext) (by omega)
  have hexec := exec_prepare hrace hfault
  rw [hhl] at hexec hbytes hkept
  refine ⟨_, _, hexec, hkey, hne, hdraw, hnodraw, hbytes, hkept, ?results, fun hA => ?marked,
    fun hA => ?unmarked, ?frame⟩
  case results =>
    exact congrArg (fun u : State => u.results ++ [⟨s.issuer, 0x0A, .ok (.frame (a.off - hl) (hl + len))⟩]) hframe
  case marked => exact Bool.or_eq_true_iff.2 (.inr (decide_eq_true hA))
  case unmarked =>
    refine (congrArg (_ || ·) (decide_eq_false hA)).trans ((Bool.or_false _).trans ?_)
    exact (congrArg State.sendPrepared hframe :)
  case frame => exact congrArg (fun u : State => { u with results := s.results, sendPrepared := s.sendPrepared }) hframe

/-! ### The turns of a run -/

/-- A record written for a well-formed command decodes to it. -/
theorem decode_commandRecord {i : Instr} (hi : isCommand i) (hw : i.wellFormed = true) :
    decode (.command (commandRecord i)) = .ok i := by
  obtain ⟨c, hc⟩ := hi
  have hrecord : commandRecord i = c := by
    unfold commandRecord
    rw [hc]
  rw [hrecord, ← hc]
  exact decodeOfEncode i hw

section HostTurn
variable {s : State} {ts : List Turn} {i : Instr}

/-- A command of the host runs when its agents have no command in progress. -/
theorem step_hostCommand (hturns : s.turns = hostCommand i :: ts) (hi : isCommand i) (hw : i.wellFormed = true)
    (hfree : ∀ g ∈ needs .host i, g ∉ s.atWork) : step s = exec i { s with turns := ts, issuer := .host } :=
  step_command hturns (decode_commandRecord hi hw) (commandWaits_of_free hfree)

/-- With no command in progress outside RX, the commands of the host and TX do not wait. -/
theorem free_of_pending {a : Agent} (hpending : s.pending = []) (hi : .rx ∉ needs a i) :
    ∀ g ∈ needs a i, g ∉ s.atWork :=
  fun _ hg => atWork_of_pending hpending fun h => hi (h ▸ hg)

end HostTurn

/-- R152: the host's own SENDFRAME holds the host. -/
theorem host_atWork {s : State} {k : Nat} {j : SendJob} (hk : s.pending[k]? = some (.send j)) (hhost : j.issuer = .host) :
    .host ∈ s.atWork := by
  refine List.mem_append.2 (.inl (List.mem_flatMap.2 ⟨_, List.mem_of_getElem? hk, ?_⟩))
  simp [Pending.agents, hhost]

/-- The turns ws wait while the host is at work, so a turn of a command in progress that stands behind them is taken. -/
def HeldBack (ws : List Turn) : Prop :=
  ∀ (u : State) (k : Nat) (ts : List Turn), u.turns = ws ++ .pending k :: ts → .host ∈ u.atWork →
    step u = .next (State.pendingStep { u with turns := ws ++ ts } k)

theorem heldBack_nil : HeldBack [] := fun _ _ _ hturns _ => step_pending hturns

/-- R60: `RELEASE` is the host's, and waits for its SENDFRAME. -/
theorem heldBack_release : HeldBack [hostCommand .release] := by
  intro u k ts hturns hwork
  refine step_behind hturns ?_ rfl (by simp [Turn.queue])
  rw [hostCommand, turnWaits_command (decode_commandRecord (i := .release) ⟨_, rfl⟩ rfl)]
  simp [State.commandWaits, State.faultsAtOnce, State.races, needs, readerCommand, runner, hwork]

section SendTurns
variable {s : State} {ws ts : List Turn} {k : Nat} {j : SendJob} {r : List TxAnswer} (hws : HeldBack ws)
  (hturns : s.turns = ws ++ .pending k :: ts) (hk : s.pending[k]? = some (.send j)) (hhost : j.issuer = .host)
include hws hturns hk hhost

theorem step_sendPasses (hstage : j.stage = .check) (hpass : j.opts.ignoreclose = true ∨ s.canSend = true) :
    step s = .next { s with turns := ws ++ ts, pending := s.pending.set k (.send { j with stage := .write }) } := by
  rw [hws s k ts hturns (host_atWork hk hhost),
    pendingStep_more (s := { s with turns := ws ++ ts }) hk (sendStep_passes hstage hpass)]

theorem step_sendWrites (hstage : j.stage = .write) (htx : s.txIn = .ok :: r) :
    step s = .next { s with turns := ws ++ ts, txIn := r
                            txOut := s.txOut ++ s.memRead j.addr.region j.addr.off j.n
                            pending := s.pending.set k (.send { j with stage := .finish .ok }) } := by
  rw [hws s k ts hturns (host_atWork hk hhost),
    pendingStep_more (s := { s with turns := ws ++ ts }) hk (sendStep_writes hstage htx)]
  rfl

theorem step_sendEnds (hstage : j.stage = .finish .ok) (hheld : s.permit = .host) :
    step s = .next { s with turns := ws ++ ts, permit := if j.opts.nolock then s.permit else .free
                            pending := s.pending.eraseIdx k
                            results := s.results ++ [⟨.host, 0x0B, .ok (.bool true)⟩]
                            sendPrepared := s.sendPrepared && decide (j.addr.region ≠ .send) } := by
  rw [hws s k ts hturns (host_atWork hk hhost),
    pendingStep_done (s := { s with turns := ws ++ ts }) hk (sendStep_finishes hstage),
    sendEnds_held (s := { s with turns := ws ++ ts }) fun _ => hheld.trans (by rw [hhost]; rfl), hhost]
  rfl

end SendTurns

/-- R122, steps 2 to 4: three turns of the host's SENDFRAME that holds the permit it needs, with an open transport. -/
theorem steps_sent {s : State} {ws ts : List Turn} {k : Nat} {j : SendJob} {r : List TxAnswer} (hws : HeldBack ws)
    (hturns : s.turns = ws ++ .pending k :: .pending k :: .pending k :: ts) (hk : s.pending[k]? = some (.send j))
    (hhost : j.issuer = .host) (hstage : j.stage = .check) (hpass : j.opts.ignoreclose = true ∨ s.canSend = true)
    (htx : s.txIn = .ok :: r) (hheld : s.permit = .host) :
    steps 3 s = .next { s with turns := ws ++ ts, permit := if j.opts.nolock then s.permit else .free
                               pending := s.pending.eraseIdx k, txIn := r
                               txOut := s.txOut ++ s.memRead j.addr.region j.addr.off j.n
                               results := s.results ++ [⟨.host, 0x0B, .ok (.bool true)⟩]
                               sendPrepared := s.sendPrepared && decide (j.addr.region ≠ .send) } := by
  have hlt : k < s.pending.length := (List.getElem?_eq_some_iff.1 hk).1
  have hset (p : Pending) : (s.pending.set k p)[k]? = some p := List.getElem?_set_self hlt
  refine steps_of_step (step_sendPasses hws hturns hk hhost hstage hpass) ?_
  refine steps_of_step (step_sendWrites (j := { j with stage := .write }) hws rfl (hset _) hhost rfl htx) ?_
  refine steps_of_step (step_sendEnds (j := { j with stage := .finish .ok }) hws rfl
    (List.getElem?_set_self (by simpa using hlt)) hhost rfl hheld) ?_
  simp only [List.eraseIdx_set_eq]
  rfl

/-- Settles O47: the issue step, then the three later steps of R122. -/
theorem sendframeReachesTheWire : Obligations.SendframeReachesTheWire := by
  intro s ts a n t o r k hturns hw hlock hhost htx hfits hrace hfree hcan htxIn
  have hissue := sendframeIsIssued a n t o
    { s with turns := .pending k :: .pending k :: .pending k :: ts, issuer := .host } hrace
  rw [if_neg (by simp only [State.size] at hfits ⊢; omega), if_neg (by simp [hlock]), if_pos hfree] at hissue
  have hneeds : ∀ g ∈ needs .host (.sendframe a n t o), g ∉ s.atWork := by
    simp [needs, readerCommand, runner, txAgent, hhost, htx]
  refine steps_of_step ((step_hostCommand hturns ⟨_, rfl⟩ hw hneeds).trans hissue) ?_
  have herase (p : Pending) : (s.pending ++ [p]).eraseIdx k = s.pending := by
    simp [k, List.eraseIdx_append_of_length_le]
  refine Eq.trans (steps_sent heldBack_nil rfl List.getElem?_concat_length rfl rfl (.inr hcan) htxIn rfl) ?_
  simp only [hlock, Bool.false_eq_true, if_false, herase, hfree]
  rfl

/-! ### A PREPARE with its SENDFRAME (R125 to R127) -/

/-- R118: the operands of a PREPARE pass its checks on state s, with the 16 bytes of R42 in front of the payload. -/
structure Prepares (s : State) (A : Region) (len : Nat) (fin sent : Bool) (op : BitVec 4) (ext : BitVec 3) : Prop where
  free   : s.writeRace .tx A = false
  data   : sent = true → op.toNat ∈ [0x0, 0x1, 0x2]
  fits   : 16 + len ≤ s.size A
  opcode : (if sent then 0x0#4 else op).toNat ∈ [0x0, 0x1, 0x2, 0x8, 0x9, 0xA]
  rsv    : ext &&& ~~~s.cfg.rsvAllowed = 0#3
  ctrl   : (if sent then 0x0#4 else op).toNat ∈ [0x8, 0x9, 0xA] → len ≤ 125 ∧ fin = true
  short  : len + 14 < 2 ^ 63

/-- What a PREPARE on the region A has changed. -/
structure Prepared (s u : State) (A : Region) (len : Nat) (fin : Bool) (op : BitVec 4) (ext : BitVec 3)
    (key : Option Key) : Prop where
  key_isSome : key.isSome = s.cfg.maskOut
  key_ne     : ∀ k, key = some k → k ≠ ⟨0, 0, 0, 0⟩
  frame      : u.memRead A (16 - (wireHeader fin ext op len key).length) ((wireHeader fin ext op len key).length + len) =
    wireFrame fin ext op key (s.memRead A 16 len)
  kept       : { u with mem := s.mem, keyDraws := s.keyDraws, keyCtr := s.keyCtr, results := s.results
                        sendPrepared := s.sendPrepared } = s

section PrepareAndSend
variable {s : State} {ts : List Turn} {A : Region} {len : Nat} {fin sent : Bool} {op : BitVec 4} {ext : BitVec 3}
  {t : Timeout} {o : Opts}

theorem exec_prepare_ok (h : Prepares s A len fin sent op ext) (hhost : txAgent s.issuer = .tx) :
    ∃ u key, Prepared s u A len fin (if sent then 0x0#4 else op) ext key ∧
      exec (.prepare ⟨A, 16⟩ len fin sent op ext) s = .next u ∧
      u.results = s.results ++ [⟨s.issuer, 0x0A,
        .ok (.frame (16 - (wireHeader fin ext (if sent then 0x0#4 else op) len key).length)
          ((wireHeader fin ext (if sent then 0x0#4 else op) len key).length + len))⟩] := by
  have hspec := prepareBuildsTheFrame ⟨A, 16⟩ len fin sent op ext s (hhost.symm ▸ h.free)
  have hlen := h.short
  have hhl := wireHeader_length_le fin ext (if sent then 0x0#4 else op) len
    (if s.cfg.maskOut then some ⟨0, 0, 0, 0⟩ else none)
  have hfits := h.fits
  rw [if_neg (fun ⟨hs, hop⟩ => hop (h.data hs)), if_neg (by simp only; omega), if_neg (not_not.2 h.opcode),
    if_neg (not_not.2 h.rsv), if_neg fun ⟨hctrl, hbad⟩ => hbad.elim (Nat.not_lt.2 (h.ctrl hctrl).1)
      (ne_of_eq_of_ne (h.ctrl hctrl).2 Bool.true_eq_false.mp), if_neg (by omega), if_neg (by simp only; omega)] at hspec
  obtain ⟨u, key, hexec, hkey, hne, -, -, hbytes, -, hresults, -, -, hkept⟩ := hspec
  have hkeylen : (wireHeader fin ext (if sent then 0x0#4 else op) len
      (if s.cfg.maskOut then some ⟨0, 0, 0, 0⟩ else none)).length =
      (wireHeader fin ext (if sent then 0x0#4 else op) len key).length :=
    wireHeader_length_isSome (by rw [hkey]; cases s.cfg.maskOut <;> rfl)
  rw [hkeylen] at hbytes hresults
  have hframe := bytesAre_read hbytes
  rw [wireFrame_length, memRead_length] at hframe
  exact ⟨u, key, ⟨hkey, hne, hframe, hkept⟩, hexec, hresults⟩

/-- R125, R127: the turn of a PREPARE that passes leaves its SENDFRAME as the next turn. -/
theorem step_prepareAndSend (hturns : s.turns = .prepareAndSend ⟨A, 16⟩ len fin sent op ext t o :: ts)
    (hpending : s.pending = []) (h : Prepares s A len fin sent op ext) :
    ∃ u key, Prepared { s with turns := ts, issuer := .host } u A len fin (if sent then 0x0#4 else op) ext key ∧
      step s = .next { u with turns := hostCommand (.sendframe
        ⟨A, 16 - (wireHeader fin ext (if sent then 0x0#4 else op) len key).length⟩
        ((wireHeader fin ext (if sent then 0x0#4 else op) len key).length + len) t o) :: ts } := by
  have h' : Prepares { s with turns := ts, issuer := .host } A len fin sent op ext := by
    obtain ⟨h1, h2, h3, h4, h5, h6, h7⟩ := h
    exact ⟨h1, h2, h3, h4, h5, h6, h7⟩
  obtain ⟨u, key, hprepared, hexec, hresults⟩ := exec_prepare_ok h' rfl
  refine ⟨u, key, hprepared, ?_⟩
  rw [step_turn hturns (commandWaits_of_free (free_of_pending hpending
    (by simp [needs, readerCommand, runner, txAgent])))]
  show State.prepareAndSend _ _ _ _ _ _ _ _ _ = _
  unfold State.prepareAndSend
  simp only [hexec, hresults, List.getLast?_concat]
  have hu : u.turns = ts := congrArg State.turns hprepared.kept
  rw [hu]
  rfl

/-- R127, R122: a PREPARE and its SENDFRAME put the frame on the wire in five turns, the permit free and the transport
open. -/
theorem steps_prepareAndSend {r : List TxAnswer}
    (hturns : s.turns = .prepareAndSend ⟨A, 16⟩ len fin sent op ext t o ::
      .pending 0 :: .pending 0 :: .pending 0 :: ts)
    (hpending : s.pending = []) (h : Prepares s A len fin sent op ext) (ht : t.wellFormed = true)
    (hlock : o.nolock = false) (hfree : s.permit = .free) (hcan : s.canSend = true) (htx : s.txIn = .ok :: r) :
    ∃ u key, steps 5 s = .next u ∧ key.isSome = s.cfg.maskOut ∧ (∀ k, key = some k → k ≠ ⟨0, 0, 0, 0⟩) ∧
      u.txOut = s.txOut ++ wireFrame fin ext (if sent then 0x0#4 else op) key (s.memRead A 16 len) ∧
      u.permit = .free ∧ u.pending = [] ∧ u.txIn = r ∧ u.turns = ts ∧ u.events = s.events ∧ u.hdr = s.hdr ∧
      u.rxs = s.rxs ∧ (A = .send → u.sendPrepared = false) := by
  obtain ⟨v, key, hv, hstep⟩ := step_prepareAndSend hturns hpending h
  have hhl := wireHeader_length_le fin ext (if sent then 0x0#4 else op) len key
  have hpend : v.pending = [] := (congrArg State.pending hv.kept).trans hpending
  have hsizes : v.sizes = s.sizes := (congrArg State.sizes hv.kept :)
  have hrace : v.readRace .tx A = false :=
    (congrArg (fun w : State => w.readRace .tx A) hv.kept).trans
      (Bool.or_eq_false_iff.1 (Bool.or_eq_false_iff.1 h.free).1).1
  have hfits := h.fits
  have hshort := h.short
  have htxOut : v.txOut = s.txOut := (congrArg State.txOut hv.kept :)
  have hframe := hv.frame
  set hl := (wireHeader fin ext (if sent then 0x0#4 else op) len key).length
  have hsent := sendframeReachesTheWire { v with turns := (hostCommand (.sendframe ⟨A, 16 - hl⟩ (hl + len) t o) ::
      .pending 0 :: .pending 0 :: .pending 0 :: ts) } ts ⟨A, 16 - hl⟩ (hl + len) t o r (by rw [hpend]; rfl)
    (Bool.and_eq_true_iff.2 ⟨decide_eq_true (by omega), ht⟩) hlock (atWork_of_pending hpend (by decide))
    (atWork_of_pending hpend (by decide)) (by simp only [State.size, hsizes] at hfits ⊢; omega) (fun _ => hrace)
    ((congrArg State.permit hv.kept).trans hfree) ((congrArg State.canSend hv.kept).trans hcan)
    ((congrArg State.txIn hv.kept).trans htx)
  refine ⟨_, key, steps_of_step hstep hsent, hv.key_isSome, hv.key_ne, ?out,
    (congrArg State.permit hv.kept).trans hfree, hpend, rfl, rfl, (congrArg State.events hv.kept :),
    (congrArg State.hdr hv.kept :), (congrArg State.rxs hv.kept :), ?ended⟩
  case out => exact congr (congrArg HAppend.hAppend htxOut) hframe
  case ended =>
    rintro rfl
    exact Bool.and_false _

end PrepareAndSend

/-! ### DATAFRAME and PINGFRAME (R126, R127) -/

/-- A PREPARE that faults is followed by no SENDFRAME (notes/assumptions/31.md). -/
theorem step_prepareAndSend_fault {s : State} {ts : List Turn} {p : Addr} {len : Nat} {fin sent : Bool} {op : BitVec 4}
    {ext : BitVec 3} {t : Timeout} {o : Opts} {c : Cause}
    (hturns : s.turns = .prepareAndSend p len fin sent op ext t o :: ts)
    (hpending : s.pending = [])
    (hf : faultsWith (.prepare p len fin sent op ext) { s with turns := ts, issuer := .host } .host 0x0A c) :
    step s = .next (ended { s with turns := ts, issuer := .host } .host 0x0A (.fault c)) := by
  rw [step_turn hturns (commandWaits_of_free (free_of_pending hpending
    (by simp [needs, readerCommand, runner, txAgent])))]
  show State.prepareAndSend _ _ _ _ _ _ _ _ _ = _
  have hexec : exec _ _ = _ := hf
  unfold State.prepareAndSend
  simp only [hexec, ended, List.getLast?_concat]

/-- R47: the host may write a TX control slice that RX does not use, with no SENDFRAME in progress. -/
theorem writeRace_outSlice {s : State} {A : Region} {g : Agent} (hA : A = .outPing ∨ A = .outClose)
    (hg : g = .host ∨ g = .tx) (hpending : s.pending = []) (hrx : s.rxOwns A = false) : s.writeRace g A = false := by
  refine writeRace_eq_false.2 ⟨hrx, ?_, ?_, ?_⟩
  · obtain rfl | rfl := hA <;> obtain rfl | rfl := hg <;> rfl
  · simp [State.sendOwns, hpending]
  · obtain rfl | rfl := hA <;> rfl

/-- R126: the payload of a PINGFRAME copied, its PREPARE with the SENDFRAME the next turn. -/
def State.pingStored (s : State) (ts : List Turn) (p : List Byte) (t : Timeout) : State :=
  { s.memWrite .outPing 16 p with
    hostResults := s.hostResults ++ [.ok .done]
    turns := .prepareAndSend ⟨.outPing, 16⟩ p.length true false 0x9 0 t
      { nolock := false, noerrors := false, ignoreclose := false } :: ts }

/-- R126: PINGFRAME copies its payload and goes on with a PREPARE and its SENDFRAME. -/
theorem step_pingFrame {s : State} {ts : List Turn} {p : List Byte} {t : Timeout}
    (hturns : s.turns = .pingFrame p t :: ts)
    (hpending : s.pending = []) (hp : p.length ≤ 125) (hsize : 125 ≤ s.sizes.nCtrlOut)
    (hrx : s.rxOwns .outPing = false) :
    step s = .next (s.pingStored ts p t) := by
  have hfault : ({ s with turns := ts } : State).hostWriteFault ⟨.outPing, 16⟩ p.length = none := by
    refine (if_neg fun h => ?_).trans (if_neg ?_)
    · exact Bool.false_ne_true ((writeRace_outSlice (s := { s with turns := ts }) (.inl rfl) (.inl rfl) hpending
        hrx).symm.trans h.2)
    · rw [Bool.not_eq_true]
      refine accessFaults_eq_false.2 (.inr ?_)
      simp only [Sizes.of, Config.prefixSize]
      omega
  rw [step_turn hturns (decide_eq_false (atWork_of_pending hpending (by decide)))]
  show Host.Outcome.next (State.pingFrame _ p t) = _
  unfold State.pingFrame State.hostWrites
  simp only [Config.ctrlMax, Config.prefixSize, hfault]
  rw [if_neg (by omega)]
  rfl

/-- Settles O52: each run is a PREPARE with its SENDFRAME. -/
theorem dataframeReachesTheWire : Obligations.DataframeReachesTheWire := by
  intro s ts t r ht hpending
  refine ⟨fun len fin sent op ext o hop hlen hshort hfree => ?_,
    fun p => ⟨fun hturns hp hsize hrx hpermit hcan htx => ?ping, fun hturns hp => ?long⟩⟩
  · have hopx : (if sent then 0x0#4 else op).toNat ∈ [0x0, 0x1, 0x2] := by
      cases sent
      · exact hop
      · exact List.mem_cons_self
    have hsupported : (if sent then 0x0#4 else op).toNat ∈ [0x0, 0x1, 0x2, 0x8, 0x9, 0xA] :=
      List.mem_append_left [0x8, 0x9, 0xA] hopx
    have hfits : 16 + len ≤ s.size .send := by simp only [State.size, Sizes.of, Config.prefixSize]; omega
    refine ⟨fun hturns hrsv hlock hpermit hcan htx => ?data, fun hturns hrsv => ?refused⟩
    case data =>
      have hprep : Prepares s .send len fin sent op ext := by
        refine ⟨hfree, fun _ => hop, hfits, hsupported, hrsv, fun hctrl => ?_, hshort⟩
        simp only [List.mem_cons, List.not_mem_nil, or_false] at hopx hctrl
        omega
      obtain ⟨u, key, hsteps, hkey, hne, hout, h1, h2, h3, h4, h5, h6, h7, hprepared⟩ :=
        steps_prepareAndSend hturns hpending hprep ht hlock hpermit hcan htx
      exact ⟨u, key, hsteps, hkey, hne, hout, h1, h2, h3, h4, h5, h6, h7, hprepared rfl⟩
    case refused =>
      have hspec := prepareBuildsTheFrame ⟨.send, 16⟩ len fin sent op ext { s with turns := ts, issuer := .host } hfree
      rw [if_neg (fun h => h.2 hop), if_neg (Nat.not_lt.2 hfits), if_neg (not_not.2 hsupported), if_pos hrsv] at hspec
      exact step_prepareAndSend_fault hturns hpending hspec
  case ping =>
    have hprep : Prepares (s.pingStored ([.pending 0, .pending 0, .pending 0] ++ ts) p t) .outPing p.length true false
        0x9 0 := by
      refine ⟨writeRace_outSlice (s := s.pingStored _ p t) (.inl rfl) (.inr rfl) hpending hrx,
        fun h => absurd h Bool.false_ne_true, ?_, by decide, BitVec.zero_and, fun _ => ⟨hp, rfl⟩, by omega⟩
      show _ ≤ Config.prefixSize + s.sizes.nCtrlOut
      simp only [Config.prefixSize]
      omega
    obtain ⟨u, key, hsteps, hkey, hne, hout, h1, h2, h3, h4, h5, h6, h7, -⟩ :=
      steps_prepareAndSend (s := s.pingStored _ p t) rfl hpending hprep ht rfl hpermit hcan htx
    have hread := memRead_memWrite s .outPing 16 p
    refine ⟨u, key, steps_of_step (step_pingFrame hturns hpending hp hsize hrx) hsteps, hkey, hne, ?_, h1, h2, h3, h4,
      h5, h6, h7⟩
    refine hout.trans ?_
    show _ ++ wireFrame _ _ _ _ ((s.memWrite .outPing 16 p).memRead .outPing 16 p.length) = _
    rw [hread]
    rfl
  case long =>
    rw [step_turn hturns (decide_eq_false (atWork_of_pending hpending (by decide)))]
    exact congrArg _ (if_pos hp)

end Sys2Proof.Machine
end

section
/-! Proofs of the family 'other': CLOSEFRAME in one run (42_dispatch.md R125). -/
namespace Sys2Proof.Machine

open Sys2Proof

section CloseFrame
variable {s : State} {ts : List Turn}

theorem step_acquire {t : Timeout} (hturns : s.turns = hostCommand (.acquire t) :: ts) (ht : t.wellFormed = true)
    (hpending : s.pending = []) (hfree : s.permit = .free) :
    step s = .next { ended { s with turns := ts, issuer := .host } .host 0x0F (.ok (.bool true)) with
      permit := .host } := by
  have hspec := acquireTakesThePermit t { s with turns := ts, issuer := .host }
  rw [if_neg (by simp only [hfree]; decide), if_pos hfree] at hspec
  rw [step_hostCommand hturns ⟨_, rfl⟩ ht (free_of_pending hpending (by simp [needs, readerCommand, runner])), hspec]

/-- R125: the close code is written in `OUT_CLOSE`, behind the room for its header. -/
theorem step_closeenc {c : BitVec 16} (hturns : s.turns = hostCommand (.closeenc c ⟨.outClose, 16⟩) :: ts)
    (hpending : s.pending = []) (hrx : s.rxOwns .outClose = false) (hsize : 125 ≤ s.sizes.nCtrlOut) :
    step s = .next (ended (State.memWrite { s with turns := ts, issuer := .host } .outClose 16
      [c.extractLsb' 8 8, c.extractLsb' 0 8]) .host 0x0C (.ok (.nat 2))) := by
  rw [step_hostCommand hturns ⟨_, rfl⟩ rfl (free_of_pending hpending (by simp [needs, readerCommand, runner])),
    exec_closeenc (s := { s with turns := ts, issuer := .host })
      (writeRace_outSlice (s := { s with turns := ts, issuer := .host }) (A := .outClose) (.inr rfl) (.inl rfl) hpending
        hrx) (by simp only [State.size, Sizes.of, Config.prefixSize]; omega)]
  rfl

/-- R122: with NOLOCK the SENDFRAME of the permit's holder goes on at once. -/
theorem step_sendframe_nolock {a : Addr} {n : Nat} {t : Timeout} {o : Opts}
    (hturns : s.turns = hostCommand (.sendframe a n t o) :: ts) (hw : (Instr.sendframe a n t o).wellFormed = true)
    (hpending : s.pending = []) (hlock : o.nolock = true) (hheld : s.permit = .host) (hfits : a.off + n ≤ s.size a.region)
    (hrace : s.readRace .tx a.region = false) :
    step s = .next { s with turns := ts, issuer := .host, pending := [.send
      { issuer := .host, addr := a, n := n, timeout := t, opts := o, stage := .check }] } := by
  have hspec := sendframeIsIssued a n t o { s with turns := ts, issuer := .host } fun _ => hrace
  rw [if_neg (Nat.not_lt.2 hfits), if_pos hlock, if_pos (by exact hheld)] at hspec
  rw [step_hostCommand hturns ⟨_, rfl⟩ hw
    (free_of_pending hpending (by simp [needs, readerCommand, runner, txAgent])), hspec]
  simp only [hpending, List.nil_append]

theorem step_release (hturns : s.turns = hostCommand .release :: ts) (hpending : s.pending = [])
    (hheld : s.permit = .host) :
    step s = .next { ended { s with turns := ts, issuer := .host } .host 0x10 (.ok .done) with permit := .free } := by
  rw [step_hostCommand hturns ⟨_, rfl⟩ rfl (free_of_pending hpending (by simp [needs, readerCommand, runner])),
    exec_release (s := { s with turns := ts, issuer := .host }) hheld]
  rfl

end CloseFrame

/-- R125: CLOSEFRAME after its first two steps, the permit the host's and the code in `OUT_CLOSE`. -/
def State.closeStored (s : State) (ts : List Turn) (c : BitVec 16) : State :=
  { State.memWrite { s with issuer := .host } .outClose 16 [c.extractLsb' 8 8, c.extractLsb' 0 8] with
    turns := ts, permit := .host
    results := s.results ++ [⟨.host, 0x0F, .ok (.bool true)⟩] ++ [⟨.host, 0x0C, .ok (.nat 2)⟩] }

theorem steps_closeStored {s : State} {ts : List Turn} {c : BitVec 16}
    (hturns : s.turns = hostCommand (.acquire .inf) :: hostCommand (.closeenc c ⟨.outClose, 16⟩) :: ts)
    (hpending : s.pending = []) (hrx : s.rxOwns .outClose = false) (hfree : s.permit = .free)
    (hsize : 125 ≤ s.sizes.nCtrlOut) : steps 2 s = .next (s.closeStored ts c) := by
  refine steps_of_step (step_acquire hturns rfl hpending hfree) ?_
  exact steps_of_step (step_closeenc rfl hpending hrx hsize) rfl

theorem memRead_closeStored (s : State) (ts : List Turn) (c : BitVec 16) :
    (s.closeStored ts c).memRead .outClose 16 2 = [c.extractLsb' 8 8, c.extractLsb' 0 8] :=
  memRead_memWrite s .outClose 16 [c.extractLsb' 8 8, c.extractLsb' 0 8]

theorem prepares_close {s : State} {ts : List Turn} {c : BitVec 16} (hpending : s.pending = [])
    (hrx : s.rxOwns .outClose = false) (hsize : 125 ≤ s.sizes.nCtrlOut) :
    Prepares (s.closeStored ts c) .outClose 2 true false 0x8 0 := by
  refine ⟨writeRace_outSlice (s := s.closeStored ts c) (.inr rfl) (.inr rfl) hpending hrx,
    fun h => absurd h Bool.false_ne_true, ?_, by decide, BitVec.zero_and, fun _ => ⟨by decide, rfl⟩, by decide⟩
  show _ ≤ Config.prefixSize + s.sizes.nCtrlOut
  simp only [Config.prefixSize]
  omega

/-- R125: the SENDFRAME of CLOSEFRAME, with NOLOCK and IGNORECLOSE, runs before the RELEASE that waits for it. -/
theorem steps_sendAndRelease {s : State} {ts : List Turn} {a : Addr} {n : Nat} {t : Timeout} {o : Opts}
    {r : List TxAnswer} (hturns : s.turns = hostCommand (.sendframe a n t o) :: hostCommand .release ::
      .pending 0 :: .pending 0 :: .pending 0 :: ts)
    (hw : (Instr.sendframe a n t o).wellFormed = true) (hpending : s.pending = []) (hlock : o.nolock = true)
    (hignore : o.ignoreclose = true) (hheld : s.permit = .host) (hfits : a.off + n ≤ s.size a.region)
    (hrace : s.readRace .tx a.region = false) (htx : s.txIn = .ok :: r) :
    steps 5 s = .next { s with turns := ts, issuer := .host, permit := .free, pending := [], txIn := r
                               txOut := s.txOut ++ s.memRead a.region a.off n
                               results := s.results ++ [⟨.host, 0x0B, .ok (.bool true)⟩] ++ [⟨.host, 0x10, .ok .done⟩]
                               sendPrepared := s.sendPrepared && decide (a.region ≠ .send) } := by
  refine steps_of_step (step_sendframe_nolock hturns hw hpending hlock hheld hfits hrace) ?_
  refine Eq.trans (steps_add 3 1 _ _ (steps_sent heldBack_release rfl rfl rfl rfl (.inl hignore) htx hheld)) ?_
  exact steps_of_step (step_release rfl rfl (by simp [hlock, hheld])) rfl

/-- Settles O51: ACQUIRE, CLOSEENC, PREPARE, then SENDFRAME and RELEASE. -/
theorem closeframeReachesTheWire : Obligations.CloseframeReachesTheWire := by
  intro s ts c r hturns hpending hrx hfree hsize htx
  have hstored := steps_closeStored hturns hpending hrx hfree hsize
  obtain ⟨v, key, hv, hprepare⟩ := step_prepareAndSend (s := s.closeStored _ c) rfl hpending
    (prepares_close hpending hrx hsize)
  have hhl := wireHeader_length_le true 0 0x8 2 key
  have hframe := hv.frame
  have hpend : v.pending = [] := (congrArg State.pending hv.kept).trans hpending
  have hsizes : v.sizes = s.sizes := (congrArg State.sizes hv.kept :)
  have htxOut : v.txOut = s.txOut := (congrArg State.txOut hv.kept :)
  have hrace : v.readRace .tx .outClose = false :=
    (congrArg (fun w : State => w.readRace .tx .outClose) hv.kept).trans (Bool.or_eq_false_iff.2 ⟨hrx, rfl⟩)
  simp only [Bool.false_eq_true, if_false] at hprepare hframe
  set hl := (wireHeader true 0 0x8 2 key).length
  have hsent := steps_sendAndRelease (s := { v with turns := (hostCommand (.sendframe ⟨.outClose, 16 - hl⟩ (hl + 2) .zero
      { nolock := true, noerrors := true, ignoreclose := true }) :: hostCommand .release ::
      .pending 0 :: .pending 0 :: .pending 0 :: ts) }) rfl (Bool.and_eq_true_iff.2 ⟨decide_eq_true (by omega), rfl⟩) hpend
    rfl rfl (congrArg State.permit hv.kept :) (by simp only [State.size, Sizes.of, hsizes, Config.prefixSize]; omega)
    hrace ((congrArg State.txIn hv.kept).trans htx)
  refine ⟨_, key, (steps_add 2 6 _ _ hstored).trans (steps_of_step hprepare hsent), hv.key_isSome, hv.key_ne, ?out, rfl,
    rfl, rfl, rfl, (congrArg State.events hv.kept :), (congrArg State.cfg hv.kept :), (congrArg State.hdr hv.kept :),
    (congrArg State.rxs hv.kept :)⟩
  exact congr (congrArg HAppend.hAppend htxOut)
    (hframe.trans (congrArg (wireFrame true 0 0x8 key) (memRead_closeStored s _ c)))

end Sys2Proof.Machine
end
